-- ==== Sys2Proof/Word.lean ====
section
/-! DEFINITION. The number types of the SC-416 and their plainest arithmetic. -/

namespace Sys2Proof

/-- One byte of a link message or of the frame store. -/
abbrev Byte := BitVec 8

/-- A word of the frame store: 64 data bits, two pixels (R26). -/
abbrev Word := BitVec 64

/-- A pixel: one 32-bit number, red in its least significant byte (R187). -/
abbrev Pixel := BitVec 32

/-- A check value: the sum modulo 2^32 of pixel values (R50). -/
abbrev Check := BitVec 32

/-- A page handle, 0 to 255 (R1). -/
abbrev Handle := BitVec 8

/-- A set of load or page cells, bit `c` for cell `c` (R191). -/
abbrev CellSet := BitVec 16

/-- A set of tile numbers, bit `t` for tile `t` (R84, R103). -/
abbrev TileSet := BitVec 16

/-- A set of class values, bit `k` for class value `k` (R190). -/
abbrev ClassSet := BitVec 4

/-- A set of the fifteen event kinds, bits as R190 numbers them. -/
abbrev EventSet := BitVec 15

/-- The bits of a stored word (64 data, 8 check) that are in error (R35): bit `i` set when bit `i` of the
72 differs from the word last written; the data bits are 0 to 63, the check bits 64 to 71. -/
abbrev ErrorMask := BitVec 72

/-- A client port, CP0 to CP3. -/
abbrev Port := Fin 4

/-- A tile link and its tile output unit, TOU0 to TOU15. -/
abbrev Tile := Fin 16

/-- A zone, 0 to 3. -/
abbrev ZoneId := Fin 4

/-- A gate, 0 to 7. -/
abbrev GateId := Fin 8

/-- A load channel, 0 to 3. -/
abbrev ChanId := Fin 4

/-- A pattern page, handles 0 to 3: BLACK, WHITE, BARS, GRID (R3). -/
abbrev PatternId := Fin 4

/-- The largest frame number, where the 48-bit count stops (R97). -/
def maxFrame : Nat := 2 ^ 48 - 1

/-- The number of words of a tile image (R26). -/
def wordsPerImage : Nat := 65536

/-- The number of lines of a tile image, and of words of a line (R26). -/
def wordsPerLine : Nat := 256

/-- Every client port, in order. -/
def allPorts : List Port := [0, 1, 2, 3]

/-- Every zone, in order. -/
def allZones : List ZoneId := [0, 1, 2, 3]

/-- Every load channel, in order. -/
def allChans : List ChanId := [0, 1, 2, 3]

/-- Every gate, in order. -/
def allGates : List GateId := [0, 1, 2, 3, 4, 5, 6, 7]

/-- Every tile, in order. -/
def allTiles : List Tile := [0, 1, 2, 3, 4, 5, 6, 7, 8, 9, 10, 11, 12, 13, 14, 15]

/-- The lower pixel of a word: pixel 2w of its line (R26). -/
def Word.lowPixel (w : Word) : Pixel := w.extractLsb' 0 32

/-- The upper pixel of a word: pixel 2w + 1 of its line (R26). -/
def Word.highPixel (w : Word) : Pixel := w.extractLsb' 32 32

/-- The word made of two pixels (R26). -/
def Word.ofPixels (low high : Pixel) : Word := high ++ low

end Sys2Proof
end

