-- ==== Sys2Proof/Syntax.lean ====
section
/-! DEFINITION. The commands of the SC-416: one constructor for each row of the table of operations and events. -/

namespace Sys2Proof

/-- How far a request gets in the step (R172): taken at its block in the step in which it arrives, or only
passed on by its port, or, having been passed on in an earlier step, taken at its block. Log entry 3. -/
inductive Stage
  | whole
  | pass
  | take
  deriving DecidableEq, Repr

/-- What every request carries beside its own fields: the port it arrived at and its tag (R173). -/
structure Hdr where
  port  : Port
  tag   : Byte
  stage : Stage
  deriving DecidableEq, Repr

/-- A placement record as a request carries it: four bytes (R189). -/
structure RawPlacement where
  page    : Handle
  /-- column offset in the low four bits, row offset in the high four -/
  offsets : Byte
  mode    : Byte
  hold    : Byte
  deriving DecidableEq, Repr

/-- Bit errors that have come into words of the DRAM before a transfer reads them: the position of the word
among the words of the transfer's line, and the bits that have changed. Log entry 2. -/
abbrev BitErrors := List (Nat × ErrorMask)

/-- A command: a request of a client port, a report of a link, a message of a panel, the expiry of a timer,
the completion of a transfer, or the taking of an internal message. The fields of a request are the bytes of
its frame (R189), so that every value a client computer can send is a command. -/
inductive Instr
  /-- POWER_ON_RESET (R186), with the strap pins of each port, the second strap as the upper bit (R170). -/
  | powerOnReset (straps : Vector (BitVec 2) 4)
  /-- BAD_REQUEST (R188): a request frame without the correct form. -/
  | badRequest (port : Port) (frame : List Byte)
  | configure (h : Hdr) (rate : Byte) (slots : BitVec 16) (cols rows : Byte) (positions : Vector Byte 16)
      (presence : Byte) (start : BitVec 48)
  | resetWindow (h : Hdr)
  | setEpoch (h : Hdr) (frame : BitVec 48)
  | darken (h : Hdr) (presence : Byte) (frame : BitVec 48)
  | wake (h : Hdr) (presence : Byte) (frame : BitVec 48)
  | queryWindow (h : Hdr)
  | createPage (h : Hdr) (kind width height cells rate : Byte)
  | deletePage (h : Hdr) (page : Handle)
  | purgePages (h : Hdr) (owner unsharedOnly : Byte)
  | setPageRights (h : Hdr) (page : Handle) (shared showClasses writeClasses : Byte)
  | queryPage (h : Hdr) (page : Handle)
  | loadBegin (h : Hdr) (page : Handle) (mode first count : Byte) (check : Check)
  /-- DATA (R54); its word count is the number of its words, which the form of the request ensures (R188). -/
  | data (h : Hdr) (chan presence : Byte) (check : Check) (words : List Word)
  | loadAbort (h : Hdr) (chan : Byte)
  | queryChannel (h : Hdr) (chan : Byte)
  /-- PATCH (R70); its word count is the number of its data words, which the form of the request ensures. -/
  | patch (h : Hdr) (page : Handle) (cell col row line first : Byte) (plane stipple : BitVec 32)
      (words : List Word)
  | copy (h : Hdr) (source : Handle) (sourceCell : Byte) (dest : Handle) (destCell : Byte)
  | cancelEdit (h : Hdr)
  | setZone (h : Hdr) (zone presence col row cols rows : Byte)
  | claimZone (h : Hdr) (zone : Byte)
  | releaseZone (h : Hdr) (zone : Byte)
  | handOver (h : Hdr) (zone port : Byte)
  | seizeZone (h : Hdr) (zone : Byte)
  | queryZone (h : Hdr) (zone : Byte)
  | queueCut (h : Hdr) (zone : Byte) (target : BitVec 48) (label : BitVec 16) (slip : Byte)
      (scene : List RawPlacement)
  | withdrawCut (h : Hdr) (zone : Byte) (target : BitVec 48)
  | defineGate (h : Hdr) (gate zone level minClass : Byte) (duration : BitVec 16) (scene : List RawPlacement)
  | clearGate (h : Hdr) (gate : Byte)
  | invokeGate (h : Hdr) (gate : Byte)
  | returnGate (h : Hdr) (zone : Byte)
  | queryGate (h : Hdr) (gate : Byte)
  | retrainTile (h : Hdr) (tile : Byte)
  | queryTile (h : Hdr) (tile : Byte)
  | getEvents (h : Hdr)
  | setEventMask (h : Hdr) (mask : BitVec 16)
  | queryStore (h : Hdr)
  | readFault (h : Hdr)
  | clientLinkUp (port : Port)
  | portLoss (port : Port)
  | tileLinkUp (tile : Tile)
  | tileLinkDown (tile : Tile)
  | frameAck (tile : Tile) (frame : BitVec 48)
  | frameNak (tile : Tile) (frame : BitVec 48)
  | trainEcho (tile : Tile) (attempt pattern : Byte) (check : Check)
  /-- UNKNOWN_TILE_MESSAGE (R192): a message of a panel of unknown kind or wrong length. -/
  | unknownTileMessage (tile : Tile) (message : List Byte)
  | frameBoundary
  | refreshIntervalExpiry
  | attemptTimerExpiry (tile : Tile)
  | scanComplete (errors : BitErrors)
  | loadComplete
  | patchEditComplete (errors : BitErrors)
  | copyLineComplete (errors : BitErrors)
  | scrubComplete (errors : ErrorMask)
  | refreshComplete
  | selfRefreshExit
  | entryCompletion
  | exitCompletion
  | deliveryReport (tile : Tile)
  | stateReport (tile : Tile)
  | fetchOrder (tile : Tile)
  | verdict (tile : Tile)
  | powerOnOrder (tile : Tile)
  | powerOffOrder (tile : Tile)
  | latchedCellAnnouncement
  deriving DecidableEq, Repr

end Sys2Proof
end

