-- ==== Sys2Proof/Decode.lean ====
section
/-! DEFINITION. From bytes to commands: the words of the opcode table (which gives none), the request frames of
a client link (R187 to R190) and the messages of a panel (R192), and the request frame of a command. -/

namespace Sys2Proof

/-- The opcode table gives the commands of this block no bits, so no word spells one. -/
def decodeTableWord (_nbits _w : Nat) : Option Instr := none

/-! ## Numbers on a link, least significant byte first (R187) -/

/-- The number that bytes spell, least significant byte first (R187). -/
def leNat : List Byte → Nat
  | [] => 0
  | b :: bs => b.toNat + 256 * leNat bs

/-- The `k` bytes of a number, least significant byte first (R187). -/
def leBytes : Nat → Nat → List Byte
  | 0, _ => []
  | k + 1, n => BitVec.ofNat 8 n :: leBytes k (n / 256)

/-- The byte at an offset of the fields. -/
def byteAt (f : List Byte) (o : Nat) : Byte := f.getD o 0

/-- The `k`-byte number at an offset of the fields. -/
def numAt (f : List Byte) (o k : Nat) : Nat := leNat ((f.drop o).take k)

/-- A 64-bit word at the front of some bytes and the bytes after it, as many times as asked (R187). -/
def wordsOf : Nat → List Byte → List Word
  | 0, _ => []
  | n + 1, bs => BitVec.ofNat 64 (leNat (bs.take 8)) :: wordsOf n (bs.drop 8)

/-- The bytes of words: pixel 2w before pixel 2w + 1, each red first (R187). -/
def wordBytes : List Word → List Byte
  | [] => []
  | w :: ws => leBytes 8 w.toNat ++ wordBytes ws

/-- Placement records of four bytes (R189). -/
def placementsOf : Nat → List Byte → List RawPlacement
  | 0, _ => []
  | n + 1, bs =>
    { page := byteAt bs 0, offsets := byteAt bs 1, mode := byteAt bs 2, hold := byteAt bs 3 } ::
      placementsOf n (bs.drop 4)

/-- The bytes of placement records (R189). -/
def placementBytes : List RawPlacement → List Byte
  | [] => []
  | p :: ps => [p.page, p.offsets, p.mode, p.hold] ++ placementBytes ps

/-! ## The form of a request (R188) -/

/-- The number of field bytes a request code calls for, which for some codes depends on a count field
(R188); none for a code that is not in the table. -/
def fieldLength (code : Nat) (f : List Byte) : Option Nat :=
  match code with
  | 1 => some 28
  | 2 => some 0
  | 3 => some 6
  | 4 => some 7
  | 5 => some 7
  | 6 => some 0
  | 16 => some 5
  | 17 => some 1
  | 18 => some 2
  | 19 => some 4
  | 20 => some 1
  | 32 => some 8
  | 33 => some (8 + 8 * numAt f 1 2)
  | 34 => some 1
  | 35 => some 1
  | 48 => some (16 + 8 * numAt f 6 2)
  | 49 => some 4
  | 50 => some 0
  | 64 => some 6
  | 65 => some 1
  | 66 => some 1
  | 67 => some 2
  | 68 => some 1
  | 69 => some 1
  | 72 => some (11 + 4 * numAt f 10 1)
  | 73 => some 7
  | 80 => some (7 + 4 * numAt f 6 1)
  | 81 => some 1
  | 82 => some 1
  | 83 => some 1
  | 84 => some 1
  | 96 => some 1
  | 97 => some 1
  | 112 => some 0
  | 113 => some 0
  | 120 => some 0
  | 121 => some 2
  | _ => none

/-- A request frame has the correct form (R188): a header of four bytes, a field length that counts the bytes
after the header, a code of the table, and the length that the code calls for. -/
def hasForm (frame : List Byte) : Bool :=
  match frame with
  | code :: _tag :: l0 :: l1 :: f =>
    leNat [l0, l1] == f.length && fieldLength code.toNat f == some f.length
  | _ => false

/-- The code and tag that a BAD_REQUEST reply carries: as received, or 0 where the frame is too short to hold
them (R188). -/
def codeAndTag (frame : List Byte) : Byte × Byte :=
  match frame with
  | code :: tag :: _ => (code, tag)
  | _ => (0, 0)

/-! ## Requests (R189) -/

/-- The request that a code and its field bytes spell; the fields have the length the code calls for. -/
def requestOf (h : Hdr) (code : Nat) (f : List Byte) : Option Instr :=
  match code with
  | 1 => some (.configure h (byteAt f 0) (BitVec.ofNat 16 (numAt f 1 2)) (byteAt f 3) (byteAt f 4)
      (Vector.ofFn fun i : Fin 16 => byteAt f (5 + i.val)) (byteAt f 21) (BitVec.ofNat 48 (numAt f 22 6)))
  | 2 => some (.resetWindow h)
  | 3 => some (.setEpoch h (BitVec.ofNat 48 (numAt f 0 6)))
  | 4 => some (.darken h (byteAt f 0) (BitVec.ofNat 48 (numAt f 1 6)))
  | 5 => some (.wake h (byteAt f 0) (BitVec.ofNat 48 (numAt f 1 6)))
  | 6 => some (.queryWindow h)
  | 16 => some (.createPage h (byteAt f 0) (byteAt f 1) (byteAt f 2) (byteAt f 3) (byteAt f 4))
  | 17 => some (.deletePage h (byteAt f 0))
  | 18 => some (.purgePages h (byteAt f 0) (byteAt f 1))
  | 19 => some (.setPageRights h (byteAt f 0) (byteAt f 1) (byteAt f 2) (byteAt f 3))
  | 20 => some (.queryPage h (byteAt f 0))
  | 32 => some (.loadBegin h (byteAt f 0) (byteAt f 1) (byteAt f 2) (byteAt f 3)
      (BitVec.ofNat 32 (numAt f 4 4)))
  | 33 => some (.data h (byteAt f 0) (byteAt f 3) (BitVec.ofNat 32 (numAt f 4 4))
      (wordsOf (numAt f 1 2) (f.drop 8)))
  | 34 => some (.loadAbort h (byteAt f 0))
  | 35 => some (.queryChannel h (byteAt f 0))
  | 48 => some (.patch h (byteAt f 0) (byteAt f 1) (byteAt f 2) (byteAt f 3) (byteAt f 4) (byteAt f 5)
      (BitVec.ofNat 32 (numAt f 8 4)) (BitVec.ofNat 32 (numAt f 12 4)) (wordsOf (numAt f 6 2) (f.drop 16)))
  | 49 => some (.copy h (byteAt f 0) (byteAt f 1) (byteAt f 2) (byteAt f 3))
  | 50 => some (.cancelEdit h)
  | 64 => some (.setZone h (byteAt f 0) (byteAt f 1) (byteAt f 2) (byteAt f 3) (byteAt f 4) (byteAt f 5))
  | 65 => some (.claimZone h (byteAt f 0))
  | 66 => some (.releaseZone h (byteAt f 0))
  | 67 => some (.handOver h (byteAt f 0) (byteAt f 1))
  | 68 => some (.seizeZone h (byteAt f 0))
  | 69 => some (.queryZone h (byteAt f 0))
  | 72 => some (.queueCut h (byteAt f 0) (BitVec.ofNat 48 (numAt f 1 6)) (BitVec.ofNat 16 (numAt f 7 2))
      (byteAt f 9) (placementsOf (numAt f 10 1) (f.drop 11)))
  | 73 => some (.withdrawCut h (byteAt f 0) (BitVec.ofNat 48 (numAt f 1 6)))
  | 80 => some (.defineGate h (byteAt f 0) (byteAt f 1) (byteAt f 2) (byteAt f 3)
      (BitVec.ofNat 16 (numAt f 4 2)) (placementsOf (numAt f 6 1) (f.drop 7)))
  | 81 => some (.clearGate h (byteAt f 0))
  | 82 => some (.invokeGate h (byteAt f 0))
  | 83 => some (.returnGate h (byteAt f 0))
  | 84 => some (.queryGate h (byteAt f 0))
  | 96 => some (.retrainTile h (byteAt f 0))
  | 97 => some (.queryTile h (byteAt f 0))
  | 112 => some (.queryStore h)
  | 113 => some (.readFault h)
  | 120 => some (.getEvents h)
  | 121 => some (.setEventMask h (BitVec.ofNat 16 (numAt f 0 2)))
  | _ => none

/-- The command that a frame arriving at a client port is: the request it spells, or BAD_REQUEST where it does
not have the correct form (R173, R188). -/
def decodeFrame (p : Port) (frame : List Byte) : Instr :=
  match frame with
  | code :: tag :: _ :: _ :: f =>
    if hasForm frame then
      (requestOf { port := p, tag := tag, stage := .whole } code.toNat f).getD (.badRequest p frame)
    else .badRequest p frame
  | _ => .badRequest p frame

/-- A request's header, code and field bytes (R188, R189); none for a command that is no request. -/
def Instr.request : Instr → Option (Hdr × Byte × List Byte)
  | .configure h rate slots cols rows pos pres start =>
    some (h, 1, [rate] ++ leBytes 2 slots.toNat ++ [cols, rows] ++ pos.toList ++ [pres] ++ leBytes 6 start.toNat)
  | .resetWindow h => some (h, 2, [])
  | .setEpoch h n => some (h, 3, leBytes 6 n.toNat)
  | .darken h pres n => some (h, 4, [pres] ++ leBytes 6 n.toNat)
  | .wake h pres n => some (h, 5, [pres] ++ leBytes 6 n.toNat)
  | .queryWindow h => some (h, 6, [])
  | .createPage h k w ht c r => some (h, 16, [k, w, ht, c, r])
  | .deletePage h pg => some (h, 17, [pg])
  | .purgePages h o u => some (h, 18, [o, u])
  | .setPageRights h pg s a b => some (h, 19, [pg, s, a, b])
  | .queryPage h pg => some (h, 20, [pg])
  | .loadBegin h pg m fc n ck => some (h, 32, [pg, m, fc, n] ++ leBytes 4 ck.toNat)
  | .data h c pres ck ws =>
    some (h, 33, [c] ++ leBytes 2 ws.length ++ [pres] ++ leBytes 4 ck.toNat ++ wordBytes ws)
  | .loadAbort h c => some (h, 34, [c])
  | .queryChannel h c => some (h, 35, [c])
  | .patch h pg c x y l fw pl st ws =>
    some (h, 48, [pg, c, x, y, l, fw] ++ leBytes 2 ws.length ++ leBytes 4 pl.toNat ++ leBytes 4 st.toNat ++
      wordBytes ws)
  | .copy h s sc d dc => some (h, 49, [s, sc, d, dc])
  | .cancelEdit h => some (h, 50, [])
  | .setZone h z pres c r cs rs => some (h, 64, [z, pres, c, r, cs, rs])
  | .claimZone h z => some (h, 65, [z])
  | .releaseZone h z => some (h, 66, [z])
  | .handOver h z p => some (h, 67, [z, p])
  | .seizeZone h z => some (h, 68, [z])
  | .queryZone h z => some (h, 69, [z])
  | .queueCut h z n l s sc =>
    some (h, 72, [z] ++ leBytes 6 n.toNat ++ leBytes 2 l.toNat ++ [s, BitVec.ofNat 8 sc.length] ++
      placementBytes sc)
  | .withdrawCut h z n => some (h, 73, [z] ++ leBytes 6 n.toNat)
  | .defineGate h g z l m d sc =>
    some (h, 80, [g, z, l, m] ++ leBytes 2 d.toNat ++ [BitVec.ofNat 8 sc.length] ++ placementBytes sc)
  | .clearGate h g => some (h, 81, [g])
  | .invokeGate h g => some (h, 82, [g])
  | .returnGate h z => some (h, 83, [z])
  | .queryGate h g => some (h, 84, [g])
  | .retrainTile h t => some (h, 96, [t])
  | .queryTile h t => some (h, 97, [t])
  | .getEvents h => some (h, 120, [])
  | .setEventMask h m => some (h, 121, leBytes 2 m.toNat)
  | .queryStore h => some (h, 112, [])
  | .readFault h => some (h, 113, [])
  | .powerOnReset _ => none
  | .badRequest _ _ => none
  | .clientLinkUp _ => none
  | .portLoss _ => none
  | .tileLinkUp _ => none
  | .tileLinkDown _ => none
  | .frameAck _ _ => none
  | .frameNak _ _ => none
  | .trainEcho _ _ _ _ => none
  | .unknownTileMessage _ _ => none
  | .frameBoundary => none
  | .refreshIntervalExpiry => none
  | .attemptTimerExpiry _ => none
  | .scanComplete _ => none
  | .loadComplete => none
  | .patchEditComplete _ => none
  | .copyLineComplete _ => none
  | .scrubComplete _ => none
  | .refreshComplete => none
  | .selfRefreshExit => none
  | .entryCompletion => none
  | .exitCompletion => none
  | .deliveryReport _ => none
  | .stateReport _ => none
  | .fetchOrder _ => none
  | .verdict _ => none
  | .powerOnOrder _ => none
  | .powerOffOrder _ => none
  | .latchedCellAnnouncement => none

/-- The frame of a request: code, tag, field length and fields (R188). -/
def encodeFrame (i : Instr) : Option (List Byte) :=
  match i.request with
  | some (h, code, f) => some ([code, h.tag] ++ leBytes 2 f.length ++ f)
  | none => none

/-! ## Messages of a panel (R192) -/

/-- The command that a message of a panel is; a message of unknown kind or wrong length is
UNKNOWN_TILE_MESSAGE (R192). -/
def decodePanelMessage (t : Tile) (message : List Byte) : Instr :=
  match message with
  | kind :: f =>
    match kind.toNat, f.length with
    | 9, 6 => .frameAck t (BitVec.ofNat 48 (leNat f))
    | 10, 6 => .frameNak t (BitVec.ofNat 48 (leNat f))
    | 11, 6 => .trainEcho t (byteAt f 0) (byteAt f 1) (BitVec.ofNat 32 (numAt f 2 4))
    | _, _ => .unknownTileMessage t message
  | [] => .unknownTileMessage t message

end Sys2Proof
end

