-- ==== Sys2Proof/Config.lean ====
section
/-! DEFINITION. What the spec leaves open: free values without a body, applied to what they depend on. -/

namespace Sys2Proof

/-- The classification of a word read from the frame store (R35). -/
inductive ReadClass
  | clean
  | corrected
  | uncorrectable
  deriving DecidableEq, Repr, Inhabited

/-- FREE VALUE (R35): the class of a word whose error lies beyond those the code is built to correct or
detect, as a function of the data bits read and of the bits in error. Log entry 4. -/
opaque Config.beyondClass : Word → ErrorMask → ReadClass

/-- FREE VALUE (R35): the data that the code gives for such a word when its class is CORRECTED; they may
differ from the data written. Log entry 4. -/
opaque Config.beyondData : Word → ErrorMask → Word

/-- The numbers of a query reply whose widths in bytes the spec does not give (R191). -/
inductive OpenWidth
  | correctedCount
  | populatedSlots
  | scrubSlot
  | loadWords
  | loadLines
  | bufferFill
  | remainingFrames
  | duration
  | tileLines
  deriving DecidableEq, Repr

/-- FREE VALUE (R191): how many bytes such a number takes in a query reply. Log entry 5. -/
opaque Config.openWidth : OpenWidth → Nat

/-- FREE VALUE (R44, R191): the byte that stands for a refresh debt, which may be negative, in a
QUERY_STORE reply. Log entry 5. -/
opaque Config.debtByte : Int → Byte

end Sys2Proof
end

