-- ==== Sys2Proof/Machine/State.lean ====
section
/-! DEFINITION. The state of the SC-416: the client ports, the page directory, the frame store, the load engine,
the edit unit, the scene engine, the tile output units, the messages under way between the blocks, what the part
has sent, and the commands that wait. -/

namespace Sys2Proof.Machine

/-! ## Client ports -/

/-- The class of a client port (R170), values 0 to 3. -/
inductive Cls
  | monitor
  | overlay
  | playout
  | operator
  deriving DecidableEq, Repr

/-- The class value by which classes are compared (R170). -/
def Cls.value : Cls → Nat
  | .monitor => 0
  | .overlay => 1
  | .playout => 2
  | .operator => 3

/-- The fifteen event kinds (R180), in the order of their bits (R190). -/
inductive Event
  | loadDone
  | loadFailed
  | cellFailed
  | cutShown
  | cutSkipped
  | cutAbandoned
  | cutUnseen
  | gateShown
  | gateEnded
  | gateAbandoned
  | zoneLost
  | pageDamaged
  | fault
  | tileChange
  | windowChange
  deriving DecidableEq, Repr

/-- What a client port holds (R171, R180, R181, R172). Its attention line is computed from the set and the
mask (R182). -/
structure PortRec where
  /-- link state: UP or DOWN -/
  up : Bool
  cls : Cls
  /-- pending event set -/
  events : EventSet
  /-- event mask -/
  mask : EventSet
  /-- the request passed on and not yet taken at its block -/
  transit : Option Instr
  /-- the requests of the link that have arrived behind it and are not yet examined, oldest first (log entry 28) -/
  waiting : List Instr
  deriving DecidableEq, Repr

/-! ## Page directory -/

/-- The state of a page that is not FREE (R4). -/
inductive PageState
  | incomplete
  | loading
  | ready
  | damaged
  | live
  deriving DecidableEq, Repr

/-- STILL or LIVE (R4). -/
inductive PageKind
  | still
  | live
  deriving DecidableEq, Repr

/-- The role in which an edit marks a page busy (R8). -/
inductive BusyRole
  | patchTarget
  | copySource
  | copyDest
  deriving DecidableEq, Repr

/-- A page entry that is not FREE (R4, R5). -/
structure Page where
  state : PageState
  kind : PageKind
  width : Nat
  height : Nat
  cells : Nat
  /-- STILL only -/
  rate : Option Nat
  baseSlot : Nat
  slotCount : Nat
  owner : Port
  shared : Bool
  showClasses : ClassSet
  writeClasses : ClassSet
  valid : CellSet
  /-- LIVE only, may be absent -/
  latest : Option Nat
  pins : Nat
  busy : Option (Port × BusyRole)
  /-- STILL only -/
  damaged : Option Bool
  deriving DecidableEq, Repr

/-- The page directory: the entries (none is FREE; the pattern pages 0 to 3 are not stored, R24), the populated
slot count, and the free slots as their maximal runs, first slot and length, in rising order (R10, R12). -/
structure Directory where
  pages : Vector (Option Page) 256
  populated : Nat
  free : List (Nat × Nat)
  deriving DecidableEq, Repr

/-! ## Frame store controller -/

/-- The address of a word of the frame store (R39). -/
structure WordAddr where
  slot : Nat
  line : Nat
  word : Nat
  deriving DecidableEq, Repr

/-- What a read was made for: a tile output unit, or the port that submitted the edit (R36). -/
inductive Origin
  | unit (t : Tile)
  | port (p : Port)
  deriving DecidableEq, Repr

/-- An entry of the scrub queue (R39). -/
structure ScrubEntry where
  addr : WordAddr
  origin : Origin
  deriving DecidableEq, Repr

/-- The store's power state (section 2.4). -/
inductive PowerState
  | awake
  | entering
  | selfRefresh
  | exiting
  deriving DecidableEq, Repr

/-- The kind of a captured fault (R41). -/
inductive FaultKind
  | scanUncorrectable
  | patchUncorrectable
  | copyUncorrectable
  | scrubUncorrectable
  | refreshMissed
  deriving DecidableEq, Repr

/-- The fields of a captured fault (R41). -/
structure CapturedFault where
  kind : FaultKind
  addr : Option WordAddr
  page : Option Handle
  source : Option Origin
  frame : Nat
  deriving DecidableEq, Repr

/-- The fault capture record (R41). -/
structure FaultRecord where
  fault : Option CapturedFault
  locked : Bool
  multiple : Bool
  deriving DecidableEq, Repr

/-- What a COPY reads: a slot of the frame store or the picture of a pattern page (R77). -/
inductive CopySource
  | slot (n : Nat)
  | pattern (p : PatternId)
  deriving DecidableEq, Repr

/-- What a granted transfer does (R27), fixed at its grant. -/
inductive TransferJob
  /-- reads a line of a slot for a tile output unit -/
  | scan (t : Tile) (slot line : Nat)
  /-- writes 256 words of a channel's buffer into a line of a slot -/
  | load (c : ChanId) (slot line : Nat) (words : List Word)
  /-- merges and writes a run of words of a line -/
  | patch (p : Port) (slot line first : Nat) (plane stipple : BitVec 32) (words : List Word)
  /-- moves a line of a source into the same line of a destination slot -/
  | copy (p : Port) (source : CopySource) (dest line : Nat)
  /-- reads a word and writes it back if it was corrected -/
  | scrub (e : ScrubEntry)
  /-- one refresh -/
  | refresh
  deriving DecidableEq, Repr

/-- The transfer that has the bus: what it does, whether its requester discards its completion (R28), and
whether a RESET_WINDOW has dropped its outcome (R46). -/
structure Transfer where
  job : TransferJob
  discard : Bool
  dropped : Bool
  deriving DecidableEq, Repr

/-- Memory: bytes by address, in rising order of address, none equal to what an unlisted address reads as. -/
abbrev Memory := List Host.Cell

/-- Bits in error by word address of the DRAM, in rising order, none of them empty (R35). -/
abbrev ErrorMap := List (Nat × ErrorMask)

/-- The frame store controller and its DRAM (chapter 2). -/
structure Store where
  power : PowerState
  /-- an entry request kept in EXITING (R33) -/
  entryKept : Bool
  debt : Int
  /-- refreshed-since-wake flag (R32) -/
  refreshed : Bool
  scanPointer : Tile
  loadPointer : ChanId
  /-- SCAN requests waiting at the arbiter, bit by unit -/
  scanWaiting : BitVec 16
  /-- LOAD requests waiting, bit by channel -/
  loadWaiting : BitVec 4
  editWaiting : Bool
  scrubWaiting : Bool
  running : Option Transfer
  scrub : List ScrubEntry
  corrected : Nat
  record : FaultRecord
  /-- the data bytes the DRAM holds -/
  mem : Memory
  /-- the stored bits that differ from the word last written -/
  errors : ErrorMap
  deriving DecidableEq, Repr

/-! ## Load engine -/

/-- What the two kinds of load hold beside the common fields (R47). -/
inductive LoadMode
  | block (first count : Nat) (expected : Check)
  /-- the target cell, and the cell check kept from the DATA that completed the cell (R54) -/
  | ring (target : Nat) (cellCheck : Option Check)
  deriving DecidableEq, Repr

/-- A load channel that is not IDLE (R47). -/
structure Load where
  /-- WAIT_CELL, else RUNNING -/
  waiting : Bool
  mode : LoadMode
  port : Port
  page : Handle
  wordsExpected : Nat
  wordsReceived : Nat
  linesWritten : Nat
  check : Check
  buffer : List Word
  deriving DecidableEq, Repr

/-- A cell of a LIVE page latched by a fetch (R62). -/
abbrev Latch := Handle × Nat

/-- The load engine: the channels (none is IDLE) and the latched set (R47, R62). -/
structure LoadEngine where
  chans : Vector (Option Load) 4
  latched : List Latch
  deriving DecidableEq, Repr

/-! ## Edit unit -/

/-- The fields of an accepted edit (R68). -/
inductive EditJob
  | patch (page : Handle) (cell col row line first : Nat) (plane stipple : BitVec 32) (words : List Word)
  | copy (source : Handle) (sourceCell : Nat) (dest : Handle) (destCell : Nat) (moved : Nat)
  deriving DecidableEq, Repr

/-- An entry of the edit queue (R68). -/
structure Edit where
  port : Port
  tag : Byte
  job : EditJob
  deriving DecidableEq, Repr

/-- The edit unit: the edit queue, its head running, and whether the scene engine has asked for the end of the
edits and has not yet been told of it (R81). -/
structure EditUnit where
  queue : List Edit
  endAsked : Bool
  deriving DecidableEq, Repr

/-! ## Scene engine -/

/-- The window state (R159). -/
inductive WindowState
  | unconfigured
  | lit
  | darkening
  | dark
  | waking
  deriving DecidableEq, Repr

/-- The kind of a pending window change (R159). -/
inductive ChangeKind
  | darken
  | wake
  deriving DecidableEq, Repr

/-- How the cell of a placement is chosen (R100). -/
inductive CellMode
  | loop
  | hold
  | live
  deriving DecidableEq, Repr

/-- A placement of a scene (R99). -/
structure Placement where
  page : Handle
  col : Nat
  row : Nat
  mode : CellMode
  /-- present for HOLD only -/
  hold : Option Nat
  deriving DecidableEq, Repr

/-- A scene: its placements; the empty list is the blank scene (R99). -/
abbrev Scene := List Placement

/-- The kind of a current or saved scene (R103). -/
inductive SceneKind
  | playlist
  | gate (g : GateId)
  deriving DecidableEq, Repr

/-- A scene that is current or saved, with its origin frame and kind and, for a gate, its remaining frames
and its invoker (R103). -/
structure Context where
  scene : Scene
  origin : Nat
  kind : SceneKind
  remaining : Option Nat
  invoker : Option Port
  deriving DecidableEq, Repr

/-- The item being brought to the wall (R103). -/
inductive Armed
  | cut
  | gate (g : GateId) (invoker : Port) (attempts : Nat)
  | ret
  deriving DecidableEq, Repr

/-- An item asked for and not yet armed (R103). -/
inductive PendingItem
  | invocation (g : GateId) (invoker : Port)
  | ret
  deriving DecidableEq, Repr

/-- A cut in its zone's cut queue (R105). -/
structure Cut where
  label : BitVec 16
  port : Port
  target : Nat
  slip : Nat
  scene : Scene
  released : Bool
  deriving DecidableEq, Repr

/-- The outcome of a cut (R104). -/
inductive CutOutcome
  | shown
  | skipped
  | abandoned
  | unseen
  | withdrawn
  | discarded
  deriving DecidableEq, Repr

/-- An entry of an outcome log (R104). -/
structure LogEntry where
  label : BitVec 16
  target : Nat
  port : Port
  outcome : CutOutcome
  frame : Nat
  deriving DecidableEq, Repr

/-- A zone's rectangle (R86). -/
structure Rect where
  col : Nat
  row : Nat
  cols : Nat
  rows : Nat
  deriving DecidableEq, Repr

/-- A zone's fetch in progress (R103). -/
structure ZoneFetch where
  frame : Nat
  /-- ARMED, else STEADY -/
  armed : Bool
  latched : List Latch
  deriving DecidableEq, Repr

/-- A zone record (R86, R103). -/
structure Zone where
  rect : Option Rect
  holder : Option Port
  current : Context
  armed : Option Armed
  pend : Option PendingItem
  /-- cut queue, head first -/
  cuts : List Cut
  /-- link stack, bottom first -/
  stack : List Context
  fetch : Option ZoneFetch
  inStep : TileSet
  delivered : TileSet
  /-- outcome log, oldest first -/
  log : List LogEntry
  deriving DecidableEq, Repr

/-- The background context (R84). -/
structure Background where
  fetch : Option Nat
  inStep : TileSet
  delivered : TileSet
  deriving DecidableEq, Repr

/-- Where a gate that is defined stands, with its invoker (R122, R123). -/
inductive GateUse
  | defined
  | invoked (p : Port)
  | active (p : Port)
  deriving DecidableEq, Repr

/-- An entry of the gate table that is not UNDEFINED (R122). -/
structure Gate where
  use : GateUse
  zone : ZoneId
  level : Nat
  minClass : Nat
  duration : Nat
  scene : Scene
  deriving DecidableEq, Repr

/-- What CONFIGURE gives the scene engine beside the bindings (R83, R96). -/
structure Grid where
  rate : Nat
  cols : Nat
  rows : Nat
  deriving DecidableEq, Repr

/-- The states of a tile output unit (R141). -/
inductive TileState
  | off
  | training
  | joining
  | inStep
  | lagging
  | lost
  deriving DecidableEq, Repr

/-- Which end reports the scene engine has taken in a dark entry that waits for them (R164). -/
structure EndReports where
  loads : Bool
  edits : Bool
  deriving DecidableEq, Repr

/-- The scene engine (chapters 5 to 7 and 9). -/
structure SceneEngine where
  window : WindowState
  /-- pending window change: its kind, and its frame where it has one -/
  change : Option (ChangeKind × Option Nat)
  /-- the current frame number N -/
  frame : Nat
  /-- pending epoch -/
  epoch : Option Nat
  /-- the frame timer runs -/
  timer : Bool
  grid : Option Grid
  zones : Vector Zone 4
  background : Background
  gates : Vector (Option Gate) 8
  /-- the state each tile was last reported in, to the context it belongs to (R84, R103) -/
  reported : Vector (Option TileState) 16
  /-- present while dark entry waits for the end of the loads and of the edits (R164) -/
  waitEnds : Option EndReports
  deriving DecidableEq, Repr

/-! ## Tile output units -/

/-- The context of a unit (R140). -/
inductive Ctx
  | zone (z : ZoneId)
  | background
  deriving DecidableEq, Repr

/-- The source of a tile's image (R101, R140). -/
inductive Source
  | pattern (p : PatternId)
  | slot (page : Handle) (n : Nat)
  deriving DecidableEq, Repr

/-- A unit's fetch in progress (R140), with the sum of the pixels sent for FRAME_END (R147). -/
structure UnitFetch where
  frame : Nat
  source : Source
  requested : Nat
  sent : Nat
  endSent : Bool
  sum : Check
  deriving DecidableEq, Repr

/-- A tile output unit (R140), with its training under way (R143, R144). -/
structure TileUnit where
  state : TileState
  /-- level of the power-enable line -/
  power : Bool
  /-- grid column and row -/
  position : Option (Nat × Nat)
  ctx : Option Ctx
  fetch : Option UnitFetch
  miss : Nat
  rejoin : Nat
  attempts : Nat
  /-- link: UP or DOWN -/
  link : Bool
  /-- patterns matched in the attempt under way -/
  matched : BitVec 4
  /-- the TRAIN messages of the attempt have been sent -/
  trainSent : Bool
  /-- the attempt timer runs -/
  timer : Bool
  deriving DecidableEq, Repr

/-! ## Messages under way between the blocks -/

/-- What a verdict names (R112). -/
inductive VerdictKind
  | showFrame (n : Nat)
  | repeatFrame
  | blank
  deriving DecidableEq, Repr

/-- A message of the scene engine to a tile output unit. -/
inductive UnitMsg
  | verdict (v : VerdictKind) (delivered : Bool)
  | fetch (frame : Nat) (source : Source) (admitting : Bool)
  | powerOn
  | powerOff
  deriving DecidableEq, Repr

/-- A message of a tile output unit to its context. -/
inductive UnitReport
  | delivery (frame : Nat)
  | state (st : TileState)
  deriving DecidableEq, Repr

/-- A report of the frame store controller to the scene engine (R33, R34). -/
inductive StoreReport
  | entered
  | exited
  deriving DecidableEq, Repr

/-- The messages sent by one block and not yet taken by another, each list in the order sent. -/
structure Mail where
  toUnit : Vector (List UnitMsg) 16
  toScene : Vector (List UnitReport) 16
  toLoad : List (List Latch)
  fromStore : List StoreReport
  deriving DecidableEq, Repr

/-! ## What the part sends -/

/-- The statuses of a reply (R191). -/
inductive Status
  | ok
  | badRequest
  | notConfigured
  | denied
  | noSuch
  | badField
  | state
  | pinned
  | noRoom
  | busy
  | wait
  | overrun
  | queueFull
  | tooSoon
  | duplicate
  | notHolder
  | held
  | nestFull
  | outranked
  | dark
  | shown
  | damagedWords
  | sourceDamaged
  | cancelled
  deriving DecidableEq, Repr

/-- The configuration that QUERY_WINDOW reports (R185). -/
structure ConfigInfo where
  rate : Nat
  populated : Nat
  cols : Nat
  rows : Nat
  positions : List (Option (Nat × Nat))
  deriving DecidableEq, Repr

/-- What QUERY_WINDOW reports (R185). -/
structure WindowInfo where
  window : WindowState
  change : Option (ChangeKind × Option Nat)
  frame : Nat
  epoch : Option Nat
  ports : List (Cls × Bool)
  requester : Port
  config : Option ConfigInfo
  deriving DecidableEq, Repr

/-- What QUERY_PAGE reports of a page that is not FREE (R23). -/
structure PageInfo where
  state : PageState
  kind : PageKind
  width : Nat
  height : Nat
  cells : Nat
  rate : Option Nat
  baseSlot : Option Nat
  slotCount : Nat
  owner : Option Port
  shared : Bool
  showClasses : ClassSet
  writeClasses : ClassSet
  valid : CellSet
  latest : Option Nat
  pins : Nat
  busy : Option (Port × BusyRole)
  damaged : Option Bool
  deriving DecidableEq, Repr

/-- What QUERY_CHANNEL reports of a channel that is not IDLE (R67). -/
structure ChanInfo where
  waiting : Bool
  mode : LoadMode
  port : Port
  page : Handle
  wordsExpected : Nat
  wordsReceived : Nat
  linesWritten : Nat
  check : Check
  buffered : Nat
  deriving DecidableEq, Repr

/-- What QUERY_ZONE reports of the kind of an armed item: of a cut its target and label, of a gate its number and
attempt count (R121). -/
inductive ArmedItem
  | cut (head : Option (Nat × BitVec 16))
  | gate (g : GateId) (attempts : Nat)
  | ret
  deriving DecidableEq, Repr

/-- What QUERY_ZONE reports of a zone's armed item (R121). -/
structure ArmedInfo where
  item : ArmedItem
  fetched : Bool
  deriving DecidableEq, Repr

/-- What QUERY_ZONE reports of a queued cut (R121). -/
structure CutInfo where
  target : Nat
  label : BitVec 16
  slip : Nat
  port : Port
  released : Bool
  placements : Nat
  deriving DecidableEq, Repr

/-- What QUERY_ZONE reports of a saved context (R121). -/
structure SavedInfo where
  kind : SceneKind
  remaining : Option Nat
  placements : Nat
  deriving DecidableEq, Repr

/-- What QUERY_ZONE reports (R121). -/
structure ZoneInfo where
  rect : Option Rect
  holder : Option Port
  kind : SceneKind
  origin : Nat
  remaining : Option Nat
  scene : Scene
  armed : Option ArmedInfo
  pend : Option PendingItem
  fetch : Option (Nat × Bool)
  cuts : List CutInfo
  stack : List SavedInfo
  inStep : TileSet
  log : List LogEntry
  deriving DecidableEq, Repr

/-- Where an INVOKED or ACTIVE gate stands in its zone (R139). -/
inductive GatePlace
  | pending
  | armed (attempts : Nat) (fetched : Bool)
  | current (remaining : Option Nat)
  | saved (position : Nat) (remaining : Option Nat)
  deriving DecidableEq, Repr

/-- What QUERY_TILE reports (R157). -/
structure TileInfo where
  state : TileState
  power : Bool
  link : Bool
  position : Option (Nat × Nat)
  ctx : Option Ctx
  /-- frame number, source, lines requested, lines sent, end sent -/
  fetch : Option (Nat × Source × Nat × Nat × Bool)
  miss : Nat
  rejoin : Nat
  attempts : Nat
  deriving DecidableEq, Repr

/-- What QUERY_STORE reports (R44). -/
structure StoreInfo where
  power : PowerState
  debt : Int
  refreshed : Bool
  scrub : List ScrubEntry
  corrected : Nat
  populated : Nat
  locked : Bool
  deriving DecidableEq, Repr

/-- The body of a reply (R191). -/
inductive Body
  | none
  | created (page : Handle) (baseSlot : Nat)
  | noRoom (noRun : Bool) (longest free : Nat)
  | channel (c : ChanId)
  | purged (n : Nat)
  | unwritten (n : Nat)
  /-- previous holder of a claim request, and for CLAIM_ZONE whether it was already the requester's -/
  | holder (previous : Option Port) (already : Option Bool)
  | mask (m : EventSet)
  | kinds (k : EventSet)
  | window (w : WindowInfo)
  /-- none for a FREE handle -/
  | page (p : Option PageInfo)
  /-- none for an IDLE channel -/
  | chan (c : Option ChanInfo)
  | zone (z : ZoneInfo)
  /-- none for an UNDEFINED gate -/
  | gate (g : Option (Gate × Option GatePlace))
  | tile (t : TileInfo)
  | store (s : StoreInfo)
  | fault (r : FaultRecord)
  deriving DecidableEq, Repr

/-- A reply (R173, R191). -/
structure Reply where
  code : Byte
  tag : Byte
  status : Status
  body : Body
  deriving DecidableEq, Repr

/-- A message to a panel (R192). -/
inductive PanelMsg
  | frameBegin (n : Nat)
  | line (l : Nat) (words : List Word)
  | frameEnd (n : Nat) (check : Check)
  | abortFrame (n : Nat)
  | showFrame (n : Nat)
  | repeatFrame
  | blank
  | train (attempt : Nat) (pattern : PatternId) (words : List Word)
  deriving DecidableEq, Repr

/-- What the part sends outside. -/
inductive Output
  | reply (p : Port) (r : Reply)
  | panel (t : Tile) (m : PanelMsg)
  /-- a pulse of the SYNC output (R96) -/
  | sync
  deriving DecidableEq, Repr

/-! ## The whole -/

/-- The state of the part. -/
structure State where
  ports : Vector PortRec 4
  dir : Directory
  store : Store
  load : LoadEngine
  edit : EditUnit
  scene : SceneEngine
  units : Vector TileUnit 16
  mail : Mail
  /-- everything sent, oldest first: the model's own record -/
  out : List Output
  /-- the commands that wait, first in first out -/
  pending : List Instr
  deriving DecidableEq, Repr

/-- No command of this block stops it with a fault: the spec gives each of them an effect, and an event that
cannot happen in a state changes nothing (log entry 1). Raised by nobody; safe. -/
inductive Fault
  deriving DecidableEq, Repr

/-- The one refusal: a command that has no meaning yet. Raised by exec's arms alone; safe. -/
inductive Refusal
  | notModelled (mnemonic : String)
  deriving DecidableEq, Repr

/-! ## Reset values -/

/-- A client port after power-on reset, with its class (R186). -/
def PortRec.initial (c : Cls) : PortRec :=
  { up := false, cls := c, events := 0, mask := 0, transit := none, waiting := [] }

/-- The directory after power-on reset and RESET_WINDOW (R24). -/
def Directory.initial : Directory :=
  { pages := Vector.replicate 256 none, populated := 0, free := [] }

/-- The empty fault capture record (R41). -/
def FaultRecord.empty : FaultRecord := { fault := none, locked := false, multiple := false }

/-- The frame store controller after power-on reset (R45): no request waits, so the REFRESH that runs is the pull-in
granted at the release of reset (R29, log entry 10); the DRAM lists nothing (log entry 6). -/
def Store.initial : Store :=
  { power := .awake, entryKept := false, debt := 0, refreshed := false, scanPointer := 15, loadPointer := 3
    scanWaiting := 0, loadWaiting := 0, editWaiting := false, scrubWaiting := false
    running := some { job := .refresh, discard := false, dropped := false }
    scrub := [], corrected := 0, record := .empty, mem := [], errors := [] }

/-- The load engine after power-on reset and RESET_WINDOW (R48). -/
def LoadEngine.initial : LoadEngine := { chans := Vector.replicate 4 none, latched := [] }

/-- The edit unit after power-on reset and RESET_WINDOW (R82). -/
def EditUnit.initial : EditUnit := { queue := [], endAsked := false }

/-- The blank scene as a zone's current scene (R103). -/
def Context.blank : Context :=
  { scene := [], origin := 0, kind := .playlist, remaining := none, invoker := none }

/-- A zone after power-on reset, RESET_WINDOW and CONFIGURE (R86, R103). -/
def Zone.initial : Zone :=
  { rect := none, holder := none, current := .blank, armed := none, pend := none, cuts := [], stack := []
    fetch := none, inStep := 0, delivered := 0, log := [] }

/-- The background after power-on reset, RESET_WINDOW and CONFIGURE (R84). -/
def Background.initial : Background := { fetch := none, inStep := 0, delivered := 0 }

/-- The scene engine after power-on reset and RESET_WINDOW (R96 to R98, R103, R122, R159). -/
def SceneEngine.initial : SceneEngine :=
  { window := .unconfigured, change := none, frame := 0, epoch := none, timer := false, grid := none
    zones := Vector.replicate 4 .initial, background := .initial, gates := Vector.replicate 8 none
    reported := Vector.replicate 16 none, waitEnds := none }

/-- A tile output unit after power-on reset, and after RESET_WINDOW with its link as last reported (R140). -/
def TileUnit.initial (link : Bool) : TileUnit :=
  { state := .off, power := false, position := none, ctx := none, fetch := none, miss := 0, rejoin := 0
    attempts := 0, link := link, matched := 0, trainSent := false, timer := false }

/-- No message under way. -/
def Mail.initial : Mail :=
  { toUnit := Vector.replicate 16 [], toScene := Vector.replicate 16 [], toLoad := [], fromStore := [] }

/-- The part right after power-on reset (R186, R24, R45, R48, R82, R84, R103, R122, R140, R159). The class
straps are read as 0, MONITOR, at every port, until POWER_ON_RESET samples others (log entry 7). -/
def State.reset : State :=
  { ports := Vector.replicate 4 (.initial .monitor), dir := .initial, store := .initial, load := .initial
    edit := .initial, scene := .initial, units := Vector.replicate 16 (.initial false), mail := .initial
    out := [], pending := [] }

end Sys2Proof.Machine
end

