-- ==== Sys2Proof/Machine/Flags.lean ====
section
/-! DEFINITION. Sets held as bits, the pending event sets, the event masks and the attention lines. -/

namespace Sys2Proof.Machine

/-! ## Sets held as bits -/

/-- A set with one more member. -/
def insertBit {n : Nat} (b : BitVec n) (i : Nat) : BitVec n := b ||| BitVec.twoPow n i

/-- A set without a member. -/
def eraseBit {n : Nat} (b : BitVec n) (i : Nat) : BitVec n := b &&& ~~~(BitVec.twoPow n i)

/-- A vector with one entry changed. -/
def upd {α : Type} {n : Nat} (v : Vector α n) (i : Fin n) (f : α → α) : Vector α n := v.set i (f v[i])

/-! ## Events (R180, R190) -/

/-- The bit of an event kind in an event set (R190). -/
def Event.bit : Event → Nat
  | .loadDone => 0
  | .loadFailed => 1
  | .cellFailed => 2
  | .cutShown => 3
  | .cutSkipped => 4
  | .cutAbandoned => 5
  | .cutUnseen => 6
  | .gateShown => 7
  | .gateEnded => 8
  | .gateAbandoned => 9
  | .zoneLost => 10
  | .pageDamaged => 11
  | .fault => 12
  | .tileChange => 13
  | .windowChange => 14

/-- The attention line of a port: asserted while its set and its mask have a kind in common (R182). -/
def PortRec.attention (p : PortRec) : Bool := p.events &&& p.mask != 0

/-- An event that reaches a port: it joins the set of a port that is UP and is dropped at one that is DOWN
(R180). -/
def PortRec.take (p : PortRec) (e : Event) : PortRec :=
  if p.up then { p with events := insertBit p.events e.bit } else p

/-- An event raised at one port (R180). -/
def State.raise (s : State) (p : Port) (e : Event) : State :=
  { s with ports := upd s.ports p (·.take e) }

/-- An event raised at every port that is UP (R180). -/
def State.raiseAll (s : State) (e : Event) : State :=
  { s with ports := s.ports.map (·.take e) }

/-- An event raised at every OPERATOR port that is UP (R42, R180). -/
def State.raiseOperators (s : State) (e : Event) : State :=
  { s with ports := s.ports.map fun p => if p.cls = .operator then p.take e else p }

end Sys2Proof.Machine
end

