-- ==== Sys2Proof/Machine/Operands.lean ====
section
/-! DEFINITION. The fields of requests as R190 encodes them: which values the encodings admit, and what they
mean. -/

namespace Sys2Proof.Machine

/-! ## Numbers of ports, zones, gates, channels and tiles -/

/-- A one-byte number below a bound. -/
def fieldBelow (n : Nat) (b : Byte) : Option (Fin n) :=
  if h : b.toNat < n then some ⟨b.toNat, h⟩ else none

/-- A port number, 0 to 3. -/
def portField (b : Byte) : Option Port := fieldBelow 4 b

/-- A zone number, 0 to 3. -/
def zoneField (b : Byte) : Option ZoneId := fieldBelow 4 b

/-- A channel number, 0 to 3. -/
def chanField (b : Byte) : Option ChanId := fieldBelow 4 b

/-- A gate number, 0 to 7. -/
def gateField (b : Byte) : Option GateId := fieldBelow 8 b

/-- A tile number, 0 to 15. -/
def tileField (b : Byte) : Option Tile := fieldBelow 16 b

/-! ## Flags, kinds and sets -/

/-- A presence byte, or a yes-or-no byte: 0 or 1 (R190). -/
def boolField (b : Byte) : Option Bool :=
  if b = 0 then some false else if b = 1 then some true else none

/-- A page kind: 0 STILL, 1 LIVE (R190). -/
def kindField (b : Byte) : Option PageKind :=
  if b = 0 then some .still else if b = 1 then some .live else none

/-- A load mode: 0 BLOCK, 1 RING; true for RING (R190). -/
def modeField (b : Byte) : Option Bool := boolField b

/-- A cell mode: 0 LOOP, 1 HOLD, 2 LIVE (R190). -/
def cellModeField (b : Byte) : Option CellMode :=
  if b = 0 then some .loop else if b = 1 then some .hold else if b = 2 then some .live else none

/-- A class set: bits 1 to 3; one that holds MONITOR or any of bits 4 to 7 is not admitted (R190). -/
def classSetField (b : Byte) : Option ClassSet :=
  if b &&& 0xF1 = 0 then some (b.setWidth 4) else none

/-- An event mask: bits 0 to 14; bit 15 is not admitted (R190). -/
def maskField (m : BitVec 16) : Option EventSet :=
  if m.getLsbD 15 then none else some (m.setWidth 15)

/-- The class that two strap pins give, the second as the more significant digit (R170). -/
def classOfStraps (b : BitVec 2) : Cls :=
  if b = 0 then .monitor else if b = 1 then .overlay else if b = 2 then .playout else .operator

/-- The classes at or above a class, MONITOR never among them (R13, R14). -/
def classesFrom : Cls → ClassSet
  | .monitor => 0b1110
  | .overlay => 0b1110
  | .playout => 0b1100
  | .operator => 0b1000

/-! ## Positions and placements -/

/-- A position byte of CONFIGURE: none where it is not admitted, some none for an unused link, else the column
and row, which lie within the grid (R189, R190). -/
def positionField (cols rows : Nat) (b : Byte) : Option (Option (Nat × Nat)) :=
  if b = 255 then some none
  else
    let c := b.toNat % 16
    let r := b.toNat / 16
    if c < cols ∧ r < rows then some (some (c, r)) else none

/-- The column offset of a placement record: the low four bits (R189). -/
def rawCol (p : RawPlacement) : Nat := p.offsets.toNat % 16

/-- The row offset of a placement record: the high four bits (R189). -/
def rawRow (p : RawPlacement) : Nat := p.offsets.toNat / 16

/-- The hold cell of a placement record: 255 for absent (R190). -/
def rawHold (p : RawPlacement) : Option Nat :=
  if p.hold = 255 then none else some p.hold.toNat

/-- The placement that a record which has passed the scene checks stands for (R99, R189). -/
def placementOf (p : RawPlacement) : Placement :=
  { page := p.page, col := rawCol p, row := rawRow p, mode := (cellModeField p.mode).getD .loop, hold := rawHold p }

/-- The frame number that follows a presence byte, where it is present (R189). -/
def optionalFrame (presence : Byte) (frame : BitVec 48) : Option Nat :=
  if presence = 1 then some frame.toNat else none

end Sys2Proof.Machine
end

