-- ==== Sys2Proof/Machine/Ops.lean ====
section
/-! DEFINITION. The named operations over the state: accessors, memory and its error checking, the pictures of
the pattern pages, the course of a request, the page directory, and the fault capture record. -/

namespace Sys2Proof.Machine

/-! ## Changing one block -/

/-- The state with its directory changed. -/
def State.modDir (s : State) (f : Directory → Directory) : State := { s with dir := f s.dir }

/-- The state with its frame store changed. -/
def State.modStore (s : State) (f : Store → Store) : State := { s with store := f s.store }

/-- The state with its load engine changed. -/
def State.modLoad (s : State) (f : LoadEngine → LoadEngine) : State := { s with load := f s.load }

/-- The state with its edit unit changed. -/
def State.modEdit (s : State) (f : EditUnit → EditUnit) : State := { s with edit := f s.edit }

/-- The state with its scene engine changed. -/
def State.modScene (s : State) (f : SceneEngine → SceneEngine) : State := { s with scene := f s.scene }

/-- The state with its messages under way changed. -/
def State.modMail (s : State) (f : Mail → Mail) : State := { s with mail := f s.mail }

/-- The state with one client port changed. -/
def State.setPort (s : State) (p : Port) (f : PortRec → PortRec) : State := { s with ports := upd s.ports p f }

/-- The state with one tile output unit changed. -/
def State.setUnit (s : State) (t : Tile) (f : TileUnit → TileUnit) : State :=
  { s with units := upd s.units t f }

/-- The state with one zone changed. -/
def State.setZone (s : State) (z : ZoneId) (f : Zone → Zone) : State :=
  s.modScene fun e => { e with zones := upd e.zones z f }

/-- The state with one gate changed. -/
def State.setGate (s : State) (g : GateId) (f : Option Gate → Option Gate) : State :=
  s.modScene fun e => { e with gates := upd e.gates g f }

/-- The state with one load channel changed. -/
def State.setChan (s : State) (c : ChanId) (f : Option Load → Option Load) : State :=
  s.modLoad fun l => { l with chans := upd l.chans c f }

/-- Sends something outside. -/
def State.send (s : State) (o : Output) : State := { s with out := s.out ++ [o] }

/-- Sends a message to a panel. -/
def State.sendPanel (s : State) (t : Tile) (m : PanelMsg) : State := s.send (.panel t m)

/-- Sends a message of the scene engine to a tile output unit. -/
def State.toUnit (s : State) (t : Tile) (m : UnitMsg) : State :=
  s.modMail fun w => { w with toUnit := upd w.toUnit t (· ++ [m]) }

/-- Sends a report of a tile output unit to its context. -/
def State.toScene (s : State) (t : Tile) (r : UnitReport) : State :=
  s.modMail fun w => { w with toScene := upd w.toScene t (· ++ [r]) }

/-- Takes the oldest message under way to a unit. -/
def State.popUnitMsg (s : State) (t : Tile) : State :=
  s.modMail fun w => { w with toUnit := upd w.toUnit t List.tail }

/-- Takes the oldest report under way from a unit. -/
def State.popReport (s : State) (t : Tile) : State :=
  s.modMail fun w => { w with toScene := upd w.toScene t List.tail }

/-- A zone record. -/
abbrev State.zone (s : State) (z : ZoneId) : Zone := s.scene.zones[z]

/-- An entry of the gate table. -/
abbrev State.gate (s : State) (g : GateId) : Option Gate := s.scene.gates[g]

/-- The class of a client port. -/
abbrev State.cls (s : State) (p : Port) : Cls := s.ports[p].cls

/-- The window state. -/
abbrev State.window (s : State) : WindowState := s.scene.window

/-! ## Memory: lists by address with one canonical form -/

/-- What a list by address gives at an address, with `d` for an unlisted one. -/
def sparseGet {α : Type} (d : α) : List (Nat × α) → Nat → α
  | [], _ => d
  | (b, v) :: m, a => if a = b then v else sparseGet d m a

/-- A list by address with a value put at an address: the rising order is kept, and the value of an unlisted
address is not listed. -/
def sparsePut {α : Type} [DecidableEq α] (d : α) : List (Nat × α) → Nat → α → List (Nat × α)
  | [], a, v => if v = d then [] else [(a, v)]
  | (b, w) :: m, a, v =>
    if a < b then (if v = d then (b, w) :: m else (a, v) :: (b, w) :: m)
    else if a = b then (if v = d then m else (a, v) :: m)
    else (b, w) :: sparsePut d m a v

/-- Every listed address is at least `lo`, they rise, and no value is that of an unlisted address. -/
def sparseWfFrom {α : Type} [DecidableEq α] (d : α) : Nat → List (Nat × α) → Bool
  | _, [] => true
  | lo, (b, v) :: m => decide (lo ≤ b) && decide (v ≠ d) && sparseWfFrom d (b + 1) m

/-- The canonical form of a list by address. -/
def sparseWf {α : Type} [DecidableEq α] (d : α) (m : List (Nat × α)) : Bool := sparseWfFrom d 0 m

/-- What a byte that nothing has written since power-on reads as (log entry 6). -/
def unwrittenByte : Byte := 0

/-- Reads one byte of the frame store. -/
def Memory.read (m : Memory) (a : Nat) : Byte := sparseGet unwrittenByte m a

/-- Writes one byte of the frame store. -/
def Memory.write (m : Memory) (a : Nat) (b : Byte) : Memory := sparsePut unwrittenByte m a b

/-- The canonical form of the frame store's bytes. -/
def Memory.wf (m : Memory) : Bool := sparseWf unwrittenByte m

/-- Reads `k` bytes from an address upward. -/
def Memory.readBytes (m : Memory) (a : Nat) : Nat → List Byte
  | 0 => []
  | k + 1 => m.read a :: readBytes m (a + 1) k

/-- Writes bytes from an address upward. -/
def Memory.writeBytes (m : Memory) (a : Nat) : List Byte → Memory
  | [] => m
  | b :: bs => (Memory.write m a b).writeBytes (a + 1) bs

/-- The place of a word in the DRAM (R25): bank, row within the bank, and byte offset within the row. -/
def place (slot line word : Nat) : Nat × Nat × Nat :=
  let r := line / 4
  (r % 8, slot * 8 + r / 8, line % 4 * 2048 + word * 8)

/-- The address of the first byte of a word: the banks one after another, 16384 rows of 8 KiB each (R25). -/
def byteAddr (slot line word : Nat) : Nat :=
  let p := place slot line word
  (p.1 * 16384 + p.2.1) * 8192 + p.2.2

/-- The number of a word among all words of the DRAM. -/
def wordNumber (slot line word : Nat) : Nat := byteAddr slot line word / 8

/-- The data bits that the DRAM holds for a word. -/
def Store.rawWord (st : Store) (slot line word : Nat) : Word :=
  BitVec.ofNat 64 (leNat (st.mem.readBytes (byteAddr slot line word) 8))

/-- The bits of a stored word that are in error. -/
def Store.errorOf (st : Store) (slot line word : Nat) : ErrorMask :=
  sparseGet 0 st.errors (wordNumber slot line word)

/-- Puts data bits into the DRAM, leaving the record of errors as it is. -/
def Store.putRaw (st : Store) (slot line word : Nat) (w : Word) : Store :=
  { st with mem := st.mem.writeBytes (byteAddr slot line word) (leBytes 8 w.toNat) }

/-- Writes a word with check bits computed from it (R26): no bit of it is then in error. -/
def Store.writeWord (st : Store) (slot line word : Nat) (w : Word) : Store :=
  let st := st.putRaw slot line word w
  { st with errors := sparsePut 0 st.errors (wordNumber slot line word) 0 }

/-- Bit errors come into a stored word (log entry 2). -/
def Store.disturbWord (st : Store) (slot line word : Nat) (e : ErrorMask) : Store :=
  let was := st.errorOf slot line word
  let st := st.putRaw slot line word (st.rawWord slot line word ^^^ e.setWidth 64)
  { st with errors := sparsePut 0 st.errors (wordNumber slot line word) (was ^^^ e) }

/-- Bit errors come into words of a line (log entry 2). -/
def Store.disturb (st : Store) (slot line : Nat) : BitErrors → Store
  | [] => st
  | (w, e) :: es => (if w < wordsPerLine then st.disturbWord slot line w e else st).disturb slot line es

/-- Writes words into a line from a word upward, with fresh check bits (R26, R49). -/
def Store.writeWords (st : Store) (slot line word : Nat) : List Word → Store
  | [] => st
  | w :: ws => (st.writeWord slot line word w).writeWords slot line (word + 1) ws

/-! ## Error checking (R35) -/

/-- The number of bits in error. -/
def errorWeight (e : ErrorMask) : Nat := (List.range 72).countP fun i => e.getLsbD i

/-- All bits in error lie within one of the eighteen 4-bit groups (R35, log entry 4). -/
def inOneGroup (e : ErrorMask) : Bool :=
  (List.range 18).any fun g => e == (e &&& (BitVec.ofNat 72 15 <<< (4 * g)))

/-- A word as the controller reads it: its class, and the data used (R35); the data of an uncorrectable word
are used by no one. -/
structure WordRead where
  cls : ReadClass
  data : Word
  deriving DecidableEq, Repr

/-- The classification of a word from the data bits read and the bits in error (R35). -/
def classify (raw : Word) (e : ErrorMask) : WordRead :=
  if e = 0 then { cls := .clean, data := raw }
  else if errorWeight e = 1 then { cls := .corrected, data := raw ^^^ e.setWidth 64 }
  else if errorWeight e = 2 ∨ (errorWeight e ≤ 4 ∧ inOneGroup e = true) then { cls := .uncorrectable, data := raw }
  else
    { cls := Config.beyondClass raw e
      data := if Config.beyondClass raw e = .corrected then Config.beyondData raw e else raw }

/-- A word of the frame store as the controller reads it. -/
def Store.readWord (st : Store) (slot line word : Nat) : WordRead :=
  classify (st.rawWord slot line word) (st.errorOf slot line word)

/-- The words of a line as the controller reads them, in ascending order. -/
def Store.readLine (st : Store) (slot line : Nat) : List WordRead :=
  (List.range wordsPerLine).map (st.readWord slot line)

/-- The line that a SCAN delivers: an uncorrectable word as two black pixels (R38). -/
def deliveredLine (rs : List WordRead) : List Word :=
  rs.map fun r => if r.cls = .uncorrectable then 0 else r.data

/-! ## Check values and pictures (R3, R50) -/

/-- The sum of the pixels of some words, modulo 2^32 (R50). -/
def checkSum (ws : List Word) : Check :=
  ws.foldl (fun c w => c + Word.lowPixel w + Word.highPixel w) 0

/-- The pixel of red, green and blue values, unused byte 0 (R3, R187). -/
def rgb (r g b : Nat) : Pixel := BitVec.ofNat 32 (r + 256 * g + 65536 * b)

/-- The colour of a bar of BARS, from the left (R3). -/
def barColour (bar : Nat) : Pixel :=
  match bar with
  | 0 => rgb 255 255 255
  | 1 => rgb 255 255 0
  | 2 => rgb 0 255 255
  | 3 => rgb 0 255 0
  | 4 => rgb 255 0 255
  | 5 => rgb 255 0 0
  | 6 => rgb 0 0 255
  | _ => rgb 0 0 0

/-- A pixel of a pattern page (R3). -/
def patternPixel (p : PatternId) (line col : Nat) : Pixel :=
  if p = 0 then 0
  else if p = 1 then rgb 255 255 255
  else if p = 2 then barColour (col / 64)
  else if col = 0 ∨ col = 511 ∨ col % 64 = 0 ∨ line = 0 ∨ line = 255 ∨ line % 64 = 0 then rgb 255 255 255
  else 0

/-- A line of a pattern page as words (R3, R26). -/
def patternLine (p : PatternId) (line : Nat) : List Word :=
  (List.range wordsPerLine).map fun w =>
    Word.ofPixels (patternPixel p line (2 * w)) (patternPixel p line (2 * w + 1))

/-! ## The course of a request (R172 to R175) -/

/-- To whom a reply goes, and for what request (R173). -/
structure Caller where
  port : Port
  tag : Byte
  code : Byte
  deriving DecidableEq, Repr

/-- Sends a reply; one that falls due on a port that is DOWN is dropped (R171). -/
def State.reply (s : State) (c : Caller) (st : Status) (b : Body := .none) : State :=
  if s.ports[c.port].up then s.send (.reply c.port { code := c.code, tag := c.tag, status := st, body := b }) else s

/-- The body of a reply that is given without the request reaching its block: a claim request names its
previous holder whatever its status (R89, R191), none here. -/
def unservedBody (code : Byte) : Body :=
  if code = 65 then .holder none (some false)
  else if code = 66 ∨ code = 67 ∨ code = 68 then .holder none none
  else .none

/-- A check of a request: whether it passes, and the status given where it does not. -/
abbrev Test := Bool × Status

/-- The first check that fails gives the status (R173). -/
def firstFailure : List Test → Option Status
  | [] => none
  | (ok, st) :: ts => if ok then firstFailure ts else some st

/-- A request is checked in order; refused, it changes nothing and is answered with the status of the first
check that fails and the body `b`, if its rule gives one; otherwise `act` is its effect (R173). -/
def State.checked (s : State) (c : Caller) (tests : List Test) (act : State → State) (b : Body := .none) :
    State :=
  match firstFailure tests with
  | some st => s.reply c st b
  | none => act s

/-- GET_EVENTS at the port: the set is reported and emptied (R183). -/
def getEvents (c : Caller) (s : State) : State :=
  (s.setPort c.port fun p => { p with events := 0 }).reply c .ok (.kinds s.ports[c.port].events)

/-- SET_EVENT_MASK at the port: the mask is replaced, and the old one reported (R181). -/
def setEventMask (mask : BitVec 16) (c : Caller) (s : State) : State :=
  s.checked c [((maskField mask).isSome, .badField)] fun s =>
    (s.setPort c.port fun p => { p with mask := (maskField mask).getD 0 }).reply c .ok (.mask s.ports[c.port].mask)

/-- A frame without the correct form is answered BAD_REQUEST with its code and tag as received (R173, R188), and a
claim request with the body of every reply to one (R191, log entry 14). -/
def answerBadRequest (port : Port) (frame : List Byte) (s : State) : State :=
  s.reply { port := port, tag := (codeAndTag frame).2, code := (codeAndTag frame).1 } .badRequest
    (unservedBody (codeAndTag frame).1)

/-- A request that its port serves in UNCONFIGURED and passes to a block (R175). -/
def Instr.servedUnconfigured : Instr → Bool
  | .configure _ _ _ _ _ _ _ _ => true
  | .resetWindow _ => true
  | .queryWindow _ => true
  | .readFault _ => true
  | _ => false

/-- A port examines a request of its link that had to wait: one that the port refuses or owns is answered, and any
other is passed on (R172, R173, R175). -/
def State.examine (s : State) (p : Port) (i : Instr) : State :=
  match i with
  | .badRequest _ frame => answerBadRequest p frame s
  | .getEvents h => getEvents { port := p, tag := h.tag, code := 120 } s
  | .setEventMask h mask => setEventMask mask { port := p, tag := h.tag, code := 121 } s
  | i =>
    match i.request with
    | some (h, code, _) =>
      if s.window = .unconfigured ∧ Instr.servedUnconfigured i = false then
        s.reply { port := p, tag := h.tag, code := code } .notConfigured (unservedBody code)
      else s.setPort p fun r => { r with transit := some i }
    | none => s

/-- A port examines the requests that have waited, oldest first, until one is in transit (R172). -/
def State.examineAll (p : Port) : List Instr → State → State
  | [], s => s.setPort p fun r => { r with waiting := [] }
  | i :: rest, s =>
    let s := s.examine p i
    if s.ports[p].transit.isSome then s.setPort p fun r => { r with waiting := rest } else State.examineAll p rest s

/-- A port of which nothing is in transit goes on with the requests that wait (R172, log entry 28). -/
def State.goOn (s : State) (p : Port) : State :=
  if s.ports[p].transit.isSome then s else State.examineAll p s.ports[p].waiting s

/-- A request that arrives behind one in transit waits at its port (R172, log entry 28). -/
def State.wait (s : State) (p : Port) (i : Instr) : State :=
  s.setPort p fun r => { r with waiting := r.waiting ++ [i] }

/-- The course of a request (R172, R175): from a port that is DOWN none arrives; one that arrives behind one in transit
waits; in UNCONFIGURED a request other than the six is answered NOT_CONFIGURED by the port; otherwise it is passed on,
and taken whole at its block by `act`, after which the port goes on with those that wait. -/
def serve (h : Hdr) (code : Byte) (self : Hdr → Instr) (anyWindow : Bool) (act : Caller → State → State)
    (s : State) : State :=
  let p := s.ports[h.port]
  let c : Caller := { port := h.port, tag := h.tag, code := code }
  let taken := self { h with stage := .take }
  if p.up = false then s
  else
    match h.stage with
    | .take =>
      if p.transit = some taken then (act c (s.setPort h.port fun p => { p with transit := none })).goOn h.port else s
    | .whole =>
      if p.transit.isSome then s.wait h.port taken
      else if s.window = .unconfigured ∧ anyWindow = false then s.reply c .notConfigured (unservedBody code)
      else act c s
    | .pass =>
      if p.transit.isSome then s.wait h.port taken
      else if s.window = .unconfigured ∧ anyWindow = false then s.reply c .notConfigured (unservedBody code)
      else s.setPort h.port fun p => { p with transit := some taken }

/-- The course of a request that the port itself owns (R172): it is taken as soon as the port examines it. -/
def serveAtPort (h : Hdr) (code : Byte) (self : Hdr → Instr) (act : Caller → State → State) (s : State) : State :=
  let p := s.ports[h.port]
  if p.up = false ∨ h.stage = .take then s
  else if p.transit.isSome then s.wait h.port (self { h with stage := .take })
  else act { port := h.port, tag := h.tag, code := code } s

/-! ## The page directory -/

/-- A handle of a pattern page (R1). -/
def isPattern (h : Handle) : Bool := decide (h.toNat < 4)

/-- The pattern page a handle 0 to 3 names. -/
def patternOf (h : Handle) : PatternId := Fin.ofNat 4 h.toNat

/-- The index of a handle. -/
def handleIndex (h : Handle) : Fin 256 := ⟨h.toNat, h.isLt⟩

/-- The entry of an allocatable page, none for FREE. -/
def State.page (s : State) (h : Handle) : Option Page := s.dir.pages[handleIndex h]

/-- Changes the entry of a page that is not FREE. -/
def State.setPage (s : State) (h : Handle) (f : Page → Page) : State :=
  s.modDir fun d => { d with pages := upd d.pages (handleIndex h) (·.map f) }

/-- The handle exists as a page: a pattern page, or an entry that is not FREE. -/
def State.isPage (s : State) (h : Handle) : Bool := isPattern h || (s.page h).isSome

/-- A page's width and height; a pattern page is 1 by 1 (R2). -/
def State.pageSize (s : State) (h : Handle) : Nat × Nat :=
  if isPattern h then (1, 1)
  else match s.page h with
    | some p => (p.width, p.height)
    | none => (1, 1)

/-- A page's cell count; a pattern page has 1 (R2). -/
def State.pageCells (s : State) (h : Handle) : Nat :=
  if isPattern h then 1
  else match s.page h with
    | some p => p.cells
    | none => 0

/-- Every cell of a page is valid. -/
def Page.allValid (p : Page) : Bool := (List.range p.cells).all fun c => p.valid.getLsbD c

/-- Cells of a range. -/
def cellRange (first count : Nat) : List Nat := (List.range count).map (first + ·)

/-- A set of cells with more members. -/
def addCells (v : CellSet) (cs : List Nat) : CellSet := cs.foldl insertBit v

/-- A set of cells without some members. -/
def dropCells (v : CellSet) (cs : List Nat) : CellSet := cs.foldl eraseBit v

/-- The state of a STILL page that is not LOADING (R6). -/
def Page.settle (p : Page) : Page :=
  { p with state := if p.damaged = some true then .damaged else if p.allValid then .ready else .incomplete }

/-- The slot of a page that holds a cell's tile image at a tile column and row (R11). -/
def Page.slotOf (p : Page) (cell x y : Nat) : Nat := p.baseSlot + cell * (p.width * p.height) + y * p.width + x

/-- A port's right over a page by one of the class sets (R13). -/
def rightOver (s : State) (p : Port) (pg : Page) (set : ClassSet) : Bool :=
  (pg.owner = p || pg.shared) && set.getLsbD (s.cls p).value

/-- The show right (R13); granted to every port over a pattern page (R2). -/
def State.showRight (s : State) (p : Port) (h : Handle) : Bool :=
  isPattern h || (s.page h).any fun pg => rightOver s p pg pg.showClasses

/-- The write right (R13). -/
def State.writeRight (s : State) (p : Port) (h : Handle) : Bool :=
  (s.page h).any fun pg => rightOver s p pg pg.writeClasses

/-- The owner of a page, or an OPERATOR port (R20, R22). -/
def State.ownsOrOperates (s : State) (p : Port) (h : Handle) : Bool :=
  (s.page h).any fun pg => pg.owner = p || s.cls p = .operator

/-- Adds a pin to a page; a pattern page is never pinned (R2, R15). -/
def State.pin (s : State) (h : Handle) : State :=
  if isPattern h then s else s.setPage h fun p => { p with pins := p.pins + 1 }

/-- Removes a pin from a page (R15). -/
def State.unpin (s : State) (h : Handle) : State :=
  if isPattern h then s else s.setPage h fun p => { p with pins := p.pins - 1 }

/-- Pins the pages of a scene, once for each placement (R15). -/
def State.pinScene (s : State) (sc : Scene) : State := sc.foldl (fun s p => s.pin p.page) s

/-- Unpins the pages of a scene, once for each placement (R15). -/
def State.unpinScene (s : State) (sc : Scene) : State := sc.foldl (fun s p => s.unpin p.page) s

/-! ## The slot map (R10, R12) -/

/-- The first free run long enough, and the free runs once its lowest slots are taken (R12). -/
def allocRun (n : Nat) : List (Nat × Nat) → Option (Nat × List (Nat × Nat))
  | [] => none
  | (b, len) :: rs =>
    if n ≤ len then some (b, if len = n then rs else (b + n, len - n) :: rs)
    else (allocRun n rs).map fun r => (r.1, (b, len) :: r.2)

/-- Joins a run to the run before it where they are adjacent. -/
def joinRun (b len : Nat) : List (Nat × Nat) → List (Nat × Nat)
  | [] => [(b, len)]
  | (b', len') :: rs => if b + len = b' then (b, len + len') :: rs else (b, len) :: (b', len') :: rs

/-- A run rejoins the free runs, adjacent free slots forming a single run (R12). -/
def freeRun (b len : Nat) : List (Nat × Nat) → List (Nat × Nat)
  | [] => [(b, len)]
  | (b', len') :: rs =>
    if b < b' then joinRun b len ((b', len') :: rs)
    else joinRun b' len' (freeRun b len rs)

/-- The length of the longest free run (R19). -/
def longestRun (rs : List (Nat × Nat)) : Nat := rs.foldl (fun n r => max n r.2) 0

/-- The number of free slots (R19). -/
def freeSlots (rs : List (Nat × Nat)) : Nat := rs.foldl (fun n r => n + r.2) 0

/-- A page becomes FREE and its run rejoins the free set (R5, R20). -/
def State.freePage (s : State) (h : Handle) : State :=
  match s.page h with
  | some p =>
    s.modDir fun d =>
      { d with pages := upd d.pages (handleIndex h) fun _ => none, free := freeRun p.baseSlot p.slotCount d.free }
  | none => s

/-- Every handle, in order. -/
def allHandles : List Handle := (List.range 256).map (BitVec.ofNat 8)

/-- The handle of the page whose run holds a slot, found from the runs of the non-FREE pages (R7). -/
def State.slotOwner (s : State) (slot : Nat) : Option Handle :=
  allHandles.find? fun h =>
    (s.page h).any fun p => decide (p.baseSlot ≤ slot ∧ slot < p.baseSlot + p.slotCount)

/-- A STILL page takes a damage report (R7): the flag is set, and unless it is LOADING its state is settled. -/
def Page.damage (p : Page) : Page :=
  match p.kind with
  | .live => p
  | .still =>
    let q := { p with damaged := some true }
    if p.state = .loading then q else q.settle

/-! ## Faults and the words read (R36, R37, R39, R42) -/

/-- A fault offered to the fault capture record (R42). -/
def State.offerFault (s : State) (f : CapturedFault) : State :=
  if s.store.record.locked then
    s.modStore fun st => { st with record := { st.record with multiple := true } }
  else
    (s.modStore fun st => { st with record := { fault := some f, locked := true, multiple := false } }).raiseOperators
      .fault

/-- An address offered to the scrub queue (R39); an offer taken by an empty queue makes its request (R40). -/
def State.offerScrub (s : State) (a : WordAddr) (o : Origin) : State :=
  if s.store.scrub.length < 4 ∧ s.store.scrub.all (fun e => decide (e.addr ≠ a)) = true then
    s.modStore fun st =>
      { st with scrub := st.scrub ++ [{ addr := a, origin := o }]
                scrubWaiting := if st.scrub = [] then true else st.scrubWaiting }
  else s

/-- The corrected-word count rises by 1, up to 65535 (R36). -/
def State.countCorrected (s : State) : State :=
  s.modStore fun st => { st with corrected := min 65535 (st.corrected + 1) }

/-- What an uncorrectable word does besides its effect on the transfer: damage report, fault offer, and
PAGE_DAMAGED where the flag turned, in this order (R37). -/
def State.uncorrectable (s : State) (kind : FaultKind) (o : Origin) (a : WordAddr) : State :=
  let found := s.slotOwner a.slot
  let turned := (found.bind s.page).any fun p => p.damaged = some false
  let owner := (found.bind s.page).map (·.owner)
  let s := match found with
    | some h => s.setPage h Page.damage
    | none => s
  let s := s.offerFault
    { kind := kind, addr := some a, page := found, source := some o, frame := s.scene.frame }
  match turned, owner with
  | true, some p => s.raise p .pageDamaged
  | _, _ => s

/-- The effects of one word read by a SCAN or an EDIT transfer (R36, R37). -/
def State.wordEffect (s : State) (kind : FaultKind) (o : Origin) (a : WordAddr) (c : ReadClass) : State :=
  match c with
  | .clean => s
  | .corrected => s.countCorrected.offerScrub a o
  | .uncorrectable => s.uncorrectable kind o a

/-- The effects of words of a line, in ascending word order (R35). -/
def State.lineEffects (s : State) (kind : FaultKind) (o : Origin) (slot line : Nat) :
    List (Nat × ReadClass) → State
  | [] => s
  | (w, c) :: ws =>
    (s.wordEffect kind o { slot := slot, line := line, word := w } c).lineEffects kind o slot line ws

/-- The classes of a whole line's words, each with its number. -/
def numbered (rs : List WordRead) : List (Nat × ReadClass) :=
  (List.range rs.length).zip (rs.map (·.cls))

/-! ## The window -/

/-- A change of the window state, which raises WINDOW_CHANGE (R159). -/
def State.setWindow (s : State) (w : WindowState) : State :=
  (s.modScene fun e => { e with window := w }).raiseAll .windowChange

end Sys2Proof.Machine
end

