-- ==== Sys2Proof/Machine/Arbiter.lean ====
section
/-! DEFINITION. The arbiter of the DRAM bus (R27 to R30), and the store's entry to and exit from self-refresh
(R33, R34). -/

namespace Sys2Proof.Machine

/-! ## What a grant fixes -/

/-- The bus is given to a transfer. -/
def State.run (s : State) (j : TransferJob) : State :=
  s.modStore fun st => { st with running := some { job := j, discard := false, dropped := false } }

/-- REFRESH is granted. -/
def State.grantRefresh (s : State) : State := s.run .refresh

/-- SCAN is granted to a unit, for the line it last asked for; its number becomes the pointer (R30, R147). -/
def State.grantScan (s : State) (t : Tile) : State :=
  let s := s.modStore fun st => { st with scanWaiting := eraseBit st.scanWaiting t.val, scanPointer := t }
  match s.units[t].fetch with
  | some { source := .slot _ n, requested := r, .. } => s.run (.scan t n (r - 1))
  | _ => s

/-- The slot and line to which the k-th line of a load is written (R49). -/
def loadPlace (p : Page) (m : LoadMode) (k : Nat) : Nat × Nat :=
  let t := p.width * p.height * 256
  let cell := match m with
    | .block first _ _ => first + k / t
    | .ring target _ => target
  let j := k % t
  (p.slotOf cell (j / 256 % p.width) (j / 256 / p.width), j % 256)

/-- LOAD is granted to a channel, for its next line; its number becomes the pointer (R30, R49). -/
def State.grantLoad (s : State) (c : ChanId) : State :=
  let s := s.modStore fun st => { st with loadWaiting := eraseBit st.loadWaiting c.val, loadPointer := c }
  match s.load.chans[c] with
  | some l =>
    match s.page l.page with
    | some p =>
      let at' := loadPlace p l.mode l.linesWritten
      s.run (.load c at'.1 at'.2 (l.buffer.take wordsPerLine))
    | none => s
  | none => s

/-- SCRUB is granted for the head of the scrub queue (R40). -/
def State.grantScrub (s : State) : State :=
  let s := s.modStore fun st => { st with scrubWaiting := false }
  match s.store.scrub with
  | e :: _ => s.run (.scrub e)
  | [] => s

/-- What the EDIT transfer of an edit does next: the one line of a PATCH (R73), or the line of a COPY that
follows the lines moved (R77). -/
def State.editTransfer (s : State) (e : Edit) : Option TransferJob :=
  match e.job with
  | .patch pg cell x y line first plane stipple ws =>
    (s.page pg).map fun p => .patch e.port (p.slotOf cell x y) line first plane stipple ws
  | .copy src sc dst dc k =>
    (s.page dst).bind fun d =>
      let img := k / 256
      let x := img % d.width
      let y := img / d.width
      if isPattern src then some (.copy e.port (.pattern (patternOf src)) (d.slotOf dc x y) (k % 256))
      else (s.page src).map fun p => .copy e.port (.slot (p.slotOf sc x y)) (d.slotOf dc x y) (k % 256)

/-- EDIT is granted for the edit at the head of the edit queue. -/
def State.grantEdit (s : State) : State :=
  let s := s.modStore fun st => { st with editWaiting := false }
  match s.edit.queue with
  | e :: _ =>
    match s.editTransfer e with
    | some j => s.run j
    | none => s
  | [] => s

/-- The numbers after a pointer, upward and round to the pointer itself (R30). -/
def roundRobin (n pointer : Nat) : List Nat := (List.range n).map fun k => (pointer + 1 + k) % n

/-- The unit that step 2 of the grant order chooses (R29, R30). -/
def scanChoice (pointer : Tile) (waiting : BitVec 16) : Option Tile :=
  ((roundRobin 16 pointer.val).find? fun i => waiting.getLsbD i).map (Fin.ofNat 16)

/-- The channel that step 4 of the grant order chooses (R29, R30). -/
def loadChoice (pointer : ChanId) (waiting : BitVec 4) : Option ChanId :=
  ((roundRobin 4 pointer.val).find? fun i => waiting.getLsbD i).map (Fin.ofNat 4)

/-- The DRAM is put in self-refresh, and the entry completion is reported to the scene engine (R33). -/
def State.enterSelfRefresh (s : State) : State :=
  (s.modStore fun st => { st with power := .selfRefresh }).modMail fun w =>
    { w with fromStore := w.fromStore ++ [.entered] }

/-- The grant order of R29, for a store that is AWAKE. -/
def State.grantAwake (s : State) : State :=
  if s.store.debt = 8 then s.grantRefresh
  else
    match scanChoice s.store.scanPointer s.store.scanWaiting with
    | some t => s.grantScan t
    | none =>
      if 1 ≤ s.store.debt then s.grantRefresh
      else
        match loadChoice s.store.loadPointer s.store.loadWaiting with
        | some c => s.grantLoad c
        | none =>
          if s.store.scrubWaiting then s.grantScrub
          else if s.store.editWaiting then s.grantEdit
          else if -8 < s.store.debt then s.grantRefresh
          else s

/-- A grant, where the bus is free (R29); in ENTERING by R33, and none in SELF_REFRESH and EXITING. -/
def State.grant (s : State) : State :=
  if s.store.running.isSome then s
  else
    match s.store.power with
    | .awake => s.grantAwake
    | .entering =>
      if 0 < s.store.debt ∨ s.store.refreshed = false then s.grantRefresh else s.enterSelfRefresh
    | .selfRefresh => s
    | .exiting => s

/-- The bus falls free on the completion of the running transfer, and the arbiter makes a grant (R29). -/
def State.freeBus (s : State) : State := (s.modStore fun st => { st with running := none }).grant

/-- The running transfer is one of a kind, and its outcome has not been dropped by a RESET_WINDOW (R46). -/
def State.runningIs (s : State) (isKind : TransferJob → Bool) : Bool :=
  s.store.running.any fun t => isKind t.job && !t.dropped

/-- The requester of the running transfer will discard its completion, where it is of a kind (R28). -/
def State.discardRunning (s : State) (isKind : TransferJob → Bool) : State :=
  if s.runningIs isKind then
    s.modStore fun st => { st with running := st.running.map fun t => { t with discard := true } }
  else s

/-- A SCAN transfer of a unit. -/
def TransferJob.isScanOf (t : Tile) : TransferJob → Bool
  | .scan u _ _ => u = t
  | _ => false

/-- A LOAD transfer of a channel. -/
def TransferJob.isLoadOf (c : ChanId) : TransferJob → Bool
  | .load d _ _ _ => d = c
  | _ => false

/-- An EDIT transfer. -/
def TransferJob.isEdit : TransferJob → Bool
  | .patch _ _ _ _ _ _ _ => true
  | .copy _ _ _ _ => true
  | _ => false

/-! ## Requests (R28) -/

/-- A unit requests the SCAN of its fetch's next line; the arrival at a free bus makes a grant (R29, R147). -/
def State.requestScan (s : State) (t : Tile) : State :=
  ((s.setUnit t fun u => { u with fetch := u.fetch.map fun f => { f with requested := f.requested + 1 } }).modStore
    fun st => { st with scanWaiting := insertBit st.scanWaiting t.val }).grant

/-- A channel in RUNNING requests a LOAD whenever its buffer holds a line and none of its LOADs is waiting or
running (R49). -/
def State.requestLoad (s : State) (c : ChanId) : State :=
  match s.load.chans[c] with
  | some l =>
    if l.waiting = false ∧ wordsPerLine ≤ l.buffer.length ∧ s.store.loadWaiting.getLsbD c.val = false ∧
        s.runningIs (TransferJob.isLoadOf c) = false then
      (s.modStore fun st => { st with loadWaiting := insertBit st.loadWaiting c.val }).grant
    else s
  | none => s

/-- The edit unit requests an EDIT for the edit at the head of its queue (R69). -/
def State.requestEdit (s : State) : State :=
  if s.edit.queue.isEmpty then s else (s.modStore fun st => { st with editWaiting := true }).grant

/-- The scrub queue requests a SCRUB for its head entry (R40). -/
def State.requestScrub (s : State) : State :=
  if s.store.scrub.isEmpty then s else (s.modStore fun st => { st with scrubWaiting := true }).grant

/-! ## Self-refresh (R33, R34) -/

/-- An entry request reaches the controller (R33). In AWAKE the store becomes ENTERING, and where nothing is
owed, the flag is set and the bus is free, it enters at once. In EXITING the request is kept. -/
def State.entryRequest (s : State) : State :=
  match s.store.power with
  | .awake =>
    let s := s.modStore fun st => { st with power := .entering }
    if s.store.running.isNone ∧ s.store.debt ≤ 0 ∧ s.store.refreshed = true then s.enterSelfRefresh else s
  | .exiting => s.modStore fun st => { st with entryKept := true }
  | .entering => s
  | .selfRefresh => s

/-- An exit request reaches the controller (R34). -/
def State.exitRequest (s : State) : State :=
  match s.store.power with
  | .selfRefresh => s.modStore fun st => { st with power := .exiting }
  | .awake => s
  | .entering => s
  | .exiting => s

end Sys2Proof.Machine
end

