-- ==== Sys2Proof/Machine/Pages.lean ====
section
/-! DEFINITION. The page requests (section 1.7). -/

namespace Sys2Proof.Machine

/-- Some ring load channel is bound to a page (R20). -/
def State.ringBound (s : State) (h : Handle) : Bool :=
  allChans.any fun c => (s.load.chans[c]).any fun l =>
    decide (l.page = h) && (match l.mode with | .ring _ _ => true | .block _ _ _ => false)

/-- Some channel is bound to a page (R51). -/
def State.chanBound (s : State) (h : Handle) : Bool :=
  allChans.any fun c => (s.load.chans[c]).any fun l => decide (l.page = h)

/-! ## CREATE_PAGE (R18, R19) -/

/-- The fields of a CREATE_PAGE that its encodings and ranges admit (R18). -/
def createFieldsOk (kind width height cells rate : Byte) : Bool :=
  decide (1 ≤ width.toNat ∧ width.toNat ≤ 4 ∧ 1 ≤ height.toNat ∧ height.toNat ≤ 4) &&
    match kindField kind with
    | some .still => decide (1 ≤ cells.toNat ∧ cells.toNat ≤ 16 ∧ 1 ≤ rate.toNat)
    | some .live => decide (2 ≤ cells.toNat ∧ cells.toNat ≤ 16)
    | none => false

/-- The lowest FREE handle from 4 to 255 (R19). -/
def State.lowestFree (s : State) : Option Handle :=
  allHandles.find? fun h => !isPattern h && (s.page h).isNone

/-- A new page entry (R19). -/
def newPage (p : Port) (c : Cls) (kind : PageKind) (width height cells rate base : Nat) : Page :=
  { state := match kind with
      | .still => .incomplete
      | .live => .live
    kind := kind, width := width, height := height, cells := cells
    rate := match kind with
      | .still => some rate
      | .live => none
    baseSlot := base, slotCount := width * height * cells, owner := p, shared := false
    showClasses := classesFrom c, writeClasses := classesFrom c, valid := 0, latest := none, pins := 0
    busy := none
    damaged := match kind with
      | .still => some false
      | .live => none }

/-- CREATE_PAGE at the directory (R18, R19). -/
def createPage (kind width height cells rate : Byte) (c : Caller) (s : State) : State :=
  s.checked c
    [ (s.cls c.port ≠ .monitor, .denied),
      (createFieldsOk kind width height cells rate, .badField) ]
    fun s =>
      let longest := longestRun s.dir.free
      let free := freeSlots s.dir.free
      match s.lowestFree, allocRun (width.toNat * height.toNat * cells.toNat) s.dir.free with
      | none, _ => s.reply c .noRoom (.noRoom false longest free)
      | some _, none => s.reply c .noRoom (.noRoom true longest free)
      | some h, some (base, rest) =>
        let pg := newPage c.port (s.cls c.port) ((kindField kind).getD .still) width.toNat height.toNat
          cells.toNat rate.toNat base
        (s.modDir fun d => { d with pages := upd d.pages (handleIndex h) fun _ => some pg, free := rest }).reply c .ok
          (.created h base)

def execCreatePage (h : Hdr) (kind width height cells rate : Byte) (s : State) :
    Host.Outcome State Fault Refusal :=
  .next (serve h 16 (.createPage · kind width height cells rate) false (createPage kind width height cells rate) s)

/-! ## DELETE_PAGE and PURGE_PAGES (R20, R21) -/

/-- DELETE_PAGE at the directory (R20). -/
def deletePage (pg : Handle) (c : Caller) (s : State) : State :=
  s.checked c
    [ (!isPattern pg, .denied),
      ((s.page pg).isSome, .noSuch),
      (s.ownsOrOperates c.port pg, .denied),
      ((s.page pg).any fun p => p.pins = 0, .pinned),
      ((s.page pg).any fun p => p.state ≠ .loading, .state),
      (!s.ringBound pg, .state) ]
    fun s => (s.freePage pg).reply c .ok

def execDeletePage (h : Hdr) (pg : Handle) (s : State) : Host.Outcome State Fault Refusal :=
  .next (serve h 17 (.deletePage · pg) false (deletePage pg) s)

/-- The pages that a PURGE_PAGES deletes (R21). -/
def State.purgeable (s : State) (owner : Port) (unsharedOnly : Bool) (h : Handle) : Bool :=
  !isPattern h && !s.ringBound h &&
    (s.page h).any fun p =>
      decide (p.owner = owner ∧ p.pins = 0 ∧ p.state ≠ .loading) && !(unsharedOnly && p.shared)

/-- PURGE_PAGES at the directory (R21). -/
def purgePages (owner unsharedOnly : Byte) (c : Caller) (s : State) : State :=
  s.checked c
    [ (s.cls c.port = .operator, .denied),
      ((boolField unsharedOnly).isSome, .badField),
      ((portField owner).isSome, .badField) ]
    fun s =>
      match portField owner with
      | some o =>
        let gone := allHandles.filter (s.purgeable o (unsharedOnly = 1))
        (gone.foldl State.freePage s).reply c .ok (.purged gone.length)
      | none => s

def execPurgePages (h : Hdr) (owner unsharedOnly : Byte) (s : State) : Host.Outcome State Fault Refusal :=
  .next (serve h 18 (.purgePages · owner unsharedOnly) false (purgePages owner unsharedOnly) s)

/-! ## SET_PAGE_RIGHTS and QUERY_PAGE (R22, R23) -/

/-- SET_PAGE_RIGHTS at the directory (R22); the shared value is examined after the check of the port (log
entry 9). -/
def setPageRights (pg : Handle) (shared showC writeC : Byte) (c : Caller) (s : State) : State :=
  s.checked c
    [ (!isPattern pg, .denied),
      ((s.page pg).isSome, .noSuch),
      (s.ownsOrOperates c.port pg, .denied),
      ((boolField shared).isSome, .badField),
      ((classSetField showC).isSome && (classSetField writeC).isSome, .badField) ]
    fun s =>
      (s.setPage pg fun p =>
        { p with shared := shared = 1, showClasses := (classSetField showC).getD 0
                 writeClasses := (classSetField writeC).getD 0 }).reply c .ok

def execSetPageRights (h : Hdr) (pg : Handle) (shared showC writeC : Byte) (s : State) :
    Host.Outcome State Fault Refusal :=
  .next (serve h 19 (.setPageRights · pg shared showC writeC) false (setPageRights pg shared showC writeC) s)

/-- What QUERY_PAGE reports of a stored entry (R23). -/
def Page.info (p : Page) : PageInfo :=
  { state := p.state, kind := p.kind, width := p.width, height := p.height, cells := p.cells, rate := p.rate
    baseSlot := some p.baseSlot, slotCount := p.slotCount, owner := some p.owner, shared := p.shared
    showClasses := p.showClasses, writeClasses := p.writeClasses, valid := p.valid, latest := p.latest
    pins := p.pins, busy := p.busy, damaged := p.damaged }

/-- What QUERY_PAGE reports of a pattern page: the fixed values of R2. -/
def patternInfo : PageInfo :=
  { state := .ready, kind := .still, width := 1, height := 1, cells := 1, rate := some 1, baseSlot := none
    slotCount := 0, owner := none, shared := true, showClasses := 0b1110, writeClasses := 0, valid := 1
    latest := none, pins := 0, busy := none, damaged := some false }

/-- QUERY_PAGE at the directory (R23). -/
def queryPage (pg : Handle) (c : Caller) (s : State) : State :=
  s.reply c .ok (.page (if isPattern pg then some patternInfo else (s.page pg).map Page.info))

def execQueryPage (h : Hdr) (pg : Handle) (s : State) : Host.Outcome State Fault Refusal :=
  .next (serve h 20 (.queryPage · pg) false (queryPage pg) s)

end Sys2Proof.Machine
end

