-- ==== Sys2Proof/Machine/Loads.lean ====
section
/-! DEFINITION. The load engine: its requests, the completion of LOAD transfers, and the announcement of latched
cells (chapter 3). -/

namespace Sys2Proof.Machine

/-! ## Beginning a target cell (R59) -/

/-- A ring channel begins its target cell: it waits while some fetch in progress latches that cell, and
otherwise it is RUNNING from 0 and the target leaves the page's valid cells (R59). -/
def State.beginTarget (s : State) (c : ChanId) : State :=
  match s.load.chans[c] with
  | some l =>
    match l.mode with
    | .ring target _ =>
      if (l.page, target) ∈ s.load.latched then s.setChan c fun _ => some { l with waiting := true }
      else
        (s.setChan c fun _ =>
          some { l with waiting := false, mode := .ring target none, wordsReceived := 0, linesWritten := 0
                        check := 0, buffer := [] }).setPage l.page fun p =>
          { p with valid := eraseBit p.valid target }
    | .block _ _ _ => s
  | none => s

/-- The cell after a page's latest, or cell 0 (R53, R60). -/
def Page.nextTarget (p : Page) : Nat :=
  match p.latest with
  | some n => (n + 1) % p.cells
  | none => 0

/-! ## LOAD_BEGIN (R51 to R53) -/

/-- The lowest IDLE channel (R52, R53). -/
def State.idleChan (s : State) : Option ChanId := allChans.find? fun c => (s.load.chans[c]).isNone

/-- The checks of a LOAD_BEGIN, in order (R51). -/
def loadBeginTests (pg : Handle) (mode first count : Byte) (p : Port) (s : State) : List Test :=
  let entry := s.page pg
  [ (!isPattern pg, .denied),
    (entry.isSome, .noSuch),
    ((modeField mode).isSome, .badField),
    (s.writeRight p pg, .denied) ] ++
  (if mode = 0 then
    [ (entry.any fun e => e.state = .incomplete || e.state = .ready || e.state = .damaged, .state),
      (entry.any fun e => e.pins = 0, .pinned),
      (entry.any fun e => decide (1 ≤ count.toNat ∧ first.toNat + count.toNat ≤ e.cells), .badField) ]
  else
    [ (entry.any fun e => e.kind = .live, .state),
      (!s.chanBound pg, .state) ]) ++
  [ (s.idleChan.isSome, .busy),
    (s.window = .lit, .dark) ]

/-- LOAD_BEGIN at the load engine and the directory (R52, R53). -/
def loadBegin (pg : Handle) (mode first count : Byte) (check : Check) (c : Caller) (s : State) : State :=
  s.checked c (loadBeginTests pg mode first count c.port s) fun s =>
    match s.idleChan, s.page pg with
    | some ch, some p =>
      let image := p.width * p.height * wordsPerImage
      if mode = 0 then
        let l : Load :=
          { waiting := false, mode := .block first.toNat count.toNat check, port := c.port, page := pg
            wordsExpected := count.toNat * image, wordsReceived := 0, linesWritten := 0, check := 0, buffer := [] }
        ((s.setChan ch fun _ => some l).setPage pg fun p =>
          { p with state := .loading, valid := dropCells p.valid (cellRange first.toNat count.toNat) }).reply c .ok
          (.channel ch)
      else
        let l : Load :=
          { waiting := false, mode := .ring p.nextTarget none, port := c.port, page := pg, wordsExpected := image
            wordsReceived := 0, linesWritten := 0, check := 0, buffer := [] }
        ((s.setChan ch fun _ => some l).beginTarget ch).reply c .ok (.channel ch)
    | _, _ => s

def execLoadBegin (h : Hdr) (pg : Handle) (mode first count : Byte) (check : Check) (s : State) :
    Host.Outcome State Fault Refusal :=
  .next (serve h 32 (.loadBegin · pg mode first count check) false (loadBegin pg mode first count check) s)

/-! ## DATA (R54) -/

/-- The load bound to a port on the channel a field names. -/
def State.boundLoad (s : State) (ch : Byte) (p : Port) : Option Load :=
  (chanField ch).bind fun c => (s.load.chans[c]).filter fun l => l.port = p

/-- A ring channel is not waiting for its target, nor for the last line of its cell (R54). -/
def Load.takesData (l : Load) : Bool :=
  match l.mode with
  | .ring _ _ => !l.waiting && decide (l.wordsReceived ≠ l.wordsExpected)
  | .block _ _ _ => true

/-- A cell check is carried exactly where the rule asks for one (R54). -/
def Load.cellCheckOk (l : Load) (presence : Byte) (n : Nat) : Bool :=
  match boolField presence with
  | none => false
  | some present =>
    match l.mode with
    | .ring _ _ => present == decide (l.wordsReceived + n = l.wordsExpected)
    | .block _ _ _ => !present

/-- The checks of a DATA, in order (R54). -/
def dataTests (ch presence : Byte) (ws : List Word) (p : Port) (s : State) : List Test :=
  let l := s.boundLoad ch p
  [ ((chanField ch).isSome && decide (1 ≤ ws.length ∧ ws.length ≤ 256), .badField),
    (s.window = .lit, .dark),
    (l.isSome, .notHolder),
    (l.any Load.takesData, .wait),
    (l.any fun l => decide (l.wordsReceived + ws.length ≤ l.wordsExpected), .overrun),
    (l.any fun l => l.cellCheckOk presence ws.length, .badField),
    (l.any fun l => decide (l.buffer.length + ws.length ≤ 512), .wait) ]

/-- A load with the words of a DATA accepted (R50, R54). -/
def Load.accept (l : Load) (presence : Byte) (check : Check) (ws : List Word) : Load :=
  { l with buffer := l.buffer ++ ws, wordsReceived := l.wordsReceived + ws.length, check := l.check + checkSum ws
           mode := match l.mode with
             | .ring t k => .ring t (if presence = 1 then some check else k)
             | .block f n e => .block f n e }

/-- DATA at the load engine (R54). -/
def data (ch presence : Byte) (check : Check) (ws : List Word) (c : Caller) (s : State) : State :=
  s.checked c (dataTests ch presence ws c.port s) fun s =>
    match chanField ch with
    | some k => ((s.setChan k (·.map fun l => l.accept presence check ws)).reply c .ok).requestLoad k
    | none => s

def execData (h : Hdr) (ch presence : Byte) (check : Check) (ws : List Word) (s : State) :
    Host.Outcome State Fault Refusal :=
  .next (serve h 33 (.data · ch presence check ws) false (data ch presence check ws) s)

/-! ## Ending a load early (R65, R66) -/

/-- A channel's load is aborted: its waiting LOAD is withdrawn, a running one is discarded, the channel becomes
IDLE, and the page of a BLOCK load is settled (R65). The event of the cause is raised by the caller. -/
def State.abortLoad (s : State) (c : ChanId) : State :=
  match s.load.chans[c] with
  | some l =>
    let s := (s.modStore fun st => { st with loadWaiting := eraseBit st.loadWaiting c.val }).discardRunning
      (TransferJob.isLoadOf c)
    let s := s.setChan c fun _ => none
    match l.mode with
    | .block _ _ _ => s.setPage l.page Page.settle
    | .ring _ _ => s
  | none => s

/-- LOAD_ABORT at the load engine (R66). -/
def loadAbort (ch : Byte) (c : Caller) (s : State) : State :=
  let l := (chanField ch).bind fun k => s.load.chans[k]
  s.checked c
    [ ((chanField ch).isSome, .badField),
      (l.isSome, .state),
      (l.any fun l => decide (l.port = c.port ∨ s.cls c.port = .operator), .notHolder) ]
    fun s =>
      match chanField ch, l with
      | some k, some l =>
        let s := s.abortLoad k
        (if l.port = c.port then s else s.raise l.port .loadFailed).reply c .ok
      | _, _ => s

def execLoadAbort (h : Hdr) (ch : Byte) (s : State) : Host.Outcome State Fault Refusal :=
  .next (serve h 34 (.loadAbort · ch) false (loadAbort ch) s)

/-! ## QUERY_CHANNEL (R67) -/

/-- What QUERY_CHANNEL reports of a channel that is not IDLE (R67). -/
def Load.info (l : Load) : ChanInfo :=
  { waiting := l.waiting, mode := l.mode, port := l.port, page := l.page, wordsExpected := l.wordsExpected
    wordsReceived := l.wordsReceived, linesWritten := l.linesWritten, check := l.check
    buffered := l.buffer.length }

/-- QUERY_CHANNEL at the load engine (R67). -/
def queryChannel (ch : Byte) (c : Caller) (s : State) : State :=
  s.checked c [((chanField ch).isSome, .badField)] fun s =>
    s.reply c .ok (.chan (((chanField ch).bind fun k => s.load.chans[k]).map Load.info))

def execQueryChannel (h : Hdr) (ch : Byte) (s : State) : Host.Outcome State Fault Refusal :=
  .next (serve h 35 (.queryChannel · ch) false (queryChannel ch) s)

/-! ## Completion of a LOAD transfer (R49, R56, R57, R60, R61) -/

/-- A BLOCK load ends with its last line written (R56, R57). -/
def State.endBlock (s : State) (c : ChanId) (l : Load) (first count : Nat) (expected : Check) : State :=
  let s := s.setChan c fun _ => none
  if l.check = expected then
    (s.setPage l.page fun p =>
      Page.settle
        { p with valid := addCells p.valid (cellRange first count)
                 damaged := if first = 0 ∧ count = p.cells then some false else p.damaged }).raise l.port .loadDone
  else (s.setPage l.page Page.settle).raise l.port .loadFailed

/-- A ring cell ends with its last line written (R60, R61). -/
def State.endCell (s : State) (c : ChanId) (l : Load) (target : Nat) (cellCheck : Option Check) : State :=
  if cellCheck = some l.check then
    let s := s.setPage l.page fun p => { p with valid := insertBit p.valid target, latest := some target }
    let next := ((s.page l.page).map Page.nextTarget).getD target
    (s.setChan c (·.map fun l => { l with mode := .ring next none })).beginTarget c
  else (s.beginTarget c).raise l.port .cellFailed

/-- A channel is told of the completion of its LOAD: 256 words leave its buffer and lines written rises; with
the last line written, the load or the cell ends; otherwise the next request is made (R49). -/
def State.lineLoaded (s : State) (c : ChanId) : State :=
  let s := s.setChan c (·.map fun l =>
    { l with buffer := l.buffer.drop wordsPerLine, linesWritten := l.linesWritten + 1 })
  match s.load.chans[c] with
  | some l =>
    if l.linesWritten * wordsPerLine = l.wordsExpected then
      match l.mode with
      | .block first count expected => s.endBlock c l first count expected
      | .ring target cellCheck => s.endCell c l target cellCheck
    else s.requestLoad c
  | none => s

/-- LOAD_COMPLETE: the line is in memory, the bus falls free, and the channel is told, unless it discards the
completion (R27, R49, R65); a dropped transfer writes nothing (R46). -/
def loadComplete (s : State) : State :=
  match s.store.running with
  | some { job := .load c slot line ws, discard := discard, dropped := dropped } =>
    if dropped then s.freeBus
    else
      let s := (s.modStore fun st => st.writeWords slot line 0 ws).freeBus
      if discard then s.requestLoad c else s.lineLoaded c
  | _ => s

def execLoadComplete (s : State) : Host.Outcome State Fault Refusal := .next (loadComplete s)

/-! ## The announcement of latched cells (R62, R63) -/

/-- A channel in WAIT_CELL compares its target with the latched set (R63). -/
def State.recheckWaiting (s : State) (c : ChanId) : State :=
  match s.load.chans[c] with
  | some l => if l.waiting then s.beginTarget c else s
  | none => s

/-- LATCHED_CELL_ANNOUNCEMENT: the oldest announcement under way replaces the latched set whole, and every
waiting channel looks again (R62, R63). -/
def latchedCellAnnouncement (s : State) : State :=
  match s.mail.toLoad with
  | a :: rest =>
    let s := (s.modMail fun w => { w with toLoad := rest }).modLoad fun l => { l with latched := a }
    allChans.foldl State.recheckWaiting s
  | [] => s

def execLatchedCellAnnouncement (s : State) : Host.Outcome State Fault Refusal :=
  .next (latchedCellAnnouncement s)

end Sys2Proof.Machine
end

