-- ==== Sys2Proof/Machine/Edits.lean ====
section
/-! DEFINITION. The edit unit: PATCH, COPY and CANCEL_EDIT, the completion of EDIT transfers, and the end of the
edits at dark entry (chapter 4). -/

namespace Sys2Proof.Machine

/-! ## What is on screen (R71) -/

/-- A scene names a page. -/
def names (sc : Scene) (h : Handle) : Bool := sc.any fun p => p.page = h

/-- The scene of a zone's armed item (R71). -/
def State.armedScene (s : State) (z : ZoneId) : Option Scene :=
  match (s.zone z).armed with
  | some .cut => (s.zone z).cuts.head?.map (·.scene)
  | some (.gate g _ _) => (s.gate g).map (·.scene)
  | some .ret => (s.zone z).stack.getLast?.map (·.scene)
  | none => none

/-- A page is on screen while a zone's current scene or the scene of a zone's armed item names it (R71). -/
def State.onScreen (s : State) (h : Handle) : Bool :=
  allZones.any fun z => names (s.zone z).current.scene h || (s.armedScene z).any (names · h)

/-! ## The edit queue (R68, R69) -/

/-- A port has an edit in the edit queue. -/
def State.hasEdit (s : State) (p : Port) : Bool := s.edit.queue.any fun e => e.port = p

/-- To whom the reply to an edit goes. -/
def Edit.caller (e : Edit) : Caller :=
  { port := e.port, tag := e.tag
    code := match e.job with
      | .patch _ _ _ _ _ _ _ _ _ => 48
      | .copy _ _ _ _ _ => 49 }

/-- An accepted edit joins the tail of the queue; in an empty queue it runs at once (R69). -/
def State.enqueueEdit (s : State) (e : Edit) : State :=
  let first := s.edit.queue.isEmpty
  let s := s.modEdit fun u => { u with queue := u.queue ++ [e] }
  if first then s.requestEdit else s

/-- The pins of an edit are released and its busy marks cleared; the destination of a COPY, its cell made valid
where the COPY completed, leaves LOADING and is settled (R69, R74, R78). -/
def State.releaseEdit (s : State) (e : Edit) (done : Bool) : State :=
  match e.job with
  | .patch pg _ _ _ _ _ _ _ _ => (s.unpin pg).setPage pg fun p => { p with busy := none }
  | .copy src _ dst cell _ =>
    let s := (s.unpin dst).setPage dst fun p =>
      Page.settle { p with busy := none, valid := if done then insertBit p.valid cell else p.valid }
    if isPattern src then s else (s.unpin src).setPage src fun p => { p with busy := none }

/-- The scene engine takes an end report; with both taken it sends the entry request (R164). -/
def State.takeEnds (s : State) (f : EndReports → EndReports) : State :=
  match s.scene.waitEnds.map f with
  | some { loads := true, edits := true } => (s.modScene fun e => { e with waitEnds := none }).entryRequest
  | w => s.modScene fun e => { e with waitEnds := w }

/-- The edit unit, asked for the end of the edits, reports it when its queue is empty (R81, R164). -/
def State.reportEditsEnded (s : State) : State :=
  if s.edit.endAsked = true ∧ s.edit.queue = [] then
    (s.modEdit fun u => { u with endAsked := false }).takeEnds fun w => { w with edits := true }
  else s

/-- The running edit has left the queue: the next edit runs and makes its first request (R69). -/
def State.nextEdit (s : State) : State := s.requestEdit

/-- An edit that has not completed is taken out of the queue: a running one has its waiting EDIT withdrawn or
its granted EDIT discarded, and the next edit runs (R69, R79, R80). -/
def State.removeEdit (s : State) (e : Edit) : State :=
  let running := s.edit.queue.head? = some e
  let s := (s.modEdit fun u => { u with queue := u.queue.erase e }).releaseEdit e false
  if running then
    ((s.modStore fun st => { st with editWaiting := false }).discardRunning TransferJob.isEdit).nextEdit
  else s

/-! ## PATCH (R70 to R72) -/

/-- The checks of a PATCH, in order (R70). -/
def patchTests (pg : Handle) (cell col row line first : Byte) (n : Nat) (p : Port) (s : State) : List Test :=
  let entry := s.page pg
  [ (!isPattern pg, .denied),
    (entry.isSome, .noSuch),
    (entry.any fun e => e.kind = .still, .state),
    ((entry.any fun e => decide (cell.toNat < e.cells ∧ col.toNat < e.width ∧ row.toNat < e.height)) &&
      decide (line.toNat < 256 ∧ first.toNat < 256 ∧ 1 ≤ n ∧ n ≤ 256 ∧ first.toNat + n ≤ 256), .badField),
    (s.writeRight p pg, .denied),
    (entry.any fun e => e.state = .incomplete || e.state = .ready || e.state = .damaged, .state),
    (entry.any fun e => e.valid.getLsbD cell.toNat, .state),
    (!s.onScreen pg, .shown),
    (entry.any fun e => e.busy = none, .busy),
    (!s.hasEdit p, .busy),
    (s.window = .lit, .dark) ]

/-- PATCH at the edit unit (R72); no reply is sent at acceptance. -/
def patch (pg : Handle) (cell col row line first : Byte) (plane stipple : BitVec 32) (ws : List Word)
    (c : Caller) (s : State) : State :=
  s.checked c (patchTests pg cell col row line first ws.length c.port s) fun s =>
    ((s.pin pg).setPage pg fun p => { p with busy := some (c.port, .patchTarget) }).enqueueEdit
      { port := c.port, tag := c.tag
        job := .patch pg cell.toNat col.toNat row.toNat line.toNat first.toNat plane stipple ws }

def execPatch (h : Hdr) (pg : Handle) (cell col row line first : Byte) (plane stipple : BitVec 32)
    (ws : List Word) (s : State) : Host.Outcome State Fault Refusal :=
  .next (serve h 48 (.patch · pg cell col row line first plane stipple ws) false
    (patch pg cell col row line first plane stipple ws) s)

/-! ## COPY (R75, R76) -/

/-- The state of a COPY's source, READY for a pattern page (R2, R75). -/
def State.sourceState (s : State) (h : Handle) : Option PageState :=
  if isPattern h then some .ready else (s.page h).map (·.state)

/-- The checks of a COPY, in order (R75). -/
def copyTests (src : Handle) (sc : Byte) (dst : Handle) (dc : Byte) (p : Port) (s : State) : List Test :=
  let d := s.page dst
  [ (!isPattern dst, .denied),
    (s.isPage src, .noSuch),
    (d.isSome, .noSuch),
    (decide (sc.toNat < s.pageCells src ∧ dc.toNat < s.pageCells dst), .badField),
    (src ≠ dst, .badField),
    (decide (s.pageSize src = s.pageSize dst), .badField),
    (s.showRight p src, .denied),
    (decide (s.sourceState src ≠ some .damaged), .sourceDamaged),
    (decide (s.sourceState src = some .ready), .state),
    (isPattern src || (s.page src).any fun e => e.busy = none, .busy),
    (s.writeRight p dst, .denied),
    (d.any fun e => e.state = .incomplete || e.state = .ready, .state),
    (d.any fun e => e.pins = 0, .pinned),
    (!s.hasEdit p, .busy),
    (s.window = .lit, .dark) ]

/-- COPY at the edit unit (R76); no reply is sent at acceptance. -/
def copy (src : Handle) (sc : Byte) (dst : Handle) (dc : Byte) (c : Caller) (s : State) : State :=
  s.checked c (copyTests src sc dst dc c.port s) fun s =>
    let s := (s.pin dst).setPage dst fun p =>
      { p with busy := some (c.port, .copyDest), state := .loading, valid := eraseBit p.valid dc.toNat }
    let s := if isPattern src then s
      else (s.pin src).setPage src fun p => { p with busy := some (c.port, .copySource) }
    s.enqueueEdit { port := c.port, tag := c.tag, job := .copy src sc.toNat dst dc.toNat 0 }

def execCopy (h : Hdr) (src : Handle) (sc : Byte) (dst : Handle) (dc : Byte) (s : State) :
    Host.Outcome State Fault Refusal :=
  .next (serve h 49 (.copy · src sc dst dc) false (copy src sc dst dc) s)

/-! ## CANCEL_EDIT and the end of the edits (R79, R81) -/

/-- The running PATCH, which is never cancelled (R79). -/
def State.runsPatch (s : State) (e : Edit) : Bool :=
  decide (s.edit.queue.head? = some e) && match e.job with
    | .patch _ _ _ _ _ _ _ _ _ => true
    | .copy _ _ _ _ _ => false

/-- CANCEL_EDIT at the edit unit (R79). -/
def cancelEdit (c : Caller) (s : State) : State :=
  match s.edit.queue.find? fun e => e.port = c.port with
  | none => s.reply c .noSuch
  | some e =>
    if s.runsPatch e then s.reply c .state
    else ((s.reply c .ok).reply e.caller .cancelled).removeEdit e

def execCancelEdit (h : Hdr) (s : State) : Host.Outcome State Fault Refusal :=
  .next (serve h 50 .cancelEdit false cancelEdit s)

/-- The edit-end request: every edit but a running PATCH is cancelled and answered CANCELLED, those behind the
running edit first; the end is reported when the queue is empty (R81). -/
def State.endEdits (s : State) : State :=
  let s := s.modEdit fun u => { u with endAsked := true }
  let s := s.edit.queue.reverse.foldl
    (fun s e => if s.runsPatch e then s else (s.removeEdit e).reply e.caller .cancelled) s
  s.reportEditsEnded

/-! ## Completion of EDIT transfers (R73, R74, R77, R78) -/

/-- A pixel of a line is selected by a stipple (R73). -/
def selected (stipple : BitVec 32) (pixel : Nat) : Bool := stipple.getLsbD (pixel % 32)

/-- A word of a run is overwritten whole, and so is not read (R73). -/
def wholeWord (plane stipple : BitVec 32) (word : Nat) : Bool :=
  decide (plane = BitVec.allOnes 32) && selected stipple (2 * word) && selected stipple (2 * word + 1)

/-- The value of a pixel after a PATCH (R73). -/
def mergePixel (plane : BitVec 32) (sel : Bool) (old new : Pixel) : Pixel :=
  if sel then (old &&& ~~~plane) ||| (new &&& plane) else old

/-- The value of a word after a PATCH (R73). -/
def mergeWord (plane stipple : BitVec 32) (word : Nat) (old new : Word) : Word :=
  Word.ofPixels (mergePixel plane (selected stipple (2 * word)) old.lowPixel new.lowPixel)
    (mergePixel plane (selected stipple (2 * word + 1)) old.highPixel new.highPixel)

/-- The words of a run that a PATCH reads, each with its class, in ascending order (R38, R73). -/
def patchReads (st : Store) (slot line : Nat) (plane stipple : BitVec 32) (word : Nat) :
    List Word → List (Nat × ReadClass)
  | [] => []
  | _ :: ws =>
    let rest := patchReads st slot line plane stipple (word + 1) ws
    if wholeWord plane stipple word then rest else (word, (st.readWord slot line word).cls) :: rest

/-- The run of a PATCH is written: a word overwritten whole is written as given, any other is merged with the
data read, and one that read UNCORRECTABLE is left as it is (R38, R73). The merged word's fresh check bits end the error
of a word that read CORRECTED, though R36 says that it still stands: the choice is the model's (log entry 31). -/
def Store.patchWords (st : Store) (slot line : Nat) (plane stipple : BitVec 32) (word : Nat) :
    List Word → Store
  | [] => st
  | w :: ws =>
    let r := st.readWord slot line word
    let st' :=
      if wholeWord plane stipple word then st.writeWord slot line word w
      else if r.cls = .uncorrectable then st
      else st.writeWord slot line word (mergeWord plane stipple word r.data w)
    st'.patchWords slot line plane stipple (word + 1) ws

/-- The edit unit is told of the completion of a PATCH, with the number of words left unwritten (R74). -/
def State.patchDone (s : State) (unwritten : Nat) : State :=
  match s.edit.queue with
  | e :: rest =>
    let s := (s.modEdit fun u => { u with queue := rest }).releaseEdit e true
    let s := if unwritten = 0 then s.reply e.caller .ok else s.reply e.caller .damagedWords (.unwritten unwritten)
    s.nextEdit.reportEditsEnded
  | [] => s

/-- PATCH_EDIT_COMPLETE: the words are read and written, their effects given, the bus falls free, and the edit
unit is told, unless it discards the completion (R35, R38, R73, R74, R80). -/
def patchEditComplete (errors : BitErrors) (s : State) : State :=
  match s.store.running with
  | some { job := .patch p slot line first plane stipple ws, discard := discard, dropped := dropped } =>
    if dropped then s.freeBus
    else
      let st := s.store.disturb slot line errors
      let reads := patchReads st slot line plane stipple first ws
      let s := s.modStore fun _ => st.patchWords slot line plane stipple first ws
      let s := (s.lineEffects .patchUncorrectable (.port p) slot line reads).freeBus
      if discard then s else s.patchDone (reads.countP fun r => r.2 = .uncorrectable)
  | _ => s

def execPatchEditComplete (errors : BitErrors) (s : State) : Host.Outcome State Fault Refusal :=
  .next (patchEditComplete errors s)

/-- The edit unit is told that a line of the running COPY has been moved: it completes after its last line, and
otherwise requests its next one (R77, R78). -/
def State.copyMoved (s : State) : State :=
  match s.edit.queue with
  | { port := p, tag := tag, job := .copy src sc dst dc k } :: rest =>
    let size := s.pageSize dst
    let e : Edit := { port := p, tag := tag, job := .copy src sc dst dc (k + 1) }
    if k + 1 = size.1 * size.2 * 256 then
      (((s.modEdit fun u => { u with queue := rest }).releaseEdit e true).reply e.caller .ok).nextEdit.reportEditsEnded
    else (s.modEdit fun u => { u with queue := e :: rest }).requestEdit
  | _ => s

/-- The edit unit is told that a source line was damaged: the COPY stops (R78). -/
def State.copyStopped (s : State) : State :=
  match s.edit.queue with
  | e :: rest =>
    (((s.modEdit fun u => { u with queue := rest }).releaseEdit e false).reply e.caller
      .sourceDamaged).nextEdit.reportEditsEnded
  | [] => s

/-- COPY_LINE_COMPLETE: the source line is read, its effects given, and the line written where it read no
UNCORRECTABLE word; the bus falls free, and the edit unit is told, unless it discards the completion. A line of
a pattern page is formed from its picture and reads nothing (R35, R38, R77). -/
def copyLineComplete (errors : BitErrors) (s : State) : State :=
  match s.store.running with
  | some { job := .copy p src dest line, discard := discard, dropped := dropped } =>
    if dropped then s.freeBus
    else
      match src with
      | .pattern q =>
        let s := (s.modStore fun st => st.writeWords dest line 0 (patternLine q line)).freeBus
        if discard then s else s.copyMoved
      | .slot n =>
        let st := s.store.disturb n line errors
        let reads := st.readLine n line
        let bad := reads.any fun r => r.cls = .uncorrectable
        let s := s.modStore fun _ => if bad then st else st.writeWords dest line 0 (reads.map (·.data))
        let s := (s.lineEffects .copyUncorrectable (.port p) n line (numbered reads)).freeBus
        if discard then s else if bad then s.copyStopped else s.copyMoved
  | _ => s

def execCopyLineComplete (errors : BitErrors) (s : State) : Host.Outcome State Fault Refusal :=
  .next (copyLineComplete errors s)

end Sys2Proof.Machine
end

