-- ==== Sys2Proof/Machine/Zones.lean ====
section
/-! DEFINITION. Zones and claims: cuts leaving a queue, the six zone requests, and the release of a zone
(chapter 5). -/

namespace Sys2Proof.Machine

/-! ## A cut leaves its queue (R104, R105) -/

/-- A log with one more entry: it keeps the newest 8 (R104). -/
def appendLog (l : List LogEntry) (e : LogEntry) : List LogEntry :=
  (l ++ [e]).drop (l.length + 1 - 8)

/-- The outcome of a cut is logged with the frame now current (R104). -/
def State.logCut (s : State) (z : ZoneId) (c : Cut) (o : CutOutcome) : State :=
  let e : LogEntry := { label := c.label, target := c.target, port := c.port, outcome := o, frame := s.scene.frame }
  s.setZone z fun zn => { zn with log := appendLog zn.log e }

/-- A cut leaves its queue, those behind it keeping their order (R105). -/
def State.takeCut (s : State) (z : ZoneId) (c : Cut) : State :=
  s.setZone z fun zn => { zn with cuts := zn.cuts.erase c }

/-- A cut leaves its queue with its pages unpinned, and its outcome is logged. -/
def State.loseCut (s : State) (z : ZoneId) (o : CutOutcome) (c : Cut) : State :=
  ((s.takeCut z c).unpinScene c.scene).logCut z c o

/-- Nothing is armed on a zone. -/
def State.disarm (s : State) (z : ZoneId) : State := s.setZone z fun zn => { zn with armed := none }

/-- The fetch in progress of a zone is of its armed item (R103). -/
def Zone.fetched (zn : Zone) : Bool := zn.fetch.any (·.armed)

/-! ## SET_ZONE (R87, R88) -/

/-- A rectangle covers a position (R86). -/
def Rect.covers (r : Rect) (p : Nat × Nat) : Bool :=
  decide (r.col ≤ p.1 ∧ p.1 < r.col + r.cols ∧ r.row ≤ p.2 ∧ p.2 < r.row + r.rows)

/-- Two rectangles have a position in common. -/
def Rect.meets (a b : Rect) : Bool :=
  decide (a.col < b.col + b.cols ∧ b.col < a.col + a.cols ∧ a.row < b.row + b.rows ∧ b.row < a.row + a.rows)

/-- Some gate is DEFINED, INVOKED or ACTIVE on a zone. -/
def State.gateOn (s : State) (z : ZoneId) : Bool := allGates.any fun g => (s.gate g).any fun e => e.zone = z

/-- A zone is idle (R87). -/
def State.idleZone (s : State) (z : ZoneId) : Bool :=
  let zn := s.zone z
  decide (zn.current.scene = [] ∧ zn.cuts = [] ∧ zn.stack = [] ∧ zn.armed = none) &&
    (match zn.pend with
      | some (.invocation _ _) => false
      | _ => true) &&
    !s.gateOn z

/-- The checks of a SET_ZONE, in order (R87). The zone must be idle for the rectangle it already has as well: the last
sentence of R87 could be read otherwise, and the choice is the model's (log entry 29). -/
def setZoneTests (zone presence : Byte) (r : Rect) (p : Port) (s : State) : List Test :=
  let named := presence = 1
  [ (s.cls p = .operator, .denied),
    ((boolField presence).isSome, .badField),
    ((zoneField zone).isSome, .badField),
    (!named || s.scene.grid.any fun g =>
      decide (1 ≤ r.cols ∧ 1 ≤ r.rows ∧ r.col + r.cols ≤ g.cols ∧ r.row + r.rows ≤ g.rows), .badField),
    (!named || allZones.all fun y => decide (y.val = zone.toNat) || !((s.zone y).rect.any (Rect.meets r)),
      .badField),
    ((zoneField zone).any s.idleZone, .state) ]

/-- A tile passes from the background to a zone, or back, with its memberships (R88). -/
def State.moveTile (s : State) (z : ZoneId) (into : Bool) (t : Tile) : State :=
  let b := s.scene.background
  let zn := s.zone z
  let s := s.setUnit t fun u => { u with ctx := some (if into then .zone z else .background) }
  if into then
    (s.setZone z fun zn =>
      { zn with inStep := if b.inStep.getLsbD t.val then insertBit zn.inStep t.val else zn.inStep
                delivered := if b.delivered.getLsbD t.val then insertBit zn.delivered t.val else zn.delivered }).modScene
      fun e => { e with background := { b with inStep := eraseBit b.inStep t.val
                                               delivered := eraseBit b.delivered t.val } }
  else
    (s.setZone z fun zn =>
      { zn with inStep := eraseBit zn.inStep t.val, delivered := eraseBit zn.delivered t.val }).modScene
      fun e => { e with background :=
        { b with inStep := if zn.inStep.getLsbD t.val then insertBit b.inStep t.val else b.inStep
                 delivered := if zn.delivered.getLsbD t.val then insertBit b.delivered t.val else b.delivered } }

/-- A zone is given a rectangle or left unset, and the tiles whose membership changes pass (R88). -/
def State.reshape (s : State) (z : ZoneId) (new : Option Rect) : State :=
  let old := (s.zone z).rect
  let s := s.setZone z fun zn => { zn with rect := new }
  allTiles.foldl
    (fun s t =>
      match s.units[t].position with
      | some p =>
        let was := old.any (·.covers p)
        let now := new.any (·.covers p)
        if was = now then s else s.moveTile z now t
      | none => s) s

/-- SET_ZONE at the scene engine (R87, R88). -/
def setZone (zone presence col row cols rows : Byte) (c : Caller) (s : State) : State :=
  let r : Rect := { col := col.toNat, row := row.toNat, cols := cols.toNat, rows := rows.toNat }
  s.checked c (setZoneTests zone presence r c.port s) fun s =>
    match zoneField zone with
    | some z =>
      if presence = 1 then (s.reshape z (some r)).reply c .ok
      else
        let held := (s.zone z).holder
        let s := (s.reshape z none).setZone z fun zn => { zn with holder := none }
        (match held with
          | some p => if p = c.port then s else s.raise p .zoneLost
          | none => s).reply c .ok
    | none => s

def execSetZone (h : Hdr) (zone presence col row cols rows : Byte) (s : State) :
    Host.Outcome State Fault Refusal :=
  .next (serve h 64 (.setZone · zone presence col row cols rows) false
    (setZone zone presence col row cols rows) s)

/-! ## Claims (R89 to R94) -/

/-- The holder of the zone a field names, none for a field that names no zone (R89). -/
def State.holderOf (s : State) (zone : Byte) : Option Port := (zoneField zone).bind fun z => (s.zone z).holder

/-- The zone a field names is set. -/
def State.zoneSet (s : State) (zone : Byte) : Bool := (zoneField zone).any fun z => (s.zone z).rect.isSome

/-- The class of a port is PLAYOUT or OPERATOR. -/
def State.playsOut (s : State) (p : Port) : Bool := decide (2 ≤ (s.cls p).value)

/-- The holder of a zone changes, and with it the submitting port of every cut that is not released
(R93, R94). -/
def State.passZone (s : State) (z : ZoneId) (p : Port) : State :=
  s.setZone z fun zn =>
    { zn with holder := some p, cuts := zn.cuts.map fun c => if c.released then c else { c with port := p } }

/-- A zone is released: its unarmed cuts are discarded from the head to the tail, and an armed one stays as a
released cut where the fetch in progress is of it, and is discarded otherwise (R91, R92, log entry 15). -/
def State.releaseZone (s : State) (z : ZoneId) : State :=
  let zn := s.zone z
  let cutArmed := decide (zn.armed = some .cut)
  let stays := cutArmed && zn.fetched
  let gone := if stays then zn.cuts.tail else zn.cuts
  let s := s.setZone z fun zn =>
    { zn with holder := none
              armed := if cutArmed && !stays then none else zn.armed
              cuts := if stays then (zn.cuts.take 1).map (fun c => { c with released := true }) ++ zn.cuts.tail
                else zn.cuts }
  gone.foldl (fun s c => s.loseCut z .discarded c) s

/-- CLAIM_ZONE at the scene engine (R90). -/
def claimZone (zone : Byte) (c : Caller) (s : State) : State :=
  let prev := s.holderOf zone
  s.checked c
    [ (s.playsOut c.port, .denied),
      ((zoneField zone).isSome, .badField),
      (s.zoneSet zone, .state),
      (prev = none ∨ prev = some c.port, .held) ]
    (fun s =>
      match zoneField zone with
      | some z =>
        (s.setZone z fun zn => { zn with holder := some c.port }).reply c .ok
          (.holder prev (some (prev = some c.port)))
      | none => s)
    (.holder prev (some false))

def execClaimZone (h : Hdr) (zone : Byte) (s : State) : Host.Outcome State Fault Refusal :=
  .next (serve h 65 (.claimZone · zone) false (claimZone zone) s)

/-- RELEASE_ZONE at the scene engine (R91, R92). -/
def releaseZone (zone : Byte) (c : Caller) (s : State) : State :=
  let prev := s.holderOf zone
  s.checked c
    [ ((zoneField zone).isSome, .badField),
      (s.zoneSet zone, .state),
      (prev = some c.port, .notHolder) ]
    (fun s =>
      match zoneField zone with
      | some z => (s.releaseZone z).reply c .ok (.holder prev none)
      | none => s)
    (.holder prev none)

def execReleaseZone (h : Hdr) (zone : Byte) (s : State) : Host.Outcome State Fault Refusal :=
  .next (serve h 66 (.releaseZone · zone) false (releaseZone zone) s)

/-- HAND_OVER at the scene engine (R93). -/
def handOver (zone port : Byte) (c : Caller) (s : State) : State :=
  let prev := s.holderOf zone
  s.checked c
    [ ((zoneField zone).isSome && (portField port).isSome, .badField),
      (s.zoneSet zone, .state),
      (prev = some c.port, .notHolder),
      ((portField port).any fun p => s.ports[p].up && s.playsOut p, .badField) ]
    (fun s =>
      match zoneField zone, portField port with
      | some z, some p => (if p = c.port then s else s.passZone z p).reply c .ok (.holder prev none)
      | _, _ => s)
    (.holder prev none)

def execHandOver (h : Hdr) (zone port : Byte) (s : State) : Host.Outcome State Fault Refusal :=
  .next (serve h 67 (.handOver · zone port) false (handOver zone port) s)

/-- SEIZE_ZONE at the scene engine (R94). -/
def seizeZone (zone : Byte) (c : Caller) (s : State) : State :=
  let prev := s.holderOf zone
  s.checked c
    [ (s.cls c.port = .operator, .denied),
      ((zoneField zone).isSome, .badField),
      (s.zoneSet zone, .state) ]
    (fun s =>
      match zoneField zone with
      | some z =>
        (if prev = some c.port then s
          else
            let s := s.passZone z c.port
            match prev with
            | some p => s.raise p .zoneLost
            | none => s).reply c .ok (.holder prev none)
      | none => s)
    (.holder prev none)

def execSeizeZone (h : Hdr) (zone : Byte) (s : State) : Host.Outcome State Fault Refusal :=
  .next (serve h 68 (.seizeZone · zone) false (seizeZone zone) s)

/-! ## QUERY_ZONE (R121) -/

/-- What QUERY_ZONE reports (R121). -/
def Zone.info (zn : Zone) : ZoneInfo :=
  { rect := zn.rect, holder := zn.holder, kind := zn.current.kind, origin := zn.current.origin
    remaining := zn.current.remaining, scene := zn.current.scene
    armed := zn.armed.map fun a =>
      { item := match a with
          | .cut => .cut (zn.cuts.head?.map fun c => (c.target, c.label))
          | .gate g _ k => .gate g k
          | .ret => .ret
        fetched := zn.fetched }
    pend := zn.pend
    fetch := zn.fetch.map fun f => (f.frame, f.armed)
    cuts := zn.cuts.map fun c =>
      { target := c.target, label := c.label, slip := c.slip, port := c.port, released := c.released
        placements := c.scene.length }
    stack := zn.stack.map fun x => { kind := x.kind, remaining := x.remaining, placements := x.scene.length }
    inStep := zn.inStep, log := zn.log }

/-- QUERY_ZONE at the scene engine (R121). -/
def queryZone (zone : Byte) (c : Caller) (s : State) : State :=
  s.checked c [((zoneField zone).isSome, .badField)] fun s =>
    match zoneField zone with
    | some z => s.reply c .ok (.zone (s.zone z).info)
    | none => s

def execQueryZone (h : Hdr) (zone : Byte) (s : State) : Host.Outcome State Fault Refusal :=
  .next (serve h 69 (.queryZone · zone) false (queryZone zone) s)

end Sys2Proof.Machine
end

