-- ==== Sys2Proof/Machine/Scenes.lean ====
section
/-! DEFINITION. Scenes and cuts: SET_EPOCH, the scene checks, QUEUE_CUT and WITHDRAW_CUT, and the reports of
tile output units as the scene engine takes them (chapter 6, R98 to R111, R145). -/

namespace Sys2Proof.Machine

/-! ## SET_EPOCH (R98) -/

/-- SET_EPOCH at the scene engine (R98). -/
def setEpoch (frame : BitVec 48) (c : Caller) (s : State) : State :=
  s.checked c
    [ (s.cls c.port = .operator, .denied),
      (frame.toNat ≠ s.scene.frame, .badField) ]
    fun s => (s.modScene fun e => { e with epoch := some frame.toNat }).reply c .ok

def execSetEpoch (h : Hdr) (frame : BitVec 48) (s : State) : Host.Outcome State Fault Refusal :=
  .next (serve h 3 (.setEpoch · frame) false (setEpoch frame) s)

/-! ## The scene checks (R102) -/

/-- The page is LIVE. -/
def State.liveKind (s : State) (h : Handle) : Bool := !isPattern h && (s.page h).any fun p => p.kind = .live

/-- The page is DAMAGED. -/
def State.isDamaged (s : State) (h : Handle) : Bool := !isPattern h && (s.page h).any fun p => p.state = .damaged

/-- A placement's cell mode suits its page: LIVE for a LIVE page and no other, HOLD with a hold cell below the
page's cells, LOOP and LIVE without one (R102, R190, log entry 17). -/
def State.modeSuits (s : State) (p : RawPlacement) : Bool :=
  match cellModeField p.mode with
  | some .live => s.liveKind p.page && (rawHold p).isNone
  | some .loop => !s.liveKind p.page && (rawHold p).isNone
  | some .hold => !s.liveKind p.page && (rawHold p).any fun n => decide (n < s.pageCells p.page)
  | none => false

/-- The zone positions, by column and row, that a page covers from an offset (R99). -/
def coveredFrom (col row width height : Nat) : List (Nat × Nat) :=
  (List.range height).flatMap fun y => (List.range width).map fun x => (col + x, row + y)

/-- The zone positions that a placement covers (R99). -/
def State.covered (s : State) (p : RawPlacement) : List (Nat × Nat) :=
  coveredFrom (rawCol p) (rawRow p) (s.pageSize p.page).1 (s.pageSize p.page).2

/-- A placement lies inside a rectangle (R102). -/
def State.fits (s : State) (r : Rect) (p : RawPlacement) : Bool :=
  decide (rawCol p + (s.pageSize p.page).1 ≤ r.cols ∧ rawRow p + (s.pageSize p.page).2 ≤ r.rows)

/-- The scene checks, in order, each over every placement (R102). -/
def sceneTests (z : ZoneId) (sc : List RawPlacement) (p : Port) (s : State) : List Test :=
  [ (sc.all fun x => s.isPage x.page, .noSuch),
    (sc.all fun x => !s.isDamaged x.page, .state),
    (sc.all fun x => s.showRight p x.page, .denied),
    (sc.all fun x => s.modeSuits x, .badField),
    ((sc.all fun x => (s.zone z).rect.any fun r => s.fits r x) && decide (sc.flatMap s.covered).Nodup,
      .badField) ]

/-- The scene checks for the zone a field names. -/
def sceneTestsAt (zone : Byte) (sc : List RawPlacement) (p : Port) (s : State) : List Test :=
  match zoneField zone with
  | some z => sceneTests z sc p s
  | none => []

/-! ## QUEUE_CUT and WITHDRAW_CUT (R105 to R108) -/

/-- A queue with one more cut, at the place its target gives it (R105). -/
def insertCut (c : Cut) : List Cut → List Cut
  | [] => [c]
  | d :: ds => if c.target < d.target then c :: d :: ds else d :: insertCut c ds

/-- The checks of a QUEUE_CUT, in order (R106). -/
def queueCutTests (zone : Byte) (target : BitVec 48) (slip : Byte) (sc : List RawPlacement) (p : Port)
    (s : State) : List Test :=
  let cuts := ((zoneField zone).map fun z => (s.zone z).cuts).getD []
  [ (s.playsOut p, .denied),
    ((zoneField zone).isSome && decide (slip.toNat ≤ 8 ∧ sc.length ≤ 16), .badField),
    (s.zoneSet zone, .state),
    (s.holderOf zone = some p, .notHolder),
    (s.scene.frame + 2 ≤ target.toNat, .tooSoon),
    (cuts.all fun c => c.target ≠ target.toNat, .duplicate),
    (cuts.length < 8, .queueFull) ] ++ sceneTestsAt zone sc p s

/-- QUEUE_CUT at the scene engine and the directory (R106, R107). -/
def queueCut (zone : Byte) (target : BitVec 48) (label : BitVec 16) (slip : Byte) (sc : List RawPlacement)
    (c : Caller) (s : State) : State :=
  s.checked c (queueCutTests zone target slip sc c.port s) fun s =>
    match zoneField zone with
    | some z =>
      let cut : Cut :=
        { label := label, port := c.port, target := target.toNat, slip := slip.toNat, scene := sc.map placementOf
          released := false }
      ((s.pinScene cut.scene).setZone z fun zn => { zn with cuts := insertCut cut zn.cuts }).reply c .ok
    | none => s

def execQueueCut (h : Hdr) (zone : Byte) (target : BitVec 48) (label : BitVec 16) (slip : Byte)
    (sc : List RawPlacement) (s : State) : Host.Outcome State Fault Refusal :=
  .next (serve h 72 (.queueCut · zone target label slip sc) false (queueCut zone target label slip sc) s)

/-- The cut that a zone's queue holds for a target. -/
def Zone.cutAt (zn : Zone) (target : Nat) : Option Cut := zn.cuts.find? fun c => c.target = target

/-- A cut of a zone is armed: it is the head of the queue of a zone whose armed item is a CUT (R105). -/
def Zone.isArmed (zn : Zone) (c : Cut) : Bool := decide (zn.armed = some .cut ∧ zn.cuts.head? = some c)

/-- WITHDRAW_CUT at the scene engine (R108). -/
def withdrawCut (zone : Byte) (target : BitVec 48) (c : Caller) (s : State) : State :=
  let zn := (zoneField zone).map s.zone
  let cut := zn.bind fun zn => zn.cutAt target.toNat
  s.checked c
    [ (s.playsOut c.port, .denied),
      ((zoneField zone).isSome, .badField),
      (s.zoneSet zone, .state),
      (s.holderOf zone = some c.port, .notHolder),
      (cut.isSome, .noSuch),
      (cut.any fun k => !(zn.any fun zn => zn.isArmed k), .state) ]
    fun s =>
      match zoneField zone, cut with
      | some z, some k => (s.loseCut z .withdrawn k).reply c .ok
      | _, _ => s

def execWithdrawCut (h : Hdr) (zone : Byte) (target : BitVec 48) (s : State) :
    Host.Outcome State Fault Refusal :=
  .next (serve h 73 (.withdrawCut · zone target) false (withdrawCut zone target) s)

/-! ## The reports of a tile output unit (R84, R111, R145) -/

/-- A delivery report is taken at the context of its tile: the tile joins the delivered set where the frame is
that of the fetch in progress, and the report is late otherwise (R84, R111). -/
def State.takeDelivery (s : State) (t : Tile) (frame : Nat) : State :=
  match s.units[t].ctx with
  | some (.zone z) =>
    if (s.zone z).fetch.any (fun f => f.frame = frame) then
      s.setZone z fun zn => { zn with delivered := insertBit zn.delivered t.val }
    else s
  | some .background =>
    if s.scene.background.fetch = some frame then
      s.modScene fun e =>
        { e with background := { e.background with delivered := insertBit e.background.delivered t.val } }
    else s
  | none => s

/-- DELIVERY_REPORT: the oldest report under way from a tile is taken, where it is a delivery report. -/
def deliveryReport (t : Tile) (s : State) : State :=
  match s.mail.toScene[t] with
  | .delivery n :: _ => (s.popReport t).takeDelivery t n
  | _ => s

def execDeliveryReport (t : Tile) (s : State) : Host.Outcome State Fault Refusal := .next (deliveryReport t s)

/-- A tile leaves the in-step set of its context. -/
def State.leaveStep (s : State) (t : Tile) : State :=
  match s.units[t].ctx with
  | some (.zone z) => s.setZone z fun zn => { zn with inStep := eraseBit zn.inStep t.val }
  | some .background =>
    s.modScene fun e => { e with background := { e.background with inStep := eraseBit e.background.inStep t.val } }
  | none => s

/-- A state report is taken: the context records the state, and one other than IN_STEP takes the tile out of
the in-step set (R145). -/
def State.takeStateReport (s : State) (t : Tile) (st : TileState) : State :=
  if s.units[t].ctx = none then s
  else
    let s := s.modScene fun e => { e with reported := upd e.reported t fun _ => some st }
    if st = .inStep then s else s.leaveStep t

/-- STATE_REPORT: the oldest report under way from a tile is taken, where it is a state report. -/
def stateReport (t : Tile) (s : State) : State :=
  match s.mail.toScene[t] with
  | .state st :: _ => (s.popReport t).takeStateReport t st
  | _ => s

def execStateReport (t : Tile) (s : State) : Host.Outcome State Fault Refusal := .next (stateReport t s)

end Sys2Proof.Machine
end

