-- ==== Sys2Proof/Machine/Gates.lean ====
section
/-! DEFINITION. The gate table and its requests, and the loss of an invoker (chapter 7). -/

namespace Sys2Proof.Machine

/-! ## Changes of a gate's state (R123) -/

/-- A gate's standing is changed, its definition kept (R123). -/
def State.useGate (s : State) (g : GateId) (u : GateUse) : State := s.setGate g (·.map fun e => { e with use := u })

/-- A gate becomes DEFINED, its invoker dropped, and an event is raised at that invoker (R132, R136, R163). -/
def State.freeGate (s : State) (g : GateId) (invoker : Port) (e : Event) : State :=
  (s.useGate g .defined).raise invoker e

/-! ## DEFINE_GATE and CLEAR_GATE (R124 to R126) -/

/-- The gate a field names, none where it is UNDEFINED. -/
def State.gateAt (s : State) (gate : Byte) : Option Gate := (gateField gate).bind s.gate

/-- The checks of a DEFINE_GATE, in order (R124). -/
def defineGateTests (gate zone level minClass : Byte) (sc : List RawPlacement) (p : Port) (s : State) :
    List Test :=
  [ (decide (s.cls p = .operator), .denied),
    ((gateField gate).isSome && (zoneField zone).isSome &&
      decide (1 ≤ level.toNat ∧ level.toNat ≤ 3 ∧ 1 ≤ minClass.toNat ∧ minClass.toNat ≤ 3 ∧ sc.length ≤ 16),
      .badField),
    ((s.gateAt gate).all fun e => e.use = .defined, .state),
    (s.zoneSet zone, .state) ] ++ sceneTestsAt zone sc p s

/-- DEFINE_GATE at the scene engine and the directory (R124, R125). -/
def defineGate (gate zone level minClass : Byte) (duration : BitVec 16) (sc : List RawPlacement) (c : Caller)
    (s : State) : State :=
  s.checked c (defineGateTests gate zone level minClass sc c.port s) fun s =>
    match gateField gate, zoneField zone with
    | some g, some z =>
      let e : Gate :=
        { use := .defined, zone := z, level := level.toNat, minClass := minClass.toNat
          duration := duration.toNat, scene := sc.map placementOf }
      let old := ((s.gate g).map (·.scene)).getD []
      (((s.pinScene e.scene).unpinScene old).setGate g fun _ => some e).reply c .ok
    | _, _ => s

def execDefineGate (h : Hdr) (gate zone level minClass : Byte) (duration : BitVec 16) (sc : List RawPlacement)
    (s : State) : Host.Outcome State Fault Refusal :=
  .next (serve h 80 (.defineGate · gate zone level minClass duration sc) false
    (defineGate gate zone level minClass duration sc) s)

/-- CLEAR_GATE at the scene engine (R126). -/
def clearGate (gate : Byte) (c : Caller) (s : State) : State :=
  s.checked c
    [ (s.cls c.port = .operator, .denied),
      ((gateField gate).isSome, .badField),
      ((s.gateAt gate).any fun e => e.use = .defined, .state) ]
    fun s =>
      match gateField gate with
      | some g =>
        ((s.unpinScene (((s.gate g).map (·.scene)).getD [])).setGate g fun _ => none).reply c .ok
      | none => s

def execClearGate (h : Hdr) (gate : Byte) (s : State) : Host.Outcome State Fault Refusal :=
  .next (serve h 81 (.clearGate · gate) false (clearGate gate) s)

/-! ## INVOKE_GATE (R128, R129) -/

/-- A zone takes an invocation: nothing is pending, and neither a gate nor a return is armed (R128). -/
def Zone.takesInvocation (zn : Zone) : Bool :=
  decide (zn.pend = none) && (match zn.armed with
    | none => true
    | some .cut => true
    | some (.gate _ _ _) => false
    | some .ret => false)

/-- The level of the gate that is current on a zone, 0 where none is (R128). -/
def State.currentLevel (s : State) (z : ZoneId) : Nat :=
  match (s.zone z).current.kind with
  | .playlist => 0
  | .gate g => ((s.gate g).map (·.level)).getD 0

/-- The checks of an INVOKE_GATE, in order (R128). -/
def invokeGateTests (gate : Byte) (p : Port) (s : State) : List Test :=
  let e := s.gateAt gate
  let cls := (s.cls p).value
  [ ((gateField gate).isSome, .badField),
    (decide ((e.map (·.minClass)).getD 1 ≤ cls), .denied),
    (e.all fun e => match e.use with
      | .invoked _ => false
      | _ => true, .busy),
    (e.any fun e => e.use = .defined, .state),
    (s.window = .lit, .dark),
    (e.any fun e => (s.zone e.zone).takesInvocation, .busy),
    (e.any fun e => decide ((s.zone e.zone).stack.length < 3), .nestFull),
    (e.any fun e => decide (s.currentLevel e.zone < e.level), .outranked) ]

/-- INVOKE_GATE at the scene engine (R128, R129). -/
def invokeGate (gate : Byte) (c : Caller) (s : State) : State :=
  s.checked c (invokeGateTests gate c.port s) fun s =>
    match gateField gate, s.gateAt gate with
    | some g, some e =>
      ((s.useGate g (.invoked c.port)).setZone e.zone fun zn =>
        { zn with pend := some (.invocation g c.port) }).reply c .ok
    | _, _ => s

def execInvokeGate (h : Hdr) (gate : Byte) (s : State) : Host.Outcome State Fault Refusal :=
  .next (serve h 82 (.invokeGate · gate) false (invokeGate gate) s)

/-! ## RETURN_GATE (R135) -/

/-- RETURN_GATE at the scene engine (R135). -/
def returnGate (zone : Byte) (c : Caller) (s : State) : State :=
  let zn := (zoneField zone).map s.zone
  s.checked c
    [ ((zoneField zone).isSome, .badField),
      (s.zoneSet zone, .state),
      (zn.any fun zn => zn.current.kind ≠ .playlist, .state),
      (s.cls c.port = .operator || zn.any fun zn => zn.current.invoker = some c.port, .denied),
      (zn.any fun zn => decide (zn.armed = none ∧ zn.pend = none), .state) ]
    fun s =>
      match zoneField zone with
      | some z => (s.setZone z fun zn => { zn with pend := some .ret }).reply c .ok
      | none => s

def execReturnGate (h : Hdr) (zone : Byte) (s : State) : Host.Outcome State Fault Refusal :=
  .next (serve h 83 (.returnGate · zone) false (returnGate zone) s)

/-! ## Loss of an invoker (R138) -/

/-- A zone's items that a lost port invoked: a pending invocation is abandoned, and an armed gate's attempt
count is set to 8 (R138). -/
def State.loseInvoker (s : State) (p : Port) (z : ZoneId) : State :=
  let s := match (s.zone z).pend with
    | some (.invocation g q) =>
      if q = p then (s.useGate g .defined).setZone z fun zn => { zn with pend := none } else s
    | _ => s
  match (s.zone z).armed with
  | some (.gate g q _) => if q = p then s.setZone z fun zn => { zn with armed := some (.gate g q 8) } else s
  | _ => s

/-! ## QUERY_GATE (R139) -/

/-- The place on a stack, from the bottom, of the context of a gate, with its remaining count. -/
def savedPlace (g : GateId) (stack : List Context) : Option GatePlace :=
  ((List.range stack.length).zip stack).findSome? fun x =>
    if x.2.kind = .gate g then some (.saved x.1 x.2.remaining) else none

/-- Where a gate in use stands in its zone (R139); a gate on the link stack is counted from 0 at the bottom
(log entry 25). -/
def State.gatePlace (s : State) (g : GateId) (e : Gate) : Option GatePlace :=
  let zn := s.zone e.zone
  match e.use with
  | .defined => none
  | .invoked _ =>
    match zn.armed with
    | some (.gate h _ k) => some (if h = g then .armed k zn.fetched else .pending)
    | _ => some .pending
  | .active _ =>
    if zn.current.kind = .gate g then some (.current zn.current.remaining) else savedPlace g zn.stack

/-- QUERY_GATE at the scene engine (R139). -/
def queryGate (gate : Byte) (c : Caller) (s : State) : State :=
  s.checked c [((gateField gate).isSome, .badField)] fun s =>
    match gateField gate with
    | some g => s.reply c .ok (.gate ((s.gate g).map fun e => (e, s.gatePlace g e)))
    | none => s

def execQueryGate (h : Hdr) (gate : Byte) (s : State) : Host.Outcome State Fault Refusal :=
  .next (serve h 84 (.queryGate · gate) false (queryGate gate) s)

end Sys2Proof.Machine
end

