-- ==== Sys2Proof/Machine/Boundary.lean ====
section
/-! DEFINITION. The frame boundary: the new frame number, the pending window change, the verdicts and choices of
the zones and of the background, and dark entry (R85, R96 to R101, R109 to R120, R162 to R164, R167). -/

namespace Sys2Proof.Machine

/-! ## What a scene shows on a frame (R100, R101) -/

/-- The cell that a placement of a stored page shows on a frame, for an origin; none for a LIVE page without
latest (R100). -/
def shownCell (pg : Page) (p : Placement) (origin frame : Nat) : Option Nat :=
  match p.mode with
  | .loop => some (if frame < origin then 0 else (frame - origin) / pg.rate.getD 1 % pg.cells)
  | .hold => p.hold
  | .live => pg.latest

/-- A placement covers a zone position (R99). -/
def State.coversAt (s : State) (p : Placement) (pos : Nat × Nat) : Bool :=
  (coveredFrom p.col p.row (s.pageSize p.page).1 (s.pageSize p.page).2).contains pos

/-- The source of the image of a tile at a zone position (R101). -/
def State.sourceAt (s : State) (sc : Scene) (origin frame : Nat) (pos : Nat × Nat) : Source :=
  match sc.find? (s.coversAt · pos) with
  | none => .pattern 0
  | some p =>
    if isPattern p.page then .pattern (patternOf p.page)
    else
      match s.page p.page with
      | none => .pattern 0
      | some pg =>
        match shownCell pg p origin frame with
        | none => .pattern 0
        | some c =>
          if pg.valid.getLsbD c then .slot p.page (pg.slotOf c (pos.1 - p.col) (pos.2 - p.row)) else .pattern 0

/-- The cells of LIVE pages that a fetch of a scene latches (R119). -/
def State.latches (s : State) (sc : Scene) : List Latch :=
  sc.filterMap fun p =>
    if p.mode = .live then ((s.page p.page).bind (·.latest)).map fun c => (p.page, c) else none

/-! ## The arm check (R109) -/

/-- A placement passes the arm check (R109). -/
def State.placementArms (s : State) (p : Placement) : Bool :=
  isPattern p.page || (s.page p.page).any fun pg =>
    match pg.kind with
    | .still =>
      (pg.state = .ready || pg.state = .damaged) && pg.busy.isNone && (match p.mode with
        | .loop => pg.allValid
        | .hold => p.hold.any fun c => pg.valid.getLsbD c
        | .live => false)
    | .live => pg.latest.isSome && pg.busy.isNone

/-- The arm check of a scene (R109). -/
def State.arms (s : State) (sc : Scene) : Bool := sc.all s.placementArms

/-! ## The verdict (R112 to R114) -/

/-- A tile is one of a context. -/
def State.tileOf (s : State) (t : Tile) (c : Ctx) : Bool := decide (s.units[t].ctx = some c)

/-- The verdicts of a context: `v` for each tile of its in-step set, given whether it is delivered, and BLANK
for each of its tiles reported LAGGING, each with its delivered mark (R85, R112). -/
def State.sendVerdicts (s : State) (c : Ctx) (inStep delivered : TileSet) (v : Bool → VerdictKind) : State :=
  allTiles.foldl
    (fun s t =>
      let d := delivered.getLsbD t.val
      if inStep.getLsbD t.val then s.toUnit t (.verdict (v d) d)
      else if s.tileOf t c && decide (s.scene.reported[t] = some .lagging) then s.toUnit t (.verdict .blank d)
      else s) s

/-- An armed cut is shown (R113). -/
def State.showCut (s : State) (z : ZoneId) : State :=
  match (s.zone z).cuts with
  | c :: _ =>
    let s := s.unpinScene (s.zone z).current.scene
    let s := s.setZone z fun zn =>
      { zn with armed := none
                current := { scene := c.scene, origin := s.scene.frame, kind := .playlist, remaining := none
                             invoker := none } }
    let s := (s.takeCut z c).logCut z c .shown
    if c.released then s else s.raise c.port .cutShown
  | [] => s

/-- An armed gate is shown: the current context is pushed and the gate's scene is current (R114, R133). -/
def State.showGate (s : State) (z : ZoneId) (g : GateId) (invoker : Port) : State :=
  match s.gate g with
  | some e =>
    let s := (s.pinScene e.scene).setZone z fun zn =>
      { zn with armed := none, stack := zn.stack ++ [zn.current]
                current := { scene := e.scene, origin := s.scene.frame, kind := .gate g
                             remaining := if e.duration = 0 then none else some e.duration
                             invoker := some invoker } }
    (s.useGate g (.active invoker)).raise invoker .gateShown
  | none => s

/-- A context of a gate is dropped: its scene is unpinned, and its gate becomes DEFINED with GATE_ENDED raised
at its invoker (R136, R163). -/
def State.dropContext (s : State) (x : Context) : State :=
  let s := s.unpinScene x.scene
  match x.kind, x.invoker with
  | .gate g, some p => s.freeGate g p .gateEnded
  | _, _ => s

/-- An armed return is shown: the current gate is dropped and the top context is popped (R114, R136). -/
def State.showReturn (s : State) (z : ZoneId) : State :=
  match (s.zone z).stack.getLast? with
  | some x =>
    (s.dropContext (s.zone z).current).setZone z fun zn =>
      { zn with armed := none, current := x, stack := zn.stack.dropLast }
  | none => s

/-- The armed item is shown after SHOW on a fetch of it (R113, R114). -/
def State.showArmed (s : State) (z : ZoneId) : State :=
  match (s.zone z).armed with
  | some .cut => s.showCut z
  | some (.gate g p _) => s.showGate z g p
  | some .ret => s.showReturn z
  | none => s

/-- After SHOW, a current gate with a remaining count above 0 counts down (R114). -/
def State.countDown (s : State) (z : ZoneId) : State :=
  s.setZone z fun zn => { zn with current := { zn.current with remaining := zn.current.remaining.map (· - 1) } }

/-- A released cut that was fetched and not delivered is discarded (R92, R113). -/
def State.dropReleased (s : State) (z : ZoneId) : State :=
  match (s.zone z).armed, (s.zone z).cuts with
  | some .cut, c :: _ => if c.released then (s.loseCut z .discarded c).disarm z else s
  | _, _ => s

/-- Every tile of an in-step set is delivered (R112). -/
def allDelivered (inStep delivered : TileSet) : Bool := inStep &&& ~~~delivered == 0

/-- A zone's verdict on its fetch in progress (R112 to R114). -/
def State.zoneVerdict (s : State) (z : ZoneId) : State :=
  match (s.zone z).fetch with
  | none => s
  | some f =>
    let zn := s.zone z
    let shows := allDelivered zn.inStep zn.delivered
    let s := s.sendVerdicts (.zone z) zn.inStep zn.delivered fun _ =>
      if shows then .showFrame f.frame else .repeatFrame
    if shows then (if f.armed then s.showArmed z else s).countDown z
    else if f.armed then s.dropReleased z else s

/-! ## The choice (R115 to R118) -/

/-- At an epoch, an armed cut whose target is later than the frame to be fetched becomes unarmed (R98). -/
def State.unarmEarly (s : State) (z : ZoneId) : State :=
  match (s.zone z).armed, (s.zone z).cuts with
  | some .cut, c :: _ => if s.scene.frame + 1 < c.target then s.disarm z else s
  | _, _ => s

/-- A cut is due (R105). -/
def State.isDue (s : State) (c : Cut) : Bool := decide (c.target ≤ s.scene.frame + 1)

/-- A cut's slip limit has passed (R115, R118). -/
def State.slipOver (s : State) (c : Cut) : Bool := decide (c.target + c.slip < s.scene.frame + 1)

/-- A cut is abandoned (R115, R118). -/
def State.abandonCut (s : State) (z : ZoneId) (c : Cut) : State :=
  (s.loseCut z .abandoned c).raise c.port .cutAbandoned

/-- A cut is skipped (R115, R118, R120). -/
def State.skipCut (s : State) (z : ZoneId) (c : Cut) : State :=
  (s.loseCut z .skipped c).raise c.port .cutSkipped

/-- An armed item that can no longer be shown is cleared (R115, R132). -/
def State.clearArmed (s : State) (z : ZoneId) : State :=
  match (s.zone z).armed, (s.zone z).cuts with
  | some .cut, c :: later =>
    if s.slipOver c then (s.abandonCut z c).disarm z
    else if later.any s.isDue then (s.skipCut z c).disarm z
    else s
  | some (.gate g p k), _ => if 8 ≤ k then (s.freeGate g p .gateAbandoned).disarm z else s
  | _, _ => s

/-- A pending item is armed, ahead of an armed cut (R116). -/
def State.armPending (s : State) (z : ZoneId) : State :=
  match (s.zone z).pend with
  | some (.invocation g p) => s.setZone z fun zn => { zn with pend := none, armed := some (.gate g p 0) }
  | some .ret => s.setZone z fun zn => { zn with pend := none, armed := some .ret }
  | none => s

/-- A return is armed for a current gate whose frames are over, with nothing armed (R117). -/
def State.armExpired (s : State) (z : ZoneId) : State :=
  let zn := s.zone z
  if zn.armed = none ∧ zn.pend = none ∧ zn.current.kind ≠ .playlist ∧ zn.current.remaining = some 0 then
    s.setZone z fun zn => { zn with armed := some .ret }
  else s

/-- A cut is taken unseen: its scene replaces the saved playlist, or outside LIT with an empty stack the
current scene, with its target as origin (R118, R120). -/
def State.takeUnseen (s : State) (z : ZoneId) (c : Cut) : State :=
  let x : Context :=
    { scene := c.scene, origin := c.target, kind := .playlist, remaining := none, invoker := none }
  let s := match (s.zone z).stack with
    | [] => (s.unpinScene (s.zone z).current.scene).setZone z fun zn => { zn with current := x }
    | b :: above => (s.unpinScene b.scene).setZone z fun zn => { zn with stack := x :: above }
  ((s.takeCut z c).logCut z c .unseen).raise c.port .cutUnseen

/-- The latest due cut, with every other due cut skipped from the head onward (R118, R120). -/
def State.skipDue (s : State) (z : ZoneId) : State × Option Cut :=
  let due := (s.zone z).cuts.filter s.isDue
  (due.dropLast.foldl (fun s c => s.skipCut z c) s, due.getLast?)

/-- The due cuts of a zone with nothing armed are settled (R118). -/
def State.settleDue (s : State) (z : ZoneId) : State :=
  if (s.zone z).armed ≠ none then s
  else
    match s.skipDue z with
    | (s, none) => s
    | (s, some c) =>
      if (s.zone z).stack ≠ [] then s.takeUnseen z c
      else if s.slipOver c then s.abandonCut z c
      else s.setZone z fun zn => { zn with armed := some .cut }

/-- The armed item's scene with the origin it is fetched with, and whether its arm check passes; a failed check
adds 1 to an armed gate's attempt count (R116, R117, R131). -/
def State.checkArmed (s : State) (z : ZoneId) : State × Option (Scene × Nat) :=
  let zn := s.zone z
  let scene := s.armedScene z
  if scene.any s.arms then
    let origin := match zn.armed with
      | some .ret => (zn.stack.getLast?.map (·.origin)).getD 0
      | _ => s.scene.frame + 1
    (s, scene.map fun sc => (sc, origin))
  else
    (match zn.armed with
      | some (.gate g p k) => s.setZone z fun zn => { zn with armed := some (.gate g p (k + 1)) }
      | _ => s, none)

/-! ## Ordering the fetch (R119, R85) -/

/-- The orders of a context for a frame: to each of its tiles reported IN_STEP, LAGGING or JOINING, a JOINING
one being admitted to the in-step set with its order marked (R85, R119). -/
def State.sendOrders (s : State) (c : Ctx) (frame : Nat) (source : Tile → Source) (entering : State → Tile → State) :
    State :=
  allTiles.foldl
    (fun s t =>
      if s.tileOf t c then
        match s.scene.reported[t] with
        | some .inStep => s.toUnit t (.fetch frame (source t) false)
        | some .lagging => s.toUnit t (.fetch frame (source t) false)
        | some .joining =>
          (entering (s.modScene fun e => { e with reported := upd e.reported t fun _ => some .inStep }) t).toUnit t
            (.fetch frame (source t) true)
        | _ => s
      else s) s

/-- A tile's position within a zone (R101). -/
def State.zonePosition (s : State) (z : ZoneId) (t : Tile) : Nat × Nat :=
  match (s.zone z).rect, s.units[t].position with
  | some r, some p => (p.1 - r.col, p.2 - r.row)
  | _, _ => (0, 0)

/-- A zone orders its fetch for the next frame (R119). -/
def State.orderFetch (s : State) (z : ZoneId) (armed : Bool) (sc : Scene) (origin : Nat) : State :=
  let frame := s.scene.frame + 1
  let source t := s.sourceAt sc origin frame (s.zonePosition z t)
  let s := s.setZone z fun zn =>
    { zn with fetch := some { frame := frame, armed := armed, latched := s.latches sc }, delivered := 0 }
  s.sendOrders (.zone z) frame source fun s t =>
    s.setZone z fun zn => { zn with inStep := insertBit zn.inStep t.val }

/-- A zone's choice of the fetch for the next frame (R115 to R119). -/
def State.zoneChoice (s : State) (z : ZoneId) : State :=
  let s := ((s.clearArmed z).armPending z).armExpired z
  let s := s.settleDue z
  match s.checkArmed z with
  | (s, some (sc, origin)) => s.orderFetch z true sc origin
  | (s, none) => s.orderFetch z false (s.zone z).current.scene (s.zone z).current.origin

/-- A zone's boundary in LIT; at the last frame number only the verdict is given (R97, R98, R112 to R119). There no
fetch is ordered, and the delivered set is kept: the spec empties it only where the next fetch is ordered (R111, R119),
and the choice is the model's (log entry 30). -/
def State.zoneLit (s : State) (epoch : Bool) (z : ZoneId) : State :=
  let s := s.zoneVerdict z
  let s := if epoch then s.unarmEarly z else s
  if s.scene.frame = maxFrame then s.setZone z fun zn => { zn with fetch := none } else s.zoneChoice z

/-- A zone's boundary outside LIT (R120); at the last frame number due cuts are not settled (R97). -/
def State.zoneDark (s : State) (z : ZoneId) : State :=
  let s := s.setZone z fun zn => { zn with fetch := none, delivered := 0 }
  if s.scene.frame = maxFrame then s
  else
    match s.skipDue z with
    | (s, none) => s
    | (s, some c) => s.takeUnseen z c

/-- The background is changed. -/
def State.modBackground (s : State) (f : Background → Background) : State :=
  s.modScene fun e => { e with background := f e.background }

/-- The background's boundary in LIT (R85, R97). At the last frame number no fetch is ordered, and the delivered set
is kept, though R85 empties it before the next fetch is recorded: the choice is the model's (log entry 30). -/
def State.backgroundLit (s : State) : State :=
  let b := s.scene.background
  let s := match b.fetch with
    | some n => s.sendVerdicts .background b.inStep b.delivered fun d => if d then .showFrame n else .repeatFrame
    | none => s
  if s.scene.frame = maxFrame then s.modBackground fun b => { b with fetch := none }
  else
    let frame := s.scene.frame + 1
    let s := s.modBackground fun b => { b with fetch := some frame, delivered := 0 }
    s.sendOrders .background frame (fun _ => .pattern 0) fun s t =>
      s.modBackground fun b => { b with inStep := insertBit b.inStep t.val }

/-! ## Dark entry (R163, R164) -/

/-- A zone's gates are ended and its playlist is current again (R163). -/
def State.unwind (s : State) (z : ZoneId) : State :=
  let zn := s.zone z
  match zn.stack with
  | [] => s
  | bottom :: above =>
    ((zn.current :: above.reverse).foldl State.dropContext s).setZone z fun zn =>
      { zn with current := bottom, stack := [] }

/-- A zone's armed item is dropped (R163). -/
def State.dropArmed (s : State) (z : ZoneId) : State :=
  match (s.zone z).armed, (s.zone z).cuts with
  | some .cut, c :: _ => (if c.released then s.loseCut z .discarded c else s).disarm z
  | some (.gate g p _), _ => (s.freeGate g p .gateAbandoned).disarm z
  | _, _ => s.disarm z

/-- A zone's pending item is dropped (R163). -/
def State.dropPending (s : State) (z : ZoneId) : State :=
  let s := match (s.zone z).pend with
    | some (.invocation g p) => s.freeGate g p .gateAbandoned
    | _ => s
  s.setZone z fun zn => { zn with pend := none }

/-- A zone is wound back to its playlist (R163). -/
def State.windBack (s : State) (z : ZoneId) : State :=
  (((s.unwind z).dropArmed z).dropPending z).setZone z fun zn =>
    { zn with fetch := none, inStep := 0, delivered := 0 }

/-- Every load is aborted, with LOAD_FAILED at its bound port (R65, R164). -/
def State.abortAll (s : State) : State :=
  allChans.foldl
    (fun s c => match s.load.chans[c] with
      | some l => (s.abortLoad c).raise l.port .loadFailed
      | none => s) s

/-- Dark entry: the zones and the background are wound back, the loads are aborted, the end of the edits is
asked for, and every unit is sent a power-off order (R163, R164). -/
def State.darkEntry (s : State) : State :=
  let s := (s.modScene fun e => { e with change := none }).setWindow .darkening
  let s := allZones.foldl State.windBack s
  let s := s.modBackground fun _ => .initial
  let s := s.abortAll
  let s := s.modScene fun e => { e with waitEnds := some { loads := true, edits := false } }
  let s := s.endEdits
  allTiles.foldl (fun s t => s.toUnit t .powerOff) s

/-- A wake begins: the window is WAKING and the store is asked to leave self-refresh (R167). -/
def State.wakeEntry (s : State) : State :=
  ((s.modScene fun e => { e with change := none }).setWindow .waking).exitRequest

/-- A pending window change that is due is carried out (R162). -/
def State.takeChange (s : State) : State :=
  let due (f : Option Nat) : Bool := f.all fun n => decide (n ≤ s.scene.frame)
  match s.scene.change with
  | some (.darken, f) => if s.window = .lit ∧ due f = true then s.darkEntry else s
  | some (.wake, f) => if s.window = .dark ∧ due f = true then s.wakeEntry else s
  | none => s

/-! ## FRAME_BOUNDARY (R96) -/

/-- The frame that a boundary starts (R97, R98). -/
def SceneEngine.nextFrame (e : SceneEngine) : Nat :=
  match e.epoch with
  | some n => n
  | none => min (e.frame + 1) maxFrame

/-- The cells latched for the fetches in progress, across every zone (R62, R119). -/
def State.allLatched (s : State) : List Latch :=
  (allZones.flatMap fun z => (((s.zone z).fetch.map (·.latched)).getD [])).eraseDups

/-- FRAME_BOUNDARY, while the frame timer runs: SYNC pulses, the new frame is numbered, a due window change is
carried out, the zones and the background act by the window state, and the latched cells are announced. -/
def frameBoundary (s : State) : State :=
  if s.scene.timer then
    let s := s.send .sync
    let epoch := s.scene.epoch.isSome
    let s := s.modScene fun e => { e with frame := e.nextFrame, epoch := none }
    let s := s.takeChange
    let s :=
      if s.window = .lit then (allZones.foldl (fun s z => s.zoneLit epoch z) s).backgroundLit
      else (allZones.foldl State.zoneDark s).modBackground fun b => { b with fetch := none }
    s.modMail fun w => { w with toLoad := w.toLoad ++ [s.allLatched] }
  else s

def execFrameBoundary (s : State) : Host.Outcome State Fault Refusal := .next (frameBoundary s)

end Sys2Proof.Machine
end

