-- ==== Sys2Proof/Machine/Dark.lean ====
section
/-! DEFINITION. Dark hours: DARKEN and WAKE, and the frame store's completions of entry to and exit from
self-refresh as the scene engine takes them (chapter 9). -/

namespace Sys2Proof.Machine

/-- A window change is recorded as pending (R160, R161). -/
def State.setChange (s : State) (k : ChangeKind) (presence : Byte) (frame : BitVec 48) : State :=
  s.modScene fun e => { e with change := some (k, optionalFrame presence frame) }

/-- DARKEN at the scene engine (R160). -/
def darken (presence : Byte) (frame : BitVec 48) (c : Caller) (s : State) : State :=
  s.checked c
    [ (s.cls c.port = .operator, .denied),
      ((boolField presence).isSome, .badField),
      (s.window = .lit, .state) ]
    fun s => (s.setChange .darken presence frame).reply c .ok

def execDarken (h : Hdr) (presence : Byte) (frame : BitVec 48) (s : State) : Host.Outcome State Fault Refusal :=
  .next (serve h 4 (.darken · presence frame) false (darken presence frame) s)

/-- WAKE at the scene engine (R161). -/
def wake (presence : Byte) (frame : BitVec 48) (c : Caller) (s : State) : State :=
  s.checked c
    [ (s.cls c.port = .operator, .denied),
      ((boolField presence).isSome, .badField),
      (s.window = .darkening ∨ s.window = .dark, .state) ]
    fun s => (s.setChange .wake presence frame).reply c .ok

def execWake (h : Hdr) (presence : Byte) (frame : BitVec 48) (s : State) : Host.Outcome State Fault Refusal :=
  .next (serve h 5 (.wake · presence frame) false (wake presence frame) s)

/-- The power-on order goes to every unit whose link is bound to a position (R142, R167, R177). -/
def State.powerOnBound (s : State) : State :=
  allTiles.foldl (fun s t => if s.units[t].position.isSome then s.toUnit t .powerOn else s) s

/-- The oldest report of the frame store is taken. -/
def State.popStore (s : State) : State := s.modMail fun w => { w with fromStore := w.fromStore.tail }

/-- ENTRY_COMPLETION: the oldest report of the frame store is taken, where it is of entry; the window becomes
DARK (R165). -/
def entryCompletion (s : State) : State :=
  match s.mail.fromStore with
  | .entered :: _ => s.popStore.setWindow .dark
  | _ => s

def execEntryCompletion (s : State) : Host.Outcome State Fault Refusal := .next (entryCompletion s)

/-- EXIT_COMPLETION: the oldest report of the frame store is taken, where it is of exit; a WAKING window becomes
LIT and the bound units are powered on, and in another window state nothing changes (R167). -/
def exitCompletion (s : State) : State :=
  match s.mail.fromStore with
  | .exited :: _ =>
    let s := s.popStore
    if s.window = .waking then (s.setWindow .lit).powerOnBound else s
  | _ => s

def execExitCompletion (s : State) : Host.Outcome State Fault Refusal := .next (exitCompletion s)

end Sys2Proof.Machine
end

