-- ==== Sys2Proof/Machine/Ports.lean ====
section
/-! DEFINITION. The client ports: power-on reset, requests without the correct form, CONFIGURE and RESET_WINDOW,
QUERY_WINDOW, the event requests, and the links (chapter 10). -/

namespace Sys2Proof.Machine

/-! ## POWER_ON_RESET and BAD_REQUEST (R170, R186, R188) -/

/-- POWER_ON_RESET: every block takes its power-on values, and each port the class of its straps. What has been
sent and the commands that wait are no state of the part, and are kept (log entry 19). -/
def execPowerOnReset (straps : Vector (BitVec 2) 4) (s : State) : Host.Outcome State Fault Refusal :=
  .next { State.reset with
    ports := straps.map fun b => .initial (classOfStraps b), out := s.out, pending := s.pending }

/-- BAD_REQUEST: a frame without the correct form is answered by the port that examines it, and changes nothing; it
waits like any other request behind one in transit (R172, R173, R188). -/
def badRequest (port : Port) (frame : List Byte) (s : State) : State :=
  if hasForm frame = true ∨ s.ports[port].up = false then s
  else if s.ports[port].transit.isSome then s.wait port (.badRequest port frame)
  else answerBadRequest port frame s

def execBadRequest (port : Port) (frame : List Byte) (s : State) : Host.Outcome State Fault Refusal :=
  .next (badRequest port frame s)

/-! ## CONFIGURE (R176, R177) -/

/-- The positions that CONFIGURE gives the links: none where a byte is not admitted (R189, R190). -/
def bindings (cols rows : Nat) (positions : Vector Byte 16) : Vector (Option (Option (Nat × Nat))) 16 :=
  positions.map (positionField cols rows)

/-- The bound positions, in the order of the links. -/
def boundPositions (b : Vector (Option (Option (Nat × Nat))) 16) : List (Nat × Nat) :=
  b.toList.filterMap fun p => p.bind id

/-- The checks of a CONFIGURE, in order (R176); the presence byte is examined after the class (R190). -/
def configureTests (rate : Byte) (slots : BitVec 16) (cols rows : Byte) (positions : Vector Byte 16)
    (presence : Byte) (p : Port) (s : State) : List Test :=
  let b := bindings cols.toNat rows.toNat positions
  [ (s.cls p = .operator, .denied),
    ((boolField presence).isSome, .badField),
    (s.window = .unconfigured, .state),
    (decide (rate.toNat ∈ [24, 25, 30, 50, 60] ∧ slots.toNat ∈ [512, 1024, 2048] ∧
      1 ≤ cols.toNat ∧ cols.toNat ≤ 4 ∧ 1 ≤ rows.toNat ∧ rows.toNat ≤ 4) &&
      b.toList.all (·.isSome), .badField),
    (decide (boundPositions b).Nodup, .badField) ]

/-- CONFIGURE at the scene engine, with its parts for the other blocks (R177). -/
def configure (rate : Byte) (slots : BitVec 16) (cols rows : Byte) (positions : Vector Byte 16) (presence : Byte)
    (start : BitVec 48) (c : Caller) (s : State) : State :=
  s.checked c (configureTests rate slots cols rows positions presence c.port s) fun s =>
    let b := bindings cols.toNat rows.toNat positions
    let s := s.modDir fun d => { d with populated := slots.toNat, free := [(0, slots.toNat)] }
    let s := allTiles.foldl
      (fun s t => match b[t] with
        | some (some p) => s.setUnit t fun u => { u with position := some p, ctx := some .background }
        | _ => s) s
    let s := s.modScene fun _ =>
      { SceneEngine.initial with
        frame := (optionalFrame presence start).getD 0, timer := true
        grid := some { rate := rate.toNat, cols := cols.toNat, rows := rows.toNat } }
    ((s.setWindow .lit).powerOnBound).reply c .ok

def execConfigure (h : Hdr) (rate : Byte) (slots : BitVec 16) (cols rows : Byte) (positions : Vector Byte 16)
    (presence : Byte) (start : BitVec 48) (s : State) : Host.Outcome State Fault Refusal :=
  .next (serve h 1 (.configure · rate slots cols rows positions presence start) true
    (configure rate slots cols rows positions presence start) s)

/-! ## RESET_WINDOW (R46, R178, R179) -/

/-- The frame store controller at RESET_WINDOW (R46): the values of R45 with the DRAM kept, a running transfer
dropped, and in SELF_REFRESH the exit begun. -/
def Store.resetWindow (st : Store) : Store :=
  { Store.initial with
    power := match st.power with
      | .selfRefresh => .exiting
      | .exiting => .exiting
      | .awake => .awake
      | .entering => .awake
    running := st.running.map fun t => { t with dropped := true }
    mem := st.mem, errors := st.errors }

/-- The request in transit of a port is answered CANCELLED (R179). The reply reaches a port that is UP even where its loss
is taken afterwards, though the end of R179 could be read otherwise: the choice is the model's (log entry 32). -/
def State.cancelTransit (s : State) (p : Port) : State :=
  match s.ports[p].transit.bind Instr.request with
  | some (h, code, _) => s.reply { port := p, tag := h.tag, code := code } .cancelled (unservedBody code)
  | none => s

/-- Every block takes its values for RESET_WINDOW (R178). -/
def State.resetBlocks (s : State) : State :=
  { s with
    ports := s.ports.map fun p => { p with events := 0, transit := none }
    dir := .initial, store := s.store.resetWindow, load := .initial, edit := .initial, scene := .initial
    units := s.units.map fun u => .initial u.link, mail := .initial }

/-- Every port goes on with the requests that wait. -/
def State.goOnAll (s : State) : State := allPorts.foldl State.goOn s

/-- RESET_WINDOW across the part (R178, R179, R82). With no transfer on the bus the arbiter grants, as at the release of
power-on reset (log entry 10); the ports then go on with the requests that wait (log entry 28). -/
def resetWindow (c : Caller) (s : State) : State :=
  s.checked c
    [ (s.cls c.port = .operator, .denied),
      (s.window = .unconfigured ∨ s.window = .lit ∨ s.window = .dark, .state) ]
    fun s =>
      let s := s.edit.queue.foldl (fun s e => s.reply e.caller .cancelled) s
      let s := allPorts.foldl State.cancelTransit s
      ((s.resetBlocks.grant.setWindow .unconfigured).reply c .ok).goOnAll

def execResetWindow (h : Hdr) (s : State) : Host.Outcome State Fault Refusal :=
  .next (serve h 2 .resetWindow true resetWindow s)

/-! ## QUERY_WINDOW (R185) -/

/-- What QUERY_WINDOW reports (R185). -/
def State.windowInfo (s : State) (p : Port) : WindowInfo :=
  { window := s.window, change := s.scene.change, frame := s.scene.frame, epoch := s.scene.epoch
    ports := s.ports.toList.map fun p => (p.cls, p.up)
    requester := p
    config := s.scene.grid.map fun g =>
      { rate := g.rate, populated := s.dir.populated, cols := g.cols, rows := g.rows
        positions := s.units.toList.map (·.position) } }

/-- QUERY_WINDOW at the scene engine (R185). -/
def queryWindow (c : Caller) (s : State) : State := s.reply c .ok (.window (s.windowInfo c.port))

def execQueryWindow (h : Hdr) (s : State) : Host.Outcome State Fault Refusal :=
  .next (serve h 6 .queryWindow true queryWindow s)

/-! ## GET_EVENTS and SET_EVENT_MASK (R181, R183) -/

def execGetEvents (h : Hdr) (s : State) : Host.Outcome State Fault Refusal := .next (serveAtPort h 120 .getEvents getEvents s)

def execSetEventMask (h : Hdr) (mask : BitVec 16) (s : State) : Host.Outcome State Fault Refusal :=
  .next (serveAtPort h 121 (.setEventMask · mask) (setEventMask mask) s)

/-! ## Links (R171, R184) -/

/-- CLIENT_LINK_UP: a DOWN port comes UP with its set and mask empty; a repeated report changes nothing
(R171). -/
def clientLinkUp (p : Port) (s : State) : State :=
  if s.ports[p].up then s
  else s.setPort p fun r => { r with up := true, events := 0, mask := 0, transit := none, waiting := [] }

def execClientLinkUp (p : Port) (s : State) : Host.Outcome State Fault Refusal := .next (clientLinkUp p s)

/-- Every zone that a port holds is released (R95, R184). -/
def State.releaseZonesOf (s : State) (p : Port) : State :=
  allZones.foldl (fun s z => if (s.zone z).holder = some p then s.releaseZone z else s) s

/-- Every load channel bound to a port is aborted, with no event (R65, R184). -/
def State.abortLoadsOf (s : State) (p : Port) : State :=
  allChans.foldl (fun s c => if (s.load.chans[c]).any fun l => l.port = p then s.abortLoad c else s) s

/-- A port's edit is removed from the edit queue, with no reply (R80, R184). -/
def State.removeEditOf (s : State) (p : Port) : State :=
  match s.edit.queue.find? fun e => e.port = p with
  | some e => (s.removeEdit e).reportEditsEnded
  | none => s

/-- PORT_LOSS: the port is DOWN with its set and mask empty and its requests in transit and waiting dropped, and its
claims, loads, edit and invocations are ended; a repeated report changes nothing (R171, R184). -/
def portLoss (p : Port) (s : State) : State :=
  if s.ports[p].up then
    let s := s.setPort p fun r => { r with up := false, events := 0, mask := 0, transit := none, waiting := [] }
    let s := ((s.releaseZonesOf p).abortLoadsOf p).removeEditOf p
    allZones.foldl (fun s z => s.loseInvoker p z) s
  else s

def execPortLoss (p : Port) (s : State) : Host.Outcome State Fault Refusal := .next (portLoss p s)

end Sys2Proof.Machine
end

