-- ==== Sys2Proof/Machine/Store.lean ====
section
/-! DEFINITION. The frame store controller: refresh, scrubbing, the exit from self-refresh, and its requests
(chapter 2). -/

namespace Sys2Proof.Machine

/-! ## Refresh (R31, R32) -/

/-- REFRESH_INTERVAL_EXPIRY: the timer runs in AWAKE and ENTERING. At debt 8 the refresh is missed and a fault
is offered; otherwise the debt rises by 1, and a free bus is granted (R29, R31, R42). -/
def refreshIntervalExpiry (s : State) : State :=
  if s.store.power = .awake ∨ s.store.power = .entering then
    if s.store.debt = 8 then
      s.offerFault
        { kind := .refreshMissed, addr := none, page := none, source := none, frame := s.scene.frame }
    else (s.modStore fun st => { st with debt := st.debt + 1 }).grant
  else s

def execRefreshIntervalExpiry (s : State) : Host.Outcome State Fault Refusal := .next (refreshIntervalExpiry s)

/-- REFRESH_COMPLETE: the debt falls by 1 and the flag is set, then the bus falls free (R31, R32); the outcome
of a transfer dropped by a RESET_WINDOW is not given (R46). -/
def refreshComplete (s : State) : State :=
  match s.store.running with
  | some { job := .refresh, dropped := dropped, .. } =>
    if dropped then s.freeBus
    else (s.modStore fun st => { st with debt := st.debt - 1, refreshed := true }).freeBus
  | _ => s

def execRefreshComplete (s : State) : Host.Outcome State Fault Refusal := .next (refreshComplete s)

/-! ## Scrubbing (R40) -/

/-- What a SCRUB does with the word it reads (R36, R37, R40). -/
def State.scrubWord (s : State) (e : ScrubEntry) : State :=
  let r := s.store.readWord e.addr.slot e.addr.line e.addr.word
  match r.cls with
  | .clean => s
  | .corrected =>
    (s.modStore fun st => st.writeWord e.addr.slot e.addr.line e.addr.word r.data).countCorrected
  | .uncorrectable => s.uncorrectable .scrubUncorrectable e.origin e.addr

/-- SCRUB_COMPLETE: the head entry's word is read and, where it was corrected, written back; the bus falls
free; the entry leaves the queue, which requests its next (R28, R40). -/
def scrubComplete (errors : ErrorMask) (s : State) : State :=
  match s.store.running with
  | some { job := .scrub e, dropped := dropped, .. } =>
    if dropped then s.freeBus
    else
      let s := s.modStore fun st => st.disturbWord e.addr.slot e.addr.line e.addr.word errors
      let s := (s.scrubWord e).freeBus
      (s.modStore fun st => { st with scrub := st.scrub.tail }).requestScrub
  | _ => s

def execScrubComplete (errors : ErrorMask) (s : State) : Host.Outcome State Fault Refusal :=
  .next (scrubComplete errors s)

/-! ## The end of self-refresh (R33, R34) -/

/-- SELF_REFRESH_EXIT: the store is AWAKE with debt 0 and the flag clear, the exit completion is reported to
the scene engine, a kept entry request is acted on, and a grant is made: by R29, or after a kept request by R33 (R33,
R34, log entry 33). -/
def selfRefreshExit (s : State) : State :=
  if s.store.power = .exiting then
    let kept := s.store.entryKept
    let s := s.modStore fun st => { st with power := .awake, debt := 0, refreshed := false, entryKept := false }
    let s := s.modMail fun w => { w with fromStore := w.fromStore ++ [.exited] }
    (if kept then s.entryRequest else s).grant
  else s

def execSelfRefreshExit (s : State) : Host.Outcome State Fault Refusal := .next (selfRefreshExit s)

/-! ## QUERY_STORE and READ_FAULT (R43, R44) -/

/-- What QUERY_STORE reports (R44). -/
def State.storeInfo (s : State) : StoreInfo :=
  { power := s.store.power, debt := s.store.debt, refreshed := s.store.refreshed, scrub := s.store.scrub
    corrected := s.store.corrected, populated := s.dir.populated, locked := s.store.record.locked }

/-- QUERY_STORE at the frame store controller (R44). -/
def queryStore (c : Caller) (s : State) : State := s.reply c .ok (.store s.storeInfo)

def execQueryStore (h : Hdr) (s : State) : Host.Outcome State Fault Refusal :=
  .next (serve h 112 .queryStore false queryStore s)

/-- READ_FAULT at the frame store controller: the record is reported, and an OPERATOR port then unlocks it
(R43). -/
def readFault (c : Caller) (s : State) : State :=
  let s := s.reply c .ok (.fault s.store.record)
  if s.cls c.port = .operator then
    s.modStore fun st => { st with record := { st.record with locked := false, multiple := false } }
  else s

def execReadFault (h : Hdr) (s : State) : Host.Outcome State Fault Refusal :=
  .next (serve h 113 .readFault true readFault s)

end Sys2Proof.Machine
end

