-- ==== Sys2Proof/Machine/Tiles.lean ====
section
/-! DEFINITION. The tile output units: power and training, fetching a frame, verdicts, link reports, and the
requests that concern a tile (chapter 8). -/

namespace Sys2Proof.Machine

/-! ## The state of a unit (R141, R145) -/

/-- The power-enable level of a state (R141). -/
def TileState.powered : TileState → Bool
  | .off => false
  | .training => true
  | .joining => true
  | .inStep => true
  | .lagging => true
  | .lost => false

/-- Entry to a state raises TILE_CHANGE (R141). -/
def TileState.announced : TileState → Bool
  | .off => false
  | .training => false
  | .joining => false
  | .inStep => true
  | .lagging => true
  | .lost => true

/-- A unit's state changes: power-enable follows it, TILE_CHANGE is raised for IN_STEP, LAGGING and LOST, and
the context is sent a state report (R141, R145). -/
def State.become (s : State) (t : Tile) (st : TileState) : State :=
  let s := s.setUnit t fun u => { u with state := st, power := st.powered }
  let s := if st.announced then s.raiseAll .tileChange else s
  s.toScene t (.state st)

/-! ## Training (R142 to R144) -/

/-- The four patterns, in the order in which TRAIN messages go (R143). -/
def allPatterns : List PatternId := [0, 1, 2, 3]

/-- The TRAIN messages of an attempt are sent (R143). -/
def State.sendTrain (s : State) (t : Tile) : State :=
  let k := s.units[t].attempts + 1
  allPatterns.foldl (fun s p => s.sendPanel t (.train k p (patternLine p 1)))
    (s.setUnit t fun u => { u with trainSent := true })

/-- An attempt begins: the timer starts, and the messages go if the link is UP (R143). -/
def State.beginAttempt (s : State) (t : Tile) : State :=
  let s := s.setUnit t fun u => { u with timer := true, matched := 0, trainSent := false }
  if s.units[t].link then s.sendTrain t else s

/-- Training is over: no attempt is under way and its timer is stopped. -/
def State.stopTraining (s : State) (t : Tile) : State :=
  s.setUnit t fun u => { u with timer := false, matched := 0, trainSent := false }

/-- A unit becomes TRAINING with its counts 0, and its first attempt begins (R142, R156). -/
def State.startTraining (s : State) (t : Tile) : State :=
  ((s.setUnit t fun u => { u with attempts := 0, miss := 0, rejoin := 0 }).become t .training).beginAttempt t

/-- An attempt fails: the next begins, or at the third the unit becomes LOST (R144). -/
def State.failAttempt (s : State) (t : Tile) : State :=
  let s := s.setUnit t fun u => { u with attempts := u.attempts + 1 }
  if s.units[t].attempts < 3 then s.beginAttempt t else (s.stopTraining t).become t .lost

/-- The check value a unit expects of a pattern's training line (R143). -/
def trainCheck (p : PatternId) : Check := checkSum (patternLine p 1)

/-- TRAIN_ECHO at a unit (R144, R192). -/
def trainEcho (t : Tile) (attempt pattern : Byte) (check : Check) (s : State) : State :=
  let u := s.units[t]
  match fieldBelow 4 pattern with
  | some p =>
    if u.state = .training ∧ attempt.toNat = u.attempts + 1 ∧ u.matched.getLsbD p.val = false then
      if check = trainCheck p then
        let s := s.setUnit t fun u => { u with matched := insertBit u.matched p.val }
        if s.units[t].matched = BitVec.allOnes 4 then
          ((s.stopTraining t).become t .joining).sendPanel t .blank
        else s
      else s.failAttempt t
    else s
  | none => s

def execTrainEcho (t : Tile) (attempt pattern : Byte) (check : Check) (s : State) :
    Host.Outcome State Fault Refusal :=
  .next (trainEcho t attempt pattern check s)

/-- ATTEMPT_TIMER_EXPIRY at a unit whose timer runs (R144). -/
def attemptTimerExpiry (t : Tile) (s : State) : State := if s.units[t].timer then s.failAttempt t else s

def execAttemptTimerExpiry (t : Tile) (s : State) : Host.Outcome State Fault Refusal :=
  .next (attemptTimerExpiry t s)

/-- UNKNOWN_TILE_MESSAGE: it is discarded (R192). -/
def execUnknownTileMessage (_t : Tile) (_message : List Byte) (s : State) : Host.Outcome State Fault Refusal :=
  .next s

/-! ## Fetching a frame (R146 to R149) -/

/-- A fetch in progress is abandoned: its waiting SCAN is withdrawn, a running one will be discarded, and the
panel is told where the link is UP (R148). -/
def State.abandonFetch (s : State) (t : Tile) : State :=
  match s.units[t].fetch with
  | some f =>
    let s := (s.modStore fun st => { st with scanWaiting := eraseBit st.scanWaiting t.val }).discardRunning
      (TransferJob.isScanOf t)
    let s := if s.units[t].link then s.sendPanel t (.abortFrame f.frame) else s
    s.setUnit t fun u => { u with fetch := none }
  | none => s

/-- A line goes to the panel; after line 255, FRAME_END follows with the check value of the frame (R147). -/
def State.sendLine (s : State) (t : Tile) (f : UnitFetch) (ws : List Word) : State :=
  let sum := f.sum + checkSum ws
  let last := decide (f.sent = 255)
  let s := (s.sendPanel t (.line f.sent ws)).setUnit t fun u =>
    { u with fetch := some { f with sent := f.sent + 1, sum := sum, endSent := last } }
  if last then s.sendPanel t (.frameEnd f.frame sum) else s

/-- The lines of a pattern page go to the panel at once (R147). -/
def State.sendPattern (s : State) (t : Tile) (p : PatternId) : State :=
  (List.range wordsPerLine).foldl
    (fun s l => match s.units[t].fetch with
      | some f => s.sendLine t f (patternLine p l)
      | none => s) s

/-- A unit begins a fetch (R147): of a pattern page it is sent at once; of a slot its first line is requested,
unless a discarded SCAN of the unit still runs (R148). -/
def State.beginFetch (s : State) (t : Tile) (frame : Nat) (source : Source) : State :=
  let s := s.abandonFetch t
  let s := s.setUnit t fun u =>
    { u with fetch := some { frame := frame, source := source, requested := 0, sent := 0, endSent := false, sum := 0 } }
  let s := s.sendPanel t (.frameBegin frame)
  match source with
  | .pattern p => s.sendPattern t p
  | .slot _ _ => if s.runningIs (TransferJob.isScanOf t) then s else s.requestScan t

/-- A fetch order is judged by the unit's state (R146). -/
def State.takeOrder (s : State) (t : Tile) (frame : Nat) (source : Source) (admitting : Bool) : State :=
  match s.units[t].state with
  | .off => s
  | .training => s
  | .lost => s
  | .joining =>
    let s := if admitting then (s.setUnit t fun u => { u with miss := 0, rejoin := 0 }).become t .inStep else s
    s.beginFetch t frame source
  | .inStep => s.beginFetch t frame source
  | .lagging => s.beginFetch t frame source

/-- FETCH_ORDER: the oldest message under way to a unit is taken, where it is a fetch order. -/
def fetchOrder (t : Tile) (s : State) : State :=
  match s.mail.toUnit[t] with
  | .fetch n src adm :: _ => (s.popUnitMsg t).takeOrder t n src adm
  | _ => s

def execFetchOrder (t : Tile) (s : State) : Host.Outcome State Fault Refusal := .next (fetchOrder t s)

/-- A unit is told that its SCAN has completed: the line goes to the panel, and the next is requested (R147). -/
def State.lineScanned (s : State) (t : Tile) (ws : List Word) : State :=
  match s.units[t].fetch with
  | some f =>
    let s := s.sendLine t f ws
    if f.sent = 255 then s else s.requestScan t
  | none => s

/-- A unit discards the line of an abandoned fetch; a fetch that has waited for this requests its first line
(R148). -/
def State.scanDiscarded (s : State) (t : Tile) : State :=
  match s.units[t].fetch with
  | some { source := .slot _ _, requested := 0, .. } => s.requestScan t
  | _ => s

/-- SCAN_COMPLETE: the line is read and its effects are given, the bus falls free, and the unit is told, or
discards the line (R35, R38, R147, R148); a dropped transfer has no outcome (R46). -/
def scanComplete (errors : BitErrors) (s : State) : State :=
  match s.store.running with
  | some { job := .scan t slot line, discard := discard, dropped := dropped } =>
    if dropped then s.freeBus
    else
      let st := s.store.disturb slot line errors
      let reads := st.readLine slot line
      let s := s.modStore fun _ => st
      let s := (s.lineEffects .scanUncorrectable (.unit t) slot line (numbered reads)).freeBus
      if discard then s.scanDiscarded t else s.lineScanned t (deliveredLine reads)
  | _ => s

def execScanComplete (errors : BitErrors) (s : State) : Host.Outcome State Fault Refusal :=
  .next (scanComplete errors s)

/-- A unit judges an answer: JOINING, IN_STEP or LAGGING, with its fetch of that frame sent whole (R149). -/
def TileUnit.judges (u : TileUnit) (frame : Nat) : Bool :=
  (match u.state with
    | .joining => true
    | .inStep => true
    | .lagging => true
    | _ => false) && u.fetch.any fun f => decide (f.frame = frame) && f.endSent

/-- FRAME_ACK at a unit: the fetch ends, delivered (R149). -/
def frameAck (t : Tile) (frame : BitVec 48) (s : State) : State :=
  if s.units[t].judges frame.toNat then
    (s.setUnit t fun u => { u with fetch := none }).toScene t (.delivery frame.toNat)
  else s

def execFrameAck (t : Tile) (frame : BitVec 48) (s : State) : Host.Outcome State Fault Refusal :=
  .next (frameAck t frame s)

/-- FRAME_NAK at a unit: the fetch ends, not delivered (R149). -/
def frameNak (t : Tile) (frame : BitVec 48) (s : State) : State :=
  if s.units[t].judges frame.toNat then s.setUnit t fun u => { u with fetch := none } else s

def execFrameNak (t : Tile) (frame : BitVec 48) (s : State) : Host.Outcome State Fault Refusal :=
  .next (frameNak t frame s)

/-! ## Verdicts (R150 to R152) -/

/-- The panel's message for a verdict (R192). -/
def VerdictKind.message : VerdictKind → PanelMsg
  | .showFrame n => .showFrame n
  | .repeatFrame => .repeatFrame
  | .blank => .blank

/-- A verdict at a unit IN_STEP: counted, and sent on or, at the eighth miss, the tile set aside (R150). -/
def State.countVerdict (s : State) (t : Tile) (v : VerdictKind) (delivered : Bool) : State :=
  let s := s.setUnit t fun u => { u with miss := if delivered then 0 else u.miss + 1 }
  if s.units[t].miss < 8 then s.sendPanel t v.message
  else ((s.setUnit t fun u => { u with rejoin := 0 }).sendPanel t .blank).become t .lagging

/-- A verdict at a unit LAGGING: BLANK to the panel, and a second delivery in a row makes it JOINING (R151). -/
def State.countRejoin (s : State) (t : Tile) (delivered : Bool) : State :=
  let s := (s.sendPanel t .blank).setUnit t fun u => { u with rejoin := if delivered then u.rejoin + 1 else 0 }
  if s.units[t].rejoin = 2 then s.become t .joining else s

/-- A verdict is judged by the unit's state (R150 to R152). -/
def State.takeVerdict (s : State) (t : Tile) (v : VerdictKind) (delivered : Bool) : State :=
  match s.units[t].state with
  | .inStep => s.countVerdict t v delivered
  | .lagging => s.countRejoin t delivered
  | .joining => s.sendPanel t .blank
  | .off => s
  | .training => s
  | .lost => s

/-- VERDICT: the oldest message under way to a unit is taken, where it is a verdict. -/
def verdict (t : Tile) (s : State) : State :=
  match s.mail.toUnit[t] with
  | .verdict v d :: _ => (s.popUnitMsg t).takeVerdict t v d
  | _ => s

def execVerdict (t : Tile) (s : State) : Host.Outcome State Fault Refusal := .next (verdict t s)

/-! ## Power orders and link reports (R142, R153, R154) -/

/-- POWER_ON_ORDER: the oldest message under way to a unit is taken, where it is a power-on order; a unit that
is OFF begins training (R142). -/
def powerOnOrder (t : Tile) (s : State) : State :=
  match s.mail.toUnit[t] with
  | .powerOn :: _ =>
    let s := s.popUnitMsg t
    if s.units[t].state = .off then s.startTraining t else s
  | _ => s

def execPowerOnOrder (t : Tile) (s : State) : Host.Outcome State Fault Refusal := .next (powerOnOrder t s)

/-- POWER_OFF_ORDER: the oldest message under way to a unit is taken, where it is a power-off order; a powered
unit abandons its fetch, blanks its panel and becomes OFF (R154). -/
def powerOffOrder (t : Tile) (s : State) : State :=
  match s.mail.toUnit[t] with
  | .powerOff :: _ =>
    let s := s.popUnitMsg t
    if s.units[t].state.powered then
      let s := (s.abandonFetch t).stopTraining t
      (if s.units[t].link then s.sendPanel t .blank else s).become t .off
    else s
  | _ => s

def execPowerOffOrder (t : Tile) (s : State) : Host.Outcome State Fault Refusal := .next (powerOffOrder t s)

/-- TILE_LINK_UP: the link field is set, and a training attempt that has not sent its messages sends them
(R143, R153). -/
def tileLinkUp (t : Tile) (s : State) : State :=
  let s := s.setUnit t fun u => { u with link := true }
  if s.units[t].state = .training ∧ s.units[t].trainSent = false then s.sendTrain t else s

def execTileLinkUp (t : Tile) (s : State) : Host.Outcome State Fault Refusal := .next (tileLinkUp t s)

/-- TILE_LINK_DOWN: the link field is set, and a powered unit abandons its fetch and becomes LOST (R153). -/
def tileLinkDown (t : Tile) (s : State) : State :=
  let s := s.setUnit t fun u => { u with link := false }
  if s.units[t].state.powered then ((s.abandonFetch t).stopTraining t).become t .lost else s

def execTileLinkDown (t : Tile) (s : State) : Host.Outcome State Fault Refusal := .next (tileLinkDown t s)

/-! ## RETRAIN_TILE and QUERY_TILE (R156, R157) -/

/-- RETRAIN_TILE at the scene engine and the unit (R156). -/
def retrainTile (tile : Byte) (c : Caller) (s : State) : State :=
  let u := (tileField tile).map fun t => s.units[t]
  s.checked c
    [ (s.cls c.port = .operator, .denied),
      ((tileField tile).isSome, .badField),
      (s.window = .lit, .dark),
      (u.any fun u => u.position.isSome, .state),
      (u.any fun u => u.state = .lost || u.state = .lagging, .state) ]
    fun s =>
      match tileField tile with
      | some t => ((s.abandonFetch t).startTraining t).reply c .ok
      | none => s

def execRetrainTile (h : Hdr) (tile : Byte) (s : State) : Host.Outcome State Fault Refusal :=
  .next (serve h 96 (.retrainTile · tile) false (retrainTile tile) s)

/-- What QUERY_TILE reports (R157). -/
def TileUnit.info (u : TileUnit) : TileInfo :=
  { state := u.state, power := u.power, link := u.link, position := u.position, ctx := u.ctx
    fetch := u.fetch.map fun f => (f.frame, f.source, f.requested, f.sent, f.endSent)
    miss := u.miss, rejoin := u.rejoin, attempts := u.attempts }

/-- QUERY_TILE at the unit (R157). -/
def queryTile (tile : Byte) (c : Caller) (s : State) : State :=
  s.checked c [((tileField tile).isSome, .badField)] fun s =>
    match tileField tile with
    | some t => s.reply c .ok (.tile s.units[t].info)
    | none => s

def execQueryTile (h : Hdr) (tile : Byte) (s : State) : Host.Outcome State Fault Refusal :=
  .next (serve h 97 (.queryTile · tile) false (queryTile tile) s)

end Sys2Proof.Machine
end

