-- ==== Sys2Proof/Machine/Dispatch.lean ====
section
/-! DEFINITION. The effect of each command on everything but the queue. -/

namespace Sys2Proof.Machine

def exec (i : Instr) (s : State) : Host.Outcome State Fault Refusal :=
  match i with
  | .powerOnReset straps => Sys2Proof.Machine.execPowerOnReset straps s
  | .badRequest port frame => Sys2Proof.Machine.execBadRequest port frame s
  | .configure h rate slots cols rows positions presence start => Sys2Proof.Machine.execConfigure h rate slots cols rows positions presence start s
  | .resetWindow h => Sys2Proof.Machine.execResetWindow h s
  | .setEpoch h frame => Sys2Proof.Machine.execSetEpoch h frame s
  | .darken h presence frame => Sys2Proof.Machine.execDarken h presence frame s
  | .wake h presence frame => Sys2Proof.Machine.execWake h presence frame s
  | .queryWindow h => Sys2Proof.Machine.execQueryWindow h s
  | .createPage h kind width height cells rate => Sys2Proof.Machine.execCreatePage h kind width height cells rate s
  | .deletePage h page => Sys2Proof.Machine.execDeletePage h page s
  | .purgePages h owner unsharedOnly => Sys2Proof.Machine.execPurgePages h owner unsharedOnly s
  | .setPageRights h page shared showClasses writeClasses => Sys2Proof.Machine.execSetPageRights h page shared showClasses writeClasses s
  | .queryPage h page => Sys2Proof.Machine.execQueryPage h page s
  | .loadBegin h page mode first count check => Sys2Proof.Machine.execLoadBegin h page mode first count check s
  | .data h chan presence check words => Sys2Proof.Machine.execData h chan presence check words s
  | .loadAbort h chan => Sys2Proof.Machine.execLoadAbort h chan s
  | .queryChannel h chan => Sys2Proof.Machine.execQueryChannel h chan s
  | .patch h page cell col row line first plane stipple words => Sys2Proof.Machine.execPatch h page cell col row line first plane stipple words s
  | .copy h source sourceCell dest destCell => Sys2Proof.Machine.execCopy h source sourceCell dest destCell s
  | .cancelEdit h => Sys2Proof.Machine.execCancelEdit h s
  | .setZone h zone presence col row cols rows => Sys2Proof.Machine.execSetZone h zone presence col row cols rows s
  | .claimZone h zone => Sys2Proof.Machine.execClaimZone h zone s
  | .releaseZone h zone => Sys2Proof.Machine.execReleaseZone h zone s
  | .handOver h zone port => Sys2Proof.Machine.execHandOver h zone port s
  | .seizeZone h zone => Sys2Proof.Machine.execSeizeZone h zone s
  | .queryZone h zone => Sys2Proof.Machine.execQueryZone h zone s
  | .queueCut h zone target label slip scene => Sys2Proof.Machine.execQueueCut h zone target label slip scene s
  | .withdrawCut h zone target => Sys2Proof.Machine.execWithdrawCut h zone target s
  | .defineGate h gate zone level minClass duration scene => Sys2Proof.Machine.execDefineGate h gate zone level minClass duration scene s
  | .clearGate h gate => Sys2Proof.Machine.execClearGate h gate s
  | .invokeGate h gate => Sys2Proof.Machine.execInvokeGate h gate s
  | .returnGate h zone => Sys2Proof.Machine.execReturnGate h zone s
  | .queryGate h gate => Sys2Proof.Machine.execQueryGate h gate s
  | .retrainTile h tile => Sys2Proof.Machine.execRetrainTile h tile s
  | .queryTile h tile => Sys2Proof.Machine.execQueryTile h tile s
  | .getEvents h => Sys2Proof.Machine.execGetEvents h s
  | .setEventMask h mask => Sys2Proof.Machine.execSetEventMask h mask s
  | .queryStore h => Sys2Proof.Machine.execQueryStore h s
  | .readFault h => Sys2Proof.Machine.execReadFault h s
  | .clientLinkUp port => Sys2Proof.Machine.execClientLinkUp port s
  | .portLoss port => Sys2Proof.Machine.execPortLoss port s
  | .tileLinkUp tile => Sys2Proof.Machine.execTileLinkUp tile s
  | .tileLinkDown tile => Sys2Proof.Machine.execTileLinkDown tile s
  | .frameAck tile frame => Sys2Proof.Machine.execFrameAck tile frame s
  | .frameNak tile frame => Sys2Proof.Machine.execFrameNak tile frame s
  | .trainEcho tile attempt pattern check => Sys2Proof.Machine.execTrainEcho tile attempt pattern check s
  | .unknownTileMessage tile message => Sys2Proof.Machine.execUnknownTileMessage tile message s
  | .frameBoundary => Sys2Proof.Machine.execFrameBoundary s
  | .refreshIntervalExpiry => Sys2Proof.Machine.execRefreshIntervalExpiry s
  | .attemptTimerExpiry tile => Sys2Proof.Machine.execAttemptTimerExpiry tile s
  | .scanComplete errors => Sys2Proof.Machine.execScanComplete errors s
  | .loadComplete => Sys2Proof.Machine.execLoadComplete s
  | .patchEditComplete errors => Sys2Proof.Machine.execPatchEditComplete errors s
  | .copyLineComplete errors => Sys2Proof.Machine.execCopyLineComplete errors s
  | .scrubComplete errors => Sys2Proof.Machine.execScrubComplete errors s
  | .refreshComplete => Sys2Proof.Machine.execRefreshComplete s
  | .selfRefreshExit => Sys2Proof.Machine.execSelfRefreshExit s
  | .entryCompletion => Sys2Proof.Machine.execEntryCompletion s
  | .exitCompletion => Sys2Proof.Machine.execExitCompletion s
  | .deliveryReport tile => Sys2Proof.Machine.execDeliveryReport tile s
  | .stateReport tile => Sys2Proof.Machine.execStateReport tile s
  | .fetchOrder tile => Sys2Proof.Machine.execFetchOrder tile s
  | .verdict tile => Sys2Proof.Machine.execVerdict tile s
  | .powerOnOrder tile => Sys2Proof.Machine.execPowerOnOrder tile s
  | .powerOffOrder tile => Sys2Proof.Machine.execPowerOffOrder tile s
  | .latchedCellAnnouncement => Sys2Proof.Machine.execLatchedCellAnnouncement s

end Sys2Proof.Machine
end

