-- ==== Sys2Proof/Safety.lean ====
section
/-! DEFINITION. What holds of the part at all times: the laws that the spec states of its state; and the words in
which statements speak of a request that reaches its block. -/

namespace Sys2Proof.Machine

/-! ## The frame store (R31, R32, R36, R39) -/

/-- The bytes of the DRAM, and the record of bits in error, are in their canonical form. -/
def State.memoryOk (s : State) : Prop := s.store.mem.wf = true ∧ sparseWf 0 s.store.errors = true

/-- The running transfer is a refresh whose outcome counts. -/
def State.refreshing (s : State) : Prop :=
  ∃ t, s.store.running = some t ∧ t.job = .refresh ∧ t.dropped = false

/-- The refresh debt lies between −8 and 8 (R31), a refresh runs only above −8 (R29), and while the
refreshed-since-wake flag is clear the debt is 0 or more (R32). -/
def State.debtOk (s : State) : Prop :=
  -8 ≤ s.store.debt ∧ s.store.debt ≤ 8 ∧ (s.refreshing → -7 ≤ s.store.debt) ∧
    (s.store.refreshed = false → 0 ≤ s.store.debt)

/-- The scrub queue holds at most 4 addresses, all different (R39), and the corrected-word count is at most
65535 (R36). -/
def State.scrubOk (s : State) : Prop :=
  s.store.scrub.length ≤ 4 ∧ (s.store.scrub.map (·.addr)).Nodup ∧ s.store.corrected ≤ 65535

/-- No port has two edits in the edit queue (R68). -/
def State.editsOk (s : State) : Prop := (s.edit.queue.map (·.port)).Nodup

/-! ## Client ports and tile output units (R141, R171, R172, R184) -/

/-- A port that is DOWN has an empty event set and mask, and no request in transit (R171, R184); and requests wait at a
port only while one of it is in transit (R172, log entry 28). -/
def State.portsOk (s : State) : Prop :=
  ∀ p : Port,
    (s.ports[p].up = false → s.ports[p].events = 0 ∧ s.ports[p].mask = 0 ∧ s.ports[p].transit = none) ∧
      (s.ports[p].transit = none → s.ports[p].waiting = [])

/-- The power-enable line of a unit follows its state (R141). -/
def State.powerOk (s : State) : Prop :=
  ∀ t : Tile, s.units[t].power = decide (s.units[t].state ≠ .off ∧ s.units[t].state ≠ .lost)

/-! ## The frame clock and the zones (R97, R104, R105, R130) -/

/-- The frame number and the pending epoch are numbers of 48 bits (R97, R98). -/
def State.frameOk (s : State) : Prop := s.scene.frame < 2 ^ 48 ∧ ∀ n, s.scene.epoch = some n → n < 2 ^ 48

/-- A gate is on its way onto a zone: pending or armed. -/
def Zone.gateComing (zn : Zone) : Prop :=
  (∃ g p, zn.pend = some (.invocation g p)) ∨ (∃ g p k, zn.armed = some (.gate g p k))

/-- A zone's cut queue holds at most 8 cuts, its targets rising (R105); its log at most 8 entries (R104); its
link stack at most 3 contexts, and fewer while a gate is on its way onto it (R128, R130); and nothing is pending
while a gate or a return is armed (R128, R135). -/
def Zone.ok (zn : Zone) : Prop :=
  zn.cuts.length ≤ 8 ∧ zn.cuts.Pairwise (fun a b => a.target < b.target) ∧ zn.log.length ≤ 8 ∧
    zn.stack.length ≤ 3 ∧ (zn.gateComing → zn.stack.length ≤ 2) ∧
    (zn.pend ≠ none → zn.armed = none ∨ zn.armed = some .cut)

/-- Every zone is so. -/
def State.zonesOk (s : State) : Prop := ∀ z : ZoneId, (s.zone z).ok

/-! ## The slot map (R10) -/

/-- A slot lies in a run of slots. -/
def inRun (n base len : Nat) : Prop := base ≤ n ∧ n < base + len

/-- A slot is free. -/
def State.slotFree (s : State) (n : Nat) : Prop := ∃ r ∈ s.dir.free, inRun n r.1 r.2

/-- A page holds a slot. -/
def State.pageHolds (s : State) (h : Handle) (n : Nat) : Prop :=
  ∃ p, s.page h = some p ∧ inRun n p.baseSlot p.slotCount

/-- The free runs are not empty, rise, and leave a gap between one and the next, so that adjacent free slots form
one run (R12). -/
def runsOk (rs : List (Nat × Nat)) : Prop :=
  (∀ r ∈ rs, 0 < r.2) ∧ rs.Pairwise (fun a b => a.1 + a.2 < b.1)

/-- The law of the slot map (R10): each slot below the populated count is free or held by one page, and no other
slot is either; and every page holds a slot (R4). -/
def State.slotsOk (s : State) : Prop :=
  runsOk s.dir.free ∧
    (∀ h p, s.page h = some p → 0 < p.slotCount) ∧
    (∀ h n, s.pageHolds h n → n < s.dir.populated ∧ ¬ s.slotFree n) ∧
    (∀ h k n, s.pageHolds h n → s.pageHolds k n → h = k) ∧
    (∀ n, s.slotFree n → n < s.dir.populated) ∧
    (∀ n, n < s.dir.populated → s.slotFree n ∨ ∃ h, s.pageHolds h n)

/-- In UNCONFIGURED the directory holds no page and no slot (R10, R24), and no request is in transit but one
that is served there (R175). -/
def State.unconfiguredOk (s : State) : Prop :=
  s.scene.window = .unconfigured →
    s.dir = .initial ∧ ∀ p i, s.ports[(p : Port)].transit = some i → Instr.servedUnconfigured i = true

/-! ## The states of pages (R4 to R6) -/

/-- What the state and kind of a page say of its other fields (R5, R6): a LIVE page is LIVE and has no damaged flag,
a STILL page has one, and while it is not LOADING its state follows from the flag and the valid cells. -/
def Page.stateOk (p : Page) : Prop :=
  (p.state = .live ↔ p.kind = .live) ∧ (p.damaged = none ↔ p.kind = .live) ∧
    (p.kind = .still → p.state ≠ .loading → p.state =
      if p.damaged = some true then .damaged else if p.allValid then .ready else .incomplete)

/-- A BLOCK load writes a page. -/
def Load.blockOf (h : Handle) (l : Load) : Bool :=
  decide (l.page = h) && match l.mode with
    | .block _ _ _ => true
    | .ring _ _ => false

/-- A COPY writes a page. -/
def Edit.copiesTo (h : Handle) (e : Edit) : Bool :=
  match e.job with
  | .copy _ _ dst _ _ => decide (dst = h)
  | .patch _ _ _ _ _ _ _ _ _ => false

/-- The number of BLOCK loads and COPY edits that write a page (R6). -/
def State.writers (s : State) (h : Handle) : Nat :=
  (allChans.countP fun c => (s.load.chans[c]).any (·.blockOf h)) + s.edit.queue.countP (·.copiesTo h)

/-- The law of the page states (R6): each entry's state agrees with its other fields; a page is LOADING exactly while
one BLOCK load or one COPY writes it, and no page is written by two; and a RING load is bound to a LIVE page (R51). -/
def State.pagesOk (s : State) : Prop :=
  (∀ h p, s.page h = some p → p.stateOk) ∧
    (∀ h, s.writers h = if (s.page h).any fun p => p.state = .loading then 1 else 0) ∧
    (∀ (c : ChanId) (l : Load) (n : Nat) (k : Option Check), s.load.chans[c] = some l → l.mode = .ring n k →
      ∃ p, s.page l.page = some p ∧ p.kind = .live)

/-! ## Pins (R15, R16) -/

/-- The number of placements of a scene that name a page. -/
def placementsNaming (sc : Scene) (pg : Handle) : Nat := sc.countP fun p => decide (p.page = pg)

/-- The references that the scenes of a zone make to a page: the current one, those of its queued cuts, and those of its
saved contexts (R15). -/
def Zone.references (zn : Zone) (pg : Handle) : Nat :=
  placementsNaming zn.current.scene pg + (zn.cuts.map fun c => placementsNaming c.scene pg).sum +
    (zn.stack.map fun x => placementsNaming x.scene pg).sum

/-- The references that an edit makes to a page (R15, R72, R76). -/
def Edit.references (e : Edit) (pg : Handle) : Nat :=
  match e.job with
  | .patch target _ _ _ _ _ _ _ _ => if target = pg then 1 else 0
  | .copy src _ dst _ _ => (if dst = pg then 1 else 0) + (if src = pg then 1 else 0)

/-- The references to a page: those of the zones' scenes, of the defined gates' scenes, and of the edits (R15). -/
def State.references (s : State) (pg : Handle) : Nat :=
  (allZones.map fun z => (s.zone z).references pg).sum +
    (allGates.map fun g => (((s.gate g).map fun e => placementsNaming e.scene pg).getD 0)).sum +
    (s.edit.queue.map fun e => e.references pg).sum

/-- The law of the pins (R15, R16): the pin count of each allocatable page is the number of the references to it, and no
reference is to a FREE one. -/
def State.pinsOk (s : State) : Prop :=
  ∀ pg : Handle, 4 ≤ pg.toNat → s.references pg = ((s.page pg).map (·.pins)).getD 0

/-! ## A request at its block (R171 to R173, R175) -/

/-- The request `i`, of header `h`, reaches its block in this step: its port is UP, and it is either examined and
taken in one step, nothing being in transit, or taken out of transit. Except for the requests served in every
window state (`anyWindow`), one that is examined in UNCONFIGURED reaches no block (R175). -/
abbrev State.reaches (s : State) (i : Instr) (h : Hdr) (anyWindow : Bool := false) : Prop :=
  s.ports[h.port].up = true ∧
    ((h.stage = .whole ∧ s.ports[h.port].transit = none ∧ (anyWindow = true ∨ s.window ≠ .unconfigured)) ∨
      (h.stage = .take ∧ s.ports[h.port].transit = some i))

/-- The state in which a request is taken at its block: it is no longer in transit. -/
def State.taking (s : State) (h : Hdr) : State := s.setPort h.port fun p => { p with transit := none }

/-- The state once a request has been taken: where it was taken out of transit, its port goes on with the requests that
wait behind it (R172, log entry 28). -/
def State.onward (s : State) (h : Hdr) : State := if h.stage = .take then s.goOn h.port else s

/-- The state with the reply to a request sent (R173), and its port gone on. -/
def State.answered (s : State) (h : Hdr) (code : Byte) (st : Status) (b : Body := .none) : State :=
  State.onward { s with out := s.out ++ [.reply h.port { code := code, tag := h.tag, status := st, body := b }] } h

end Sys2Proof.Machine
end

