-- ==== Sys2Proof/WellFormed.lean ====
section
/-! DEFINITION. Which commands can be sent: the bounds that the form of a request puts on the lists it carries,
and the messages that are really unknown. -/

namespace Sys2Proof

/-- A command that an outside sender can send. A BAD_REQUEST frame lacks the correct form (R188); the length of
a DATA or PATCH request fits its 2-byte field length, and so does its word count; a scene's placement count
fits its byte (R189); an unknown tile message is one that is no answer and no echo (R192); bit errors name
words of one line (R26). -/
def Instr.wf : Instr → Bool
  | .badRequest _ frame => !hasForm frame
  | .data _ _ _ _ ws => decide (8 + 8 * ws.length ≤ 65535)
  | .patch _ _ _ _ _ _ _ _ _ ws => decide (16 + 8 * ws.length ≤ 65535)
  | .queueCut _ _ _ _ _ sc => decide (sc.length ≤ 255)
  | .defineGate _ _ _ _ _ _ sc => decide (sc.length ≤ 255)
  | .unknownTileMessage t m => decide (decodePanelMessage t m = .unknownTileMessage t m)
  | .scanComplete es => es.all fun e => decide (e.1 < 256)
  | .patchEditComplete es => es.all fun e => decide (e.1 < 256)
  | .copyLineComplete es => es.all fun e => decide (e.1 < 256)
  | .powerOnReset _ => true
  | .configure _ _ _ _ _ _ _ _ => true
  | .resetWindow _ => true
  | .setEpoch _ _ => true
  | .darken _ _ _ => true
  | .wake _ _ _ => true
  | .queryWindow _ => true
  | .createPage _ _ _ _ _ _ => true
  | .deletePage _ _ => true
  | .purgePages _ _ _ => true
  | .setPageRights _ _ _ _ _ => true
  | .queryPage _ _ => true
  | .loadBegin _ _ _ _ _ _ => true
  | .loadAbort _ _ => true
  | .queryChannel _ _ => true
  | .copy _ _ _ _ _ => true
  | .cancelEdit _ => true
  | .setZone _ _ _ _ _ _ _ => true
  | .claimZone _ _ => true
  | .releaseZone _ _ => true
  | .handOver _ _ _ => true
  | .seizeZone _ _ => true
  | .queryZone _ _ => true
  | .withdrawCut _ _ _ => true
  | .clearGate _ _ => true
  | .invokeGate _ _ => true
  | .returnGate _ _ => true
  | .queryGate _ _ => true
  | .retrainTile _ _ => true
  | .queryTile _ _ => true
  | .getEvents _ => true
  | .setEventMask _ _ => true
  | .queryStore _ => true
  | .readFault _ => true
  | .clientLinkUp _ => true
  | .portLoss _ => true
  | .tileLinkUp _ => true
  | .tileLinkDown _ => true
  | .frameAck _ _ => true
  | .frameNak _ _ => true
  | .trainEcho _ _ _ _ => true
  | .frameBoundary => true
  | .refreshIntervalExpiry => true
  | .attemptTimerExpiry _ => true
  | .loadComplete => true
  | .scrubComplete _ => true
  | .refreshComplete => true
  | .selfRefreshExit => true
  | .entryCompletion => true
  | .exitCompletion => true
  | .deliveryReport _ => true
  | .stateReport _ => true
  | .fetchOrder _ => true
  | .verdict _ => true
  | .powerOnOrder _ => true
  | .powerOffOrder _ => true
  | .latchedCellAnnouncement => true

end Sys2Proof
end

