-- ==== Sys2Proof/Certificates/Slice0/Obligations.lean ====
section
/-! DEFINITION. The statements about the SC-416. In each, `s.reaches i h` says that the request `i` is taken at its
block in this step, `s.taking h` is the state in which it is taken, and `.answered h code status body` is that state
with the reply sent; `.onward h`, a part of `.answered`, is the port going on with the requests that waited behind it.
An equation `t = { s with out := t.out }` says that no other block changes. -/

namespace Sys2Proof.Machine

/-- Every byte of the frame store reads as before, and every word keeps its bits in error (R26, R36, R38). -/
def sameMemory (s t : State) : Prop :=
  (∀ a, t.store.mem.read a = s.store.mem.read a) ∧ t.store.errors = s.store.errors

/-- Outside `n` words of a line, from a word on, every byte of the frame store reads as before, and every word, told
by its number in the DRAM, keeps its bits in error (R26, R36, R38). -/
def sameMemoryOutside (s t : State) (slot line word n : Nat) : Prop :=
  (∀ a, a < byteAddr slot line word ∨ byteAddr slot line word + 8 * n ≤ a →
    t.store.mem.read a = s.store.mem.read a) ∧
  ∀ k, k < wordNumber slot line word ∨ wordNumber slot line word + n ≤ k →
    sparseGet (0 : ErrorMask) t.store.errors k = sparseGet 0 s.store.errors k

/-- The directory is as before but for one entry. -/
def samePagesBut (s t : State) (pg : Handle) : Prop :=
  (∀ k : Handle, k ≠ pg → t.page k = s.page k) ∧ t.dir.free = s.dir.free ∧ t.dir.populated = s.dir.populated

/-- The pin count of each stored page rises by the placements of one scene and falls by those of another; nothing
else of it changes (R15). -/
def pinsMove (s t : State) (gained dropped : Scene) : Prop :=
  (∀ pg : Handle, t.page pg =
    if pg.toNat < 4 then s.page pg
    else (s.page pg).map fun p =>
      { p with pins := p.pins + placementsNaming gained pg - placementsNaming dropped pg }) ∧
    t.dir.free = s.dir.free ∧ t.dir.populated = s.dir.populated

/-- Each allocatable page becomes what `f` makes of it, a FREE handle stays FREE, and the slot map stays. -/
def pagesBecome (s t : State) (f : Handle → Page → Page) : Prop :=
  (∀ k : Handle, 4 ≤ k.toNat → t.page k = (s.page k).map (f k)) ∧ t.dir.free = s.dir.free ∧
    t.dir.populated = s.dir.populated

/-- The state of a STILL page that is not LOADING (R6). -/
def settledState (damaged : Option Bool) (valid : CellSet) (cells : Nat) : PageState :=
  if damaged = some true then .damaged else if ∀ i, i < cells → valid.getLsbD i = true then .ready else .incomplete

/-! ### Words read (R7, R35 to R37, R39, R42) -/

/-- The words of a line, each with the class it reads with. -/
def lineReadings (s : State) (slot line : Nat) : List (Nat × ReadClass) :=
  (List.range 256).map fun w => (w, (s.store.readWord slot line w).cls)

/-- The words that read with a class, in order. -/
def readingOf (reads : List (Nat × ReadClass)) (c : ReadClass) : List Nat :=
  (reads.filter fun r => decide (r.2 = c)).map (·.1)

/-- A page after a damage report: a STILL one has its flag set and, unless it is LOADING, is DAMAGED (R7). -/
def damagedPage (p : Page) : Page :=
  match p.kind with
  | .live => p
  | .still => { p with damaged := some true, state := if p.state = .loading then .loading else .damaged }

/-- A page after the damage reports for some words of a slot, `bad`: the page that holds the slot is damaged (R7,
R37). -/
def reportedPage (s : State) (slot : Nat) (bad : List Nat) (k : Handle) (p : Page) : Page :=
  if bad ≠ [] ∧ s.slotOwner slot = some k then damagedPage p else p

/-- The fault capture record after a fault was offered for each of some words of a line, in order: the first fills an
unlocked record, and every other one marks it multiple (R41, R42). -/
def recordAfter (s : State) (kind : FaultKind) (o : Origin) (slot line : Nat) (bad : List Nat) : FaultRecord :=
  match bad with
  | [] => s.store.record
  | w :: more =>
    if s.store.record.locked then { s.store.record with multiple := true }
    else
      { fault := some
          { kind := kind, addr := some { slot := slot, line := line, word := w }, page := s.slotOwner slot
            source := some o, frame := s.scene.frame }
        locked := true, multiple := !more.isEmpty }

/-- A port after the events of the words `bad` of a slot: FAULT at an OPERATOR port where the record was unlocked (R42),
and PAGE_DAMAGED at the owner of a page whose damaged flag turned (R37). -/
def portAfter (s : State) (slot : Nat) (bad : List Nat) (q : Port) : PortRec :=
  let r := if bad ≠ [] ∧ s.store.record.locked = false ∧ s.cls q = .operator then s.ports[q].take .fault else s.ports[q]
  if bad ≠ [] ∧ ((s.slotOwner slot).bind s.page).any (fun p => decide (p.owner = q ∧ p.damaged = some false)) = true
  then r.take .pageDamaged else r

/-- The scrub queue after words of a line were offered to it in order (R39). -/
def offered (q : List ScrubEntry) (o : Origin) (slot line : Nat) (ws : List Nat) : List ScrubEntry :=
  ws.foldl
    (fun q w =>
      let a : WordAddr := { slot := slot, line := line, word := w }
      if q.length < 4 ∧ ∀ e ∈ q, e.addr ≠ a then q ++ [{ addr := a, origin := o }] else q) q

/-- `v` is the state at the completion of a SCAN or EDIT transfer before a grant is made: the bus is free, what the
classes of the words read call for has been done (R7, R36, R37, R39, R40, R42), and beside that only memory may have
changed. What became of the bytes and of the bits in error is for each statement to say (`sameMemory`,
`sameMemoryOutside`). -/
def transferDone (s v : State) (kind : FaultKind) (o : Origin) (slot line : Nat) (reads : List (Nat × ReadClass)) :
    Prop :=
  let bad := readingOf reads .uncorrectable
  let fixed := readingOf reads .corrected
  v = { s with store := v.store, dir := v.dir, ports := v.ports } ∧
    v.store = { s.store with
      running := none, mem := v.store.mem, errors := v.store.errors, record := recordAfter s kind o slot line bad
      corrected := min 65535 (s.store.corrected + fixed.length), scrub := offered s.store.scrub o slot line fixed
      scrubWaiting := s.store.scrubWaiting || decide (s.store.scrub = [] ∧ fixed ≠ []) } ∧
    (∀ q : Port, v.ports[q] = portAfter s slot bad q) ∧ pagesBecome s v (reportedPage s slot bad)

/-! ### Requests at the arbiter (R28, R29) -/

/-- A unit asks for the SCAN of its fetch's next line, which is granted at once where R29 chooses it. -/
def scanRequested (s : State) (t : Tile) : State :=
  State.grant { s with
    units := upd s.units t fun u => { u with fetch := u.fetch.map fun f => { f with requested := f.requested + 1 } }
    store := { s.store with scanWaiting := insertBit s.store.scanWaiting t.val } }

/-- A channel that is RUNNING asks for a LOAD where its buffer holds a line and none of its LOADs is waiting or running
(R49); one that a RESET_WINDOW has dropped does not count (log entry 12). -/
def lineRequested (s : State) (c : ChanId) : State :=
  match s.load.chans[c] with
  | some l =>
    if l.waiting = false ∧ 256 ≤ l.buffer.length ∧ s.store.loadWaiting.getLsbD c.val = false ∧
        s.store.running.any (fun r => r.job.isLoadOf c && !r.dropped) = false then
      State.grant { s with store := { s.store with loadWaiting := insertBit s.store.loadWaiting c.val } }
    else s
  | none => s

/-- The edit at the head of the queue, if any, asks for an EDIT (R69). -/
def headRequested (s : State) : State :=
  if s.edit.queue = [] then s else State.grant { s with store := { s.store with editWaiting := true } }

/-- The frame store once a unit has abandoned its fetch, if it has one: its waiting SCAN is withdrawn, and its running
one is to be discarded (R28, R148). -/
def scanWithdrawn (s : State) (t : Tile) : Store :=
  if s.units[t].fetch = none then s.store
  else
    { s.store with
      scanWaiting := eraseBit s.store.scanWaiting t.val
      running := s.store.running.map fun r =>
        if r.job.isScanOf t = true ∧ r.dropped = false then { r with discard := true } else r }

/-- The running EDIT, if any, is to be discarded by the edit unit (R79, R80). -/
def editDiscarded (s : State) : Option Transfer :=
  s.store.running.map fun r => if r.job.isEdit = true ∧ r.dropped = false then { r with discard := true } else r

/-- A page once an edit has left the queue: its pins and busy marks are released, and the destination of a COPY leaves
LOADING and is settled, its cell valid where the COPY is `done` (R69, R74, R78, R79). -/
def afterEdit (e : Edit) (done : Bool) (k : Handle) (p : Page) : Page :=
  let v : CellSet := match e.job with
    | .copy _ _ dst cell _ => if done = true ∧ dst = k then insertBit p.valid cell else p.valid
    | .patch _ _ _ _ _ _ _ _ _ => p.valid
  { p with
    pins := p.pins - e.references k, busy := if e.references k = 0 then p.busy else none, valid := v
    state := if e.copiesTo k then settledState p.damaged v p.cells else p.state }

/-! ### Cuts that leave their queue (R104) -/

/-- The entry of an outcome log for a cut. -/
def logEntry (c : Cut) (o : CutOutcome) (frame : Nat) : LogEntry :=
  { label := c.label, target := c.target, port := c.port, outcome := o, frame := frame }

/-- An outcome log with more entries: it keeps the newest 8 (R104). -/
def logged (l more : List LogEntry) : List LogEntry := (l ++ more).drop (l.length + more.length - 8)

/-- A port at which an event is raised by each of some cuts, the submitting ports of which hear of it (R104). -/
def portTold (r : PortRec) (q : Port) (cuts : List Cut) (e : Event) : PortRec :=
  if cuts.any (fun c => decide (c.port = q)) = true then r.take e else r

/-- The context that a cut's scene becomes (R113, R118, R120). -/
def playlistOf (c : Cut) (origin : Nat) : Context :=
  { scene := c.scene, origin := origin, kind := .playlist, remaining := none, invoker := none }

/-- A scene can be fetched whole (R109). -/
def fetchable (s : State) (sc : Scene) : Prop :=
  ∀ x ∈ sc, x.page.toNat < 4 ∨ ∃ e, s.page x.page = some e ∧ e.busy = none ∧
    ((e.kind = .live ∧ e.latest ≠ none) ∨
      (e.kind = .still ∧ (e.state = .ready ∨ e.state = .damaged) ∧
        ((x.mode = .loop ∧ ∀ i, i < e.cells → e.valid.getLsbD i = true) ∨
          (x.mode = .hold ∧ ∃ n, x.hold = some n ∧ e.valid.getLsbD n = true))))

/-! ### What the requests ask for, and when they pass their checks -/

/-- The body of a reply to a request that has not reached its block: in that to a claim request no port is named, nor
that one was displaced (log entry 14). -/
def unreachedBody (code : Byte) : Body :=
  if code = 65 then .holder none (some false)
  else if code = 66 ∨ code = 67 ∨ code = 68 then .holder none none
  else .none

/-- A load is a RING load (R47). -/
def isRing (l : Load) : Bool :=
  match l.mode with
  | .block _ _ _ => false
  | .ring _ _ => true

/-- A channel is bound to a page in RING mode. -/
abbrev ringOn (s : State) (pg : Handle) : Prop :=
  ∃ c : ChanId, ∃ l ∈ s.load.chans[c], l.page = pg ∧ isRing l = true

/-- The write right of a port over a page (R13). -/
abbrev mayWrite (s : State) (p : Port) (pg : Page) : Prop :=
  (pg.owner = p ∨ pg.shared = true) ∧ pg.writeClasses.getLsbD (s.cls p).value = true

/-- The cell after a page's latest, or cell 0 where it has none (R53, R60). -/
def cellAfterLatest (pg : Page) : Nat :=
  match pg.latest with
  | some n => (n + 1) % pg.cells
  | none => 0

/-- The message to a panel whose fetch is abandoned while its link is UP (R148). -/
def abortMessages (s : State) (t : Tile) : List Output :=
  match s.units[t].fetch, s.units[t].link with
  | some f, true => [.panel t (.abortFrame f.frame)]
  | _, _ => []

/-- The four training messages of an attempt, which are sent where the link is UP (R143). -/
def trainMessages (t : Tile) (attempt : Nat) (up : Bool) : List Output :=
  if up then
    [ .panel t (.train attempt 0 (patternLine 0 1)), .panel t (.train attempt 1 (patternLine 1 1)),
      .panel t (.train attempt 2 (patternLine 2 1)), .panel t (.train attempt 3 (patternLine 3 1)) ]
  else []

/-- The class that the two straps of a port give (R170). -/
def strapClass (b : BitVec 2) : Cls :=
  match b.toNat with
  | 0 => .monitor
  | 1 => .overlay
  | 2 => .playout
  | _ => .operator

/-- What CONFIGURE asks for is admitted (R176, R189, R190). -/
abbrev configureAdmitted (rate : Byte) (slots : BitVec 16) (cols rows : Byte) (positions : Vector Byte 16)
    (presence : Byte) : Prop :=
  (presence = 0 ∨ presence = 1) ∧ rate.toNat ∈ [24, 25, 30, 50, 60] ∧ slots.toNat ∈ [512, 1024, 2048] ∧
    1 ≤ cols.toNat ∧ cols.toNat ≤ 4 ∧ 1 ≤ rows.toNat ∧ rows.toNat ≤ 4 ∧
    (∀ i : Fin 16, positions[i] = 255 ∨
      (positions[i].toNat % 16 < cols.toNat ∧ positions[i].toNat / 16 < rows.toNat)) ∧
    (∀ i j : Fin 16, i ≠ j → positions[i] ≠ 255 → positions[i] ≠ positions[j])

/-- What CREATE_PAGE asks for is admitted (R18). -/
abbrev createAdmitted (kind width height cells rate : Byte) : Prop :=
  1 ≤ width.toNat ∧ width.toNat ≤ 4 ∧ 1 ≤ height.toNat ∧ height.toNat ≤ 4 ∧ cells.toNat ≤ 16 ∧
    ((kind = 0 ∧ 1 ≤ cells.toNat ∧ 1 ≤ rate.toNat) ∨ (kind = 1 ∧ 2 ≤ cells.toNat))

/-- A page passes every check of DELETE_PAGE (R20). -/
abbrev deletable (s : State) (p : Port) (pg : Handle) (e : Page) : Prop :=
  4 ≤ pg.toNat ∧ s.page pg = some e ∧ (e.owner = p ∨ s.cls p = .operator) ∧ e.pins = 0 ∧ e.state ≠ .loading ∧
    ¬ ringOn s pg

/-- PURGE_PAGES deletes a page (R21). -/
abbrev purged (s : State) (owner : Port) (unsharedOnly : Bool) (pg : Handle) (e : Page) : Prop :=
  4 ≤ pg.toNat ∧ s.page pg = some e ∧ e.owner = owner ∧ e.pins = 0 ∧ e.state ≠ .loading ∧ ¬ ringOn s pg ∧
    ¬ (unsharedOnly = true ∧ e.shared = true)

/-- A channel is the lowest IDLE one (R52, R53). -/
abbrev lowestIdle (s : State) (c : ChanId) : Prop :=
  s.load.chans[c] = none ∧ ∀ d : ChanId, d < c → s.load.chans[d] ≠ none

/-- A BLOCK LOAD_BEGIN passes every check (R51). -/
abbrev blockLoadAdmitted (s : State) (p : Port) (pg : Handle) (e : Page) (first count : Byte) (c : ChanId) : Prop :=
  4 ≤ pg.toNat ∧ s.page pg = some e ∧ mayWrite s p e ∧
    (e.state = .incomplete ∨ e.state = .ready ∨ e.state = .damaged) ∧ e.pins = 0 ∧ 1 ≤ count.toNat ∧
    first.toNat + count.toNat ≤ e.cells ∧ lowestIdle s c ∧ s.window = .lit

/-- A RING LOAD_BEGIN passes every check (R51). -/
abbrev ringLoadAdmitted (s : State) (p : Port) (pg : Handle) (e : Page) (c : ChanId) : Prop :=
  4 ≤ pg.toNat ∧ s.page pg = some e ∧ mayWrite s p e ∧ e.kind = .live ∧
    (∀ d : ChanId, ∀ l ∈ s.load.chans[d], l.page ≠ pg) ∧ lowestIdle s c ∧ s.window = .lit

/-- A DATA passes every check: its load is RUNNING, it exceeds neither the words expected nor the buffer, and it
carries a cell check exactly where it completes a cell of a ring load (R54). -/
abbrev dataAdmitted (s : State) (p : Port) (chan presence : Byte) (ws : List Word) (c : ChanId) (l : Load) : Prop :=
  chan.toNat = c.val ∧ 1 ≤ ws.length ∧ ws.length ≤ 256 ∧ s.window = .lit ∧ s.load.chans[c] = some l ∧ l.port = p ∧
    l.waiting = false ∧ l.wordsReceived + ws.length ≤ l.wordsExpected ∧ l.buffer.length + ws.length ≤ 512 ∧
    presence = (if isRing l = true ∧ l.wordsReceived + ws.length = l.wordsExpected then 1 else 0)

/-- A PATCH passes every check (R70). -/
abbrev patchAdmitted (s : State) (p : Port) (pg : Handle) (e : Page) (cell col row first : Byte) (n : Nat) :
    Prop :=
  4 ≤ pg.toNat ∧ s.page pg = some e ∧ e.kind = .still ∧ cell.toNat < e.cells ∧ col.toNat < e.width ∧
    row.toNat < e.height ∧ 1 ≤ n ∧ first.toNat + n ≤ 256 ∧ mayWrite s p e ∧
    (e.state = .incomplete ∨ e.state = .ready ∨ e.state = .damaged) ∧ e.valid.getLsbD cell.toNat = true ∧
    s.onScreen pg = false ∧ e.busy = none ∧ (∀ x ∈ s.edit.queue, x.port ≠ p) ∧ s.window = .lit

/-- A COPY between two stored pages passes every check (R75). -/
abbrev copyAdmitted (s : State) (p : Port) (src dst : Handle) (a d : Page) (sc dc : Byte) : Prop :=
  4 ≤ src.toNat ∧ 4 ≤ dst.toNat ∧ src ≠ dst ∧ s.page src = some a ∧ s.page dst = some d ∧ sc.toNat < a.cells ∧
    dc.toNat < d.cells ∧ a.width = d.width ∧ a.height = d.height ∧
    (a.owner = p ∨ a.shared = true) ∧ a.showClasses.getLsbD (s.cls p).value = true ∧ a.state = .ready ∧
    a.busy = none ∧ mayWrite s p d ∧ (d.state = .incomplete ∨ d.state = .ready) ∧ d.pins = 0 ∧
    (∀ x ∈ s.edit.queue, x.port ≠ p) ∧ s.window = .lit

/-- A COPY of a pattern page passes every check (R2, R75). -/
abbrev patternCopyAdmitted (s : State) (p : Port) (src dst : Handle) (d : Page) (sc dc : Byte) : Prop :=
  src.toNat < 4 ∧ 4 ≤ dst.toNat ∧ s.page dst = some d ∧ sc = 0 ∧ dc.toNat < d.cells ∧ d.width = 1 ∧ d.height = 1 ∧
    mayWrite s p d ∧ (d.state = .incomplete ∨ d.state = .ready) ∧ d.pins = 0 ∧
    (∀ x ∈ s.edit.queue, x.port ≠ p) ∧ s.window = .lit

/-- A rectangle may be given to a zone: it lies in the grid, meets no other zone's, and the zone is idle
(R87). -/
abbrev rectAdmitted (s : State) (z : ZoneId) (g : Grid) (r : Rect) : Prop :=
  s.scene.grid = some g ∧ 1 ≤ r.cols ∧ 1 ≤ r.rows ∧ r.col + r.cols ≤ g.cols ∧ r.row + r.rows ≤ g.rows ∧
    (∀ y : ZoneId, y ≠ z → ∀ q ∈ (s.zone y).rect,
      q.col + q.cols ≤ r.col ∨ r.col + r.cols ≤ q.col ∨ q.row + q.rows ≤ r.row ∨ r.row + r.rows ≤ q.row) ∧
    s.idleZone z = true

/-- What becomes of the memberships of a tile when a zone's rectangle changes: they pass with a tile that the zone now
covers and did not, or covered and does not, and those of another tile stay (R88). -/
def membershipsPass (s t : State) (z : ZoneId) (i : Tile) (was now : Bool) : Prop :=
  let a := s.zone z
  let b := s.scene.background
  let a' := t.zone z
  let b' := t.scene.background
  (was = false → now = true →
    a'.inStep.getLsbD i.val = (a.inStep.getLsbD i.val || b.inStep.getLsbD i.val) ∧
      a'.delivered.getLsbD i.val = (a.delivered.getLsbD i.val || b.delivered.getLsbD i.val) ∧
      b'.inStep.getLsbD i.val = false ∧ b'.delivered.getLsbD i.val = false) ∧
  (was = true → now = false →
    b'.inStep.getLsbD i.val = (b.inStep.getLsbD i.val || a.inStep.getLsbD i.val) ∧
      b'.delivered.getLsbD i.val = (b.delivered.getLsbD i.val || a.delivered.getLsbD i.val) ∧
      a'.inStep.getLsbD i.val = false ∧ a'.delivered.getLsbD i.val = false) ∧
  (was = now →
    a'.inStep.getLsbD i.val = a.inStep.getLsbD i.val ∧ a'.delivered.getLsbD i.val = a.delivered.getLsbD i.val ∧
      b'.inStep.getLsbD i.val = b.inStep.getLsbD i.val ∧ b'.delivered.getLsbD i.val = b.delivered.getLsbD i.val)

/-- A request names a zone that is set, held by a port (R89). -/
abbrev holds (s : State) (p : Port) (zone : Byte) (z : ZoneId) : Prop :=
  zone.toNat = z.val ∧ (s.zone z).rect ≠ none ∧ (s.zone z).holder = some p

/-- The zone positions that a placement covers: from its offsets, across the page's width and down its height (R99). -/
def coversPos (s : State) (x : Placement) (pos : Nat × Nat) : Prop :=
  x.col ≤ pos.1 ∧ pos.1 < x.col + (s.pageSize x.page).1 ∧ x.row ≤ pos.2 ∧ pos.2 < x.row + (s.pageSize x.page).2

/-! #### The scene checks (R102) -/

/-- Every placement names a page that is not FREE (check 1 of R102). -/
abbrev pagesExist (s : State) (sc : List RawPlacement) : Prop :=
  ∀ x ∈ sc, x.page.toNat < 4 ∨ s.page x.page ≠ none

/-- No placement names a page that is DAMAGED (check 2 of R102). -/
abbrev pagesSound (s : State) (sc : List RawPlacement) : Prop :=
  ∀ x ∈ sc, x.page.toNat < 4 ∨ ∀ e ∈ s.page x.page, e.state ≠ .damaged

/-- A port has the show right over the page of every placement: by R13, or by R2 over a pattern page (check 3 of
R102). -/
abbrev pagesShowable (s : State) (p : Port) (sc : List RawPlacement) : Prop :=
  ∀ x ∈ sc, x.page.toNat < 4 ∨
    ∃ e ∈ s.page x.page, (e.owner = p ∨ e.shared = true) ∧ e.showClasses.getLsbD (s.cls p).value = true

/-- Every placement's mode suits its page: LIVE, with no hold cell, for a LIVE page, and LOOP with no hold cell or HOLD
with one of the page's cells for another (check 4 of R102, log entry 17). -/
abbrev modesSuit (s : State) (sc : List RawPlacement) : Prop :=
  ∀ x ∈ sc,
    (x.page.toNat < 4 → (x.mode = 0 ∧ x.hold = 255) ∨ (x.mode = 1 ∧ x.hold = 0)) ∧
    (4 ≤ x.page.toNat → ∀ e ∈ s.page x.page,
      (e.kind = .live → x.mode = 2 ∧ x.hold = 255) ∧
      (e.kind = .still → (x.mode = 0 ∧ x.hold = 255) ∨ (x.mode = 1 ∧ x.hold ≠ 255 ∧ x.hold.toNat < e.cells)))

/-- Every placement lies inside a zone (check 5 of R102). -/
abbrev liesInside (s : State) (z : ZoneId) (sc : List RawPlacement) : Prop :=
  ∀ x ∈ sc, ∃ r ∈ (s.zone z).rect, x.offsets.toNat % 16 + (s.pageSize x.page).1 ≤ r.cols ∧
    x.offsets.toNat / 16 + (s.pageSize x.page).2 ≤ r.rows

/-- No zone position is covered by two placements (check 5 of R102). -/
def liesApart (s : State) (sc : List RawPlacement) : Prop :=
  sc.Pairwise fun x y => ∀ pos, ¬ (coversPos s (placementOf x) pos ∧ coversPos s (placementOf y) pos)

/-- A scene offered for a zone by a port passes the scene checks (R102). -/
def sceneAdmitted (s : State) (z : ZoneId) (p : Port) (sc : List RawPlacement) : Prop :=
  pagesExist s sc ∧ pagesSound s sc ∧ pagesShowable s p sc ∧ modesSuit s sc ∧ liesInside s z sc ∧ liesApart s sc

/-- A scene offered for a zone by a port fails a scene check, the first of which gives the status (R102). -/
def sceneRefused (s : State) (z : ZoneId) (p : Port) (sc : List RawPlacement) (st : Status) : Prop :=
  (¬ pagesExist s sc ∧ st = .noSuch) ∨
    (pagesExist s sc ∧ ¬ pagesSound s sc ∧ st = .state) ∨
    (pagesExist s sc ∧ pagesSound s sc ∧ ¬ pagesShowable s p sc ∧ st = .denied) ∨
    (pagesExist s sc ∧ pagesSound s sc ∧ pagesShowable s p sc ∧
      ¬ (modesSuit s sc ∧ liesInside s z sc ∧ liesApart s sc) ∧ st = .badField)

/-- A QUEUE_CUT passes every check before the scene checks (R106). -/
abbrev cutAsked (s : State) (p : Port) (zone : Byte) (target : BitVec 48) (slip : Byte) (sc : List RawPlacement)
    (z : ZoneId) : Prop :=
  (s.cls p = .playout ∨ s.cls p = .operator) ∧ holds s p zone z ∧ slip.toNat ≤ 8 ∧ sc.length ≤ 16 ∧
    s.scene.frame + 2 ≤ target.toNat ∧ (∀ c ∈ (s.zone z).cuts, c.target ≠ target.toNat) ∧
    (s.zone z).cuts.length < 8

/-- A DEFINE_GATE passes every check before the scene checks (R124). -/
abbrev gateAsked (s : State) (p : Port) (gate zone level minClass : Byte) (sc : List RawPlacement) (g : GateId)
    (z : ZoneId) : Prop :=
  s.cls p = .operator ∧ gate.toNat = g.val ∧ zone.toNat = z.val ∧ 1 ≤ level.toNat ∧ level.toNat ≤ 3 ∧
    1 ≤ minClass.toNat ∧ minClass.toNat ≤ 3 ∧ sc.length ≤ 16 ∧ (∀ e ∈ s.gate g, e.use = .defined) ∧
    (s.zone z).rect ≠ none

/-- An INVOKE_GATE passes every check (R128). -/
abbrev invocationAdmitted (s : State) (p : Port) (gate : Byte) (g : GateId) (e : Gate) : Prop :=
  gate.toNat = g.val ∧ s.gate g = some e ∧ e.minClass ≤ (s.cls p).value ∧ e.use = .defined ∧ s.window = .lit ∧
    (s.zone e.zone).pend = none ∧ ((s.zone e.zone).armed = none ∨ (s.zone e.zone).armed = some .cut) ∧
    (s.zone e.zone).stack.length < 3 ∧ s.currentLevel e.zone < e.level

/-- A RETURN_GATE passes every check (R135). -/
abbrev returnAdmitted (s : State) (p : Port) (zone : Byte) (z : ZoneId) : Prop :=
  zone.toNat = z.val ∧ (s.zone z).rect ≠ none ∧ (s.zone z).current.kind ≠ .playlist ∧
    (s.cls p = .operator ∨ (s.zone z).current.invoker = some p) ∧ (s.zone z).armed = none ∧ (s.zone z).pend = none

/-- A RETRAIN_TILE passes every check (R156). -/
abbrev retrainAdmitted (s : State) (p : Port) (tile : Byte) (t : Tile) : Prop :=
  s.cls p = .operator ∧ tile.toNat = t.val ∧ s.window = .lit ∧ s.units[t].position ≠ none ∧
    (s.units[t].state = .lost ∨ s.units[t].state = .lagging)

/-- A running transfer whose outcome counts, and whether its requester discards its completion (R28, R46). -/
abbrev runs (s : State) (j : TransferJob) (discard : Bool := false) : Prop :=
  s.store.running = some { job := j, discard := discard, dropped := false }

/-- A command is the completion of a transfer. -/
def completes (i : Instr) (j : TransferJob) : Prop :=
  match j with
  | .scan _ _ _ => ∃ e, i = .scanComplete e
  | .load _ _ _ _ => i = .loadComplete
  | .patch _ _ _ _ _ _ _ => ∃ e, i = .patchEditComplete e
  | .copy _ _ _ _ => ∃ e, i = .copyLineComplete e
  | .scrub _ => ∃ e, i = .scrubComplete e
  | .refresh => i = .refreshComplete

/-- The frame that a boundary starts (R97, R98). -/
def nextFrame (s : State) : Nat :=
  match s.scene.epoch with
  | some n => n
  | none => min (s.scene.frame + 1) (2 ^ 48 - 1)

/-- Every tile in step with a zone is delivered (R112). -/
abbrev wholeIn (zn : Zone) : Prop := ∀ i : Tile, zn.inStep.getLsbD i.val = true → zn.delivered.getLsbD i.val = true

/-- The armed item of a zone, if any, is not cleared by the choice (R115). -/
def keepsArmed (s : State) (z : ZoneId) : Prop :=
  match (s.zone z).armed with
  | some .cut => ∀ c later, (s.zone z).cuts = c :: later →
      s.scene.frame + 1 ≤ c.target + c.slip ∧ ∀ x ∈ later, s.scene.frame + 1 < x.target
  | some (.gate _ _ k) => k < 8
  | some .ret => True
  | none => True

/-- A zone has nothing armed and nothing pending, and no gate is current whose frames are over (R117). -/
def unarmed (zn : Zone) : Prop :=
  zn.armed = none ∧ zn.pend = none ∧ (zn.current.kind = .playlist ∨ zn.current.remaining ≠ some 0)

/-- The cuts of a zone that are due are `pre` and, after them, `c`, and those behind it, `post`, are not (R105). -/
def dueCuts (s : State) (z : ZoneId) (pre : List Cut) (c : Cut) (post : List Cut) : Prop :=
  (s.zone z).cuts = pre ++ c :: post ∧ (∀ x ∈ pre, x.target ≤ s.scene.frame + 1) ∧ c.target ≤ s.scene.frame + 1 ∧
    ∀ x ∈ post, s.scene.frame + 1 < x.target

/-- A zone's steady fetch for the next frame: of its current scene, with its origin (R119). -/
abbrev steady (s : State) (z : ZoneId) : State :=
  s.orderFetch z false (s.zone z).current.scene (s.zone z).current.origin

/-- A tile of a context that is sent a fetch order: its reported state is IN_STEP, LAGGING or JOINING (R85, R119). -/
def ordered (s : State) (x : Ctx) (i : Tile) : Bool :=
  decide (s.units[i].ctx = some x ∧
    (s.scene.reported[i] = some .inStep ∨ s.scene.reported[i] = some .lagging ∨ s.scene.reported[i] = some .joining))

/-- A tile of a context that its fetch order admits: its reported state is JOINING (R85, R119). -/
def admitted (s : State) (x : Ctx) (i : Tile) : Bool :=
  decide (s.units[i].ctx = some x ∧ s.scene.reported[i] = some .joining)

/-- The verdicts of a context (R85, R112): `v` to each tile of the in-step set, given whether it is delivered, and BLANK
to each other tile of the context that is reported LAGGING, each with its delivered mark. -/
def verdictsSent (s t : State) (x : Ctx) (inStep delivered : TileSet) (v : Bool → VerdictKind) : Prop :=
  t = { s with mail := { s.mail with toUnit := t.mail.toUnit } } ∧
    ∀ i : Tile, t.mail.toUnit[i] = s.mail.toUnit[i] ++
      (let d := delivered.getLsbD i.val
       if inStep.getLsbD i.val = true then [.verdict (v d) d]
       else if s.units[i].ctx = some x ∧ s.scene.reported[i] = some .lagging then [.verdict .blank d] else [])

/-! ### Dark entry (R163) -/

/-- The contexts that a wind-back drops: the current gate and each saved one, from the top down. -/
def gateContexts (zn : Zone) : List Context :=
  match zn.stack with
  | [] => []
  | _ :: above => zn.current :: above.reverse

/-- A wind-back of a zone ends a gate of an invoker: it is current or saved there. -/
def gateEnds (zn : Zone) (g : GateId) (p : Port) : Prop :=
  ∃ x ∈ gateContexts zn, x.kind = .gate g ∧ x.invoker = some p

/-- A wind-back of a zone abandons the invocation of a gate: it is armed or pending there. -/
def gateAbandons (zn : Zone) (g : GateId) (p : Port) : Prop :=
  (∃ k, zn.armed = some (.gate g p k)) ∨ zn.pend = some (.invocation g p)

/-- A zone wound back to its playlist at a frame: the saved playlist is current again, an armed cut that is released is
discarded and logged, another stays in the queue, and nothing is armed, pending, saved, fetched or in step. -/
def woundBack (zn : Zone) (frame : Nat) : Zone :=
  let lost : Bool := decide (zn.armed = some .cut) && zn.cuts.head?.any (·.released)
  { zn with
    current := zn.stack.head?.getD zn.current, armed := none, pend := none, stack := [], fetch := none, inStep := 0
    delivered := 0, cuts := if lost then zn.cuts.tail else zn.cuts
    log := if lost then logged zn.log ((zn.cuts.take 1).map fun c => logEntry c .discarded frame) else zn.log }

/-- A pending window change with a frame, or with none, is due at a boundary that starts frame `n` (R162). -/
abbrev dueAt (f : Option Nat) (n : Nat) : Prop := ∀ m, f = some m → m ≤ n

/-- A unit judges the answers of its panel (R149). -/
abbrev judging (u : TileUnit) : Prop := u.state = .joining ∨ u.state = .inStep ∨ u.state = .lagging

end Sys2Proof.Machine

open Sys2Proof Sys2Proof.Machine

/-! ## A step, reset, and the course of a request -/

/-- A step takes the command at the front of the queue and carries it out on the queue's rest; on an empty queue
nothing changes (log entry 8). -/
def Obligations.StepTakesTheFrontCommand : Prop :=
  (∀ (c : Instr) (rest : List Instr) (s : State),
    s.pending = c :: rest → step s = exec c { s with pending := rest }) ∧
  (∀ s : State, s.pending = [] → step s = .next s)

/-- Every command is carried out in every state, and leaves the queue alone: none stops the block. -/
def Obligations.EveryCommandIsCarriedOut : Prop :=
  ∀ (c : Instr) (s : State), ∃ t : State, exec c s = .next t ∧ t.pending = s.pending

/-- What every block holds after power-on reset. No request is in transit or waits (log entry 28), and the REFRESH
that runs is the pull-in granted at the release of reset (log entry 10). -/
def Obligations.ResetHoldsThePowerOnValues : Prop :=
  let s := State.reset
  (∀ p : Port, s.ports[p].up = false ∧ s.ports[p].events = 0 ∧ s.ports[p].mask = 0 ∧ s.ports[p].attention = false ∧
    s.ports[p].transit = none ∧ s.ports[p].waiting = []) ∧
  (∀ pg : Handle, s.page pg = none) ∧ s.dir.populated = 0 ∧ s.dir.free = [] ∧
  s.store.power = .awake ∧ s.store.debt = 0 ∧ s.store.refreshed = false ∧ s.store.scanPointer = 15 ∧
  s.store.loadPointer = 3 ∧ s.store.scanWaiting = 0 ∧ s.store.loadWaiting = 0 ∧ s.store.editWaiting = false ∧
  s.store.scrubWaiting = false ∧ runs s .refresh ∧
  s.store.scrub = [] ∧ s.store.corrected = 0 ∧ s.store.record = { fault := none, locked := false, multiple := false } ∧
  (∀ c : ChanId, s.load.chans[c] = none) ∧ s.load.latched = [] ∧ s.edit.queue = [] ∧
  s.scene.window = .unconfigured ∧ s.scene.change = none ∧ s.scene.frame = 0 ∧ s.scene.epoch = none ∧
  s.scene.timer = false ∧ (∀ t : Tile, s.scene.reported[t] = none) ∧
  (∀ z : ZoneId, (s.zone z).rect = none ∧ (s.zone z).holder = none ∧ (s.zone z).current.scene = [] ∧
    (s.zone z).current.origin = 0 ∧ (s.zone z).current.kind = .playlist ∧ (s.zone z).armed = none ∧
    (s.zone z).pend = none ∧ (s.zone z).cuts = [] ∧ (s.zone z).stack = [] ∧ (s.zone z).fetch = none ∧
    (s.zone z).inStep = 0 ∧ (s.zone z).delivered = 0 ∧ (s.zone z).log = []) ∧
  s.scene.background = { fetch := none, inStep := 0, delivered := 0 } ∧ (∀ g : GateId, s.gate g = none) ∧
  (∀ t : Tile, s.units[t].state = .off ∧ s.units[t].power = false ∧ s.units[t].position = none ∧
    s.units[t].ctx = none ∧ s.units[t].fetch = none ∧ s.units[t].miss = 0 ∧ s.units[t].rejoin = 0 ∧
    s.units[t].attempts = 0 ∧ s.units[t].link = false)

/-- POWER_ON_RESET: every block takes its power-on values, whatever it held, and each port the class of its straps.
What has been sent and what waits in the queue stay (log entry 19); the DRAM lists nothing (log entry 6), the
bookkeeping between the blocks and the messages under way are empty (log entries 13, 24 and 28), and a REFRESH runs
(log entry 10). -/
def Obligations.PowerOnResetRestoresEveryBlock : Prop :=
  ∀ (straps : Vector (BitVec 2) 4) (s : State),
    exec (.powerOnReset straps) s = .next
      { State.reset with
        ports := Vector.ofFn fun p : Fin 4 =>
          { up := false, cls := strapClass straps[p], events := 0, mask := 0, transit := none, waiting := [] }
        out := s.out, pending := s.pending }

/-- The course of a request: a DOWN port sends none on, and one that is not in transit is not taken out of it (log
entry 1); one that arrives behind another in transit waits at its port (log entry 28); one that is passed on is in
transit afterwards and has no other effect (log entry 3); in UNCONFIGURED all but six are answered NOT_CONFIGURED, a
claim request with a body that names no port (log entry 14). A frame without the correct form is answered BAD_REQUEST
with its code and tag as received, or 0 and 0 where it is too short to hold them, and it waits like any other
request. -/
def Obligations.RequestsTakeTheirCourse : Prop :=
  (∀ (i : Instr) (h : Hdr) (code : Byte) (f : List Byte) (s : State), i.request = some (h, code, f) →
    (s.ports[h.port].up = false → exec i s = .next s) ∧
    (h.stage = .take → s.ports[h.port].transit ≠ some i → exec i s = .next s) ∧
    (h.stage ≠ .take → s.ports[h.port].up = true → s.ports[h.port].transit ≠ none →
      ∃ j : Instr, j.request = some ({ h with stage := .take }, code, f) ∧
        exec i s = .next (s.setPort h.port fun p => { p with waiting := p.waiting ++ [j] })) ∧
    (h.stage = .pass → code ≠ 120 → code ≠ 121 → s.ports[h.port].up = true → s.ports[h.port].transit = none →
      s.window ≠ .unconfigured ∨ code = 1 ∨ code = 2 ∨ code = 6 ∨ code = 113 →
      ∃ j : Instr, j.request = some ({ h with stage := .take }, code, f) ∧
        exec i s = .next (s.setPort h.port fun p => { p with transit := some j })) ∧
    (h.stage ≠ .take → s.ports[h.port].up = true → s.ports[h.port].transit = none → s.window = .unconfigured →
      code ≠ 1 → code ≠ 2 → code ≠ 6 → code ≠ 113 → code ≠ 120 → code ≠ 121 →
      exec i s = .next (s.answered h code .notConfigured (unreachedBody code)))) ∧
  (∀ (p : Port) (frame : List Byte) (s : State), hasForm frame = true ∨ s.ports[p].up = false →
    exec (.badRequest p frame) s = .next s) ∧
  (∀ (p : Port) (frame : List Byte) (s : State), hasForm frame = false → s.ports[p].up = true →
    (s.ports[p].transit = none →
      (∀ (code tag : Byte) (rest : List Byte), frame = code :: tag :: rest → exec (.badRequest p frame) s =
        .next { s with out := s.out ++ [.reply p
          { code := code, tag := tag, status := .badRequest, body := unreachedBody code }] }) ∧
      (frame.length < 2 → exec (.badRequest p frame) s =
        .next { s with out := s.out ++ [.reply p { code := 0, tag := 0, status := .badRequest, body := .none }] })) ∧
    (s.ports[p].transit ≠ none → exec (.badRequest p frame) s =
      .next (s.setPort p fun r => { r with waiting := r.waiting ++ [.badRequest p frame] })))

/-- A port of which nothing is in transit goes on with the requests that wait, oldest first (log entry 28): one that
the window state lets pass is then in transit; one that is refused in UNCONFIGURED, one without the correct form,
GET_EVENTS and SET_EVENT_MASK are answered, the first two with the body of log entry 14, and the port goes on. While a
request is in transit, or none waits, nothing happens. -/
def Obligations.WaitingRequestsAreExamined : Prop :=
  ∀ (p : Port) (s : State), s.ports[p].up = true →
    (s.ports[p].transit ≠ none ∨ s.ports[p].waiting = [] → s.goOn p = s) ∧
    (∀ (i : Instr) (rest : List Instr), s.ports[p].transit = none → s.ports[p].waiting = i :: rest →
      let rested : State := s.setPort p fun r => { r with waiting := rest }
      let told (u : State) (code tag : Byte) (st : Status) (b : Body) : State :=
        { u with out := s.out ++ [.reply p { code := code, tag := tag, status := st, body := b }] }
      (∀ (h : Hdr) (code : Byte) (f : List Byte), i.request = some (h, code, f) → code ≠ 120 → code ≠ 121 →
        (s.window ≠ .unconfigured ∨ code = 1 ∨ code = 2 ∨ code = 6 ∨ code = 113 →
          s.goOn p = rested.setPort p fun r => { r with transit := some i }) ∧
        (s.window = .unconfigured → code ≠ 1 → code ≠ 2 → code ≠ 6 → code ≠ 113 →
          s.goOn p = (told rested code h.tag .notConfigured (unreachedBody code)).goOn p)) ∧
      (∀ h : Hdr, i = .getEvents h → s.goOn p =
        (told (rested.setPort p fun r => { r with events := 0 }) 120 h.tag .ok (.kinds s.ports[p].events)).goOn p) ∧
      (∀ (h : Hdr) (m : BitVec 16), i = .setEventMask h m →
        (m.getLsbD 15 = false → s.goOn p =
          (told (rested.setPort p fun r => { r with mask := m.setWidth 15 }) 121 h.tag .ok
            (.mask s.ports[p].mask)).goOn p) ∧
        (m.getLsbD 15 = true → s.goOn p = (told rested 121 h.tag .badField .none).goOn p)) ∧
      (∀ (q : Port) (code tag : Byte) (frame : List Byte), i = .badRequest q (code :: tag :: frame) →
        s.goOn p = (told rested code tag .badRequest (unreachedBody code)).goOn p) ∧
      (∀ (q : Port) (frame : List Byte), i = .badRequest q frame → frame.length < 2 →
        s.goOn p = (told rested 0 0 .badRequest .none).goOn p))

/-- CONFIGURE, RESET_WINDOW, SET_EPOCH, DARKEN, WAKE, PURGE_PAGES, SET_ZONE, SEIZE_ZONE, DEFINE_GATE, CLEAR_GATE and
RETRAIN_TILE from a port that is not of class OPERATOR are refused with DENIED and change nothing. -/
def Obligations.OperatorRequestsAreDeniedToOthers : Prop :=
  ∀ (i : Instr) (h : Hdr) (code : Byte) (f : List Byte) (s : State), i.request = some (h, code, f) →
    code ∈ ([1, 2, 3, 4, 5, 18, 64, 68, 80, 81, 96] : List Byte) →
    s.reaches i h (decide (code = 1 ∨ code = 2)) → s.cls h.port ≠ .operator →
    ∃ b : Body, (code ≠ 68 → b = .none) ∧ exec i s = .next ((s.taking h).answered h code .denied b)

/-! ## The client ports -/

/-- CLIENT_LINK_UP and PORT_LOSS: the port's link, and what a loss ends across the part. Its zones are released, their
unarmed cuts, and an armed one that no fetch in progress is of (log entry 15), discarded and logged, and a fetched
armed cut left released; its loads are aborted and the pages of BLOCK loads settled; its edit leaves the queue with
its pins and busy marks released; the gate of its pending invocation is DEFINED again, and its armed gate is left to
one last verdict. The requests of the port in transit and waiting are dropped (log entry 28). A report that repeats
the state changes nothing. -/
def Obligations.ClientLinksComeUpAndAreLost : Prop :=
  (∀ (p : Port) (s : State), s.ports[p].up = false →
    exec (.clientLinkUp p) s =
      .next (s.setPort p fun r => { r with up := true, events := 0, mask := 0, transit := none, waiting := [] })) ∧
  (∀ (p : Port) (s : State), s.ports[p].up = true → exec (.clientLinkUp p) s = .next s) ∧
  (∀ (p : Port) (s : State), s.ports[p].up = false → exec (.portLoss p) s = .next s) ∧
  (∀ (p : Port) (s : State), s.ports[p].up = true → (∀ z : ZoneId, (s.zone z).log.length ≤ 8) →
    let held (z : ZoneId) : Bool := decide ((s.zone z).holder = some p)
    let stays (z : ZoneId) : Bool := decide ((s.zone z).armed = some .cut) && (s.zone z).fetch.any (·.armed)
    let gone (z : ZoneId) : List Cut := if stays z then (s.zone z).cuts.tail else (s.zone z).cuts
    let edit : Option Edit := s.edit.queue.find? fun e => decide (e.port = p)
    let runs : Bool := s.edit.queue.head?.any fun e => decide (e.port = p)
    ∃ t : State, exec (.portLoss p) s = .next t ∧
      t.ports[p] = { up := false, cls := s.ports[p].cls, events := 0, mask := 0, transit := none, waiting := [] } ∧
      (∀ q : Port, q ≠ p → t.ports[q] = s.ports[q]) ∧
      (∀ z : ZoneId, t.zone z = { s.zone z with
        holder := if held z then none else (s.zone z).holder
        armed := match (s.zone z).armed with
          | some .cut => if held z && !stays z then none else some .cut
          | some (.gate g q k) => some (.gate g q (if q = p then 8 else k))
          | a => a
        pend := match (s.zone z).pend with
          | some (.invocation g q) => if q = p then none else some (.invocation g q)
          | a => a
        cuts := if held z then
            (if stays z then ((s.zone z).cuts.take 1).map fun c => { c with released := true } else [])
          else (s.zone z).cuts
        log := if held z then logged (s.zone z).log ((gone z).map fun c => logEntry c .discarded s.scene.frame)
          else (s.zone z).log }) ∧
      (∀ g : GateId, t.gate g = if ∃ z : ZoneId, (s.zone z).pend = some (.invocation g p)
        then (s.gate g).map fun e => { e with use := .defined } else s.gate g) ∧
      (∀ (c : ChanId) (l : Load), s.load.chans[c] = some l →
        t.load.chans[c] = (if l.port = p then none else some l) ∧
        (l.port = p → t.store.loadWaiting.getLsbD c.val = false)) ∧
      t.edit.queue = s.edit.queue.eraseP (fun e => decide (e.port = p)) ∧
      pagesBecome s t (fun k pg =>
        { pg with
          pins := pg.pins
            - (allZones.map fun z => if held z then placementsNaming ((gone z).flatMap (·.scene)) k else 0).sum
            - (edit.map (·.references k)).getD 0
          busy := if edit.any (fun e => decide (e.references k ≠ 0)) then none else pg.busy
          state :=
            if (allChans.any fun c => (s.load.chans[c]).any fun l => decide (l.port = p) && l.blockOf k) ||
                edit.any (·.copiesTo k)
            then settledState pg.damaged pg.valid pg.cells else pg.state }) ∧
      (∀ r : Transfer, s.store.running = some r → t.store.running = some { r with
        discard := r.discard || (!r.dropped && ((runs && r.job.isEdit) ||
          allChans.any fun c => r.job.isLoadOf c && (s.load.chans[c]).any fun l => decide (l.port = p))) } ∧
        t.store.editWaiting = if runs then decide (s.edit.queue.tail ≠ []) else s.store.editWaiting) ∧
      sameMemory s t ∧ t.units = s.units ∧ t.out = s.out)

/-- An event joins the set of a port that is UP and is dropped at one that is DOWN; the attention line is asserted
exactly while set and mask have a kind in common. GET_EVENTS reports the pending event set and empties it;
SET_EVENT_MASK replaces the mask and reports the old one, and refuses a mask with bit 15. -/
def Obligations.EventsAreReportedAndMasked : Prop :=
  (∀ (h : Hdr) (s : State), h.stage ≠ .take → s.ports[h.port].up = true → s.ports[h.port].transit = none →
    exec (.getEvents h) s = .next
      ((s.setPort h.port fun p => { p with events := 0 }).answered h 120 .ok (.kinds s.ports[h.port].events)) ∧
    (∀ m : BitVec 16, m.getLsbD 15 = false → exec (.setEventMask h m) s = .next
      ((s.setPort h.port fun p => { p with mask := m.setWidth 15 }).answered h 121 .ok
        (.mask s.ports[h.port].mask))) ∧
    (∀ m : BitVec 16, m.getLsbD 15 = true → exec (.setEventMask h m) s = .next (s.answered h 121 .badField))) ∧
  (∀ (p : PortRec) (e k : Event),
    (p.take e).events.getLsbD k.bit = (p.events.getLsbD k.bit || (p.up && decide (k = e)))) ∧
  (∀ (p : PortRec) (e : Event), p.take e = { p with events := (p.take e).events }) ∧
  (∀ p : PortRec, p.attention = true ↔
    ∃ k : Event, p.events.getLsbD k.bit = true ∧ p.mask.getLsbD k.bit = true) ∧
  (∀ (s : State) (e : Event) (p q : Port),
    (s.raise p e).ports[q] = if q = p then s.ports[q].take e else s.ports[q]) ∧
  (∀ (s : State) (e : Event) (q : Port), (s.raiseAll e).ports[q] = s.ports[q].take e) ∧
  (∀ (s : State) (e : Event) (q : Port),
    (s.raiseOperators e).ports[q] = if s.cls q = .operator then s.ports[q].take e else s.ports[q])

/-! ## The window -/

/-- CONFIGURE, in UNCONFIGURED from an OPERATOR port with admitted fields: the window is LIT, the slot map is filled,
the bound tiles join the background and are powered on, and the zones, the background and the gates are as after
reset. -/
def Obligations.ConfigureLightsTheWindow : Prop :=
  ∀ (h : Hdr) (rate : Byte) (slots : BitVec 16) (cols rows : Byte) (positions : Vector Byte 16) (presence : Byte)
    (start : BitVec 48) (s : State),
    s.reaches (.configure h rate slots cols rows positions presence start) h true → s.cls h.port = .operator →
    s.window = .unconfigured → configureAdmitted rate slots cols rows positions presence →
    ∃ t : State, exec (.configure h rate slots cols rows positions presence start) s = .next (t.answered h 1 .ok) ∧
      t.scene.window = .lit ∧ t.scene.frame = (if presence = 1 then start.toNat else 0) ∧ t.scene.timer = true ∧
      t.scene.epoch = none ∧ t.scene.change = none ∧
      t.scene.grid = some { rate := rate.toNat, cols := cols.toNat, rows := rows.toNat } ∧
      (∀ z : ZoneId, t.zone z = .initial) ∧ t.scene.background = .initial ∧ (∀ g : GateId, t.gate g = none) ∧
      t.dir.populated = slots.toNat ∧ t.dir.free = [(0, slots.toNat)] ∧ t.dir.pages = s.dir.pages ∧
      (∀ i : Tile, t.units[i] =
        if positions[i] = 255 then s.units[i]
        else { s.units[i] with
          position := some (positions[i].toNat % 16, positions[i].toNat / 16), ctx := some .background }) ∧
      (∀ i : Tile, positions[i] ≠ 255 → t.mail.toUnit[i] = s.mail.toUnit[i] ++ [.powerOn]) ∧
      (∀ i : Tile, positions[i] = 255 → s.units[i].position = none → t.mail.toUnit[i] = s.mail.toUnit[i]) ∧
      (∀ p : Port, t.ports[p] = ((s.taking h).ports[p]).take .windowChange) ∧
      t.out = s.out ∧ t.store = s.store ∧ t.load = s.load ∧ t.edit = s.edit

/-- RESET_WINDOW, in UNCONFIGURED, LIT or DARK from an OPERATOR port: every block takes its reset values, the frame
store keeps its bytes, each port its link, class and mask, and every edit and every other port's request in transit is
answered CANCELLED where that port is UP (log entry 32), before the OK (order of the replies: log entry 18), a claim
request naming no previous holder (log entry 14). A running transfer is dropped; where the bus is free the arbiter
grants a REFRESH at once (log entry 10). The messages under way and the bookkeeping between the blocks are dropped
(log entries 13 and 24), and the ports go on with the requests that wait (log entry 28). -/
def Obligations.ResetWindowClearsThePart : Prop :=
  ∀ (h : Hdr) (s : State), s.reaches (.resetWindow h) h true → s.cls h.port = .operator →
    s.window = .unconfigured ∨ s.window = .lit ∨ s.window = .dark →
    let edits : List Output := s.edit.queue.filterMap fun e =>
      if s.ports[e.port].up then
        some (.reply e.port { code := e.caller.code, tag := e.tag, status := .cancelled, body := .none })
      else none
    let others : List Output := allPorts.filterMap fun q =>
      if q ≠ h.port ∧ s.ports[q].up = true then
        (s.ports[q].transit.bind Instr.request).map fun r =>
          .reply q { code := r.2.1, tag := r.1.tag, status := .cancelled, body := unservedBody r.2.1 }
      else none
    let leaving : Bool := decide (s.store.power = .selfRefresh ∨ s.store.power = .exiting)
    ∃ t : State, exec (.resetWindow h) s = .next (t.goOnAll.onward h) ∧
      t.scene = State.reset.scene ∧ t.dir = State.reset.dir ∧
      t.load = State.reset.load ∧ t.edit = State.reset.edit ∧ t.mail = State.reset.mail ∧
      (∀ i : Tile, t.units[i] = { State.reset.units[i] with link := s.units[i].link }) ∧
      (∀ p : Port, t.ports[p] = { s.ports[p] with
        events := if s.ports[p].up then BitVec.twoPow 15 Event.windowChange.bit else 0, transit := none }) ∧
      t.store = { s.store with
        power := if leaving then .exiting else .awake
        entryKept := false, debt := 0, refreshed := false, scanPointer := 15, loadPointer := 3, scanWaiting := 0
        loadWaiting := 0, editWaiting := false, scrubWaiting := false, scrub := [], corrected := 0
        record := { fault := none, locked := false, multiple := false }
        running := match s.store.running with
          | some r => some { r with dropped := true }
          | none => if leaving then none else some { job := .refresh, discard := false, dropped := false } } ∧
      t.out = s.out ++ edits ++ others ++
        [.reply h.port { code := 2, tag := h.tag, status := .ok, body := .none }]

/-- SET_EPOCH, DARKEN and WAKE from an OPERATOR port set what the next boundaries act on, and nothing else; in
another window state DARKEN and WAKE are refused with STATE, and an epoch that is the current frame with BAD_FIELD.
-/
def Obligations.EpochsAndWindowChangesArePending : Prop :=
  (∀ (h : Hdr) (n : BitVec 48) (s : State), s.reaches (.setEpoch h n) h → s.cls h.port = .operator →
    (n.toNat ≠ s.scene.frame → exec (.setEpoch h n) s = .next
      (State.answered { s.taking h with scene := { s.scene with epoch := some n.toNat } } h 3 .ok)) ∧
    (n.toNat = s.scene.frame → exec (.setEpoch h n) s = .next ((s.taking h).answered h 3 .badField))) ∧
  (∀ (h : Hdr) (presence : Byte) (n : BitVec 48) (s : State), s.reaches (.darken h presence n) h →
    s.cls h.port = .operator → presence = 0 ∨ presence = 1 →
    (s.window = .lit → exec (.darken h presence n) s = .next
      (State.answered { s.taking h with scene :=
        { s.scene with change := some (.darken, if presence = 1 then some n.toNat else none) } } h 4 .ok)) ∧
    (s.window ≠ .lit → exec (.darken h presence n) s = .next ((s.taking h).answered h 4 .state))) ∧
  (∀ (h : Hdr) (presence : Byte) (n : BitVec 48) (s : State), s.reaches (.wake h presence n) h →
    s.cls h.port = .operator → presence = 0 ∨ presence = 1 →
    (s.window = .darkening ∨ s.window = .dark → exec (.wake h presence n) s = .next
      (State.answered { s.taking h with scene :=
        { s.scene with change := some (.wake, if presence = 1 then some n.toNat else none) } } h 5 .ok)) ∧
    (s.window ≠ .darkening → s.window ≠ .dark →
      exec (.wake h presence n) s = .next ((s.taking h).answered h 5 .state)))

/-! ## The queries -/

/-- QUERY_WINDOW, QUERY_CHANNEL, QUERY_ZONE and QUERY_GATE answer OK with the record that they name, refuse a number
out of range, and change nothing. A gate on the link stack is reported with its place counted from 0 at the bottom
(log entry 25). -/
def Obligations.QueriesReportAndChangeNothing : Prop :=
  (∀ (h : Hdr) (s : State), s.reaches (.queryWindow h) h true → exec (.queryWindow h) s = .next
    ((s.taking h).answered h 6 .ok (.window
      { window := s.window, change := s.scene.change, frame := s.scene.frame, epoch := s.scene.epoch
        ports := s.ports.toList.map fun p => (p.cls, p.up)
        requester := h.port
        config := s.scene.grid.map fun g =>
          { rate := g.rate, populated := s.dir.populated, cols := g.cols, rows := g.rows
            positions := s.units.toList.map (·.position) } }))) ∧
  (∀ (h : Hdr) (b : Byte) (s : State), s.reaches (.queryChannel h b) h →
    (∀ c : ChanId, b.toNat = c.val → exec (.queryChannel h b) s = .next
      ((s.taking h).answered h 35 .ok (.chan (s.load.chans[c].map fun l =>
        { waiting := l.waiting, mode := l.mode, port := l.port, page := l.page, wordsExpected := l.wordsExpected
          wordsReceived := l.wordsReceived, linesWritten := l.linesWritten, check := l.check
          buffered := l.buffer.length })))) ∧
    (4 ≤ b.toNat → exec (.queryChannel h b) s = .next ((s.taking h).answered h 35 .badField))) ∧
  (∀ (h : Hdr) (b : Byte) (s : State), s.reaches (.queryZone h b) h →
    (∀ z : ZoneId, b.toNat = z.val →
      let zn := s.zone z
      exec (.queryZone h b) s = .next ((s.taking h).answered h 69 .ok (.zone
        { rect := zn.rect, holder := zn.holder, kind := zn.current.kind, origin := zn.current.origin
          remaining := zn.current.remaining, scene := zn.current.scene
          armed := zn.armed.map fun a =>
            { item := match a with
                | .cut => .cut (zn.cuts.head?.map fun c => (c.target, c.label))
                | .gate g _ k => .gate g k
                | .ret => .ret
              fetched := zn.fetch.any (·.armed) }
          pend := zn.pend, fetch := zn.fetch.map fun f => (f.frame, f.armed)
          cuts := zn.cuts.map fun c =>
            { target := c.target, label := c.label, slip := c.slip, port := c.port, released := c.released
              placements := c.scene.length }
          stack := zn.stack.map fun x =>
            { kind := x.kind, remaining := x.remaining, placements := x.scene.length }
          inStep := zn.inStep, log := zn.log }))) ∧
    (4 ≤ b.toNat → exec (.queryZone h b) s = .next ((s.taking h).answered h 69 .badField))) ∧
  (∀ (h : Hdr) (b : Byte) (s : State), s.reaches (.queryGate h b) h →
    (∀ g : GateId, b.toNat = g.val → s.gate g = none →
      exec (.queryGate h b) s = .next ((s.taking h).answered h 84 .ok (.gate none))) ∧
    (∀ (g : GateId) (e : Gate), b.toNat = g.val → s.gate g = some e →
      let zn := s.zone e.zone
      let reported (place : Option GatePlace) : Prop :=
        exec (.queryGate h b) s = .next ((s.taking h).answered h 84 .ok (.gate (some (e, place))))
      (e.use = .defined → reported none) ∧
      (∀ p : Port, e.use = .invoked p →
        (∀ q k, zn.armed = some (.gate g q k) → reported (some (.armed k (zn.fetch.any (·.armed))))) ∧
        ((∀ q k, zn.armed ≠ some (.gate g q k)) → reported (some .pending))) ∧
      (∀ p : Port, e.use = .active p →
        (zn.current.kind = .gate g → reported (some (.current zn.current.remaining))) ∧
        (∀ (pre post : List Context) (x : Context), zn.current.kind ≠ .gate g → zn.stack = pre ++ x :: post →
          (∀ y ∈ pre, y.kind ≠ .gate g) → x.kind = .gate g →
          reported (some (.saved pre.length x.remaining))))) ∧
    (8 ≤ b.toNat → exec (.queryGate h b) s = .next ((s.taking h).answered h 84 .badField)))

/-- QUERY_PAGE answers OK with the entry as it stands: the fixed values of a pattern page, the state alone of a FREE
handle, and every field of a page. -/
def Obligations.QueryPageReportsTheEntry : Prop :=
  ∀ (h : Hdr) (pg : Handle) (s : State), s.reaches (.queryPage h pg) h →
    (pg.toNat < 4 → exec (.queryPage h pg) s = .next ((s.taking h).answered h 20 .ok (.page (some
      { state := .ready, kind := .still, width := 1, height := 1, cells := 1, rate := some 1, baseSlot := none
        slotCount := 0, owner := none, shared := true, showClasses := 0b1110, writeClasses := 0, valid := 1
        latest := none, pins := 0, busy := none, damaged := some false })))) ∧
    (4 ≤ pg.toNat → s.page pg = none →
      exec (.queryPage h pg) s = .next ((s.taking h).answered h 20 .ok (.page none))) ∧
    (∀ p : Page, 4 ≤ pg.toNat → s.page pg = some p → exec (.queryPage h pg) s = .next
      ((s.taking h).answered h 20 .ok (.page (some
        { state := p.state, kind := p.kind, width := p.width, height := p.height, cells := p.cells, rate := p.rate
          baseSlot := some p.baseSlot, slotCount := p.slotCount, owner := some p.owner, shared := p.shared
          showClasses := p.showClasses, writeClasses := p.writeClasses, valid := p.valid, latest := p.latest
          pins := p.pins, busy := p.busy, damaged := p.damaged }))))

/-- QUERY_STORE answers OK with the controller's state and changes nothing, and in UNCONFIGURED it is answered
NOT_CONFIGURED; READ_FAULT answers OK with the record, in every window state, and then unlocks it for an OPERATOR
port alone. -/
def Obligations.StoreRequestsReportTheStore : Prop :=
  (∀ (h : Hdr) (s : State), s.reaches (.queryStore h) h → exec (.queryStore h) s = .next
    ((s.taking h).answered h 112 .ok (.store
      { power := s.store.power, debt := s.store.debt, refreshed := s.store.refreshed, scrub := s.store.scrub
        corrected := s.store.corrected, populated := s.dir.populated, locked := s.store.record.locked }))) ∧
  (∀ (h : Hdr) (s : State), h.stage ≠ .take → s.ports[h.port].up = true → s.ports[h.port].transit = none →
    s.window = .unconfigured → exec (.queryStore h) s = .next (s.answered h 112 .notConfigured)) ∧
  (∀ (h : Hdr) (s : State), s.reaches (.readFault h) h true → s.cls h.port ≠ .operator →
    exec (.readFault h) s = .next ((s.taking h).answered h 113 .ok (.fault s.store.record))) ∧
  (∀ (h : Hdr) (s : State), s.reaches (.readFault h) h true → s.cls h.port = .operator →
    exec (.readFault h) s = .next (State.answered { s.taking h with store :=
      { s.store with record := { s.store.record with locked := false, multiple := false } } } h 113 .ok
      (.fault s.store.record)))

/-! ## Pages -/

/-- CREATE_PAGE takes the lowest FREE handle and the lowest slots of the first free run long enough, and fills the
entry; without a handle or a run it is refused with NO_ROOM, its cause, and the longest run and free slots. -/
def Obligations.CreatePageAllocatesFirstFit : Prop :=
  ∀ (h : Hdr) (kind width height cells rate : Byte) (s : State),
    s.reaches (.createPage h kind width height cells rate) h → s.cls h.port ≠ .monitor →
    createAdmitted kind width height cells rate →
    let n := width.toNat * height.toNat * cells.toNat
    (∀ (pg : Handle) (pre post : List (Nat × Nat)) (base len : Nat),
      4 ≤ pg.toNat → s.page pg = none → (∀ k : Handle, 4 ≤ k.toNat → k.toNat < pg.toNat → s.page k ≠ none) →
      s.dir.free = pre ++ (base, len) :: post → (∀ r ∈ pre, r.2 < n) → n ≤ len →
      ∃ t : State, exec (.createPage h kind width height cells rate) s =
          .next (t.answered h 16 .ok (.created pg base)) ∧
        t = { s.taking h with dir := t.dir } ∧ t.dir.populated = s.dir.populated ∧
        t.dir.free = pre ++ (if len = n then post else (base + n, len - n) :: post) ∧
        (∀ k : Handle, k ≠ pg → t.page k = s.page k) ∧
        t.page pg = some
          { state := if kind = 0 then .incomplete else .live, kind := if kind = 0 then .still else .live
            width := width.toNat, height := height.toNat, cells := cells.toNat
            rate := if kind = 0 then some rate.toNat else none
            baseSlot := base, slotCount := n, owner := h.port, shared := false
            showClasses := classesFrom (s.cls h.port), writeClasses := classesFrom (s.cls h.port), valid := 0
            latest := none, pins := 0, busy := none, damaged := if kind = 0 then some false else none }) ∧
    ((∀ k : Handle, 4 ≤ k.toNat → s.page k ≠ none) →
      exec (.createPage h kind width height cells rate) s = .next
        ((s.taking h).answered h 16 .noRoom (.noRoom false (longestRun s.dir.free) (freeSlots s.dir.free)))) ∧
    ((∃ k : Handle, 4 ≤ k.toNat ∧ s.page k = none) → (∀ r ∈ s.dir.free, r.2 < n) →
      exec (.createPage h kind width height cells rate) s = .next
        ((s.taking h).answered h 16 .noRoom (.noRoom true (longestRun s.dir.free) (freeSlots s.dir.free))))

/-- DELETE_PAGE makes its page FREE and PURGE_PAGES each page that it names; the slots of a deleted page rejoin the
free ones, and every other page stays. SET_PAGE_RIGHTS replaces the shared field and the two class sets of a page,
and nothing else. -/
def Obligations.PagesAreDeletedAndShared : Prop :=
  (∀ (h : Hdr) (pg : Handle) (e : Page) (s : State), s.reaches (.deletePage h pg) h → deletable s h.port pg e →
    ∃ t : State, exec (.deletePage h pg) s = .next (t.answered h 17 .ok) ∧ t = { s.taking h with dir := t.dir } ∧
      t.dir.populated = s.dir.populated ∧ t.page pg = none ∧ (∀ k : Handle, k ≠ pg → t.page k = s.page k) ∧
      (∀ n, t.slotFree n ↔ s.slotFree n ∨ inRun n e.baseSlot e.slotCount)) ∧
  (∀ (h : Hdr) (o u : Byte) (owner : Port) (s : State), s.reaches (.purgePages h o u) h →
    s.cls h.port = .operator → u = 0 ∨ u = 1 → o.toNat = owner.val →
    ∃ (t : State) (count : Nat), exec (.purgePages h o u) s = .next (t.answered h 18 .ok (.purged count)) ∧
      t = { s.taking h with dir := t.dir } ∧ t.dir.populated = s.dir.populated ∧
      (∀ (k : Handle) (e : Page), purged s owner (decide (u = 1)) k e → t.page k = none) ∧
      (∀ k : Handle, (¬ ∃ e, purged s owner (decide (u = 1)) k e) → t.page k = s.page k) ∧
      (∀ n, t.slotFree n ↔
        s.slotFree n ∨ ∃ k e, purged s owner (decide (u = 1)) k e ∧ inRun n e.baseSlot e.slotCount) ∧
      count = (allHandles.filter fun k => (s.page k).isSome && (t.page k).isNone).length) ∧
  (∀ (h : Hdr) (pg : Handle) (shared showC writeC : Byte) (e : Page) (s : State),
    s.reaches (.setPageRights h pg shared showC writeC) h → 4 ≤ pg.toNat → s.page pg = some e →
    e.owner = h.port ∨ s.cls h.port = .operator → shared = 0 ∨ shared = 1 → showC &&& 0xF1 = 0 →
    writeC &&& 0xF1 = 0 →
    ∃ t : State, exec (.setPageRights h pg shared showC writeC) s = .next (t.answered h 19 .ok) ∧
      t = { s.taking h with dir := t.dir } ∧ samePagesBut s t pg ∧
      t.page pg = some { e with
        shared := decide (shared = 1), showClasses := showC.setWidth 4, writeClasses := writeC.setWidth 4 })

/-! ## Loads -/

/-- LOAD_BEGIN takes the lowest IDLE channel. A BLOCK load makes its page LOADING and its cells leave the valid ones;
a RING load begins the cell after latest, which it waits for while a fetch latches it, and which otherwise leaves the
valid cells. -/
def Obligations.LoadBeginBindsAChannel : Prop :=
  (∀ (h : Hdr) (pg : Handle) (first count : Byte) (check : Check) (e : Page) (c : ChanId) (s : State),
    s.reaches (.loadBegin h pg 0 first count check) h → blockLoadAdmitted s h.port pg e first count c →
    ∃ t : State, exec (.loadBegin h pg 0 first count check) s = .next (t.answered h 32 .ok (.channel c)) ∧
      t = { s.taking h with dir := t.dir, load := t.load } ∧ samePagesBut s t pg ∧
      t.load.latched = s.load.latched ∧ (∀ d : ChanId, d ≠ c → t.load.chans[d] = s.load.chans[d]) ∧
      t.load.chans[c] = some
        { waiting := false, mode := .block first.toNat count.toNat check, port := h.port, page := pg
          wordsExpected := count.toNat * (e.width * e.height * 65536), wordsReceived := 0, linesWritten := 0
          check := 0, buffer := [] } ∧
      (∃ v : CellSet, t.page pg = some { e with state := .loading, valid := v } ∧
        ∀ i, i < 16 → v.getLsbD i =
          (e.valid.getLsbD i && !decide (first.toNat ≤ i ∧ i < first.toNat + count.toNat)))) ∧
  (∀ (h : Hdr) (pg : Handle) (first count : Byte) (check : Check) (e : Page) (c : ChanId) (s : State),
    s.reaches (.loadBegin h pg 1 first count check) h → ringLoadAdmitted s h.port pg e c →
    ∃ t : State, exec (.loadBegin h pg 1 first count check) s = .next (t.answered h 32 .ok (.channel c)) ∧
      t = { s.taking h with dir := t.dir, load := t.load } ∧ samePagesBut s t pg ∧
      t.load.latched = s.load.latched ∧ (∀ d : ChanId, d ≠ c → t.load.chans[d] = s.load.chans[d]) ∧
      t.load.chans[c] = some
        { waiting := decide ((pg, cellAfterLatest e) ∈ s.load.latched), mode := .ring (cellAfterLatest e) none
          port := h.port, page := pg, wordsExpected := e.width * e.height * 65536, wordsReceived := 0
          linesWritten := 0, check := 0, buffer := [] } ∧
      t.page pg = some
        (if (pg, cellAfterLatest e) ∈ s.load.latched then e
          else { e with valid := eraseBit e.valid (cellAfterLatest e) }))

/-- DATA joins the channel's buffer and its running check, which adds the two pixels of every word, and keeps the
cell check that completes a cell; the channel then asks for a LOAD where its buffer holds a line and none of its
LOADs is waiting or running (one that a RESET_WINDOW has dropped does not count: log entry 12), and nothing else
changes. -/
def Obligations.DataJoinsTheBuffer : Prop :=
  ∀ (h : Hdr) (chan presence : Byte) (check : Check) (ws : List Word) (c : ChanId) (l : Load) (s : State),
    s.reaches (.data h chan presence check ws) h → dataAdmitted s h.port chan presence ws c l →
    ∃ u : State, exec (.data h chan presence check ws) s = .next (State.answered (lineRequested u c) h 33 .ok) ∧
      u = { s.taking h with load := { s.load with chans := u.load.chans } } ∧
      (∀ d : ChanId, d ≠ c → u.load.chans[d] = s.load.chans[d]) ∧
      u.load.chans[c] = some
        { l with
          buffer := l.buffer ++ ws, wordsReceived := l.wordsReceived + ws.length
          check := l.check + (ws.map fun w => w.extractLsb' 0 32 + w.extractLsb' 32 32).sum
          mode := match l.mode with
            | .ring n k => .ring n (if presence = 1 then some check else k)
            | .block f n k => .block f n k }

/-- LOAD_ABORT from the bound port or an OPERATOR port makes the channel IDLE, settles the page of a BLOCK load, has
a running line discarded, and raises LOAD_FAILED at a bound port that did not ask for it. -/
def Obligations.LoadAbortEndsTheLoad : Prop :=
  ∀ (h : Hdr) (chan : Byte) (c : ChanId) (l : Load) (s : State), s.reaches (.loadAbort h chan) h →
    chan.toNat = c.val → s.load.chans[c] = some l → l.port = h.port ∨ s.cls h.port = .operator →
    ∃ t : State, exec (.loadAbort h chan) s = .next (t.answered h 34 .ok) ∧
      t = { s.taking h with dir := t.dir, load := t.load, store := t.store, ports := t.ports } ∧
      t.load.chans[c] = none ∧ (∀ d : ChanId, d ≠ c → t.load.chans[d] = s.load.chans[d]) ∧
      t.store = { s.store with loadWaiting := t.store.loadWaiting, running := t.store.running } ∧
      t.store.loadWaiting = eraseBit s.store.loadWaiting c.val ∧
      t.store.running = s.store.running.map (fun r =>
        if r.job.isLoadOf c = true ∧ r.dropped = false then { r with discard := true } else r) ∧
      samePagesBut s t l.page ∧
      (∀ n k, l.mode = .ring n k → t.page l.page = s.page l.page) ∧
      (∀ f n k, l.mode = .block f n k → t.page l.page = (s.page l.page).map fun p =>
        { p with state := settledState p.damaged p.valid p.cells }) ∧
      (∀ q : Port, t.ports[q] =
        if q = l.port ∧ l.port ≠ h.port then ((s.taking h).ports[q]).take .loadFailed else (s.taking h).ports[q])

/-- LOAD_COMPLETE of any line: the words are in memory with fresh check bits, no other byte changes and no other word's
bits in error do; then the bus falls free and a grant is made (log entry 11). Then a channel whose load goes on has
256 words gone from its buffer and lines written risen, and asks for its next line; a channel that discards the
completion asks as it stands (log entry 12). -/
def Obligations.LoadCompleteWritesTheLine : Prop :=
  ∀ (c : ChanId) (slot line : Nat) (ws : List Word) (discard : Bool) (s : State), s.memoryOk →
    runs s (.load c slot line ws) discard → line < 256 → ws.length ≤ 256 →
    ∃ v : State,
      v = { s with store := { s.store with running := none, mem := v.store.mem, errors := v.store.errors } } ∧
      (∀ w x, ws[w]? = some x → v.store.readWord slot line w = { cls := .clean, data := x }) ∧
      sameMemoryOutside s v slot line 0 ws.length ∧
      (discard = true → exec .loadComplete s = .next (lineRequested v.grant c)) ∧
      (∀ l : Load, discard = false → s.load.chans[c] = some l →
        ((l.linesWritten + 1) * 256 ≠ l.wordsExpected →
          let written : Load := { l with buffer := l.buffer.drop 256, linesWritten := l.linesWritten + 1 }
          exec .loadComplete s = .next (lineRequested
            { v.grant with load := { s.load with chans := upd s.load.chans c fun _ => some written } } c)) ∧
        ((l.linesWritten + 1) * 256 = l.wordsExpected → ∃ t : State, exec .loadComplete s = .next t ∧
          t.store = v.grant.store ∧ t.mail = v.grant.mail))

/-- LOAD_COMPLETE of the last line. A BLOCK load whose check agrees makes its cells valid, clears the damage of a
load over every cell, and raises LOAD_DONE; one whose check differs raises LOAD_FAILED; the page is settled and the
channel IDLE. A ring cell whose check agrees becomes valid and latest, and the ring begins the next cell, or waits
for it while a fetch latches it; one whose check differs raises CELL_FAILED and is begun again. -/
def Obligations.LastLineEndsTheLoadOrTheCell : Prop :=
  ∀ (c : ChanId) (slot line : Nat) (ws : List Word) (l : Load) (e : Page) (s : State),
    runs s (.load c slot line ws) → s.load.chans[c] = some l → (l.linesWritten + 1) * 256 = l.wordsExpected →
    s.page l.page = some e →
    ∃ t : State, exec .loadComplete s = .next t ∧ samePagesBut s t l.page ∧
      t = { s with ports := t.ports, dir := t.dir, load := t.load, store := t.store, mail := t.mail } ∧
      t.load.latched = s.load.latched ∧ (∀ d : ChanId, d ≠ c → t.load.chans[d] = s.load.chans[d]) ∧
      (∀ first count k, l.mode = .block first count k → l.check = k →
        t.load.chans[c] = none ∧
        (∃ v : CellSet,
          (∀ i, i < 16 → v.getLsbD i = (e.valid.getLsbD i || decide (first ≤ i ∧ i < first + count))) ∧
          ∃ d : Option Bool, d = (if first = 0 ∧ count = e.cells then some false else e.damaged) ∧
            t.page l.page = some { e with valid := v, damaged := d, state := settledState d v e.cells }) ∧
        (∀ q : Port, t.ports[q] = if q = l.port then s.ports[q].take .loadDone else s.ports[q])) ∧
      (∀ first count k, l.mode = .block first count k → l.check ≠ k →
        t.load.chans[c] = none ∧
        t.page l.page = some { e with state := settledState e.damaged e.valid e.cells } ∧
        (∀ q : Port, t.ports[q] = if q = l.port then s.ports[q].take .loadFailed else s.ports[q])) ∧
      (∀ n k, l.mode = .ring n k → k = some l.check → t.ports = s.ports ∧
        ((l.page, (n + 1) % e.cells) ∉ s.load.latched →
          t.load.chans[c] = some
            { l with
              waiting := false, mode := .ring ((n + 1) % e.cells) none, wordsReceived := 0, linesWritten := 0
              check := 0, buffer := [] } ∧
          t.page l.page = some
            { e with latest := some n, valid := eraseBit (insertBit e.valid n) ((n + 1) % e.cells) }) ∧
        ((l.page, (n + 1) % e.cells) ∈ s.load.latched →
          (∃ m : Load, t.load.chans[c] = some m ∧ m.waiting = true ∧ m.mode = .ring ((n + 1) % e.cells) none ∧
            m.port = l.port ∧ m.page = l.page ∧ m.wordsExpected = l.wordsExpected) ∧
          t.page l.page = some { e with latest := some n, valid := insertBit e.valid n })) ∧
      (∀ n k, l.mode = .ring n k → k ≠ some l.check →
        (∀ q : Port, t.ports[q] = if q = l.port then s.ports[q].take .cellFailed else s.ports[q]) ∧
        ((l.page, n) ∉ s.load.latched →
          t.load.chans[c] = some
            { l with
              waiting := false, mode := .ring n none, wordsReceived := 0, linesWritten := 0, check := 0
              buffer := [] } ∧
          t.page l.page = some { e with valid := eraseBit e.valid n }) ∧
        ((l.page, n) ∈ s.load.latched →
          (∃ m : Load, t.load.chans[c] = some m ∧ m.waiting = true ∧ m.port = l.port ∧ m.page = l.page) ∧
          t.page l.page = some e))

/-- LATCHED_CELL_ANNOUNCEMENT: the announced set replaces the latched one, and a channel that waits for a cell that
is no longer latched begins it: the cell leaves its page's valid cells. -/
def Obligations.AnnouncementsReplaceTheLatchedSet : Prop :=
  ∀ (a : List Latch) (rest : List (List Latch)) (s : State), s.mail.toLoad = a :: rest →
    ∃ t : State, exec .latchedCellAnnouncement s = .next t ∧
      t = { s with load := t.load, dir := t.dir, mail := { s.mail with toLoad := rest } } ∧ t.load.latched = a ∧
      (∀ (c : ChanId) (l : Load), s.load.chans[c] = some l → l.waiting = false → t.load.chans[c] = some l) ∧
      (∀ (c : ChanId) (l : Load) (n : Nat) (k : Option Check), s.load.chans[c] = some l → l.waiting = true →
        l.mode = .ring n k →
        ((l.page, n) ∈ a → t.load.chans[c] = some l) ∧
        ((l.page, n) ∉ a → t.load.chans[c] = some
          { l with
            waiting := false, mode := .ring n none, wordsReceived := 0, linesWritten := 0, check := 0
            buffer := [] })) ∧
      (∀ c : ChanId, s.load.chans[c] = none → t.load.chans[c] = none) ∧
      (∀ pg : Handle, s.page pg = none → t.page pg = none) ∧
      (∀ (pg : Handle) (e : Page), s.page pg = some e → ∃ v : CellSet, t.page pg = some { e with valid := v } ∧
        ∀ i, v.getLsbD i = true ↔ e.valid.getLsbD i = true ∧
          ∀ (c : ChanId) (l : Load) (k : Option Check), s.load.chans[c] = some l → l.waiting = true →
            l.mode = .ring i k → l.page = pg → (pg, i) ∈ a) ∧
      t.dir.free = s.dir.free ∧ t.dir.populated = s.dir.populated

/-! ## Edits -/

/-- An accepted PATCH or COPY joins the tail of the edit queue, and in an empty queue asks for its transfer at once;
no reply is sent. A PATCH pins its page and marks it busy; a COPY pins and marks both its pages, a pattern page
never, its destination becomes LOADING, and the destination cell leaves the valid ones. -/
def Obligations.EditsAreAccepted : Prop :=
  (∀ (h : Hdr) (pg : Handle) (cell col row line first : Byte) (plane stipple : BitVec 32) (ws : List Word)
    (e : Page) (s : State),
    s.reaches (.patch h pg cell col row line first plane stipple ws) h →
    patchAdmitted s h.port pg e cell col row first ws.length →
    ∃ u : State, exec (.patch h pg cell col row line first plane stipple ws) s =
        .next (State.onward (if s.edit.queue = [] then headRequested u else u) h) ∧
      u = { s.taking h with
        dir := u.dir
        edit := { s.edit with queue := s.edit.queue ++
          [{ port := h.port, tag := h.tag
             job := .patch pg cell.toNat col.toNat row.toNat line.toNat first.toNat plane stipple ws }] } } ∧
      samePagesBut s u pg ∧ u.page pg = some { e with pins := e.pins + 1, busy := some (h.port, .patchTarget) }) ∧
  (∀ (h : Hdr) (src dst : Handle) (sc dc : Byte) (d : Page) (s : State), s.reaches (.copy h src sc dst dc) h →
    (∃ a, copyAdmitted s h.port src dst a d sc dc) ∨ patternCopyAdmitted s h.port src dst d sc dc →
    ∃ u : State, exec (.copy h src sc dst dc) s =
        .next (State.onward (if s.edit.queue = [] then headRequested u else u) h) ∧
      u = { s.taking h with
        dir := u.dir
        edit := { s.edit with queue := s.edit.queue ++
          [{ port := h.port, tag := h.tag, job := .copy src sc.toNat dst dc.toNat 0 }] } } ∧
      u.page dst = some { d with
        pins := d.pins + 1, busy := some (h.port, .copyDest), state := .loading
        valid := eraseBit d.valid dc.toNat } ∧
      (4 ≤ src.toNat → u.page src = (s.page src).map fun a =>
        { a with pins := a.pins + 1, busy := some (h.port, .copySource) }) ∧
      (∀ k : Handle, k ≠ dst → k ≠ src ∨ src.toNat < 4 → u.page k = s.page k) ∧
      u.dir.free = s.dir.free ∧ u.dir.populated = s.dir.populated)

/-- CANCEL_EDIT takes the port's edit out of the queue and answers OK and then, for the edit, CANCELLED (log entry
18); its pins and busy marks are released, and the destination of a COPY is settled. A running COPY has its waiting
EDIT withdrawn or its granted one discarded, and the next edit asks for its transfer. Without an edit the port is
answered NO_SUCH, and a running PATCH is not cancelled. -/
def Obligations.CancelEditRemovesTheEdit : Prop :=
  ∀ (h : Hdr) (s : State), s.reaches (.cancelEdit h) h →
    ((∀ e ∈ s.edit.queue, e.port ≠ h.port) →
      exec (.cancelEdit h) s = .next ((s.taking h).answered h 50 .noSuch)) ∧
    (∀ (e : Edit) (pre post : List Edit), s.edit.queue = pre ++ e :: post → (∀ x ∈ pre, x.port ≠ h.port) →
      e.port = h.port →
      ((pre = [] ∧ ∃ pg cell x y l w a b ws, e.job = .patch pg cell x y l w a b ws) →
        exec (.cancelEdit h) s = .next ((s.taking h).answered h 50 .state)) ∧
      (¬ (pre = [] ∧ ∃ pg cell x y l w a b ws, e.job = .patch pg cell x y l w a b ws) →
        ∃ u : State,
          exec (.cancelEdit h) s = .next (State.onward (if pre = [] then headRequested u else u) h) ∧
          u = { s.taking h with
            dir := u.dir, edit := { s.edit with queue := pre ++ post }
            store := if pre = [] then { s.store with editWaiting := false, running := editDiscarded s } else s.store
            out := s.out ++
              [ .reply h.port { code := 50, tag := h.tag, status := .ok, body := .none },
                .reply h.port { code := e.caller.code, tag := e.tag, status := .cancelled, body := .none } ] } ∧
          pagesBecome s u (afterEdit e false)))

/-- PATCH_EDIT_COMPLETE, of the words as they stand once the new bit errors, if any, have come into the line (log
entry 2): in each word of the run, the bits that stipple and plane mask select have the value given and the others
stay, and it carries fresh check bits (log entry 31), but a word that had to be read and read UNCORRECTABLE keeps its
data and its bits in error; no byte of another word changes, nor its bits in error. What the words read call for is
done, damage reports, faults, counts and scrub offers, and then the bus falls free and a grant is made (log entry 11).
The edit then leaves the queue with its pin and busy mark released and is answered OK, or DAMAGED_WORDS with the
number of words left, and the next edit runs; where the completion is discarded, none of this follows. -/
def Obligations.PatchCompleteMergesTheRun : Prop :=
  ∀ (p : Port) (slot line first : Nat) (plane stipple : BitVec 32) (ws : List Word) (discard : Bool)
    (errors : BitErrors) (s : State),
    s.memoryOk → s.scrubOk → runs s (.patch p slot line first plane stipple ws) discard → line < 256 →
    first + ws.length ≤ 256 →
    let d : State := { s with store := s.store.disturb slot line errors }
    let whole (k : Nat) : Bool :=
      decide (plane = BitVec.allOnes 32) && stipple.getLsbD (2 * (first + k) % 32) &&
        stipple.getLsbD ((2 * (first + k) + 1) % 32)
    let cls (k : Nat) : ReadClass := (d.store.readWord slot line (first + k)).cls
    let reads : List (Nat × ReadClass) :=
      ((List.range ws.length).filter fun k => !whole k).map fun k => (first + k, cls k)
    let n : Nat := (readingOf reads .uncorrectable).length
    ∃ v : State, transferDone d v .patchUncorrectable (.port p) slot line reads ∧
      (∀ k x, ws[k]? = some x → whole k = true ∨ cls k ≠ .uncorrectable → ∃ m : Word,
        v.store.readWord slot line (first + k) = { cls := .clean, data := m } ∧
        ∀ b, b < 64 → m.getLsbD b =
          if stipple.getLsbD ((2 * (first + k) + b / 32) % 32) = true ∧ plane.getLsbD (b % 32) = true
          then x.getLsbD b else (d.store.readWord slot line (first + k)).data.getLsbD b) ∧
      (∀ k, k < ws.length → whole k = false → cls k = .uncorrectable →
        v.store.readWord slot line (first + k) = d.store.readWord slot line (first + k) ∧
          v.store.rawWord slot line (first + k) = d.store.rawWord slot line (first + k) ∧
          v.store.errorOf slot line (first + k) = d.store.errorOf slot line (first + k)) ∧
      sameMemoryOutside d v slot line first ws.length ∧
      (discard = true → exec (.patchEditComplete errors) s = .next v.grant) ∧
      (∀ (e : Edit) (rest : List Edit), discard = false → s.edit.queue = e :: rest →
        (∃ pg cell x y l w a b us, e.job = .patch pg cell x y l w a b us) →
        ∃ u : State, exec (.patchEditComplete errors) s = .next (headRequested u).reportEditsEnded ∧
          u = { v.grant with
            dir := u.dir, edit := { s.edit with queue := rest }
            out := s.out ++ (if s.ports[e.port].up then
              [.reply e.port (if n = 0 then { code := 48, tag := e.tag, status := .ok, body := .none }
                else { code := 48, tag := e.tag, status := .damagedWords, body := .unwritten n })] else []) } ∧
          pagesBecome v u (afterEdit e true))

/-- COPY_LINE_COMPLETE, of the words as they stand once the new bit errors, if any, have come into the source line
(log entry 2). Where none of them reads UNCORRECTABLE, the destination line holds its words with fresh check bits, no
byte of another word changes, and each other word keeps its bits in error, those of the source line with them; with
such a word nothing is written. A line of a pattern page is its picture. What the words read call for is done, and
then the bus falls free and a grant is made (log entry 11). The COPY then goes on, or after its last line makes the
cell valid and is answered OK, or at a damaged line stops with SOURCE_DAMAGED; its pins and busy marks are then
released, the destination is settled, and the next edit runs. Where the completion is discarded, none of this
follows. -/
def Obligations.CopyCompleteMovesTheLine : Prop :=
  ∀ (p : Port) (source : CopySource) (dest line : Nat) (discard : Bool) (errors : BitErrors) (s : State),
    s.memoryOk → s.scrubOk →
    line < 256 → runs s (.copy p source dest line) discard →
    let d : State := match source with
      | .slot n => { s with store := s.store.disturb n line errors }
      | .pattern _ => s
    let reads : List (Nat × ReadClass) := match source with
      | .slot n => lineReadings d n line
      | .pattern _ => []
    let from' : Nat := match source with
      | .slot n => n
      | .pattern _ => 0
    let bad : Bool := decide (readingOf reads .uncorrectable ≠ [])
    ∃ v : State, transferDone d v .copyUncorrectable (.port p) from' line reads ∧
      (bad = true → sameMemory d v) ∧
      (bad = false → sameMemoryOutside d v dest line 0 256 ∧
        (∀ w x, w < 256 →
          (match source with
            | .slot n => some (d.store.readWord n line w).data
            | .pattern q => (patternLine q line)[w]?) = some x →
          v.store.readWord dest line w = { cls := .clean, data := x })) ∧
      (discard = true → exec (.copyLineComplete errors) s = .next v.grant) ∧
      (∀ (port : Port) (tag : Byte) (src dst : Handle) (sc dc k : Nat) (rest : List Edit) (pg : Page),
        discard = false → s.edit.queue = { port := port, tag := tag, job := .copy src sc dst dc k } :: rest →
        4 ≤ dst.toNat → src ≠ dst → s.page dst = some pg →
        let e : Edit := { port := port, tag := tag, job := .copy src sc dst dc (k + 1) }
        let ended (st : Status) (done : Bool) : Prop :=
          ∃ u : State, exec (.copyLineComplete errors) s = .next (headRequested u).reportEditsEnded ∧
            u = { v.grant with
              dir := u.dir, edit := { s.edit with queue := rest }
              out := s.out ++ (if s.ports[port].up then
                [.reply port { code := 49, tag := tag, status := st, body := .none }] else []) } ∧
            pagesBecome v u (afterEdit e done)
        (bad = true → ended .sourceDamaged false) ∧
        (bad = false → k + 1 = pg.width * pg.height * 256 → ended .ok true) ∧
        (bad = false → k + 1 ≠ pg.width * pg.height * 256 → exec (.copyLineComplete errors) s =
          .next (headRequested { v.grant with edit := { s.edit with queue := e :: rest } })))

/-! ## Zones and claims -/

/-- SET_ZONE with a rectangle gives it to an idle zone, and the tiles it covers pass from the background to the zone
with their memberships, the others back; without one the zone is left unset and unheld, its tiles pass to the
background with their memberships, and a holder other than the requester is raised ZONE_LOST. The zone's other fields
stay, as do the memberships of the tiles that do not pass and the background's fetch in progress. -/
def Obligations.SetZoneMovesTheTiles : Prop :=
  (∀ (h : Hdr) (zone col row cols rows : Byte) (z : ZoneId) (g : Grid) (s : State),
    s.reaches (.setZone h zone 1 col row cols rows) h → s.cls h.port = .operator → zone.toNat = z.val →
    let r : Rect := { col := col.toNat, row := row.toNat, cols := cols.toNat, rows := rows.toNat }
    rectAdmitted s z g r →
    ∃ t : State, exec (.setZone h zone 1 col row cols rows) s = .next (t.answered h 64 .ok) ∧
      t = { s.taking h with scene := t.scene, units := t.units } ∧
      t.zone z = { s.zone z with
        rect := some r, inStep := (t.zone z).inStep, delivered := (t.zone z).delivered } ∧
      (∀ y : ZoneId, y ≠ z → t.zone y = s.zone y) ∧
      t.scene = { s.scene with
        zones := t.scene.zones
        background := { s.scene.background with
          inStep := t.scene.background.inStep, delivered := t.scene.background.delivered } } ∧
      ∀ i : Tile,
        let was : Bool := s.units[i].position.any fun p => (s.zone z).rect.any (·.covers p)
        let now : Bool := s.units[i].position.any r.covers
        t.units[i] = { s.units[i] with
          ctx := if now = true ∧ was = false then some (.zone z)
            else if was = true ∧ now = false then some .background else s.units[i].ctx } ∧
        membershipsPass s t z i was now) ∧
  (∀ (h : Hdr) (zone col row cols rows : Byte) (z : ZoneId) (s : State),
    s.reaches (.setZone h zone 0 col row cols rows) h → s.cls h.port = .operator → zone.toNat = z.val →
    s.idleZone z = true →
    ∃ t : State, exec (.setZone h zone 0 col row cols rows) s = .next (t.answered h 64 .ok) ∧
      t = { s.taking h with scene := t.scene, units := t.units, ports := t.ports } ∧
      t.zone z = { s.zone z with
        rect := none, holder := none, inStep := (t.zone z).inStep, delivered := (t.zone z).delivered } ∧
      (∀ y : ZoneId, y ≠ z → t.zone y = s.zone y) ∧
      t.scene = { s.scene with
        zones := t.scene.zones
        background := { s.scene.background with
          inStep := t.scene.background.inStep, delivered := t.scene.background.delivered } } ∧
      (∀ i : Tile,
        let was : Bool := s.units[i].position.any fun p => (s.zone z).rect.any (·.covers p)
        t.units[i] = { s.units[i] with ctx := if was = true then some .background else s.units[i].ctx } ∧
        membershipsPass s t z i was false) ∧
      (∀ q : Port, t.ports[q] =
        if (s.zone z).holder = some q ∧ q ≠ h.port then ((s.taking h).ports[q]).take .zoneLost
        else (s.taking h).ports[q]))

/-- CLAIM_ZONE takes a zone that is set and has no other holder; HAND_OVER and SEIZE_ZONE pass a zone on, and with it
the cuts that are not released; each names the previous holder, and SEIZE_ZONE raises ZONE_LOST at it. RELEASE_ZONE
leaves the zone without a holder: its unarmed cuts are discarded from head to tail, logged and unpinned (log entry
15), and an armed cut that the fetch in progress is of stays, released. -/
def Obligations.ZonesAreClaimedAndReleased : Prop :=
  (∀ (h : Hdr) (zone : Byte) (z : ZoneId) (s : State), s.reaches (.claimZone h zone) h →
    s.cls h.port = .playout ∨ s.cls h.port = .operator → zone.toNat = z.val → (s.zone z).rect ≠ none →
    ((s.zone z).holder = none ∨ (s.zone z).holder = some h.port →
      exec (.claimZone h zone) s = .next
        (((s.taking h).setZone z fun zn => { zn with holder := some h.port }).answered h 65 .ok
          (.holder (s.zone z).holder (some (decide ((s.zone z).holder = some h.port)))))) ∧
    (∀ q : Port, (s.zone z).holder = some q → q ≠ h.port → exec (.claimZone h zone) s = .next
      ((s.taking h).answered h 65 .held (.holder (some q) (some false))))) ∧
  (∀ (h : Hdr) (zone port : Byte) (z : ZoneId) (q : Port) (s : State), s.reaches (.handOver h zone port) h →
    holds s h.port zone z → port.toNat = q.val → s.ports[q].up = true →
    s.cls q = .playout ∨ s.cls q = .operator → q ≠ h.port →
    exec (.handOver h zone port) s = .next
      (((s.taking h).setZone z fun zn =>
        { zn with holder := some q
                  cuts := zn.cuts.map fun c => if c.released then c else { c with port := q } }).answered h 67 .ok
        (.holder (some h.port) none))) ∧
  (∀ (h : Hdr) (zone port : Byte) (z : ZoneId) (s : State), s.reaches (.handOver h zone port) h →
    holds s h.port zone z → port.toNat = h.port.val → s.cls h.port = .playout ∨ s.cls h.port = .operator →
    exec (.handOver h zone port) s = .next ((s.taking h).answered h 67 .ok (.holder (some h.port) none))) ∧
  (∀ (h : Hdr) (zone : Byte) (z : ZoneId) (s : State), s.reaches (.seizeZone h zone) h →
    s.cls h.port = .operator → zone.toNat = z.val → (s.zone z).rect ≠ none → (s.zone z).holder ≠ some h.port →
    ∃ t : State, exec (.seizeZone h zone) s = .next (t.answered h 68 .ok (.holder (s.zone z).holder none)) ∧
      t = { (s.taking h).setZone z (fun zn =>
        { zn with holder := some h.port
                  cuts := zn.cuts.map fun c => if c.released then c else { c with port := h.port } }) with
        ports := t.ports } ∧
      (∀ q : Port, t.ports[q] =
        if (s.zone z).holder = some q then ((s.taking h).ports[q]).take .zoneLost else (s.taking h).ports[q])) ∧
  (∀ (h : Hdr) (zone : Byte) (z : ZoneId) (s : State), s.reaches (.seizeZone h zone) h →
    s.cls h.port = .operator → holds s h.port zone z →
    exec (.seizeZone h zone) s = .next ((s.taking h).answered h 68 .ok (.holder (some h.port) none))) ∧
  (∀ (h : Hdr) (zone : Byte) (z : ZoneId) (s : State), s.reaches (.releaseZone h zone) h → holds s h.port zone z →
    (s.zone z).log.length ≤ 8 →
    let stays : Bool := decide ((s.zone z).armed = some .cut) && (s.zone z).fetch.any (·.armed)
    let gone : List Cut := if stays then (s.zone z).cuts.tail else (s.zone z).cuts
    ∃ t : State, exec (.releaseZone h zone) s = .next (t.answered h 66 .ok (.holder (some h.port) none)) ∧
      t = { s.taking h with scene := t.scene, dir := t.dir } ∧ (∀ y : ZoneId, y ≠ z → t.zone y = s.zone y) ∧
      t.zone z = { s.zone z with
        holder := none
        armed := if (s.zone z).armed = some .cut ∧ stays = false then none else (s.zone z).armed
        cuts := if stays then ((s.zone z).cuts.take 1).map fun c => { c with released := true } else []
        log := logged (s.zone z).log (gone.map fun c => logEntry c .discarded s.scene.frame) } ∧
      pinsMove s t [] (gone.flatMap (·.scene)))

/-! ## Cuts and gates -/

/-- QUEUE_CUT with a scene that passes the scene checks puts a cut into the queue of a zone its port holds, at the
place its target gives it, and pins its pages. A scene that fails one is refused, the first that fails giving the
status: NO_SUCH for a FREE page, STATE for a DAMAGED one, DENIED without the show right, BAD_FIELD for a mode that
does not suit its page (log entry 17), a placement outside the zone, or two that overlap. WITHDRAW_CUT takes an
unarmed cut out, unpins its pages and logs it WITHDRAWN. -/
def Obligations.CutsAreQueuedAndWithdrawn : Prop :=
  (∀ (h : Hdr) (zone : Byte) (target : BitVec 48) (label : BitVec 16) (slip : Byte) (sc : List RawPlacement)
    (z : ZoneId) (s : State),
    s.reaches (.queueCut h zone target label slip sc) h → cutAsked s h.port zone target slip sc z →
    sceneAdmitted s z h.port sc →
    ∃ t : State, exec (.queueCut h zone target label slip sc) s = .next (t.answered h 72 .ok) ∧
      t = { s.taking h with scene := t.scene, dir := t.dir } ∧ (∀ y : ZoneId, y ≠ z → t.zone y = s.zone y) ∧
      pinsMove s t (sc.map placementOf) [] ∧
      ∃ pre post, (s.zone z).cuts = pre ++ post ∧ (∀ c ∈ pre, c.target < target.toNat) ∧
        (∀ c, post.head? = some c → target.toNat < c.target) ∧
        t.zone z = { s.zone z with cuts := pre ++
          { label := label, port := h.port, target := target.toNat, slip := slip.toNat
            scene := sc.map placementOf, released := false } :: post }) ∧
  (∀ (h : Hdr) (zone : Byte) (target : BitVec 48) (label : BitVec 16) (slip : Byte) (sc : List RawPlacement)
    (z : ZoneId) (st : Status) (s : State),
    s.reaches (.queueCut h zone target label slip sc) h → cutAsked s h.port zone target slip sc z →
    sceneRefused s z h.port sc st →
    exec (.queueCut h zone target label slip sc) s = .next ((s.taking h).answered h 72 st)) ∧
  (∀ (h : Hdr) (zone : Byte) (target : BitVec 48) (z : ZoneId) (c : Cut) (pre post : List Cut) (s : State),
    s.reaches (.withdrawCut h zone target) h → s.cls h.port = .playout ∨ s.cls h.port = .operator →
    holds s h.port zone z → (s.zone z).cuts = pre ++ c :: post → c.target = target.toNat →
    (∀ x ∈ pre, x.target ≠ target.toNat) → ¬ ((s.zone z).armed = some .cut ∧ pre = []) →
    ∃ t : State, exec (.withdrawCut h zone target) s = .next (t.answered h 73 .ok) ∧
      t = { s.taking h with scene := t.scene, dir := t.dir } ∧ (∀ y : ZoneId, y ≠ z → t.zone y = s.zone y) ∧
      pinsMove s t [] c.scene ∧
      t.zone z = { s.zone z with
        cuts := pre ++ post
        log := logged (s.zone z).log [logEntry c .withdrawn s.scene.frame] })

/-- CLEAR_GATE: NOT_CONFIGURED in UNCONFIGURED; then the class, the gate number and the gate's state are checked in
this order; a request that passes unpins each placement of the gate's scene, makes the gate UNDEFINED with its other
fields dropped, and changes nothing else. -/
def Obligations.ClearGateDropsTheDefinition : Prop :=
  (∀ (h : Hdr) (gate : Byte) (s : State), h.stage ≠ .take → s.ports[h.port].up = true →
    s.ports[h.port].transit = none → s.window = .unconfigured →
    exec (.clearGate h gate) s = .next (s.answered h 81 .notConfigured)) ∧
  (∀ (h : Hdr) (gate : Byte) (s : State), s.reaches (.clearGate h gate) h →
    (s.cls h.port ≠ .operator → exec (.clearGate h gate) s = .next ((s.taking h).answered h 81 .denied)) ∧
    (s.cls h.port = .operator → 8 ≤ gate.toNat →
      exec (.clearGate h gate) s = .next ((s.taking h).answered h 81 .badField)) ∧
    (∀ g : GateId, s.cls h.port = .operator → gate.toNat = g.val → (∀ e ∈ s.gate g, e.use ≠ .defined) →
      exec (.clearGate h gate) s = .next ((s.taking h).answered h 81 .state)) ∧
    (∀ (g : GateId) (e : Gate), s.cls h.port = .operator → gate.toNat = g.val → s.gate g = some e →
      e.use = .defined →
      ∃ t : State, exec (.clearGate h gate) s = .next (t.answered h 81 .ok) ∧
        t = { s.taking h with scene := t.scene, dir := t.dir } ∧
        t.scene = { s.scene with gates := t.scene.gates } ∧ t.gate g = none ∧
        (∀ k : GateId, k ≠ g → t.gate k = s.gate k) ∧ pinsMove s t [] e.scene))

/-- DEFINE_GATE with a scene that passes the scene checks defines a gate that is UNDEFINED or DEFINED, pins its scene
and unpins the one it replaces; a scene that fails one is refused with the status of the first that fails (log entry
17). INVOKE_GATE makes a DEFINED gate INVOKED and pending on its zone; RETURN_GATE asks a zone for the return from its
current gate. -/
def Obligations.GatesAreDefinedInvokedAndReturned : Prop :=
  (∀ (h : Hdr) (gate zone level minClass : Byte) (duration : BitVec 16) (sc : List RawPlacement) (g : GateId)
    (z : ZoneId) (s : State),
    s.reaches (.defineGate h gate zone level minClass duration sc) h →
    gateAsked s h.port gate zone level minClass sc g z → sceneAdmitted s z h.port sc →
    ∃ t : State, exec (.defineGate h gate zone level minClass duration sc) s = .next (t.answered h 80 .ok) ∧
      t = { s.taking h with scene := t.scene, dir := t.dir } ∧
      t.scene = { s.scene with gates := t.scene.gates } ∧ (∀ k : GateId, k ≠ g → t.gate k = s.gate k) ∧
      t.gate g = some
        { use := .defined, zone := z, level := level.toNat, minClass := minClass.toNat
          duration := duration.toNat, scene := sc.map placementOf } ∧
      pinsMove s t (sc.map placementOf) (((s.gate g).map (·.scene)).getD [])) ∧
  (∀ (h : Hdr) (gate zone level minClass : Byte) (duration : BitVec 16) (sc : List RawPlacement) (g : GateId)
    (z : ZoneId) (st : Status) (s : State),
    s.reaches (.defineGate h gate zone level minClass duration sc) h →
    gateAsked s h.port gate zone level minClass sc g z → sceneRefused s z h.port sc st →
    exec (.defineGate h gate zone level minClass duration sc) s = .next ((s.taking h).answered h 80 st)) ∧
  (∀ (h : Hdr) (gate : Byte) (g : GateId) (e : Gate) (s : State), s.reaches (.invokeGate h gate) h →
    invocationAdmitted s h.port gate g e →
    ∃ t : State, exec (.invokeGate h gate) s = .next (t.answered h 82 .ok) ∧ t = { s.taking h with scene := t.scene } ∧
      t.scene = { s.scene with gates := t.scene.gates, zones := t.scene.zones } ∧
      t.gate g = some { e with use := .invoked h.port } ∧ (∀ k : GateId, k ≠ g → t.gate k = s.gate k) ∧
      t.zone e.zone = { s.zone e.zone with pend := some (.invocation g h.port) } ∧
      (∀ y : ZoneId, y ≠ e.zone → t.zone y = s.zone y)) ∧
  (∀ (h : Hdr) (zone : Byte) (z : ZoneId) (s : State), s.reaches (.returnGate h zone) h →
    returnAdmitted s h.port zone z →
    exec (.returnGate h zone) s = .next
      (((s.taking h).setZone z fun zn => { zn with pend := some .ret }).answered h 83 .ok))

/-! ## Tiles -/

/-- RETRAIN_TILE of a bound tile that is LOST or LAGGING, in LIT from an OPERATOR port, abandons its fetch and trains
it again. POWER_ON_ORDER makes a unit that is OFF TRAINING with its counts 0 and begins its first attempt;
POWER_OFF_ORDER abandons a powered unit's fetch, sends BLANK where the link is UP, and makes the unit OFF; in the
other states neither is acted on. TILE_LINK_UP sends the training messages that an attempt under way has not sent;
TILE_LINK_DOWN makes a powered unit LOST, with its fetch abandoned without a message, TILE_CHANGE raised and LOST
reported. -/
def Obligations.UnitsAreStartedAndStopped : Prop :=
  (∀ (h : Hdr) (tile : Byte) (t : Tile) (s : State), s.reaches (.retrainTile h tile) h →
    retrainAdmitted s h.port tile t →
    exec (.retrainTile h tile) s = .next (State.answered { s.taking h with
      store := scanWithdrawn s t
      units := upd s.units t fun u =>
        { u with
          state := .training, power := true, fetch := none, miss := 0, rejoin := 0, attempts := 0, matched := 0
          trainSent := u.link, timer := true }
      mail := { s.mail with toScene := upd s.mail.toScene t (· ++ [.state .training]) }
      out := s.out ++ abortMessages s t ++ trainMessages t 1 s.units[t].link } h 96 .ok)) ∧
  (∀ (t : Tile) (rest : List UnitMsg) (s : State), s.mail.toUnit[t] = .powerOn :: rest →
    let taken : Mail := { s.mail with toUnit := upd s.mail.toUnit t fun _ => rest }
    (s.units[t].state ≠ .off → exec (.powerOnOrder t) s = .next { s with mail := taken }) ∧
    (s.units[t].state = .off → exec (.powerOnOrder t) s = .next
      { s with
        mail := { taken with toScene := upd s.mail.toScene t (· ++ [.state .training]) }
        units := upd s.units t fun u =>
          { u with
            state := .training, power := true, miss := 0, rejoin := 0, attempts := 0, matched := 0, timer := true
            trainSent := u.link }
        out := s.out ++ trainMessages t 1 s.units[t].link })) ∧
  (∀ (t : Tile) (rest : List UnitMsg) (s : State), s.mail.toUnit[t] = .powerOff :: rest →
    let taken : Mail := { s.mail with toUnit := upd s.mail.toUnit t fun _ => rest }
    (s.units[t].state = .off ∨ s.units[t].state = .lost →
      exec (.powerOffOrder t) s = .next { s with mail := taken }) ∧
    (s.units[t].state ≠ .off → s.units[t].state ≠ .lost → exec (.powerOffOrder t) s = .next
      { s with
        store := scanWithdrawn s t
        units := upd s.units t fun u =>
          { u with state := .off, power := false, fetch := none, timer := false, matched := 0, trainSent := false }
        mail := { taken with toScene := upd s.mail.toScene t (· ++ [.state .off]) }
        out := s.out ++ abortMessages s t ++ (if s.units[t].link then [.panel t .blank] else []) })) ∧
  (∀ (t : Tile) (s : State),
    exec (.tileLinkUp t) s = .next (
      if s.units[t].state = .training ∧ s.units[t].trainSent = false then
        { s with
          units := upd s.units t fun u => { u with link := true, trainSent := true }
          out := s.out ++ trainMessages t (s.units[t].attempts + 1) true }
      else { s with units := upd s.units t fun u => { u with link := true } })) ∧
  (∀ (t : Tile) (s : State),
    (s.units[t].state = .off ∨ s.units[t].state = .lost →
      exec (.tileLinkDown t) s = .next { s with units := upd s.units t fun u => { u with link := false } }) ∧
    (s.units[t].state ≠ .off → s.units[t].state ≠ .lost → exec (.tileLinkDown t) s = .next
      { s with
        store := scanWithdrawn s t
        units := upd s.units t fun u =>
          { u with
            link := false, state := .lost, power := false, fetch := none, timer := false, matched := 0
            trainSent := false }
        ports := s.ports.map (·.take .tileChange)
        mail := { s.mail with toScene := upd s.mail.toScene t (· ++ [.state .lost]) } }))

/-- QUERY_TILE: NOT_CONFIGURED in UNCONFIGURED, BAD_FIELD for a number outside 0 to 15, and otherwise OK with the
unit's own record; it changes nothing. -/
def Obligations.QueryTileReportsTheUnit : Prop :=
  (∀ (h : Hdr) (tile : Byte) (s : State), h.stage ≠ .take → s.ports[h.port].up = true →
    s.ports[h.port].transit = none → s.window = .unconfigured →
    exec (.queryTile h tile) s = .next (s.answered h 97 .notConfigured)) ∧
  (∀ (h : Hdr) (tile : Byte) (s : State), s.reaches (.queryTile h tile) h →
    (16 ≤ tile.toNat → exec (.queryTile h tile) s = .next ((s.taking h).answered h 97 .badField)) ∧
    (∀ t : Tile, tile.toNat = t.val → exec (.queryTile h tile) s = .next
      ((s.taking h).answered h 97 .ok (.tile
        { state := s.units[t].state, power := s.units[t].power, link := s.units[t].link
          position := s.units[t].position, ctx := s.units[t].ctx
          fetch := s.units[t].fetch.map fun f => (f.frame, f.source, f.requested, f.sent, f.endSent)
          miss := s.units[t].miss, rejoin := s.units[t].rejoin, attempts := s.units[t].attempts }))))

/-- TRAIN_ECHO: a matching echo is recorded, and the fourth makes the unit JOINING with BLANK sent to its panel. A
differing one, like the expiry of the attempt timer, fails the attempt: the next begins, or at the third the unit is
LOST. An echo of another attempt number, of a pattern already matched or of one above 3, or at a unit that is not
TRAINING, is ignored, and an expiry where the timer does not run, which is no event of the part, changes nothing (log
entry 1). -/
def Obligations.TrainingSucceedsOrFails : Prop :=
  ∀ (t : Tile) (s : State),
    let u := s.units[t]
    let awaited (attempt pattern : Byte) (p : PatternId) : Prop :=
      u.state = .training ∧ attempt.toNat = u.attempts + 1 ∧ pattern.toNat = p.val ∧ u.matched.getLsbD p.val = false
    (∀ (attempt pattern : Byte) (p : PatternId), awaited attempt pattern p →
      insertBit u.matched p.val ≠ BitVec.allOnes 4 →
      exec (.trainEcho t attempt pattern (checkSum (patternLine p 1))) s =
        .next { s with units := upd s.units t fun u => { u with matched := insertBit u.matched p.val } }) ∧
    (∀ (attempt pattern : Byte) (p : PatternId), awaited attempt pattern p →
      insertBit u.matched p.val = BitVec.allOnes 4 →
      exec (.trainEcho t attempt pattern (checkSum (patternLine p 1))) s = .next
        { s with
          units := upd s.units t fun u =>
            { u with state := .joining, power := true, timer := false, matched := 0, trainSent := false }
          mail := { s.mail with toScene := upd s.mail.toScene t (· ++ [.state .joining]) }
          out := s.out ++ [.panel t .blank] }) ∧
    (∀ i : Instr,
      (∃ attempt pattern p check, awaited attempt pattern p ∧ i = .trainEcho t attempt pattern check ∧
        check ≠ checkSum (patternLine p 1)) ∨ (i = .attemptTimerExpiry t ∧ u.timer = true) →
      (u.attempts < 2 → exec i s = .next { s with
        units := upd s.units t fun u =>
          { u with attempts := u.attempts + 1, timer := true, matched := 0, trainSent := u.link }
        out := s.out ++ trainMessages t (u.attempts + 2) u.link }) ∧
      (u.attempts = 2 → ∃ s' : State, exec i s = .next s' ∧
        s' = { s with
          ports := s'.ports
          units := upd s.units t fun u =>
            { u with state := .lost, power := false, attempts := 3, timer := false, matched := 0
                     trainSent := false }
          mail := { s.mail with toScene := upd s.mail.toScene t (· ++ [.state .lost]) } } ∧
        ∀ q : Port, s'.ports[q] = s.ports[q].take .tileChange)) ∧
    (∀ attempt pattern check, (¬ ∃ p, awaited attempt pattern p) →
      exec (.trainEcho t attempt pattern check) s = .next s) ∧
    (u.timer = false → exec (.attemptTimerExpiry t) s = .next s)

/-- FETCH_ORDER: a unit that is OFF, TRAINING or LOST discards the order; another one abandons its fetch, telling its
panel, and begins the new one. A pattern's 256 lines and FRAME_END are sent at once; of a slot the first line is
asked for, or, while a SCAN that the unit discards still runs, is not yet asked for. An admitting order makes a
JOINING unit IN_STEP, which is reported and announced. -/
def Obligations.FetchOrdersBeginTheFetch : Prop :=
  ∀ (t : Tile) (n : Nat) (src : Source) (adm : Bool) (rest : List UnitMsg) (s : State),
    s.mail.toUnit[t] = .fetch n src adm :: rest →
    let taken : Mail := { s.mail with toUnit := upd s.mail.toUnit t fun _ => rest }
    let joins : Bool := decide (s.units[t].state = .joining) && adm
    let begun (f : UnitFetch) (sent : List Output) : State := { s with
      store := scanWithdrawn s t
      units := upd s.units t fun u =>
        if joins then { u with state := .inStep, power := true, miss := 0, rejoin := 0, fetch := some f }
        else { u with fetch := some f }
      mail := if joins then { taken with toScene := upd s.mail.toScene t (· ++ [.state .inStep]) } else taken
      ports := if joins then s.ports.map (·.take .tileChange) else s.ports
      out := s.out ++ abortMessages s t ++ [.panel t (.frameBegin n)] ++ sent }
    (¬ judging s.units[t] → exec (.fetchOrder t) s = .next { s with mail := taken }) ∧
    (∀ p : PatternId, src = .pattern p → judging s.units[t] →
      let sum : Check := ((List.range 256).map fun l => checkSum (patternLine p l)).sum
      exec (.fetchOrder t) s = .next (begun
        { frame := n, source := src, requested := 0, sent := 256, endSent := true, sum := sum }
        (((List.range 256).map fun l => .panel t (.line l (patternLine p l))) ++ [.panel t (.frameEnd n sum)]))) ∧
    (∀ (pg : Handle) (slot : Nat), src = .slot pg slot → judging s.units[t] →
      let u : State := begun
        { frame := n, source := src, requested := 0, sent := 0, endSent := false, sum := 0 } []
      ((∃ r, s.store.running = some r ∧ r.job.isScanOf t = true ∧ r.dropped = false) →
        exec (.fetchOrder t) s = .next u) ∧
      ((¬ ∃ r, s.store.running = some r ∧ r.job.isScanOf t = true ∧ r.dropped = false) →
        exec (.fetchOrder t) s = .next (scanRequested u t)))

/-- VERDICT: a unit that is JOINING sends BLANK and counts nothing; one that is OFF, TRAINING or LOST discards it;
one IN_STEP counts it and sends it on, or at the eighth miss is set aside; one LAGGING sends BLANK, and the second
delivered in a row makes it JOINING. -/
def Obligations.VerdictsReachThePanel : Prop :=
  ∀ (t : Tile) (v : VerdictKind) (d : Bool) (rest : List UnitMsg) (s : State),
    s.mail.toUnit[t] = .verdict v d :: rest →
    let u := s.units[t]
    let taken : Mail := { s.mail with toUnit := upd s.mail.toUnit t fun _ => rest }
    (u.state = .joining → exec (.verdict t) s =
      .next { s with mail := taken, out := s.out ++ [.panel t .blank] }) ∧
    (u.state = .off ∨ u.state = .training ∨ u.state = .lost → exec (.verdict t) s = .next { s with mail := taken }) ∧
    (u.state = .inStep → d = true ∨ u.miss < 7 → exec (.verdict t) s = .next
      { s with
        mail := taken, units := upd s.units t fun u => { u with miss := if d then 0 else u.miss + 1 }
        out := s.out ++ [.panel t v.message] }) ∧
    (u.state = .inStep → d = false → u.miss = 7 → ∃ s' : State, exec (.verdict t) s = .next s' ∧
      s' = { s with
        ports := s'.ports
        mail := { taken with toScene := upd s.mail.toScene t (· ++ [.state .lagging]) }
        units := upd s.units t fun u => { u with state := .lagging, power := true, miss := 8, rejoin := 0 }
        out := s.out ++ [.panel t .blank] } ∧
      ∀ q : Port, s'.ports[q] = s.ports[q].take .tileChange) ∧
    (u.state = .lagging → d = false ∨ u.rejoin ≠ 1 → exec (.verdict t) s = .next
      { s with
        mail := taken, units := upd s.units t fun u => { u with rejoin := if d then u.rejoin + 1 else 0 }
        out := s.out ++ [.panel t .blank] }) ∧
    (u.state = .lagging → d = true → u.rejoin = 1 → exec (.verdict t) s = .next
      { s with
        mail := { taken with toScene := upd s.mail.toScene t (· ++ [.state .joining]) }
        units := upd s.units t fun u => { u with state := .joining, power := true, rejoin := 2 }
        out := s.out ++ [.panel t .blank] })

/-- FRAME_ACK and FRAME_NAK of the frame whose lines have all been sent end the fetch, and FRAME_ACK reports the
delivery; every other answer, and an unknown message of a panel, is ignored. DELIVERY_REPORT puts its tile into the
delivered set of its context where the frame is that of the fetch in progress; STATE_REPORT records the state and,
unless it is IN_STEP, takes the tile out of the in-step set. -/
def Obligations.AnswersAndReportsAreTaken : Prop :=
  (∀ (t : Tile) (n : BitVec 48) (s : State),
    (∀ f : UnitFetch, judging s.units[t] → s.units[t].fetch = some f → f.frame = n.toNat → f.endSent = true →
      exec (.frameAck t n) s = .next { s with
        units := upd s.units t fun u => { u with fetch := none }
        mail := { s.mail with toScene := upd s.mail.toScene t (· ++ [.delivery n.toNat]) } } ∧
      exec (.frameNak t n) s = .next { s with units := upd s.units t fun u => { u with fetch := none } }) ∧
    ((¬ ∃ f, judging s.units[t] ∧ s.units[t].fetch = some f ∧ f.frame = n.toNat ∧ f.endSent = true) →
      exec (.frameAck t n) s = .next s ∧ exec (.frameNak t n) s = .next s)) ∧
  (∀ (t : Tile) (rest : List UnitReport) (s : State),
    let taken : State := { s with mail := { s.mail with toScene := upd s.mail.toScene t fun _ => rest } }
    (∀ n : Nat, s.mail.toScene[t] = .delivery n :: rest →
      (∀ z : ZoneId, s.units[t].ctx = some (.zone z) → exec (.deliveryReport t) s = .next (
        if (s.zone z).fetch.map (·.frame) = some n then
          taken.setZone z fun zn => { zn with delivered := insertBit zn.delivered t.val }
        else taken)) ∧
      (s.units[t].ctx = some .background → exec (.deliveryReport t) s = .next (
        if s.scene.background.fetch = some n then
          { taken with scene := { s.scene with background :=
            { s.scene.background with delivered := insertBit s.scene.background.delivered t.val } } }
        else taken)) ∧
      (s.units[t].ctx = none → exec (.deliveryReport t) s = .next taken)) ∧
    (∀ st : TileState, s.mail.toScene[t] = .state st :: rest →
      let noted : SceneEngine := { s.scene with reported := upd s.scene.reported t fun _ => some st }
      (∀ z : ZoneId, s.units[t].ctx = some (.zone z) → exec (.stateReport t) s = .next (
        if st = .inStep then { taken with scene := noted }
        else { taken with scene := { noted with
          zones := upd s.scene.zones z fun zn => { zn with inStep := eraseBit zn.inStep t.val } } })) ∧
      (s.units[t].ctx = some .background → exec (.stateReport t) s = .next (
        if st = .inStep then { taken with scene := noted }
        else { taken with scene := { noted with background :=
          { s.scene.background with inStep := eraseBit s.scene.background.inStep t.val } } })) ∧
      (s.units[t].ctx = none → exec (.stateReport t) s = .next taken))) ∧
  (∀ (t : Tile) (message : List Byte) (s : State), exec (.unknownTileMessage t message) s = .next s)

/-! ## The frame boundary -/

/-- FRAME_BOUNDARY while the frame timer runs: SYNC pulses and the new frame is the pending epoch or the next number,
which stops at the largest; then a window change that is due is carried out. Where the window is then LIT, each zone
gives its verdict and makes its choice, and at an epoch's boundary an armed cut is unarmed between the two where it is
no longer due (log entry 21), and the background acts; elsewhere each zone settles its due cuts. The largest frame
number leaves no choice, and the delivered sets are kept there (log entry 30). Last, the latched cells are announced.
While the timer is stopped, a boundary cannot come, and the command changes nothing (log entry 1). -/
def Obligations.FrameBoundaryStartsTheNextFrame : Prop :=
  (∀ s : State, s.scene.timer = false → exec .frameBoundary s = .next s) ∧
  (∀ s : State, s.scene.timer = true →
    let n : Nat := nextFrame s
    let begun : State := { s with out := s.out ++ [.sync], scene := { s.scene with frame := n, epoch := none } }
    let darkens : Bool := decide (s.window = .lit) &&
      s.scene.change.any fun x => decide (x.1 = .darken) && x.2.all fun m => decide (m ≤ n)
    let wakes : Bool := decide (s.window = .dark) &&
      s.scene.change.any fun x => decide (x.1 = .wake) && x.2.all fun m => decide (m ≤ n)
    let changed : State := if darkens then begun.darkEntry else if wakes then begun.wakeEntry else begun
    let lit (x : State) (z : ZoneId) : State :=
      let y : State := if s.scene.epoch = none then x.zoneVerdict z else (x.zoneVerdict z).unarmEarly z
      if n = 2 ^ 48 - 1 then y.setZone z fun zn => { zn with fetch := none } else y.zoneChoice z
    ∃ t : State,
      exec .frameBoundary s =
        .next { t with mail := { t.mail with toLoad := t.mail.toLoad ++ [t.allLatched] } } ∧
      (s.window = .lit → darkens = false → t = (allZones.foldl lit changed).backgroundLit) ∧
      (s.window ≠ .lit ∨ darkens = true → ∃ u : State, u = allZones.foldl State.zoneDark changed ∧
        t = { u with scene := { u.scene with background := { u.scene.background with fetch := none } } }) ∧
      (∀ x, x ∈ t.allLatched ↔ ∃ (z : ZoneId) (f : ZoneFetch), (t.zone z).fetch = some f ∧ x ∈ f.latched) ∧
      t.scene.frame = n ∧ t.scene.epoch = none ∧ t.scene.timer = true ∧ t.scene.grid = s.scene.grid ∧
      t.units = s.units ∧ sameMemory s t ∧
      (∃ more, t.out = s.out ++ .sync :: more ∧ ∀ o ∈ more, ∃ p r, o = .reply p r ∧ r.status = .cancelled))

/-- The verdict of a zone with a fetch in progress: SHOW to every tile in step where all of them are delivered and
REPEAT otherwise, BLANK to a tile reported LAGGING, each with its delivered mark. After SHOW of a steady fetch, or of
a fetch of an armed cut, a current gate counts down; the armed cut is shown: its scene is current from this frame,
the old one is unpinned, it is logged SHOWN and announced unless it is released. After REPEAT nothing changes, but an
armed cut that is released is discarded. -/
def Obligations.VerdictsJudgeTheFetch : Prop :=
  ∀ (z : ZoneId) (s : State),
    ((s.zone z).fetch = none → s.zoneVerdict z = s) ∧
    (∀ f : ZoneFetch, (s.zone z).fetch = some f → ∃ told : State,
      verdictsSent s told (.zone z) (s.zone z).inStep (s.zone z).delivered
        (fun _ => if wholeIn (s.zone z) then .showFrame f.frame else .repeatFrame) ∧
      (wholeIn (s.zone z) → f.armed = false ∨ (s.zone z).armed = none → s.zoneVerdict z = told.setZone z fun zn =>
        { zn with current := { zn.current with remaining := zn.current.remaining.map (· - 1) } }) ∧
      (∀ (c : Cut) (rest : List Cut), wholeIn (s.zone z) → f.armed = true → (s.zone z).armed = some .cut →
        (s.zone z).cuts = c :: rest →
        ∃ u : State, s.zoneVerdict z = u ∧ u = { told with scene := u.scene, dir := u.dir, ports := u.ports } ∧
          u.scene = (s.setZone z fun zn =>
            { zn with
              armed := none, cuts := rest, current := playlistOf c s.scene.frame
              log := logged zn.log [logEntry c .shown s.scene.frame] }).scene ∧
          pinsMove s u [] (s.zone z).current.scene ∧
          (∀ q : Port, u.ports[q] =
            if q = c.port ∧ c.released = false then s.ports[q].take .cutShown else s.ports[q])) ∧
      (¬ wholeIn (s.zone z) →
        (¬ (f.armed = true ∧ (s.zone z).armed = some .cut ∧ (s.zone z).cuts.head?.any (·.released) = true) →
          s.zoneVerdict z = told) ∧
        (∀ (c : Cut) (rest : List Cut), f.armed = true → (s.zone z).armed = some .cut → (s.zone z).cuts = c :: rest →
          c.released = true →
          ∃ u : State, s.zoneVerdict z = u ∧ u = { told with scene := u.scene, dir := u.dir } ∧
            u.scene = (s.setZone z fun zn =>
              { zn with
                armed := none, cuts := rest, log := logged zn.log [logEntry c .discarded s.scene.frame] }).scene ∧
            pinsMove s u [] c.scene)))

/-- SHOW on a fetch of an armed gate pushes the current context and makes the gate's scene current from this frame,
with pins of its own and its remaining count one below its duration; the gate is ACTIVE and GATE_SHOWN is raised at
its invoker. SHOW on a fetch of an armed return drops the current gate, which is DEFINED again with GATE_ENDED at its
invoker, and pops the top context, whose count goes down by one. -/
def Obligations.GatesAndReturnsAreShown : Prop :=
  ∀ (z : ZoneId) (f : ZoneFetch) (s : State), (s.zone z).fetch = some f → f.armed = true → wholeIn (s.zone z) →
    ∃ told : State,
      verdictsSent s told (.zone z) (s.zone z).inStep (s.zone z).delivered (fun _ => .showFrame f.frame) ∧
      (∀ (g : GateId) (p : Port) (k : Nat) (e : Gate), (s.zone z).armed = some (.gate g p k) → s.gate g = some e →
        ∃ u : State, s.zoneVerdict z = u ∧ u = { told with scene := u.scene, dir := u.dir, ports := u.ports } ∧
          u.scene = { s.scene with
            zones := upd s.scene.zones z fun zn =>
              { zn with
                armed := none, stack := zn.stack ++ [zn.current]
                current :=
                  { scene := e.scene, origin := s.scene.frame, kind := .gate g
                    remaining := if e.duration = 0 then none else some (e.duration - 1), invoker := some p } }
            gates := upd s.scene.gates g fun _ => some { e with use := .active p } } ∧
          pinsMove s u e.scene [] ∧
          (∀ q : Port, u.ports[q] = if q = p then s.ports[q].take .gateShown else s.ports[q])) ∧
      (∀ (below : List Context) (x : Context) (g : GateId) (p : Port), (s.zone z).armed = some .ret →
        (s.zone z).stack = below ++ [x] → (s.zone z).current.kind = .gate g → (s.zone z).current.invoker = some p →
        ∃ u : State, s.zoneVerdict z = u ∧ u = { told with scene := u.scene, dir := u.dir, ports := u.ports } ∧
          u.scene = { s.scene with
            zones := upd s.scene.zones z fun zn =>
              { zn with armed := none, stack := below, current := { x with remaining := x.remaining.map (· - 1) } }
            gates := upd s.scene.gates g (·.map fun e => { e with use := .defined }) } ∧
          pinsMove s u [] (s.zone z).current.scene ∧
          (∀ q : Port, u.ports[q] = if q = p then s.ports[q].take .gateEnded else s.ports[q]))

/-- What a zone's choice does first, after which it is made as from the state `u` it leaves. An armed cut past its
slip limit is ABANDONED, and one with a later cut due is SKIPPED; an armed gate of 8 failed attempts is abandoned;
then what is pending is armed, ahead of an armed cut; and where nothing is, a return is armed for a current gate
whose frames are over. At an epoch's boundary, an armed cut that is no longer due is first unarmed. -/
def Obligations.ChoiceClearsAndArms : Prop :=
  ∀ (z : ZoneId) (s : State),
    let left (c : Cut) (later : List Cut) (o : CutOutcome) (e : Event) : Prop :=
      ∃ u : State, s.zoneChoice z = u.zoneChoice z ∧ u = { s with scene := u.scene, dir := u.dir, ports := u.ports } ∧
        u.scene = (s.setZone z fun zn =>
          { zn with armed := none, cuts := later, log := logged zn.log [logEntry c o s.scene.frame] }).scene ∧
        pinsMove s u [] c.scene ∧ (∀ q : Port, u.ports[q] = portTold s.ports[q] q [c] e)
    (∀ (c : Cut) (later : List Cut), (s.zone z).armed = some .cut → (s.zone z).cuts = c :: later →
      s.unarmEarly z =
        (if s.scene.frame + 1 < c.target then s.setZone z fun zn => { zn with armed := none } else s) ∧
      (c.target + c.slip < s.scene.frame + 1 → left c later .abandoned .cutAbandoned) ∧
      (s.scene.frame + 1 ≤ c.target + c.slip → (∃ x ∈ later, x.target ≤ s.scene.frame + 1) →
        left c later .skipped .cutSkipped)) ∧
    ((s.zone z).armed ≠ some .cut → s.unarmEarly z = s) ∧
    (∀ (g : GateId) (p : Port) (k : Nat), (s.zone z).armed = some (.gate g p k) → 8 ≤ k →
      ∃ u : State, s.zoneChoice z = u.zoneChoice z ∧ u = { s with scene := u.scene, ports := u.ports } ∧
        u.scene = { s.scene with
          zones := upd s.scene.zones z fun zn => { zn with armed := none }
          gates := upd s.scene.gates g (·.map fun e => { e with use := .defined }) } ∧
        (∀ q : Port, u.ports[q] = if q = p then s.ports[q].take .gateAbandoned else s.ports[q])) ∧
    (keepsArmed s z →
      (∀ (g : GateId) (p : Port), (s.zone z).pend = some (.invocation g p) → s.zoneChoice z =
        (s.setZone z fun zn => { zn with pend := none, armed := some (.gate g p 0) }).zoneChoice z) ∧
      ((s.zone z).pend = some .ret → s.zoneChoice z =
        (s.setZone z fun zn => { zn with pend := none, armed := some .ret }).zoneChoice z)) ∧
    ((s.zone z).armed = none → (s.zone z).pend = none → (s.zone z).current.kind ≠ .playlist →
      (s.zone z).current.remaining = some 0 →
      s.zoneChoice z = (s.setZone z fun zn => { zn with armed := some .ret }).zoneChoice z)

/-- The due cuts of a zone with nothing armed: all but the latest are SKIPPED, from the head onward. The latest is
armed, or ABANDONED past its slip limit; with a gate on the link stack it is taken UNSEEN, its scene the saved
playlist from its target on. Outside LIT the fetch is dropped, and the latest due cut is taken UNSEEN into the
playlist, current or saved; with the largest frame number no cut is settled. Each outcome is logged, and told to the
cut's port. -/
def Obligations.DueCutsAreSettled : Prop :=
  ∀ (z : ZoneId) (s : State), (s.zone z).log.length ≤ 8 →
    let skips (pre : List Cut) : List LogEntry := pre.map fun x => logEntry x .skipped s.scene.frame
    let told (u : State) (pre last : List Cut) (e : Event) : Prop :=
      ∀ q : Port, u.ports[q] = portTold (portTold s.ports[q] q pre .cutSkipped) q last e
    let unseen (zn : Zone) (c : Cut) : Zone := match zn.stack with
      | [] => { zn with current := playlistOf c c.target }
      | _ :: above => { zn with stack := playlistOf c c.target :: above }
    let replaced : Scene := match (s.zone z).stack with
      | [] => (s.zone z).current.scene
      | b :: _ => b.scene
    (∀ (pre : List Cut) (c : Cut) (post : List Cut), unarmed (s.zone z) → dueCuts s z pre c post →
      ∃ u : State, s.zoneChoice z = u.zoneChoice z ∧ u = { s with scene := u.scene, dir := u.dir, ports := u.ports } ∧
        ((s.zone z).stack = [] → s.scene.frame + 1 ≤ c.target + c.slip →
          u.scene = (s.setZone z fun zn =>
            { zn with armed := some .cut, cuts := c :: post, log := logged zn.log (skips pre) }).scene ∧
          pinsMove s u [] (pre.flatMap (·.scene)) ∧ told u pre [] .cutShown) ∧
        ((s.zone z).stack = [] → c.target + c.slip < s.scene.frame + 1 →
          u.scene = (s.setZone z fun zn =>
            { zn with cuts := post
                      log := logged zn.log (skips pre ++ [logEntry c .abandoned s.scene.frame]) }).scene ∧
          pinsMove s u [] ((pre ++ [c]).flatMap (·.scene)) ∧ told u pre [c] .cutAbandoned) ∧
        ((s.zone z).stack ≠ [] →
          u.scene = (s.setZone z fun zn =>
            { unseen zn c with cuts := post
                               log := logged zn.log (skips pre ++ [logEntry c .unseen s.scene.frame]) }).scene ∧
          pinsMove s u [] (pre.flatMap (·.scene) ++ replaced) ∧ told u pre [c] .cutUnseen)) ∧
    (s.scene.frame = 2 ^ 48 - 1 ∨ (∀ x ∈ (s.zone z).cuts, s.scene.frame + 1 < x.target) →
      s.zoneDark z = s.setZone z fun zn => { zn with fetch := none, delivered := 0 }) ∧
    (∀ (pre : List Cut) (c : Cut) (post : List Cut), s.scene.frame ≠ 2 ^ 48 - 1 → dueCuts s z pre c post →
      ∃ u : State, s.zoneDark z = u ∧ u = { s with scene := u.scene, dir := u.dir, ports := u.ports } ∧
        u.scene = (s.setZone z fun zn =>
          { unseen zn c with
            fetch := none, delivered := 0, cuts := post
            log := logged zn.log (skips pre ++ [logEntry c .unseen s.scene.frame]) }).scene ∧
        pinsMove s u [] (pre.flatMap (·.scene) ++ replaced) ∧ told u pre [c] .cutUnseen)

/-- What a zone fetches for the next frame once nothing is left to clear, arm or settle: the scene of its armed item,
from that frame on, or for a return with its saved origin, where the arm check passes; otherwise, and with nothing
armed, its current scene. A failed check adds 1 to an armed gate's attempts. -/
def Obligations.ArmedItemsAreFetchedOrSlip : Prop :=
  ∀ (z : ZoneId) (s : State), (s.zone z).pend = none → keepsArmed s z →
    (∀ (c : Cut) (later : List Cut), (s.zone z).armed = some .cut → (s.zone z).cuts = c :: later →
      (fetchable s c.scene → s.zoneChoice z = s.orderFetch z true c.scene (s.scene.frame + 1)) ∧
      (¬ fetchable s c.scene → s.zoneChoice z = steady s z)) ∧
    (∀ (g : GateId) (p : Port) (k : Nat) (e : Gate), (s.zone z).armed = some (.gate g p k) → s.gate g = some e →
      (fetchable s e.scene → s.zoneChoice z = s.orderFetch z true e.scene (s.scene.frame + 1)) ∧
      (¬ fetchable s e.scene → s.zoneChoice z =
        steady (s.setZone z fun zn => { zn with armed := some (.gate g p (k + 1)) }) z)) ∧
    (∀ (below : List Context) (x : Context), (s.zone z).armed = some .ret → (s.zone z).stack = below ++ [x] →
      (fetchable s x.scene → s.zoneChoice z = s.orderFetch z true x.scene x.origin) ∧
      (¬ fetchable s x.scene → s.zoneChoice z = steady s z)) ∧
    (unarmed (s.zone z) → (∀ x ∈ (s.zone z).cuts, s.scene.frame + 1 < x.target) → s.zoneChoice z = steady s z)

/-- The fetch orders of a boundary. A zone records the fetch of the next frame with the latest cells of its LIVE
placements latched and nothing delivered, and orders each tile reported IN_STEP, LAGGING or JOINING to fetch its
source: BLACK where no placement covers the tile, a pattern page's pattern, or the slot of the cell that the
placement shows, BLACK where that cell is not valid. A JOINING tile is admitted and in step. The background gives its
verdicts tile by tile and orders BLACK; with the largest frame number it orders nothing, and keeps its delivered set
(log entry 30). -/
def Obligations.FetchOrdersNameTheSources : Prop :=
  (∀ (z : ZoneId) (armed : Bool) (sc : Scene) (origin : Nat) (s : State),
    ∃ t : State, s.orderFetch z armed sc origin = t ∧ t = { s with scene := t.scene, mail := t.mail } ∧
      t.scene = { s.scene with zones := t.scene.zones, reported := t.scene.reported } ∧
      (∀ y : ZoneId, y ≠ z → t.zone y = s.zone y) ∧
      t.zone z = { s.zone z with
        fetch := some
          { frame := s.scene.frame + 1, armed := armed
            latched := sc.filterMap fun x =>
              if x.mode = .live then ((s.page x.page).bind (·.latest)).map fun n => (x.page, n) else none }
        delivered := 0, inStep := (t.zone z).inStep } ∧
      t.mail = { s.mail with toUnit := t.mail.toUnit } ∧
      ∀ i : Tile,
        (t.zone z).inStep.getLsbD i.val = ((s.zone z).inStep.getLsbD i.val || admitted s (.zone z) i) ∧
        t.scene.reported[i] = (if admitted s (.zone z) i then some .inStep else s.scene.reported[i]) ∧
        (ordered s (.zone z) i = false → t.mail.toUnit[i] = s.mail.toUnit[i]) ∧
        (∀ (r : Rect) (p : Nat × Nat), ordered s (.zone z) i = true → (s.zone z).rect = some r →
          s.units[i].position = some p → t.mail.toUnit[i] = s.mail.toUnit[i] ++
            [.fetch (s.scene.frame + 1) (s.sourceAt sc origin (s.scene.frame + 1) (p.1 - r.col, p.2 - r.row))
              (admitted s (.zone z) i)])) ∧
  (∀ (sc : Scene) (origin frame : Nat) (pos : Nat × Nat) (s : State),
    ((∀ x ∈ sc, ¬ coversPos s x pos) → s.sourceAt sc origin frame pos = .pattern 0) ∧
    (∀ (pre post : List Placement) (x : Placement), sc = pre ++ x :: post → (∀ y ∈ pre, ¬ coversPos s y pos) →
      coversPos s x pos →
      (x.page.toNat < 4 → s.sourceAt sc origin frame pos = .pattern (Fin.ofNat 4 x.page.toNat)) ∧
      (∀ e : Page, 4 ≤ x.page.toNat → s.page x.page = some e →
        let cell : Option Nat := match x.mode with
          | .loop => some (if frame < origin then 0 else (frame - origin) / e.rate.getD 1 % e.cells)
          | .hold => x.hold
          | .live => e.latest
        (∀ n, cell = some n → e.valid.getLsbD n = true → s.sourceAt sc origin frame pos = .slot x.page
          (e.baseSlot + n * (e.width * e.height) + (pos.2 - x.row) * e.width + (pos.1 - x.col))) ∧
        ((∀ n, cell = some n → e.valid.getLsbD n = false) → s.sourceAt sc origin frame pos = .pattern 0)))) ∧
  (∀ s : State, ∃ told : State,
    (s.scene.background.fetch = none → told = s) ∧
    (∀ n, s.scene.background.fetch = some n →
      verdictsSent s told .background s.scene.background.inStep s.scene.background.delivered
        (fun d => if d then .showFrame n else .repeatFrame)) ∧
    (s.scene.frame = 2 ^ 48 - 1 → s.backgroundLit = { told with scene := { s.scene with
      background := { s.scene.background with fetch := none } } }) ∧
    (s.scene.frame ≠ 2 ^ 48 - 1 → ∃ t : State, s.backgroundLit = t ∧
      t = { told with scene := t.scene, mail := { told.mail with toUnit := t.mail.toUnit } } ∧
      t.scene = { s.scene with
        reported := t.scene.reported
        background := { fetch := some (s.scene.frame + 1), inStep := t.scene.background.inStep, delivered := 0 } } ∧
      ∀ i : Tile,
        t.scene.background.inStep.getLsbD i.val =
          (s.scene.background.inStep.getLsbD i.val || admitted s .background i) ∧
        t.scene.reported[i] = (if admitted s .background i then some .inStep else s.scene.reported[i]) ∧
        t.mail.toUnit[i] = told.mail.toUnit[i] ++ (if ordered s .background i then
          [.fetch (s.scene.frame + 1) (.pattern 0) (admitted s .background i)] else [])))

/-- At a FRAME_BOUNDARY a DARKEN that is due, in LIT, makes the window DARKENING: every load is aborted with
LOAD_FAILED, and every zone is wound back to its playlist. The saved playlist is current again; an armed cut that is
released is discarded and logged, and another is unarmed; a gate that was current or saved is DEFINED with GATE_ENDED
at its invoker, one that was armed or pending is DEFINED with GATE_ABANDONED at its own; and nothing is armed,
pending, stacked or fetched. The zone's due cuts are then settled as at any boundary outside LIT. Only a running PATCH
stays queued, and every unit is ordered off. Where no PATCH runs, and otherwise when it has left the queue, the end of
the edits is reported and the entry request goes to the store. A WAKE that is due, in DARK, makes the window WAKING
and ends self-refresh. -/
def Obligations.DueWindowChangesDarkenAndWake : Prop :=
  (∀ (f : Option Nat) (s : State), s.scene.timer = true → s.editsOk → dueAt f (nextFrame s) →
    (s.window = .lit → s.scene.change = some (.darken, f) → ∃ t : State, exec .frameBoundary s = .next t ∧
      t.window = .darkening ∧ t.scene.change = none ∧
      (∀ c : ChanId, t.load.chans[c] = none ∧ t.store.loadWaiting.getLsbD c.val =
        (s.store.loadWaiting.getLsbD c.val && decide (s.load.chans[c] = none))) ∧
      (∀ z : ZoneId, (t.zone z).armed = none ∧ (t.zone z).pend = none ∧ (t.zone z).stack = [] ∧
        (t.zone z).fetch = none ∧ (t.zone z).inStep = 0 ∧ (t.zone z).delivered = 0 ∧
        (t.zone z).holder = (s.zone z).holder) ∧
      (∀ z : ZoneId, t.zone z = (State.zoneDark { s with scene := { s.scene with
        frame := nextFrame s
        zones := upd s.scene.zones z fun zn => woundBack zn (nextFrame s) } } z).zone z) ∧
      (∀ g : GateId,
        ((∃ z p, gateEnds (s.zone z) g p ∨ gateAbandons (s.zone z) g p) →
          t.gate g = (s.gate g).map fun e => { e with use := .defined }) ∧
        ((¬ ∃ z p, gateEnds (s.zone z) g p ∨ gateAbandons (s.zone z) g p) → t.gate g = s.gate g)) ∧
      (∀ (z : ZoneId) (g : GateId) (p : Port), s.ports[p].up = true →
        (gateEnds (s.zone z) g p → t.ports[p].events.getLsbD Event.gateEnded.bit = true) ∧
        (gateAbandons (s.zone z) g p → t.ports[p].events.getLsbD Event.gateAbandoned.bit = true)) ∧
      (∀ (c : ChanId) (l : Load), s.load.chans[c] = some l → s.ports[l.port].up = true →
        t.ports[l.port].events.getLsbD Event.loadFailed.bit = true) ∧
      (∀ p : Port, s.ports[p].up = true → t.ports[p].events.getLsbD Event.windowChange.bit = true) ∧
      t.scene.background = { fetch := none, inStep := 0, delivered := 0 } ∧
      (∀ e, e ∈ t.edit.queue ↔ s.edit.queue.head? = some e ∧
        ∃ pg cell x y l w a b ws, e.job = .patch pg cell x y l w a b ws) ∧
      (∀ i : Tile, t.mail.toUnit[i] = s.mail.toUnit[i] ++ [.powerOff]) ∧
      (t.edit.queue = [] → t.edit.endAsked = false ∧ t.scene.waitEnds = none ∧
        (s.store.power = .awake → t.store.power =
          if s.store.running = none ∧ s.store.debt ≤ 0 ∧ s.store.refreshed = true then .selfRefresh
          else .entering)) ∧
      (t.edit.queue ≠ [] → t.edit.endAsked = true ∧ t.scene.waitEnds = some { loads := true, edits := false } ∧
        t.store.power = s.store.power)) ∧
    (s.window = .dark → s.scene.change = some (.wake, f) → ∃ t : State, exec .frameBoundary s = .next t ∧
      t.window = .waking ∧ t.scene.change = none ∧
      t.store = { s.store with
        power := if s.store.power = .selfRefresh then .exiting else s.store.power } ∧
      (∀ i : Tile, t.mail.toUnit[i] = s.mail.toUnit[i]) ∧ t.load = s.load ∧ t.edit = s.edit)) ∧
  (∀ (e : Bool) (s : State),
    (s.edit.endAsked = false ∨ s.edit.queue ≠ [] → s.reportEditsEnded = s) ∧
    (s.edit.endAsked = true → s.edit.queue = [] → s.scene.waitEnds = some { loads := true, edits := e } →
      s.reportEditsEnded = State.entryRequest { s with
        edit := { s.edit with endAsked := false }, scene := { s.scene with waitEnds := none } }))

/-! ## The frame store -/

/-- REFRESH_INTERVAL_EXPIRY raises the debt, in AWAKE and ENTERING, and a free bus is granted; at debt 8 the refresh
is missed and a fault fills an unlocked record, or marks a locked one multiple. In SELF_REFRESH and EXITING the timer
does not run, and the command changes nothing (log entry 1). REFRESH_COMPLETE lowers the debt and sets the refreshed
flag, and a grant is made. -/
def Obligations.RefreshesAreOwedAndPaid : Prop :=
  (∀ s : State, s.store.power = .selfRefresh ∨ s.store.power = .exiting →
    exec .refreshIntervalExpiry s = .next s) ∧
  (∀ s : State, s.store.power = .awake ∨ s.store.power = .entering →
    (s.store.debt ≠ 8 → exec .refreshIntervalExpiry s = .next
      (State.grant { s with store := { s.store with debt := s.store.debt + 1 } })) ∧
    (s.store.debt = 8 → s.store.record.locked = true → exec .refreshIntervalExpiry s = .next { s with
      store := { s.store with record := { s.store.record with multiple := true } } }) ∧
    (s.store.debt = 8 → s.store.record.locked = false → ∃ t : State, exec .refreshIntervalExpiry s = .next t ∧
      t = { s with
        ports := t.ports
        store := { s.store with record :=
          { fault := some
              { kind := .refreshMissed, addr := none, page := none, source := none, frame := s.scene.frame }
            locked := true, multiple := false } } } ∧
      ∀ q : Port, t.ports[q] = if s.cls q = .operator then s.ports[q].take .fault else s.ports[q])) ∧
  (∀ (discard : Bool) (s : State), runs s .refresh discard → exec .refreshComplete s = .next
    (State.grant { s with store :=
      { s.store with debt := s.store.debt - 1, refreshed := true, running := none } }))

/-- An entry request makes an AWAKE store ENTERING, or SELF_REFRESH where nothing is owed, the flag is set and the
bus is free; in EXITING it is kept. The request itself makes no grant, also where the bus is free and a refresh is owed
(log entry 10). SELF_REFRESH_EXIT: the store is AWAKE, or acts on a kept request, with debt 0 and the flag clear, the
exit is reported, and a grant is made, after a kept request by R33's rule (log entry 33). ENTRY_COMPLETION makes the
window DARK; EXIT_COMPLETION makes a WAKING window LIT and powers on the bound units, and in another window state
changes nothing. -/
def Obligations.SelfRefreshIsEnteredAndLeft : Prop :=
  (∀ s : State,
    (s.store.power = .awake → s.store.running ≠ none ∨ 0 < s.store.debt ∨ s.store.refreshed = false →
      s.entryRequest = { s with store := { s.store with power := .entering } }) ∧
    (s.store.power = .awake → s.store.running = none → s.store.debt ≤ 0 → s.store.refreshed = true →
      s.entryRequest = { s with
        store := { s.store with power := .selfRefresh }
        mail := { s.mail with fromStore := s.mail.fromStore ++ [.entered] } }) ∧
    (s.store.power = .exiting → s.entryRequest = { s with store := { s.store with entryKept := true } }) ∧
    (s.store.power = .entering ∨ s.store.power = .selfRefresh → s.entryRequest = s)) ∧
  (∀ s : State, s.store.power = .exiting →
    let awake : State := { s with
      store := { s.store with power := .awake, debt := 0, refreshed := false, entryKept := false }
      mail := { s.mail with fromStore := s.mail.fromStore ++ [.exited] } }
    exec .selfRefreshExit s = .next (State.grant (if s.store.entryKept then awake.entryRequest else awake))) ∧
  (∀ (rest : List StoreReport) (s : State), s.mail.fromStore = .entered :: rest →
    exec .entryCompletion s = .next { s with
      ports := s.ports.map (·.take .windowChange), scene := { s.scene with window := .dark }
      mail := { s.mail with fromStore := rest } }) ∧
  (∀ (rest : List StoreReport) (s : State), s.mail.fromStore = .exited :: rest →
    (s.window ≠ .waking → exec .exitCompletion s = .next { s with mail := { s.mail with fromStore := rest } }) ∧
    (s.window = .waking → ∃ t : State, exec .exitCompletion s = .next t ∧
      t = { s with
        ports := s.ports.map (·.take .windowChange), scene := { s.scene with window := .lit }
        mail := { s.mail with fromStore := rest, toUnit := t.mail.toUnit } } ∧
      ∀ i : Tile, t.mail.toUnit[i] =
        s.mail.toUnit[i] ++ (if s.units[i].position = none then [] else [.powerOn])))

/-- SCAN_COMPLETE, of the words as they stand once the new bit errors, if any, have come into the line (log entry 2):
no byte of the frame store changes beside them, and no word's bits in error do; what the words read call for is done,
damage reports, faults, counts and scrub offers, and then the bus falls free and a grant is made (log entry 11). The
line goes to the unit's panel, an UNCORRECTABLE word as two black pixels, FRAME_END after line 255, and otherwise the
next line is asked for. Where the unit discards the line, nothing is sent, and a fetch that has waited for this asks
for its first line. -/
def Obligations.ScanCompleteSendsTheLine : Prop :=
  ∀ (t : Tile) (slot line : Nat) (discard : Bool) (errors : BitErrors) (s : State),
    s.scrubOk → runs s (.scan t slot line) discard →
    let d : State := { s with store := s.store.disturb slot line errors }
    let ws : List Word := (List.range 256).map fun w =>
      if (d.store.readWord slot line w).cls = .uncorrectable then 0 else (d.store.readWord slot line w).data
    ∃ v : State, transferDone d v .scanUncorrectable (.unit t) slot line (lineReadings d slot line) ∧
      sameMemory d v ∧
      (∀ f : UnitFetch, discard = false → s.units[t].fetch = some f →
        let last : Bool := decide (f.sent = 255)
        let u : State := { v.grant with
          units := upd s.units t fun u =>
            { u with fetch := some { f with sent := f.sent + 1, sum := f.sum + checkSum ws, endSent := last } }
          out := s.out ++ [.panel t (.line f.sent ws)] ++
            (if last then [.panel t (.frameEnd f.frame (f.sum + checkSum ws))] else []) }
        exec (.scanComplete errors) s = .next (if last then u else scanRequested u t)) ∧
      (discard = true →
        ((∃ f pg n, s.units[t].fetch = some f ∧ f.source = .slot pg n ∧ f.requested = 0) →
          exec (.scanComplete errors) s = .next (scanRequested v.grant t)) ∧
        ((¬ ∃ f pg n, s.units[t].fetch = some f ∧ f.source = .slot pg n ∧ f.requested = 0) →
          exec (.scanComplete errors) s = .next v.grant))

/-- SCRUB_COMPLETE, of the word as it stands once the new bit errors, if any, have come into it (log entry 2): a word
that reads CORRECTED is written back with fresh check bits and counted, one that reads CLEAN is left alone. An
UNCORRECTABLE one is left alone, damages the page that holds it, and offers a fault that carries the entry's origin.
A word left alone keeps its data and its bits in error, and so does every other word. Then the bus falls free and a
grant is made (log entry 11), the head entry leaves the queue, and the next asks for its transfer. -/
def Obligations.ScrubCompleteWritesBack : Prop :=
  ∀ (e : ScrubEntry) (errors : ErrorMask) (s : State), s.memoryOk → runs s (.scrub e) →
    let d : State := { s with
      store := s.store.disturbWord e.addr.slot e.addr.line e.addr.word errors }
    let r := d.store.readWord e.addr.slot e.addr.line e.addr.word
    let bad : List Nat := if r.cls = .uncorrectable then [e.addr.word] else []
    ∃ v : State,
      v = { s with store := v.store, dir := v.dir, ports := v.ports } ∧
      v.store = { s.store with
        running := none, mem := v.store.mem, errors := v.store.errors
        record := recordAfter s .scrubUncorrectable e.origin e.addr.slot e.addr.line bad
        corrected := if r.cls = .corrected then min 65535 (s.store.corrected + 1) else s.store.corrected } ∧
      (∀ q : Port, v.ports[q] = portAfter s e.addr.slot bad q) ∧ pagesBecome d v (reportedPage s e.addr.slot bad) ∧
      sameMemoryOutside d v e.addr.slot e.addr.line e.addr.word 1 ∧
      (r.cls = .corrected →
        v.store.readWord e.addr.slot e.addr.line e.addr.word = { cls := .clean, data := r.data }) ∧
      (r.cls ≠ .corrected → sameMemory d v) ∧
      (s.store.scrub.tail = [] → exec (.scrubComplete errors) s =
        .next { v.grant with store := { v.grant.store with scrub := [] } }) ∧
      (s.store.scrub.tail ≠ [] → exec (.scrubComplete errors) s = .next (State.grant
        { v.grant with store := { v.grant.store with scrub := s.store.scrub.tail, scrubWaiting := true } }))

/-- The completion of a transfer that a RESET_WINDOW has dropped, of whatever kind and with whatever errors in the
words it read, has no outcome: the bus falls free and a grant is made, and nothing else changes. A REFRESH so dropped
neither lowers the debt nor sets the flag (log entry 10), and the errors named for the completion do not come into
memory (log entry 2). -/
def Obligations.DroppedTransfersHaveNoOutcome : Prop :=
  ∀ (r : Transfer) (i : Instr) (s : State), s.store.running = some r → r.dropped = true → completes i r.job →
    exec i s = .next (State.grant { s with store := { s.store with running := none } })

/-- The arbiter of an AWAKE store with a free bus grants, in this order: REFRESH at debt 8, SCAN to the unit next in
turn after its pointer, REFRESH at debt 1 or more, LOAD to the channel next in turn, SCRUB, EDIT, and REFRESH above
debt −8. In ENTERING it grants REFRESH while one is owed or the refreshed flag is clear, and then enters self-refresh
and reports it; with the bus taken, in SELF_REFRESH and in EXITING, nothing. A grant fixes the line that the transfer
moves. -/
def Obligations.TheGrantOrderIsKept : Prop :=
  ∀ s : State,
    let run (st : Store) (j : TransferJob) : State := { s with store :=
      { st with running := some { job := j, discard := false, dropped := false } } }
    (s.store.running ≠ none ∨ s.store.power = .selfRefresh ∨ s.store.power = .exiting → s.grant = s) ∧
    (s.store.running = none → s.store.power = .entering →
      (0 < s.store.debt ∨ s.store.refreshed = false → s.grant = run s.store .refresh) ∧
      (s.store.debt ≤ 0 → s.store.refreshed = true → s.grant = { s with
        store := { s.store with power := .selfRefresh }
        mail := { s.mail with fromStore := s.mail.fromStore ++ [.entered] } })) ∧
    (s.store.running = none → s.store.power = .awake →
      (s.store.debt = 8 → s.grant = run s.store .refresh) ∧
      (s.store.debt ≠ 8 →
        (∀ t : Tile, s.store.scanWaiting.getLsbD t.val = true →
          (∀ u : Tile, s.store.scanWaiting.getLsbD u.val = true →
            (t.val + 15 - s.store.scanPointer.val) % 16 ≤ (u.val + 15 - s.store.scanPointer.val) % 16) →
          s.grant = s.grantScan t) ∧
        (s.store.scanWaiting = 0 →
          (1 ≤ s.store.debt → s.grant = run s.store .refresh) ∧
          (s.store.debt < 1 →
            (∀ c : ChanId, s.store.loadWaiting.getLsbD c.val = true →
              (∀ d : ChanId, s.store.loadWaiting.getLsbD d.val = true →
                (c.val + 3 - s.store.loadPointer.val) % 4 ≤ (d.val + 3 - s.store.loadPointer.val) % 4) →
              s.grant = s.grantLoad c) ∧
            (s.store.loadWaiting = 0 →
              (s.store.scrubWaiting = true → s.grant = s.grantScrub) ∧
              (s.store.scrubWaiting = false → s.store.editWaiting = true → s.grant = s.grantEdit) ∧
              (s.store.scrubWaiting = false → s.store.editWaiting = false →
                (-8 < s.store.debt → s.grant = run s.store .refresh) ∧ (s.store.debt ≤ -8 → s.grant = s))))))) ∧
    (∀ (t : Tile) (f : UnitFetch) (pg : Handle) (n : Nat), s.units[t].fetch = some f → f.source = .slot pg n →
      s.grantScan t = run
        { s.store with scanWaiting := eraseBit s.store.scanWaiting t.val, scanPointer := t }
        (.scan t n (f.requested - 1))) ∧
    (∀ (c : ChanId) (l : Load) (p : Page), s.load.chans[c] = some l → s.page l.page = some p →
      let lines : Nat := p.width * p.height * 256
      let cell : Nat := match l.mode with
        | .block first _ _ => first + l.linesWritten / lines
        | .ring target _ => target
      let k : Nat := l.linesWritten % lines
      s.grantLoad c = run { s.store with loadWaiting := eraseBit s.store.loadWaiting c.val, loadPointer := c }
        (.load c (p.baseSlot + cell * (p.width * p.height) + k / 256) (k % 256) (l.buffer.take 256))) ∧
    (∀ (e : ScrubEntry) (rest : List ScrubEntry), s.store.scrub = e :: rest →
      s.grantScrub = run { s.store with scrubWaiting := false } (.scrub e)) ∧
    (∀ (p : Port) (tag : Byte) (pg : Handle) (cell x y line first : Nat) (plane stipple : BitVec 32)
      (ws : List Word) (rest : List Edit) (e : Page),
      s.edit.queue = { port := p, tag := tag, job := .patch pg cell x y line first plane stipple ws } :: rest →
      s.page pg = some e → s.grantEdit = run { s.store with editWaiting := false }
        (.patch p (e.baseSlot + cell * (e.width * e.height) + y * e.width + x) line first plane stipple ws)) ∧
    (∀ (p : Port) (tag : Byte) (src dst : Handle) (sc dc k : Nat) (rest : List Edit) (d : Page),
      s.edit.queue = { port := p, tag := tag, job := .copy src sc dst dc k } :: rest → s.page dst = some d →
      let place : Nat := d.baseSlot + dc * (d.width * d.height) + k / 256
      (src.toNat < 4 → s.grantEdit = run { s.store with editWaiting := false }
        (.copy p (.pattern (Fin.ofNat 4 src.toNat)) place (k % 256))) ∧
      (∀ a : Page, 4 ≤ src.toNat → s.page src = some a → a.width = d.width → a.height = d.height →
        s.grantEdit = run { s.store with editWaiting := false }
          (.copy p (.slot (a.baseSlot + sc * (d.width * d.height) + k / 256)) place (k % 256))))

/-- A word with no bit in error reads CLEAN, with one CORRECTED as it was written, with two, or with up to four in one
group of 4, UNCORRECTABLE; a word written reads CLEAN, every other word then reads as before, and the words of the
frame store do not overlap. New bit errors come into the words they name, and leave every other as it was (log
entry 2). -/
def Obligations.StoredWordsAreClassified : Prop :=
  (∀ w : Word, classify w 0 = { cls := .clean, data := w }) ∧
  (∀ (w : Word) (i : Nat), i < 72 →
    classify (w ^^^ (BitVec.twoPow 72 i).setWidth 64) (BitVec.twoPow 72 i) = { cls := .corrected, data := w }) ∧
  (∀ (w : Word) (i j : Nat), i < j → j < 72 →
    (classify w (BitVec.twoPow 72 i ||| BitVec.twoPow 72 j)).cls = .uncorrectable) ∧
  (∀ (w : Word) (g : Nat) (m : BitVec 4), g < 18 → 2 ≤ ((List.range 4).filter m.getLsbD).length →
    (classify w (m.setWidth 72 <<< (4 * g))).cls = .uncorrectable) ∧
  (∀ (slot line word : Nat) (w : Word) (s : State), s.memoryOk →
    (s.store.writeWord slot line word w).readWord slot line word = { cls := .clean, data := w } ∧
    ∀ b m v : Nat, slot < 2048 → line < 256 → word < 256 → b < 2048 → m < 256 → v < 256 →
      ¬ (slot = b ∧ line = m ∧ word = v) →
      (s.store.writeWord slot line word w).readWord b m v = s.store.readWord b m v) ∧
  (∀ a l w b m v : Nat, a < 2048 → l < 256 → w < 256 → b < 2048 → m < 256 → v < 256 →
    byteAddr a l w = byteAddr b m v → a = b ∧ l = m ∧ w = v) ∧
  (∀ (a l w : Nat) (e : ErrorMask) (s : State), s.memoryOk →
    let t : Store := s.store.disturbWord a l w e
    t.readWord a l w = classify (s.store.rawWord a l w ^^^ e.setWidth 64) (s.store.errorOf a l w ^^^ e) ∧
    ∀ b m v : Nat, a < 2048 → l < 256 → w < 256 → b < 2048 → m < 256 → v < 256 → ¬ (a = b ∧ l = m ∧ w = v) →
      t.readWord b m v = s.store.readWord b m v) ∧
  (∀ (a l w : Nat) (e : ErrorMask) (es : BitErrors) (s : Store), s.disturb a l [] = s ∧
    s.disturb a l ((w, e) :: es) = (if w < 256 then s.disturbWord a l w e else s).disturb a l es)

/-! ## Encodings and invariants -/

/-- The frame of every request that can be sent is read back as that request, with every field at every value. -/
def Obligations.RequestFramesAreReadBack : Prop :=
  ∀ (i : Instr) (h : Hdr) (code : Byte) (f frame : List Byte), i.request = some (h, code, f) → i.wf = true →
    h.stage = .whole → encodeFrame i = some frame → decodeFrame h.port frame = i

/-- What the statements below say of every step holds after reset. -/
def Obligations.TheInvariantsHoldAtReset : Prop :=
  State.reset.memoryOk ∧ State.reset.debtOk ∧ State.reset.scrubOk ∧ State.reset.portsOk ∧ State.reset.powerOk ∧
    State.reset.frameOk ∧ State.reset.zonesOk ∧ State.reset.slotsOk ∧ State.reset.unconfiguredOk ∧
    State.reset.pagesOk ∧ State.reset.pinsOk ∧ State.reset.editsOk

/-- Every step keeps the frame store's bytes and its record of bits in error in canonical form. -/
def Obligations.MemoryStaysCanonical : Prop :=
  ∀ s t : State, s.memoryOk → step s = .next t → t.memoryOk

/-- Every step keeps each of these: the refresh debt between −8 and 8, and 0 or more while the refreshed flag is
clear; the scrub queue at 4 different addresses or fewer, the corrected-word count at 65535 or less; a DOWN port with
its event set and mask empty and nothing in transit, and requests waiting at a port only while one of it is in transit
(R172, log entry 28); a unit's power-enable at its state; frame numbers below 2^48; and one edit at most of each port
in the edit queue. -/
def Obligations.CountersLinksAndLinesStayLegal : Prop :=
  ∀ s t : State, step s = .next t →
    (s.debtOk → t.debtOk) ∧ (s.scrubOk → t.scrubOk) ∧ (s.portsOk → t.portsOk) ∧ (s.powerOk → t.powerOk) ∧
      (s.frameOk → t.frameOk) ∧ (s.editsOk → t.editsOk)

/-- Every step keeps each zone's cut queue at 8 cuts with rising targets, its log at 8 entries, its link stack at 3
contexts, and nothing pending behind an armed gate or return. -/
def Obligations.ZonesStayLegal : Prop :=
  ∀ s t : State, s.zonesOk → step s = .next t → t.zonesOk

/-- Every step keeps the law of the slot map: each populated slot is free or held by one page, and no slot is both.
-/
def Obligations.SlotMapStaysConsistent : Prop :=
  ∀ s t : State, s.slotsOk → s.unconfiguredOk → step s = .next t → t.slotsOk ∧ t.unconfiguredOk

/-- Every step keeps the law of the page states, that a page is LOADING exactly while one BLOCK load or COPY writes
it and that its state otherwise follows from its valid cells and damaged flag, and the law of the pins: a page's pin
count is the number of the placements and edits that refer to it. -/
def Obligations.PagesAndPinsStayLegal : Prop :=
  ∀ s t : State, s.pagesOk → s.pinsOk → s.unconfiguredOk → step s = .next t → t.pagesOk ∧ t.pinsOk
end

