-- ==== Sys2Proof/Laws/State.lean ====
section
/-! SUPPORT. What each update of the state does to each field, one lemma a field, and the entries of an updated
vector. -/

namespace Sys2Proof.Machine

/-- The changed entry of an updated vector. -/
theorem upd_same {α : Type} {n : Nat} (v : Vector α n) (i : Fin n) (f : α → α) :
    (upd v i f)[i] = f v[i] := by simp [upd]

/-- The changed entry of an updated vector, as simp writes it. -/
@[simp] theorem upd_same_val {α : Type} {n : Nat} (v : Vector α n) (i : Fin n) (f : α → α) :
    (upd v i f)[i.val] = f v[i.val] := by simp [upd]

/-- An entry of an updated vector, by number. -/
theorem upd_val {α : Type} {n : Nat} (v : Vector α n) (i : Fin n) (j : Nat) (hj : j < n) (f : α → α) :
    (upd v i f)[j] = if i.val = j then f v[j] else v[j] := by
  unfold upd
  rw [Vector.getElem_set]
  split
  · next h => subst h; rfl
  · rfl

/-- Every other entry of an updated vector. -/
theorem upd_other {α : Type} {n : Nat} (v : Vector α n) (i j : Fin n) (f : α → α) (h : i ≠ j) :
    (upd v i f)[j] = v[j] := by
  have h' : i.val ≠ j.val := fun e => h (Fin.ext e)
  simpa [h'] using upd_val v i j.val j.isLt f

/-- An entry of an updated vector. -/
theorem upd_at {α : Type} {n : Nat} (v : Vector α n) (i j : Fin n) (f : α → α) :
    (upd v i f)[j] = if i = j then f v[j] else v[j] := by
  by_cases h : i = j
  · subst h; rw [if_pos rfl]; exact upd_same v i f
  · rw [if_neg h]; exact upd_other v i j f h

/-- An update that leaves its entry as it is changes nothing. -/
theorem upd_of_fixed {α : Type} {n : Nat} (v : Vector α n) (i : Fin n) (f : α → α) (h : f v[i] = v[i]) :
    upd v i f = v := by
  unfold upd; rw [h]; exact Vector.set_getElem_self _

/-- Two updates of one entry are one. -/
theorem upd_upd {α : Type} {n : Nat} (v : Vector α n) (i : Fin n) (f g : α → α) :
    upd (upd v i f) i g = upd v i fun a => g (f a) := by
  unfold upd
  simp

/-- Two updates that agree on the entry they change are the same. -/
theorem upd_congr {α : Type} {n : Nat} (v : Vector α n) (i : Fin n) {f g : α → α} (h : f v[i] = g v[i]) :
    upd v i f = upd v i g := by
  unfold upd
  rw [h]

/-- Two states are the same where their blocks are. -/
theorem State.eq_of_blocks {s t : State} (h1 : s.ports = t.ports) (h2 : s.dir = t.dir) (h3 : s.store = t.store)
    (h4 : s.load = t.load) (h5 : s.edit = t.edit) (h6 : s.scene = t.scene) (h7 : s.units = t.units)
    (h8 : s.mail = t.mail) (h9 : s.out = t.out) (h10 : s.pending = t.pending) : s = t := by
  cases s
  cases t
  simp_all

/-! ### State.modDir -/

@[simp] theorem modDir_ports (s : State) (f : Directory → Directory) : (s.modDir f).ports = s.ports := rfl
@[simp] theorem modDir_dir (s : State) (f : Directory → Directory) : (s.modDir f).dir = f s.dir := rfl
@[simp] theorem modDir_store (s : State) (f : Directory → Directory) : (s.modDir f).store = s.store := rfl
@[simp] theorem modDir_load (s : State) (f : Directory → Directory) : (s.modDir f).load = s.load := rfl
@[simp] theorem modDir_edit (s : State) (f : Directory → Directory) : (s.modDir f).edit = s.edit := rfl
@[simp] theorem modDir_scene (s : State) (f : Directory → Directory) : (s.modDir f).scene = s.scene := rfl
@[simp] theorem modDir_units (s : State) (f : Directory → Directory) : (s.modDir f).units = s.units := rfl
@[simp] theorem modDir_mail (s : State) (f : Directory → Directory) : (s.modDir f).mail = s.mail := rfl
@[simp] theorem modDir_out (s : State) (f : Directory → Directory) : (s.modDir f).out = s.out := rfl
@[simp] theorem modDir_pending (s : State) (f : Directory → Directory) : (s.modDir f).pending = s.pending := rfl

/-! ### State.modStore -/

@[simp] theorem modStore_ports (s : State) (f : Store → Store) : (s.modStore f).ports = s.ports := rfl
@[simp] theorem modStore_dir (s : State) (f : Store → Store) : (s.modStore f).dir = s.dir := rfl
@[simp] theorem modStore_store (s : State) (f : Store → Store) : (s.modStore f).store = f s.store := rfl
@[simp] theorem modStore_load (s : State) (f : Store → Store) : (s.modStore f).load = s.load := rfl
@[simp] theorem modStore_edit (s : State) (f : Store → Store) : (s.modStore f).edit = s.edit := rfl
@[simp] theorem modStore_scene (s : State) (f : Store → Store) : (s.modStore f).scene = s.scene := rfl
@[simp] theorem modStore_units (s : State) (f : Store → Store) : (s.modStore f).units = s.units := rfl
@[simp] theorem modStore_mail (s : State) (f : Store → Store) : (s.modStore f).mail = s.mail := rfl
@[simp] theorem modStore_out (s : State) (f : Store → Store) : (s.modStore f).out = s.out := rfl
@[simp] theorem modStore_pending (s : State) (f : Store → Store) : (s.modStore f).pending = s.pending := rfl

/-! ### State.modLoad -/

@[simp] theorem modLoad_ports (s : State) (f : LoadEngine → LoadEngine) : (s.modLoad f).ports = s.ports := rfl
@[simp] theorem modLoad_dir (s : State) (f : LoadEngine → LoadEngine) : (s.modLoad f).dir = s.dir := rfl
@[simp] theorem modLoad_store (s : State) (f : LoadEngine → LoadEngine) : (s.modLoad f).store = s.store := rfl
@[simp] theorem modLoad_load (s : State) (f : LoadEngine → LoadEngine) : (s.modLoad f).load = f s.load := rfl
@[simp] theorem modLoad_edit (s : State) (f : LoadEngine → LoadEngine) : (s.modLoad f).edit = s.edit := rfl
@[simp] theorem modLoad_scene (s : State) (f : LoadEngine → LoadEngine) : (s.modLoad f).scene = s.scene := rfl
@[simp] theorem modLoad_units (s : State) (f : LoadEngine → LoadEngine) : (s.modLoad f).units = s.units := rfl
@[simp] theorem modLoad_mail (s : State) (f : LoadEngine → LoadEngine) : (s.modLoad f).mail = s.mail := rfl
@[simp] theorem modLoad_out (s : State) (f : LoadEngine → LoadEngine) : (s.modLoad f).out = s.out := rfl
@[simp] theorem modLoad_pending (s : State) (f : LoadEngine → LoadEngine) : (s.modLoad f).pending = s.pending := rfl

/-! ### State.modEdit -/

@[simp] theorem modEdit_ports (s : State) (f : EditUnit → EditUnit) : (s.modEdit f).ports = s.ports := rfl
@[simp] theorem modEdit_dir (s : State) (f : EditUnit → EditUnit) : (s.modEdit f).dir = s.dir := rfl
@[simp] theorem modEdit_store (s : State) (f : EditUnit → EditUnit) : (s.modEdit f).store = s.store := rfl
@[simp] theorem modEdit_load (s : State) (f : EditUnit → EditUnit) : (s.modEdit f).load = s.load := rfl
@[simp] theorem modEdit_edit (s : State) (f : EditUnit → EditUnit) : (s.modEdit f).edit = f s.edit := rfl
@[simp] theorem modEdit_scene (s : State) (f : EditUnit → EditUnit) : (s.modEdit f).scene = s.scene := rfl
@[simp] theorem modEdit_units (s : State) (f : EditUnit → EditUnit) : (s.modEdit f).units = s.units := rfl
@[simp] theorem modEdit_mail (s : State) (f : EditUnit → EditUnit) : (s.modEdit f).mail = s.mail := rfl
@[simp] theorem modEdit_out (s : State) (f : EditUnit → EditUnit) : (s.modEdit f).out = s.out := rfl
@[simp] theorem modEdit_pending (s : State) (f : EditUnit → EditUnit) : (s.modEdit f).pending = s.pending := rfl

/-! ### State.modScene -/

@[simp] theorem modScene_ports (s : State) (f : SceneEngine → SceneEngine) : (s.modScene f).ports = s.ports := rfl
@[simp] theorem modScene_dir (s : State) (f : SceneEngine → SceneEngine) : (s.modScene f).dir = s.dir := rfl
@[simp] theorem modScene_store (s : State) (f : SceneEngine → SceneEngine) : (s.modScene f).store = s.store := rfl
@[simp] theorem modScene_load (s : State) (f : SceneEngine → SceneEngine) : (s.modScene f).load = s.load := rfl
@[simp] theorem modScene_edit (s : State) (f : SceneEngine → SceneEngine) : (s.modScene f).edit = s.edit := rfl
@[simp] theorem modScene_scene (s : State) (f : SceneEngine → SceneEngine) : (s.modScene f).scene = f s.scene := rfl
@[simp] theorem modScene_units (s : State) (f : SceneEngine → SceneEngine) : (s.modScene f).units = s.units := rfl
@[simp] theorem modScene_mail (s : State) (f : SceneEngine → SceneEngine) : (s.modScene f).mail = s.mail := rfl
@[simp] theorem modScene_out (s : State) (f : SceneEngine → SceneEngine) : (s.modScene f).out = s.out := rfl
@[simp] theorem modScene_pending (s : State) (f : SceneEngine → SceneEngine) : (s.modScene f).pending = s.pending := rfl

/-! ### State.modMail -/

@[simp] theorem modMail_ports (s : State) (f : Mail → Mail) : (s.modMail f).ports = s.ports := rfl
@[simp] theorem modMail_dir (s : State) (f : Mail → Mail) : (s.modMail f).dir = s.dir := rfl
@[simp] theorem modMail_store (s : State) (f : Mail → Mail) : (s.modMail f).store = s.store := rfl
@[simp] theorem modMail_load (s : State) (f : Mail → Mail) : (s.modMail f).load = s.load := rfl
@[simp] theorem modMail_edit (s : State) (f : Mail → Mail) : (s.modMail f).edit = s.edit := rfl
@[simp] theorem modMail_scene (s : State) (f : Mail → Mail) : (s.modMail f).scene = s.scene := rfl
@[simp] theorem modMail_units (s : State) (f : Mail → Mail) : (s.modMail f).units = s.units := rfl
@[simp] theorem modMail_mail (s : State) (f : Mail → Mail) : (s.modMail f).mail = f s.mail := rfl
@[simp] theorem modMail_out (s : State) (f : Mail → Mail) : (s.modMail f).out = s.out := rfl
@[simp] theorem modMail_pending (s : State) (f : Mail → Mail) : (s.modMail f).pending = s.pending := rfl

/-! ### State.setPort -/

@[simp] theorem setPort_ports (s : State) (p : Port) (f : PortRec → PortRec) : (s.setPort p f).ports = upd s.ports p f := rfl
@[simp] theorem setPort_dir (s : State) (p : Port) (f : PortRec → PortRec) : (s.setPort p f).dir = s.dir := rfl
@[simp] theorem setPort_store (s : State) (p : Port) (f : PortRec → PortRec) : (s.setPort p f).store = s.store := rfl
@[simp] theorem setPort_load (s : State) (p : Port) (f : PortRec → PortRec) : (s.setPort p f).load = s.load := rfl
@[simp] theorem setPort_edit (s : State) (p : Port) (f : PortRec → PortRec) : (s.setPort p f).edit = s.edit := rfl
@[simp] theorem setPort_scene (s : State) (p : Port) (f : PortRec → PortRec) : (s.setPort p f).scene = s.scene := rfl
@[simp] theorem setPort_units (s : State) (p : Port) (f : PortRec → PortRec) : (s.setPort p f).units = s.units := rfl
@[simp] theorem setPort_mail (s : State) (p : Port) (f : PortRec → PortRec) : (s.setPort p f).mail = s.mail := rfl
@[simp] theorem setPort_out (s : State) (p : Port) (f : PortRec → PortRec) : (s.setPort p f).out = s.out := rfl
@[simp] theorem setPort_pending (s : State) (p : Port) (f : PortRec → PortRec) : (s.setPort p f).pending = s.pending := rfl

/-! ### State.setUnit -/

@[simp] theorem setUnit_ports (s : State) (t : Tile) (f : TileUnit → TileUnit) : (s.setUnit t f).ports = s.ports := rfl
@[simp] theorem setUnit_dir (s : State) (t : Tile) (f : TileUnit → TileUnit) : (s.setUnit t f).dir = s.dir := rfl
@[simp] theorem setUnit_store (s : State) (t : Tile) (f : TileUnit → TileUnit) : (s.setUnit t f).store = s.store := rfl
@[simp] theorem setUnit_load (s : State) (t : Tile) (f : TileUnit → TileUnit) : (s.setUnit t f).load = s.load := rfl
@[simp] theorem setUnit_edit (s : State) (t : Tile) (f : TileUnit → TileUnit) : (s.setUnit t f).edit = s.edit := rfl
@[simp] theorem setUnit_scene (s : State) (t : Tile) (f : TileUnit → TileUnit) : (s.setUnit t f).scene = s.scene := rfl
@[simp] theorem setUnit_units (s : State) (t : Tile) (f : TileUnit → TileUnit) : (s.setUnit t f).units = upd s.units t f := rfl
@[simp] theorem setUnit_mail (s : State) (t : Tile) (f : TileUnit → TileUnit) : (s.setUnit t f).mail = s.mail := rfl
@[simp] theorem setUnit_out (s : State) (t : Tile) (f : TileUnit → TileUnit) : (s.setUnit t f).out = s.out := rfl
@[simp] theorem setUnit_pending (s : State) (t : Tile) (f : TileUnit → TileUnit) : (s.setUnit t f).pending = s.pending := rfl

/-! ### State.setZone -/

@[simp] theorem setZone_ports (s : State) (z : ZoneId) (f : Zone → Zone) : (s.setZone z f).ports = s.ports := rfl
@[simp] theorem setZone_dir (s : State) (z : ZoneId) (f : Zone → Zone) : (s.setZone z f).dir = s.dir := rfl
@[simp] theorem setZone_store (s : State) (z : ZoneId) (f : Zone → Zone) : (s.setZone z f).store = s.store := rfl
@[simp] theorem setZone_load (s : State) (z : ZoneId) (f : Zone → Zone) : (s.setZone z f).load = s.load := rfl
@[simp] theorem setZone_edit (s : State) (z : ZoneId) (f : Zone → Zone) : (s.setZone z f).edit = s.edit := rfl
@[simp] theorem setZone_scene (s : State) (z : ZoneId) (f : Zone → Zone) : (s.setZone z f).scene = { s.scene with zones := upd s.scene.zones z f } := rfl
@[simp] theorem setZone_units (s : State) (z : ZoneId) (f : Zone → Zone) : (s.setZone z f).units = s.units := rfl
@[simp] theorem setZone_mail (s : State) (z : ZoneId) (f : Zone → Zone) : (s.setZone z f).mail = s.mail := rfl
@[simp] theorem setZone_out (s : State) (z : ZoneId) (f : Zone → Zone) : (s.setZone z f).out = s.out := rfl
@[simp] theorem setZone_pending (s : State) (z : ZoneId) (f : Zone → Zone) : (s.setZone z f).pending = s.pending := rfl

/-! ### State.setGate -/

@[simp] theorem setGate_ports (s : State) (g : GateId) (f : Option Gate → Option Gate) : (s.setGate g f).ports = s.ports := rfl
@[simp] theorem setGate_dir (s : State) (g : GateId) (f : Option Gate → Option Gate) : (s.setGate g f).dir = s.dir := rfl
@[simp] theorem setGate_store (s : State) (g : GateId) (f : Option Gate → Option Gate) : (s.setGate g f).store = s.store := rfl
@[simp] theorem setGate_load (s : State) (g : GateId) (f : Option Gate → Option Gate) : (s.setGate g f).load = s.load := rfl
@[simp] theorem setGate_edit (s : State) (g : GateId) (f : Option Gate → Option Gate) : (s.setGate g f).edit = s.edit := rfl
@[simp] theorem setGate_scene (s : State) (g : GateId) (f : Option Gate → Option Gate) : (s.setGate g f).scene = { s.scene with gates := upd s.scene.gates g f } := rfl
@[simp] theorem setGate_units (s : State) (g : GateId) (f : Option Gate → Option Gate) : (s.setGate g f).units = s.units := rfl
@[simp] theorem setGate_mail (s : State) (g : GateId) (f : Option Gate → Option Gate) : (s.setGate g f).mail = s.mail := rfl
@[simp] theorem setGate_out (s : State) (g : GateId) (f : Option Gate → Option Gate) : (s.setGate g f).out = s.out := rfl
@[simp] theorem setGate_pending (s : State) (g : GateId) (f : Option Gate → Option Gate) : (s.setGate g f).pending = s.pending := rfl

/-! ### State.setChan -/

@[simp] theorem setChan_ports (s : State) (c : ChanId) (f : Option Load → Option Load) : (s.setChan c f).ports = s.ports := rfl
@[simp] theorem setChan_dir (s : State) (c : ChanId) (f : Option Load → Option Load) : (s.setChan c f).dir = s.dir := rfl
@[simp] theorem setChan_store (s : State) (c : ChanId) (f : Option Load → Option Load) : (s.setChan c f).store = s.store := rfl
@[simp] theorem setChan_load (s : State) (c : ChanId) (f : Option Load → Option Load) : (s.setChan c f).load = { s.load with chans := upd s.load.chans c f } := rfl
@[simp] theorem setChan_edit (s : State) (c : ChanId) (f : Option Load → Option Load) : (s.setChan c f).edit = s.edit := rfl
@[simp] theorem setChan_scene (s : State) (c : ChanId) (f : Option Load → Option Load) : (s.setChan c f).scene = s.scene := rfl
@[simp] theorem setChan_units (s : State) (c : ChanId) (f : Option Load → Option Load) : (s.setChan c f).units = s.units := rfl
@[simp] theorem setChan_mail (s : State) (c : ChanId) (f : Option Load → Option Load) : (s.setChan c f).mail = s.mail := rfl
@[simp] theorem setChan_out (s : State) (c : ChanId) (f : Option Load → Option Load) : (s.setChan c f).out = s.out := rfl
@[simp] theorem setChan_pending (s : State) (c : ChanId) (f : Option Load → Option Load) : (s.setChan c f).pending = s.pending := rfl

/-! ### State.setPage -/

@[simp] theorem setPage_ports (s : State) (h : Handle) (f : Page → Page) : (s.setPage h f).ports = s.ports := rfl
@[simp] theorem setPage_dir (s : State) (h : Handle) (f : Page → Page) : (s.setPage h f).dir = { s.dir with pages := upd s.dir.pages (handleIndex h) (·.map f) } := rfl
@[simp] theorem setPage_store (s : State) (h : Handle) (f : Page → Page) : (s.setPage h f).store = s.store := rfl
@[simp] theorem setPage_load (s : State) (h : Handle) (f : Page → Page) : (s.setPage h f).load = s.load := rfl
@[simp] theorem setPage_edit (s : State) (h : Handle) (f : Page → Page) : (s.setPage h f).edit = s.edit := rfl
@[simp] theorem setPage_scene (s : State) (h : Handle) (f : Page → Page) : (s.setPage h f).scene = s.scene := rfl
@[simp] theorem setPage_units (s : State) (h : Handle) (f : Page → Page) : (s.setPage h f).units = s.units := rfl
@[simp] theorem setPage_mail (s : State) (h : Handle) (f : Page → Page) : (s.setPage h f).mail = s.mail := rfl
@[simp] theorem setPage_out (s : State) (h : Handle) (f : Page → Page) : (s.setPage h f).out = s.out := rfl
@[simp] theorem setPage_pending (s : State) (h : Handle) (f : Page → Page) : (s.setPage h f).pending = s.pending := rfl

/-! ### State.send -/

@[simp] theorem send_ports (s : State) (o : Output) : (s.send o).ports = s.ports := rfl
@[simp] theorem send_dir (s : State) (o : Output) : (s.send o).dir = s.dir := rfl
@[simp] theorem send_store (s : State) (o : Output) : (s.send o).store = s.store := rfl
@[simp] theorem send_load (s : State) (o : Output) : (s.send o).load = s.load := rfl
@[simp] theorem send_edit (s : State) (o : Output) : (s.send o).edit = s.edit := rfl
@[simp] theorem send_scene (s : State) (o : Output) : (s.send o).scene = s.scene := rfl
@[simp] theorem send_units (s : State) (o : Output) : (s.send o).units = s.units := rfl
@[simp] theorem send_mail (s : State) (o : Output) : (s.send o).mail = s.mail := rfl
@[simp] theorem send_out (s : State) (o : Output) : (s.send o).out = s.out ++ [o] := rfl
@[simp] theorem send_pending (s : State) (o : Output) : (s.send o).pending = s.pending := rfl

/-! ### State.sendPanel -/

@[simp] theorem sendPanel_ports (s : State) (t : Tile) (m : PanelMsg) : (s.sendPanel t m).ports = s.ports := rfl
@[simp] theorem sendPanel_dir (s : State) (t : Tile) (m : PanelMsg) : (s.sendPanel t m).dir = s.dir := rfl
@[simp] theorem sendPanel_store (s : State) (t : Tile) (m : PanelMsg) : (s.sendPanel t m).store = s.store := rfl
@[simp] theorem sendPanel_load (s : State) (t : Tile) (m : PanelMsg) : (s.sendPanel t m).load = s.load := rfl
@[simp] theorem sendPanel_edit (s : State) (t : Tile) (m : PanelMsg) : (s.sendPanel t m).edit = s.edit := rfl
@[simp] theorem sendPanel_scene (s : State) (t : Tile) (m : PanelMsg) : (s.sendPanel t m).scene = s.scene := rfl
@[simp] theorem sendPanel_units (s : State) (t : Tile) (m : PanelMsg) : (s.sendPanel t m).units = s.units := rfl
@[simp] theorem sendPanel_mail (s : State) (t : Tile) (m : PanelMsg) : (s.sendPanel t m).mail = s.mail := rfl
@[simp] theorem sendPanel_out (s : State) (t : Tile) (m : PanelMsg) : (s.sendPanel t m).out = s.out ++ [.panel t m] := rfl
@[simp] theorem sendPanel_pending (s : State) (t : Tile) (m : PanelMsg) : (s.sendPanel t m).pending = s.pending := rfl

/-! ### State.toUnit -/

@[simp] theorem toUnit_ports (s : State) (t : Tile) (m : UnitMsg) : (s.toUnit t m).ports = s.ports := rfl
@[simp] theorem toUnit_dir (s : State) (t : Tile) (m : UnitMsg) : (s.toUnit t m).dir = s.dir := rfl
@[simp] theorem toUnit_store (s : State) (t : Tile) (m : UnitMsg) : (s.toUnit t m).store = s.store := rfl
@[simp] theorem toUnit_load (s : State) (t : Tile) (m : UnitMsg) : (s.toUnit t m).load = s.load := rfl
@[simp] theorem toUnit_edit (s : State) (t : Tile) (m : UnitMsg) : (s.toUnit t m).edit = s.edit := rfl
@[simp] theorem toUnit_scene (s : State) (t : Tile) (m : UnitMsg) : (s.toUnit t m).scene = s.scene := rfl
@[simp] theorem toUnit_units (s : State) (t : Tile) (m : UnitMsg) : (s.toUnit t m).units = s.units := rfl
@[simp] theorem toUnit_mail (s : State) (t : Tile) (m : UnitMsg) : (s.toUnit t m).mail = { s.mail with toUnit := upd s.mail.toUnit t (· ++ [m]) } := rfl
@[simp] theorem toUnit_out (s : State) (t : Tile) (m : UnitMsg) : (s.toUnit t m).out = s.out := rfl
@[simp] theorem toUnit_pending (s : State) (t : Tile) (m : UnitMsg) : (s.toUnit t m).pending = s.pending := rfl

/-! ### State.toScene -/

@[simp] theorem toScene_ports (s : State) (t : Tile) (r : UnitReport) : (s.toScene t r).ports = s.ports := rfl
@[simp] theorem toScene_dir (s : State) (t : Tile) (r : UnitReport) : (s.toScene t r).dir = s.dir := rfl
@[simp] theorem toScene_store (s : State) (t : Tile) (r : UnitReport) : (s.toScene t r).store = s.store := rfl
@[simp] theorem toScene_load (s : State) (t : Tile) (r : UnitReport) : (s.toScene t r).load = s.load := rfl
@[simp] theorem toScene_edit (s : State) (t : Tile) (r : UnitReport) : (s.toScene t r).edit = s.edit := rfl
@[simp] theorem toScene_scene (s : State) (t : Tile) (r : UnitReport) : (s.toScene t r).scene = s.scene := rfl
@[simp] theorem toScene_units (s : State) (t : Tile) (r : UnitReport) : (s.toScene t r).units = s.units := rfl
@[simp] theorem toScene_mail (s : State) (t : Tile) (r : UnitReport) : (s.toScene t r).mail = { s.mail with toScene := upd s.mail.toScene t (· ++ [r]) } := rfl
@[simp] theorem toScene_out (s : State) (t : Tile) (r : UnitReport) : (s.toScene t r).out = s.out := rfl
@[simp] theorem toScene_pending (s : State) (t : Tile) (r : UnitReport) : (s.toScene t r).pending = s.pending := rfl

/-! ### State.popUnitMsg -/

@[simp] theorem popUnitMsg_ports (s : State) (t : Tile) : (s.popUnitMsg t).ports = s.ports := rfl
@[simp] theorem popUnitMsg_dir (s : State) (t : Tile) : (s.popUnitMsg t).dir = s.dir := rfl
@[simp] theorem popUnitMsg_store (s : State) (t : Tile) : (s.popUnitMsg t).store = s.store := rfl
@[simp] theorem popUnitMsg_load (s : State) (t : Tile) : (s.popUnitMsg t).load = s.load := rfl
@[simp] theorem popUnitMsg_edit (s : State) (t : Tile) : (s.popUnitMsg t).edit = s.edit := rfl
@[simp] theorem popUnitMsg_scene (s : State) (t : Tile) : (s.popUnitMsg t).scene = s.scene := rfl
@[simp] theorem popUnitMsg_units (s : State) (t : Tile) : (s.popUnitMsg t).units = s.units := rfl
@[simp] theorem popUnitMsg_mail (s : State) (t : Tile) : (s.popUnitMsg t).mail = { s.mail with toUnit := upd s.mail.toUnit t List.tail } := rfl
@[simp] theorem popUnitMsg_out (s : State) (t : Tile) : (s.popUnitMsg t).out = s.out := rfl
@[simp] theorem popUnitMsg_pending (s : State) (t : Tile) : (s.popUnitMsg t).pending = s.pending := rfl

/-! ### State.popReport -/

@[simp] theorem popReport_ports (s : State) (t : Tile) : (s.popReport t).ports = s.ports := rfl
@[simp] theorem popReport_dir (s : State) (t : Tile) : (s.popReport t).dir = s.dir := rfl
@[simp] theorem popReport_store (s : State) (t : Tile) : (s.popReport t).store = s.store := rfl
@[simp] theorem popReport_load (s : State) (t : Tile) : (s.popReport t).load = s.load := rfl
@[simp] theorem popReport_edit (s : State) (t : Tile) : (s.popReport t).edit = s.edit := rfl
@[simp] theorem popReport_scene (s : State) (t : Tile) : (s.popReport t).scene = s.scene := rfl
@[simp] theorem popReport_units (s : State) (t : Tile) : (s.popReport t).units = s.units := rfl
@[simp] theorem popReport_mail (s : State) (t : Tile) : (s.popReport t).mail = { s.mail with toScene := upd s.mail.toScene t List.tail } := rfl
@[simp] theorem popReport_out (s : State) (t : Tile) : (s.popReport t).out = s.out := rfl
@[simp] theorem popReport_pending (s : State) (t : Tile) : (s.popReport t).pending = s.pending := rfl

/-! ### State.wait -/

@[simp] theorem wait_ports (s : State) (p : Port) (i : Instr) : (s.wait p i).ports = upd s.ports p fun r => { r with waiting := r.waiting ++ [i] } := rfl
@[simp] theorem wait_dir (s : State) (p : Port) (i : Instr) : (s.wait p i).dir = s.dir := rfl
@[simp] theorem wait_store (s : State) (p : Port) (i : Instr) : (s.wait p i).store = s.store := rfl
@[simp] theorem wait_load (s : State) (p : Port) (i : Instr) : (s.wait p i).load = s.load := rfl
@[simp] theorem wait_edit (s : State) (p : Port) (i : Instr) : (s.wait p i).edit = s.edit := rfl
@[simp] theorem wait_scene (s : State) (p : Port) (i : Instr) : (s.wait p i).scene = s.scene := rfl
@[simp] theorem wait_units (s : State) (p : Port) (i : Instr) : (s.wait p i).units = s.units := rfl
@[simp] theorem wait_mail (s : State) (p : Port) (i : Instr) : (s.wait p i).mail = s.mail := rfl
@[simp] theorem wait_out (s : State) (p : Port) (i : Instr) : (s.wait p i).out = s.out := rfl
@[simp] theorem wait_pending (s : State) (p : Port) (i : Instr) : (s.wait p i).pending = s.pending := rfl

/-! ### State.raise -/

@[simp] theorem raise_ports (s : State) (p : Port) (e : Event) : (s.raise p e).ports = upd s.ports p (·.take e) := rfl
@[simp] theorem raise_dir (s : State) (p : Port) (e : Event) : (s.raise p e).dir = s.dir := rfl
@[simp] theorem raise_store (s : State) (p : Port) (e : Event) : (s.raise p e).store = s.store := rfl
@[simp] theorem raise_load (s : State) (p : Port) (e : Event) : (s.raise p e).load = s.load := rfl
@[simp] theorem raise_edit (s : State) (p : Port) (e : Event) : (s.raise p e).edit = s.edit := rfl
@[simp] theorem raise_scene (s : State) (p : Port) (e : Event) : (s.raise p e).scene = s.scene := rfl
@[simp] theorem raise_units (s : State) (p : Port) (e : Event) : (s.raise p e).units = s.units := rfl
@[simp] theorem raise_mail (s : State) (p : Port) (e : Event) : (s.raise p e).mail = s.mail := rfl
@[simp] theorem raise_out (s : State) (p : Port) (e : Event) : (s.raise p e).out = s.out := rfl
@[simp] theorem raise_pending (s : State) (p : Port) (e : Event) : (s.raise p e).pending = s.pending := rfl

/-! ### State.raiseAll -/

@[simp] theorem raiseAll_ports (s : State) (e : Event) : (s.raiseAll e).ports = s.ports.map (·.take e) := rfl
@[simp] theorem raiseAll_dir (s : State) (e : Event) : (s.raiseAll e).dir = s.dir := rfl
@[simp] theorem raiseAll_store (s : State) (e : Event) : (s.raiseAll e).store = s.store := rfl
@[simp] theorem raiseAll_load (s : State) (e : Event) : (s.raiseAll e).load = s.load := rfl
@[simp] theorem raiseAll_edit (s : State) (e : Event) : (s.raiseAll e).edit = s.edit := rfl
@[simp] theorem raiseAll_scene (s : State) (e : Event) : (s.raiseAll e).scene = s.scene := rfl
@[simp] theorem raiseAll_units (s : State) (e : Event) : (s.raiseAll e).units = s.units := rfl
@[simp] theorem raiseAll_mail (s : State) (e : Event) : (s.raiseAll e).mail = s.mail := rfl
@[simp] theorem raiseAll_out (s : State) (e : Event) : (s.raiseAll e).out = s.out := rfl
@[simp] theorem raiseAll_pending (s : State) (e : Event) : (s.raiseAll e).pending = s.pending := rfl

/-! ### State.raiseOperators -/

@[simp] theorem raiseOperators_ports (s : State) (e : Event) : (s.raiseOperators e).ports = s.ports.map fun p => if p.cls = .operator then p.take e else p := rfl
@[simp] theorem raiseOperators_dir (s : State) (e : Event) : (s.raiseOperators e).dir = s.dir := rfl
@[simp] theorem raiseOperators_store (s : State) (e : Event) : (s.raiseOperators e).store = s.store := rfl
@[simp] theorem raiseOperators_load (s : State) (e : Event) : (s.raiseOperators e).load = s.load := rfl
@[simp] theorem raiseOperators_edit (s : State) (e : Event) : (s.raiseOperators e).edit = s.edit := rfl
@[simp] theorem raiseOperators_scene (s : State) (e : Event) : (s.raiseOperators e).scene = s.scene := rfl
@[simp] theorem raiseOperators_units (s : State) (e : Event) : (s.raiseOperators e).units = s.units := rfl
@[simp] theorem raiseOperators_mail (s : State) (e : Event) : (s.raiseOperators e).mail = s.mail := rfl
@[simp] theorem raiseOperators_out (s : State) (e : Event) : (s.raiseOperators e).out = s.out := rfl
@[simp] theorem raiseOperators_pending (s : State) (e : Event) : (s.raiseOperators e).pending = s.pending := rfl

/-! ### State.reply -/

/-- A reply reaches a port that is UP. -/
theorem reply_up (s : State) (c : Caller) (st : Status) (b : Body) (h : s.ports[c.port].up = true) :
    s.reply c st b = s.send (.reply c.port { code := c.code, tag := c.tag, status := st, body := b }) := by
  simp only [State.reply, h, if_true]

/-- A reply that falls due on a port that is DOWN is dropped (R171). -/
theorem reply_down (s : State) (c : Caller) (st : Status) (b : Body) (h : s.ports[c.port].up = false) :
    s.reply c st b = s := by
  simp only [State.reply, h, Bool.false_eq_true, if_false]

@[simp] theorem reply_ports (s : State) (c : Caller) (st : Status) (b : Body) : (s.reply c st b).ports = s.ports := by
  unfold State.reply; split <;> rfl
@[simp] theorem reply_dir (s : State) (c : Caller) (st : Status) (b : Body) : (s.reply c st b).dir = s.dir := by
  unfold State.reply; split <;> rfl
@[simp] theorem reply_store (s : State) (c : Caller) (st : Status) (b : Body) : (s.reply c st b).store = s.store := by
  unfold State.reply; split <;> rfl
@[simp] theorem reply_load (s : State) (c : Caller) (st : Status) (b : Body) : (s.reply c st b).load = s.load := by
  unfold State.reply; split <;> rfl
@[simp] theorem reply_edit (s : State) (c : Caller) (st : Status) (b : Body) : (s.reply c st b).edit = s.edit := by
  unfold State.reply; split <;> rfl
@[simp] theorem reply_scene (s : State) (c : Caller) (st : Status) (b : Body) : (s.reply c st b).scene = s.scene := by
  unfold State.reply; split <;> rfl
@[simp] theorem reply_units (s : State) (c : Caller) (st : Status) (b : Body) : (s.reply c st b).units = s.units := by
  unfold State.reply; split <;> rfl
@[simp] theorem reply_mail (s : State) (c : Caller) (st : Status) (b : Body) : (s.reply c st b).mail = s.mail := by
  unfold State.reply; split <;> rfl
@[simp] theorem reply_pending (s : State) (c : Caller) (st : Status) (b : Body) : (s.reply c st b).pending = s.pending := by
  unfold State.reply; split <;> rfl

end Sys2Proof.Machine
end

