-- ==== Sys2Proof/Laws/Frame.lean ====
section
/-! SUPPORT. What each shared operation leaves as it was: one lemma an operation, naming every block that it does
not change. -/

set_option linter.unusedTactic false
set_option linter.unusedSimpArgs false
set_option linter.unreachableTactic false
set_option linter.unnecessarySeqFocus false

namespace Sys2Proof.Machine

/-- A fold of steps that each keep something keeps it. -/
theorem foldl_keeps {α β γ : Type} (g : β → γ) (f : β → α → β) (h : ∀ b a, g (f b a) = g b) (l : List α) (b : β) :
    g (l.foldl f b) = g b := by
  induction l generalizing b with
  | nil => rfl
  | cons a l ih => rw [List.foldl_cons, ih, h]

@[simp] theorem pin_frame (s : State) (h : Handle) :
    (s.pin h).ports = s.ports ∧ (s.pin h).store = s.store ∧ (s.pin h).load = s.load ∧
    (s.pin h).edit = s.edit ∧ (s.pin h).scene = s.scene ∧ (s.pin h).units = s.units ∧
    (s.pin h).mail = s.mail ∧ (s.pin h).out = s.out ∧ (s.pin h).pending = s.pending := by
  unfold State.pin
  (try dsimp only)
  (repeat' split) <;> simp [*]

@[simp] theorem unpin_frame (s : State) (h : Handle) :
    (s.unpin h).ports = s.ports ∧ (s.unpin h).store = s.store ∧ (s.unpin h).load = s.load ∧
    (s.unpin h).edit = s.edit ∧ (s.unpin h).scene = s.scene ∧ (s.unpin h).units = s.units ∧
    (s.unpin h).mail = s.mail ∧ (s.unpin h).out = s.out ∧ (s.unpin h).pending = s.pending := by
  unfold State.unpin
  (try dsimp only)
  (repeat' split) <;> simp [*]

@[simp] theorem pinScene_frame (s : State) (sc : Scene) :
    (s.pinScene sc).ports = s.ports ∧ (s.pinScene sc).store = s.store ∧ (s.pinScene sc).load = s.load ∧
    (s.pinScene sc).edit = s.edit ∧ (s.pinScene sc).scene = s.scene ∧ (s.pinScene sc).units = s.units ∧
    (s.pinScene sc).mail = s.mail ∧ (s.pinScene sc).out = s.out ∧ (s.pinScene sc).pending = s.pending := by
  unfold State.pinScene
  refine ⟨?_, ?_, ?_, ?_, ?_, ?_, ?_, ?_, ?_⟩
  · exact (foldl_keeps (fun b : State => b.ports) _ (by intro b a; (try dsimp only); (repeat' split) <;> simp) _ _).trans (by simp)
  · exact (foldl_keeps (fun b : State => b.store) _ (by intro b a; (try dsimp only); (repeat' split) <;> simp) _ _).trans (by simp)
  · exact (foldl_keeps (fun b : State => b.load) _ (by intro b a; (try dsimp only); (repeat' split) <;> simp) _ _).trans (by simp)
  · exact (foldl_keeps (fun b : State => b.edit) _ (by intro b a; (try dsimp only); (repeat' split) <;> simp) _ _).trans (by simp)
  · exact (foldl_keeps (fun b : State => b.scene) _ (by intro b a; (try dsimp only); (repeat' split) <;> simp) _ _).trans (by simp)
  · exact (foldl_keeps (fun b : State => b.units) _ (by intro b a; (try dsimp only); (repeat' split) <;> simp) _ _).trans (by simp)
  · exact (foldl_keeps (fun b : State => b.mail) _ (by intro b a; (try dsimp only); (repeat' split) <;> simp) _ _).trans (by simp)
  · exact (foldl_keeps (fun b : State => b.out) _ (by intro b a; (try dsimp only); (repeat' split) <;> simp) _ _).trans (by simp)
  · exact (foldl_keeps (fun b : State => b.pending) _ (by intro b a; (try dsimp only); (repeat' split) <;> simp) _ _).trans (by simp)

@[simp] theorem unpinScene_frame (s : State) (sc : Scene) :
    (s.unpinScene sc).ports = s.ports ∧ (s.unpinScene sc).store = s.store ∧ (s.unpinScene sc).load = s.load ∧
    (s.unpinScene sc).edit = s.edit ∧ (s.unpinScene sc).scene = s.scene ∧ (s.unpinScene sc).units = s.units ∧
    (s.unpinScene sc).mail = s.mail ∧ (s.unpinScene sc).out = s.out ∧
    (s.unpinScene sc).pending = s.pending := by
  unfold State.unpinScene
  refine ⟨?_, ?_, ?_, ?_, ?_, ?_, ?_, ?_, ?_⟩
  · exact (foldl_keeps (fun b : State => b.ports) _ (by intro b a; (try dsimp only); (repeat' split) <;> simp) _ _).trans (by simp)
  · exact (foldl_keeps (fun b : State => b.store) _ (by intro b a; (try dsimp only); (repeat' split) <;> simp) _ _).trans (by simp)
  · exact (foldl_keeps (fun b : State => b.load) _ (by intro b a; (try dsimp only); (repeat' split) <;> simp) _ _).trans (by simp)
  · exact (foldl_keeps (fun b : State => b.edit) _ (by intro b a; (try dsimp only); (repeat' split) <;> simp) _ _).trans (by simp)
  · exact (foldl_keeps (fun b : State => b.scene) _ (by intro b a; (try dsimp only); (repeat' split) <;> simp) _ _).trans (by simp)
  · exact (foldl_keeps (fun b : State => b.units) _ (by intro b a; (try dsimp only); (repeat' split) <;> simp) _ _).trans (by simp)
  · exact (foldl_keeps (fun b : State => b.mail) _ (by intro b a; (try dsimp only); (repeat' split) <;> simp) _ _).trans (by simp)
  · exact (foldl_keeps (fun b : State => b.out) _ (by intro b a; (try dsimp only); (repeat' split) <;> simp) _ _).trans (by simp)
  · exact (foldl_keeps (fun b : State => b.pending) _ (by intro b a; (try dsimp only); (repeat' split) <;> simp) _ _).trans (by simp)

@[simp] theorem freePage_frame (s : State) (h : Handle) :
    (s.freePage h).ports = s.ports ∧ (s.freePage h).store = s.store ∧ (s.freePage h).load = s.load ∧
    (s.freePage h).edit = s.edit ∧ (s.freePage h).scene = s.scene ∧ (s.freePage h).units = s.units ∧
    (s.freePage h).mail = s.mail ∧ (s.freePage h).out = s.out ∧ (s.freePage h).pending = s.pending := by
  unfold State.freePage
  (try dsimp only)
  (repeat' split) <;> simp [*]

@[simp] theorem offerFault_frame (s : State) (f : CapturedFault) :
    (s.offerFault f).dir = s.dir ∧ (s.offerFault f).load = s.load ∧ (s.offerFault f).edit = s.edit ∧
    (s.offerFault f).scene = s.scene ∧ (s.offerFault f).units = s.units ∧ (s.offerFault f).mail = s.mail ∧
    (s.offerFault f).out = s.out ∧ (s.offerFault f).pending = s.pending := by
  unfold State.offerFault
  (try dsimp only)
  (repeat' split) <;> simp [*]

@[simp] theorem offerScrub_frame (s : State) (a : WordAddr) (o : Origin) :
    (s.offerScrub a o).ports = s.ports ∧ (s.offerScrub a o).dir = s.dir ∧ (s.offerScrub a o).load = s.load ∧
    (s.offerScrub a o).edit = s.edit ∧ (s.offerScrub a o).scene = s.scene ∧
    (s.offerScrub a o).units = s.units ∧ (s.offerScrub a o).mail = s.mail ∧ (s.offerScrub a o).out = s.out ∧
    (s.offerScrub a o).pending = s.pending := by
  unfold State.offerScrub
  (try dsimp only)
  (repeat' split) <;> simp [*]

@[simp] theorem countCorrected_frame (s : State) :
    (s.countCorrected).ports = s.ports ∧ (s.countCorrected).dir = s.dir ∧ (s.countCorrected).load = s.load ∧
    (s.countCorrected).edit = s.edit ∧ (s.countCorrected).scene = s.scene ∧
    (s.countCorrected).units = s.units ∧ (s.countCorrected).mail = s.mail ∧ (s.countCorrected).out = s.out ∧
    (s.countCorrected).pending = s.pending := by
  unfold State.countCorrected
  (try dsimp only)
  (repeat' split) <;> simp [*]

@[simp] theorem uncorrectable_frame (s : State) (k : FaultKind) (o : Origin) (a : WordAddr) :
    (s.uncorrectable k o a).load = s.load ∧ (s.uncorrectable k o a).edit = s.edit ∧
    (s.uncorrectable k o a).scene = s.scene ∧ (s.uncorrectable k o a).units = s.units ∧
    (s.uncorrectable k o a).mail = s.mail ∧ (s.uncorrectable k o a).out = s.out ∧
    (s.uncorrectable k o a).pending = s.pending := by
  unfold State.uncorrectable
  (try dsimp only)
  (repeat' split) <;> simp [*]

@[simp] theorem wordEffect_frame (s : State) (k : FaultKind) (o : Origin) (a : WordAddr) (c : ReadClass) :
    (s.wordEffect k o a c).load = s.load ∧ (s.wordEffect k o a c).edit = s.edit ∧
    (s.wordEffect k o a c).scene = s.scene ∧ (s.wordEffect k o a c).units = s.units ∧
    (s.wordEffect k o a c).mail = s.mail ∧ (s.wordEffect k o a c).out = s.out ∧
    (s.wordEffect k o a c).pending = s.pending := by
  unfold State.wordEffect
  (try dsimp only)
  (repeat' split) <;> simp [*]

@[simp] theorem lineEffects_frame (s : State) (k : FaultKind) (o : Origin) (slot line : Nat) (ws : List (Nat × ReadClass)) :
    (s.lineEffects k o slot line ws).load = s.load ∧ (s.lineEffects k o slot line ws).edit = s.edit ∧
    (s.lineEffects k o slot line ws).scene = s.scene ∧ (s.lineEffects k o slot line ws).units = s.units ∧
    (s.lineEffects k o slot line ws).mail = s.mail ∧ (s.lineEffects k o slot line ws).out = s.out ∧
    (s.lineEffects k o slot line ws).pending = s.pending := by
  induction ws generalizing s with
  | nil => simp [State.lineEffects]
  | cons w ws ih =>
    obtain ⟨n, c⟩ := w
    rw [State.lineEffects]
    have := ih (s.wordEffect k o { slot := slot, line := line, word := n } c)
    simp only [wordEffect_frame] at this
    exact this

@[simp] theorem setWindow_frame (s : State) (w : WindowState) :
    (s.setWindow w).dir = s.dir ∧ (s.setWindow w).store = s.store ∧ (s.setWindow w).load = s.load ∧
    (s.setWindow w).edit = s.edit ∧ (s.setWindow w).units = s.units ∧ (s.setWindow w).mail = s.mail ∧
    (s.setWindow w).out = s.out ∧ (s.setWindow w).pending = s.pending := by
  unfold State.setWindow
  (try dsimp only)
  (repeat' split) <;> simp [*]

@[simp] theorem run_frame (s : State) (j : TransferJob) :
    (s.run j).ports = s.ports ∧ (s.run j).dir = s.dir ∧ (s.run j).load = s.load ∧ (s.run j).edit = s.edit ∧
    (s.run j).scene = s.scene ∧ (s.run j).units = s.units ∧ (s.run j).mail = s.mail ∧ (s.run j).out = s.out ∧
    (s.run j).pending = s.pending := by
  unfold State.run
  (try dsimp only)
  (repeat' split) <;> simp [*]

@[simp] theorem grantRefresh_frame (s : State) :
    (s.grantRefresh).ports = s.ports ∧ (s.grantRefresh).dir = s.dir ∧ (s.grantRefresh).load = s.load ∧
    (s.grantRefresh).edit = s.edit ∧ (s.grantRefresh).scene = s.scene ∧ (s.grantRefresh).units = s.units ∧
    (s.grantRefresh).mail = s.mail ∧ (s.grantRefresh).out = s.out ∧ (s.grantRefresh).pending = s.pending := by
  unfold State.grantRefresh
  (try dsimp only)
  (repeat' split) <;> simp [*]

@[simp] theorem grantScan_frame (s : State) (t : Tile) :
    (s.grantScan t).ports = s.ports ∧ (s.grantScan t).dir = s.dir ∧ (s.grantScan t).load = s.load ∧
    (s.grantScan t).edit = s.edit ∧ (s.grantScan t).scene = s.scene ∧ (s.grantScan t).units = s.units ∧
    (s.grantScan t).mail = s.mail ∧ (s.grantScan t).out = s.out ∧ (s.grantScan t).pending = s.pending := by
  unfold State.grantScan
  (try dsimp only)
  (repeat' split) <;> simp [*]

@[simp] theorem grantLoad_frame (s : State) (c : ChanId) :
    (s.grantLoad c).ports = s.ports ∧ (s.grantLoad c).dir = s.dir ∧ (s.grantLoad c).load = s.load ∧
    (s.grantLoad c).edit = s.edit ∧ (s.grantLoad c).scene = s.scene ∧ (s.grantLoad c).units = s.units ∧
    (s.grantLoad c).mail = s.mail ∧ (s.grantLoad c).out = s.out ∧ (s.grantLoad c).pending = s.pending := by
  unfold State.grantLoad
  (try dsimp only)
  (repeat' split) <;> simp [*]

@[simp] theorem grantScrub_frame (s : State) :
    (s.grantScrub).ports = s.ports ∧ (s.grantScrub).dir = s.dir ∧ (s.grantScrub).load = s.load ∧
    (s.grantScrub).edit = s.edit ∧ (s.grantScrub).scene = s.scene ∧ (s.grantScrub).units = s.units ∧
    (s.grantScrub).mail = s.mail ∧ (s.grantScrub).out = s.out ∧ (s.grantScrub).pending = s.pending := by
  unfold State.grantScrub
  (try dsimp only)
  (repeat' split) <;> simp [*]

@[simp] theorem grantEdit_frame (s : State) :
    (s.grantEdit).ports = s.ports ∧ (s.grantEdit).dir = s.dir ∧ (s.grantEdit).load = s.load ∧
    (s.grantEdit).edit = s.edit ∧ (s.grantEdit).scene = s.scene ∧ (s.grantEdit).units = s.units ∧
    (s.grantEdit).mail = s.mail ∧ (s.grantEdit).out = s.out ∧ (s.grantEdit).pending = s.pending := by
  unfold State.grantEdit
  (try dsimp only)
  (repeat' split) <;> simp [*]

@[simp] theorem enterSelfRefresh_frame (s : State) :
    (s.enterSelfRefresh).ports = s.ports ∧ (s.enterSelfRefresh).dir = s.dir ∧
    (s.enterSelfRefresh).load = s.load ∧ (s.enterSelfRefresh).edit = s.edit ∧
    (s.enterSelfRefresh).scene = s.scene ∧ (s.enterSelfRefresh).units = s.units ∧
    (s.enterSelfRefresh).out = s.out ∧ (s.enterSelfRefresh).pending = s.pending := by
  unfold State.enterSelfRefresh
  (try dsimp only)
  (repeat' split) <;> simp [*]

@[simp] theorem grantAwake_frame (s : State) :
    (s.grantAwake).ports = s.ports ∧ (s.grantAwake).dir = s.dir ∧ (s.grantAwake).load = s.load ∧
    (s.grantAwake).edit = s.edit ∧ (s.grantAwake).scene = s.scene ∧ (s.grantAwake).units = s.units ∧
    (s.grantAwake).mail = s.mail ∧ (s.grantAwake).out = s.out ∧ (s.grantAwake).pending = s.pending := by
  unfold State.grantAwake
  (try dsimp only)
  (repeat' split) <;> simp [*]

@[simp] theorem grant_frame (s : State) :
    (s.grant).ports = s.ports ∧ (s.grant).dir = s.dir ∧ (s.grant).load = s.load ∧ (s.grant).edit = s.edit ∧
    (s.grant).scene = s.scene ∧ (s.grant).units = s.units ∧ (s.grant).out = s.out ∧
    (s.grant).pending = s.pending := by
  unfold State.grant
  (try dsimp only)
  (repeat' split) <;> simp [*]

@[simp] theorem freeBus_frame (s : State) :
    (s.freeBus).ports = s.ports ∧ (s.freeBus).dir = s.dir ∧ (s.freeBus).load = s.load ∧
    (s.freeBus).edit = s.edit ∧ (s.freeBus).scene = s.scene ∧ (s.freeBus).units = s.units ∧
    (s.freeBus).out = s.out ∧ (s.freeBus).pending = s.pending := by
  unfold State.freeBus
  (try dsimp only)
  (repeat' split) <;> simp [*]

@[simp] theorem discardRunning_frame (s : State) (k : TransferJob → Bool) :
    (s.discardRunning k).ports = s.ports ∧ (s.discardRunning k).dir = s.dir ∧
    (s.discardRunning k).load = s.load ∧ (s.discardRunning k).edit = s.edit ∧
    (s.discardRunning k).scene = s.scene ∧ (s.discardRunning k).units = s.units ∧
    (s.discardRunning k).mail = s.mail ∧ (s.discardRunning k).out = s.out ∧
    (s.discardRunning k).pending = s.pending := by
  unfold State.discardRunning
  (try dsimp only)
  (repeat' split) <;> simp [*]

@[simp] theorem requestScan_frame (s : State) (t : Tile) :
    (s.requestScan t).ports = s.ports ∧ (s.requestScan t).dir = s.dir ∧ (s.requestScan t).load = s.load ∧
    (s.requestScan t).edit = s.edit ∧ (s.requestScan t).scene = s.scene ∧ (s.requestScan t).out = s.out ∧
    (s.requestScan t).pending = s.pending := by
  unfold State.requestScan
  (try dsimp only)
  (repeat' split) <;> simp [*]

@[simp] theorem requestLoad_frame (s : State) (c : ChanId) :
    (s.requestLoad c).ports = s.ports ∧ (s.requestLoad c).dir = s.dir ∧ (s.requestLoad c).load = s.load ∧
    (s.requestLoad c).edit = s.edit ∧ (s.requestLoad c).scene = s.scene ∧ (s.requestLoad c).units = s.units ∧
    (s.requestLoad c).out = s.out ∧ (s.requestLoad c).pending = s.pending := by
  unfold State.requestLoad
  (try dsimp only)
  (repeat' split) <;> simp [*]

@[simp] theorem requestEdit_frame (s : State) :
    (s.requestEdit).ports = s.ports ∧ (s.requestEdit).dir = s.dir ∧ (s.requestEdit).load = s.load ∧
    (s.requestEdit).edit = s.edit ∧ (s.requestEdit).scene = s.scene ∧ (s.requestEdit).units = s.units ∧
    (s.requestEdit).out = s.out ∧ (s.requestEdit).pending = s.pending := by
  unfold State.requestEdit
  (try dsimp only)
  (repeat' split) <;> simp [*]

@[simp] theorem requestScrub_frame (s : State) :
    (s.requestScrub).ports = s.ports ∧ (s.requestScrub).dir = s.dir ∧ (s.requestScrub).load = s.load ∧
    (s.requestScrub).edit = s.edit ∧ (s.requestScrub).scene = s.scene ∧ (s.requestScrub).units = s.units ∧
    (s.requestScrub).out = s.out ∧ (s.requestScrub).pending = s.pending := by
  unfold State.requestScrub
  (try dsimp only)
  (repeat' split) <;> simp [*]

@[simp] theorem entryRequest_frame (s : State) :
    (s.entryRequest).ports = s.ports ∧ (s.entryRequest).dir = s.dir ∧ (s.entryRequest).load = s.load ∧
    (s.entryRequest).edit = s.edit ∧ (s.entryRequest).scene = s.scene ∧ (s.entryRequest).units = s.units ∧
    (s.entryRequest).out = s.out ∧ (s.entryRequest).pending = s.pending := by
  unfold State.entryRequest
  (try dsimp only)
  (repeat' split) <;> simp [*]

@[simp] theorem exitRequest_frame (s : State) :
    (s.exitRequest).ports = s.ports ∧ (s.exitRequest).dir = s.dir ∧ (s.exitRequest).load = s.load ∧
    (s.exitRequest).edit = s.edit ∧ (s.exitRequest).scene = s.scene ∧ (s.exitRequest).units = s.units ∧
    (s.exitRequest).mail = s.mail ∧ (s.exitRequest).out = s.out ∧ (s.exitRequest).pending = s.pending := by
  unfold State.exitRequest
  (try dsimp only)
  (repeat' split) <;> simp [*]

@[simp] theorem scrubWord_frame (s : State) (e : ScrubEntry) :
    (s.scrubWord e).load = s.load ∧ (s.scrubWord e).edit = s.edit ∧ (s.scrubWord e).scene = s.scene ∧
    (s.scrubWord e).units = s.units ∧ (s.scrubWord e).mail = s.mail ∧ (s.scrubWord e).out = s.out ∧
    (s.scrubWord e).pending = s.pending := by
  unfold State.scrubWord
  (try dsimp only)
  (repeat' split) <;> simp [*]

@[simp] theorem beginTarget_frame (s : State) (c : ChanId) :
    (s.beginTarget c).ports = s.ports ∧ (s.beginTarget c).store = s.store ∧ (s.beginTarget c).edit = s.edit ∧
    (s.beginTarget c).scene = s.scene ∧ (s.beginTarget c).units = s.units ∧ (s.beginTarget c).mail = s.mail ∧
    (s.beginTarget c).out = s.out ∧ (s.beginTarget c).pending = s.pending := by
  unfold State.beginTarget
  (try dsimp only)
  (repeat' split) <;> simp [*]

@[simp] theorem abortLoad_frame (s : State) (c : ChanId) :
    (s.abortLoad c).ports = s.ports ∧ (s.abortLoad c).edit = s.edit ∧ (s.abortLoad c).scene = s.scene ∧
    (s.abortLoad c).units = s.units ∧ (s.abortLoad c).mail = s.mail ∧ (s.abortLoad c).out = s.out ∧
    (s.abortLoad c).pending = s.pending := by
  unfold State.abortLoad
  (try dsimp only)
  (repeat' split) <;> simp [*]

@[simp] theorem endBlock_frame (s : State) (c : ChanId) (l : Load) (first count : Nat) (k : Check) :
    (s.endBlock c l first count k).store = s.store ∧ (s.endBlock c l first count k).edit = s.edit ∧
    (s.endBlock c l first count k).scene = s.scene ∧ (s.endBlock c l first count k).units = s.units ∧
    (s.endBlock c l first count k).mail = s.mail ∧ (s.endBlock c l first count k).out = s.out ∧
    (s.endBlock c l first count k).pending = s.pending := by
  unfold State.endBlock
  (try dsimp only)
  (repeat' split) <;> simp [*]

@[simp] theorem endCell_frame (s : State) (c : ChanId) (l : Load) (target : Nat) (k : Option Check) :
    (s.endCell c l target k).store = s.store ∧ (s.endCell c l target k).edit = s.edit ∧
    (s.endCell c l target k).scene = s.scene ∧ (s.endCell c l target k).units = s.units ∧
    (s.endCell c l target k).mail = s.mail ∧ (s.endCell c l target k).out = s.out ∧
    (s.endCell c l target k).pending = s.pending := by
  unfold State.endCell
  (try dsimp only)
  (repeat' split) <;> simp [*]

@[simp] theorem lineLoaded_frame (s : State) (c : ChanId) :
    (s.lineLoaded c).edit = s.edit ∧ (s.lineLoaded c).scene = s.scene ∧ (s.lineLoaded c).units = s.units ∧
    (s.lineLoaded c).out = s.out ∧ (s.lineLoaded c).pending = s.pending := by
  unfold State.lineLoaded
  (try dsimp only)
  (repeat' split) <;> simp [*]

@[simp] theorem recheckWaiting_frame (s : State) (c : ChanId) :
    (s.recheckWaiting c).ports = s.ports ∧ (s.recheckWaiting c).store = s.store ∧
    (s.recheckWaiting c).edit = s.edit ∧ (s.recheckWaiting c).scene = s.scene ∧
    (s.recheckWaiting c).units = s.units ∧ (s.recheckWaiting c).mail = s.mail ∧
    (s.recheckWaiting c).out = s.out ∧ (s.recheckWaiting c).pending = s.pending := by
  unfold State.recheckWaiting
  (try dsimp only)
  (repeat' split) <;> simp [*]

@[simp] theorem enqueueEdit_frame (s : State) (e : Edit) :
    (s.enqueueEdit e).ports = s.ports ∧ (s.enqueueEdit e).dir = s.dir ∧ (s.enqueueEdit e).load = s.load ∧
    (s.enqueueEdit e).scene = s.scene ∧ (s.enqueueEdit e).units = s.units ∧ (s.enqueueEdit e).out = s.out ∧
    (s.enqueueEdit e).pending = s.pending := by
  unfold State.enqueueEdit
  (try dsimp only)
  (repeat' split) <;> simp [*]

@[simp] theorem releaseEdit_frame (s : State) (e : Edit) (done : Bool) :
    (s.releaseEdit e done).ports = s.ports ∧ (s.releaseEdit e done).store = s.store ∧
    (s.releaseEdit e done).load = s.load ∧ (s.releaseEdit e done).edit = s.edit ∧
    (s.releaseEdit e done).scene = s.scene ∧ (s.releaseEdit e done).units = s.units ∧
    (s.releaseEdit e done).mail = s.mail ∧ (s.releaseEdit e done).out = s.out ∧
    (s.releaseEdit e done).pending = s.pending := by
  unfold State.releaseEdit
  (try dsimp only)
  (repeat' split) <;> simp [*]

@[simp] theorem takeEnds_frame (s : State) (f : EndReports → EndReports) :
    (s.takeEnds f).ports = s.ports ∧ (s.takeEnds f).dir = s.dir ∧ (s.takeEnds f).load = s.load ∧
    (s.takeEnds f).edit = s.edit ∧ (s.takeEnds f).units = s.units ∧ (s.takeEnds f).out = s.out ∧
    (s.takeEnds f).pending = s.pending := by
  unfold State.takeEnds
  (try dsimp only)
  (repeat' split) <;> simp [*]

@[simp] theorem reportEditsEnded_frame (s : State) :
    (s.reportEditsEnded).ports = s.ports ∧ (s.reportEditsEnded).dir = s.dir ∧
    (s.reportEditsEnded).load = s.load ∧ (s.reportEditsEnded).units = s.units ∧
    (s.reportEditsEnded).out = s.out ∧ (s.reportEditsEnded).pending = s.pending := by
  unfold State.reportEditsEnded
  (try dsimp only)
  (repeat' split) <;> simp [*]

@[simp] theorem nextEdit_frame (s : State) :
    (s.nextEdit).ports = s.ports ∧ (s.nextEdit).dir = s.dir ∧ (s.nextEdit).load = s.load ∧
    (s.nextEdit).edit = s.edit ∧ (s.nextEdit).scene = s.scene ∧ (s.nextEdit).units = s.units ∧
    (s.nextEdit).out = s.out ∧ (s.nextEdit).pending = s.pending := by
  unfold State.nextEdit
  (try dsimp only)
  (repeat' split) <;> simp [*]

@[simp] theorem removeEdit_frame (s : State) (e : Edit) :
    (s.removeEdit e).ports = s.ports ∧ (s.removeEdit e).load = s.load ∧ (s.removeEdit e).scene = s.scene ∧
    (s.removeEdit e).units = s.units ∧ (s.removeEdit e).out = s.out ∧
    (s.removeEdit e).pending = s.pending := by
  unfold State.removeEdit
  (try dsimp only)
  (repeat' split) <;> simp [*]

@[simp] theorem endEdits_frame (s : State) :
    (s.endEdits).ports = s.ports ∧ (s.endEdits).load = s.load ∧ (s.endEdits).units = s.units ∧
    (s.endEdits).pending = s.pending := by
  unfold State.endEdits
  simp only [reportEditsEnded_frame]
  refine ⟨?_, ?_, ?_, ?_⟩
  · exact (foldl_keeps (fun b : State => b.ports) _ (by intro b a; (repeat' split) <;> simp) _ _).trans (by simp)
  · exact (foldl_keeps (fun b : State => b.load) _ (by intro b a; (repeat' split) <;> simp) _ _).trans (by simp)
  · exact (foldl_keeps (fun b : State => b.units) _ (by intro b a; (repeat' split) <;> simp) _ _).trans (by simp)
  · exact (foldl_keeps (fun b : State => b.pending) _ (by intro b a; (repeat' split) <;> simp) _ _).trans (by simp)

@[simp] theorem patchDone_frame (s : State) (n : Nat) :
    (s.patchDone n).ports = s.ports ∧ (s.patchDone n).load = s.load ∧ (s.patchDone n).units = s.units ∧
    (s.patchDone n).pending = s.pending := by
  unfold State.patchDone
  (try dsimp only)
  (repeat' split) <;> simp [*]

@[simp] theorem copyMoved_frame (s : State) :
    (s.copyMoved).ports = s.ports ∧ (s.copyMoved).load = s.load ∧ (s.copyMoved).units = s.units ∧
    (s.copyMoved).pending = s.pending := by
  unfold State.copyMoved
  (try dsimp only)
  (repeat' split) <;> simp [*]

@[simp] theorem copyStopped_frame (s : State) :
    (s.copyStopped).ports = s.ports ∧ (s.copyStopped).load = s.load ∧ (s.copyStopped).units = s.units ∧
    (s.copyStopped).pending = s.pending := by
  unfold State.copyStopped
  (try dsimp only)
  (repeat' split) <;> simp [*]

@[simp] theorem logCut_frame (s : State) (z : ZoneId) (c : Cut) (o : CutOutcome) :
    (s.logCut z c o).ports = s.ports ∧ (s.logCut z c o).dir = s.dir ∧ (s.logCut z c o).store = s.store ∧
    (s.logCut z c o).load = s.load ∧ (s.logCut z c o).edit = s.edit ∧ (s.logCut z c o).units = s.units ∧
    (s.logCut z c o).mail = s.mail ∧ (s.logCut z c o).out = s.out ∧ (s.logCut z c o).pending = s.pending := by
  unfold State.logCut
  (try dsimp only)
  (repeat' split) <;> simp [*]

@[simp] theorem takeCut_frame (s : State) (z : ZoneId) (c : Cut) :
    (s.takeCut z c).ports = s.ports ∧ (s.takeCut z c).dir = s.dir ∧ (s.takeCut z c).store = s.store ∧
    (s.takeCut z c).load = s.load ∧ (s.takeCut z c).edit = s.edit ∧ (s.takeCut z c).units = s.units ∧
    (s.takeCut z c).mail = s.mail ∧ (s.takeCut z c).out = s.out ∧ (s.takeCut z c).pending = s.pending := by
  unfold State.takeCut
  (try dsimp only)
  (repeat' split) <;> simp [*]

@[simp] theorem loseCut_frame (s : State) (z : ZoneId) (o : CutOutcome) (c : Cut) :
    (s.loseCut z o c).ports = s.ports ∧ (s.loseCut z o c).store = s.store ∧ (s.loseCut z o c).load = s.load ∧
    (s.loseCut z o c).edit = s.edit ∧ (s.loseCut z o c).units = s.units ∧ (s.loseCut z o c).mail = s.mail ∧
    (s.loseCut z o c).out = s.out ∧ (s.loseCut z o c).pending = s.pending := by
  unfold State.loseCut
  (try dsimp only)
  (repeat' split) <;> simp [*]

@[simp] theorem disarm_frame (s : State) (z : ZoneId) :
    (s.disarm z).ports = s.ports ∧ (s.disarm z).dir = s.dir ∧ (s.disarm z).store = s.store ∧
    (s.disarm z).load = s.load ∧ (s.disarm z).edit = s.edit ∧ (s.disarm z).units = s.units ∧
    (s.disarm z).mail = s.mail ∧ (s.disarm z).out = s.out ∧ (s.disarm z).pending = s.pending := by
  unfold State.disarm
  (try dsimp only)
  (repeat' split) <;> simp [*]

@[simp] theorem moveTile_frame (s : State) (z : ZoneId) (into : Bool) (t : Tile) :
    (s.moveTile z into t).ports = s.ports ∧ (s.moveTile z into t).dir = s.dir ∧
    (s.moveTile z into t).store = s.store ∧ (s.moveTile z into t).load = s.load ∧
    (s.moveTile z into t).edit = s.edit ∧ (s.moveTile z into t).mail = s.mail ∧
    (s.moveTile z into t).out = s.out ∧ (s.moveTile z into t).pending = s.pending := by
  unfold State.moveTile
  (try dsimp only)
  (repeat' split) <;> simp [*]

@[simp] theorem reshape_frame (s : State) (z : ZoneId) (r : Option Rect) :
    (s.reshape z r).ports = s.ports ∧ (s.reshape z r).dir = s.dir ∧ (s.reshape z r).store = s.store ∧
    (s.reshape z r).load = s.load ∧ (s.reshape z r).edit = s.edit ∧ (s.reshape z r).mail = s.mail ∧
    (s.reshape z r).out = s.out ∧ (s.reshape z r).pending = s.pending := by
  unfold State.reshape
  refine ⟨?_, ?_, ?_, ?_, ?_, ?_, ?_, ?_⟩
  · exact (foldl_keeps (fun b : State => b.ports) _ (by intro b a; (try dsimp only); (repeat' split) <;> simp) _ _).trans (by simp)
  · exact (foldl_keeps (fun b : State => b.dir) _ (by intro b a; (try dsimp only); (repeat' split) <;> simp) _ _).trans (by simp)
  · exact (foldl_keeps (fun b : State => b.store) _ (by intro b a; (try dsimp only); (repeat' split) <;> simp) _ _).trans (by simp)
  · exact (foldl_keeps (fun b : State => b.load) _ (by intro b a; (try dsimp only); (repeat' split) <;> simp) _ _).trans (by simp)
  · exact (foldl_keeps (fun b : State => b.edit) _ (by intro b a; (try dsimp only); (repeat' split) <;> simp) _ _).trans (by simp)
  · exact (foldl_keeps (fun b : State => b.mail) _ (by intro b a; (try dsimp only); (repeat' split) <;> simp) _ _).trans (by simp)
  · exact (foldl_keeps (fun b : State => b.out) _ (by intro b a; (try dsimp only); (repeat' split) <;> simp) _ _).trans (by simp)
  · exact (foldl_keeps (fun b : State => b.pending) _ (by intro b a; (try dsimp only); (repeat' split) <;> simp) _ _).trans (by simp)

@[simp] theorem passZone_frame (s : State) (z : ZoneId) (p : Port) :
    (s.passZone z p).ports = s.ports ∧ (s.passZone z p).dir = s.dir ∧ (s.passZone z p).store = s.store ∧
    (s.passZone z p).load = s.load ∧ (s.passZone z p).edit = s.edit ∧ (s.passZone z p).units = s.units ∧
    (s.passZone z p).mail = s.mail ∧ (s.passZone z p).out = s.out ∧ (s.passZone z p).pending = s.pending := by
  unfold State.passZone
  (try dsimp only)
  (repeat' split) <;> simp [*]

@[simp] theorem releaseZone_frame (s : State) (z : ZoneId) :
    (s.releaseZone z).ports = s.ports ∧ (s.releaseZone z).store = s.store ∧ (s.releaseZone z).load = s.load ∧
    (s.releaseZone z).edit = s.edit ∧ (s.releaseZone z).units = s.units ∧ (s.releaseZone z).mail = s.mail ∧
    (s.releaseZone z).out = s.out ∧ (s.releaseZone z).pending = s.pending := by
  unfold State.releaseZone
  refine ⟨?_, ?_, ?_, ?_, ?_, ?_, ?_, ?_⟩
  · exact (foldl_keeps (fun b : State => b.ports) _ (by intro b a; (try dsimp only); (repeat' split) <;> simp) _ _).trans (by simp)
  · exact (foldl_keeps (fun b : State => b.store) _ (by intro b a; (try dsimp only); (repeat' split) <;> simp) _ _).trans (by simp)
  · exact (foldl_keeps (fun b : State => b.load) _ (by intro b a; (try dsimp only); (repeat' split) <;> simp) _ _).trans (by simp)
  · exact (foldl_keeps (fun b : State => b.edit) _ (by intro b a; (try dsimp only); (repeat' split) <;> simp) _ _).trans (by simp)
  · exact (foldl_keeps (fun b : State => b.units) _ (by intro b a; (try dsimp only); (repeat' split) <;> simp) _ _).trans (by simp)
  · exact (foldl_keeps (fun b : State => b.mail) _ (by intro b a; (try dsimp only); (repeat' split) <;> simp) _ _).trans (by simp)
  · exact (foldl_keeps (fun b : State => b.out) _ (by intro b a; (try dsimp only); (repeat' split) <;> simp) _ _).trans (by simp)
  · exact (foldl_keeps (fun b : State => b.pending) _ (by intro b a; (try dsimp only); (repeat' split) <;> simp) _ _).trans (by simp)

@[simp] theorem takeDelivery_frame (s : State) (t : Tile) (n : Nat) :
    (s.takeDelivery t n).ports = s.ports ∧ (s.takeDelivery t n).dir = s.dir ∧
    (s.takeDelivery t n).store = s.store ∧ (s.takeDelivery t n).load = s.load ∧
    (s.takeDelivery t n).edit = s.edit ∧ (s.takeDelivery t n).units = s.units ∧
    (s.takeDelivery t n).mail = s.mail ∧ (s.takeDelivery t n).out = s.out ∧
    (s.takeDelivery t n).pending = s.pending := by
  unfold State.takeDelivery
  (try dsimp only)
  (repeat' split) <;> simp [*]

@[simp] theorem leaveStep_frame (s : State) (t : Tile) :
    (s.leaveStep t).ports = s.ports ∧ (s.leaveStep t).dir = s.dir ∧ (s.leaveStep t).store = s.store ∧
    (s.leaveStep t).load = s.load ∧ (s.leaveStep t).edit = s.edit ∧ (s.leaveStep t).units = s.units ∧
    (s.leaveStep t).mail = s.mail ∧ (s.leaveStep t).out = s.out ∧ (s.leaveStep t).pending = s.pending := by
  unfold State.leaveStep
  (try dsimp only)
  (repeat' split) <;> simp [*]

@[simp] theorem takeStateReport_frame (s : State) (t : Tile) (st : TileState) :
    (s.takeStateReport t st).ports = s.ports ∧ (s.takeStateReport t st).dir = s.dir ∧
    (s.takeStateReport t st).store = s.store ∧ (s.takeStateReport t st).load = s.load ∧
    (s.takeStateReport t st).edit = s.edit ∧ (s.takeStateReport t st).units = s.units ∧
    (s.takeStateReport t st).mail = s.mail ∧ (s.takeStateReport t st).out = s.out ∧
    (s.takeStateReport t st).pending = s.pending := by
  unfold State.takeStateReport
  (try dsimp only)
  (repeat' split) <;> simp [*]

@[simp] theorem useGate_frame (s : State) (g : GateId) (u : GateUse) :
    (s.useGate g u).ports = s.ports ∧ (s.useGate g u).dir = s.dir ∧ (s.useGate g u).store = s.store ∧
    (s.useGate g u).load = s.load ∧ (s.useGate g u).edit = s.edit ∧ (s.useGate g u).units = s.units ∧
    (s.useGate g u).mail = s.mail ∧ (s.useGate g u).out = s.out ∧ (s.useGate g u).pending = s.pending := by
  unfold State.useGate
  (try dsimp only)
  (repeat' split) <;> simp [*]

@[simp] theorem freeGate_frame (s : State) (g : GateId) (p : Port) (e : Event) :
    (s.freeGate g p e).dir = s.dir ∧ (s.freeGate g p e).store = s.store ∧ (s.freeGate g p e).load = s.load ∧
    (s.freeGate g p e).edit = s.edit ∧ (s.freeGate g p e).units = s.units ∧ (s.freeGate g p e).mail = s.mail ∧
    (s.freeGate g p e).out = s.out ∧ (s.freeGate g p e).pending = s.pending := by
  unfold State.freeGate
  (try dsimp only)
  (repeat' split) <;> simp [*]

@[simp] theorem loseInvoker_frame (s : State) (p : Port) (z : ZoneId) :
    (s.loseInvoker p z).ports = s.ports ∧ (s.loseInvoker p z).dir = s.dir ∧
    (s.loseInvoker p z).store = s.store ∧ (s.loseInvoker p z).load = s.load ∧
    (s.loseInvoker p z).edit = s.edit ∧ (s.loseInvoker p z).units = s.units ∧
    (s.loseInvoker p z).mail = s.mail ∧ (s.loseInvoker p z).out = s.out ∧
    (s.loseInvoker p z).pending = s.pending := by
  unfold State.loseInvoker
  (try dsimp only)
  (repeat' split) <;> simp [*]

@[simp] theorem become_frame (s : State) (t : Tile) (st : TileState) :
    (s.become t st).dir = s.dir ∧ (s.become t st).store = s.store ∧ (s.become t st).load = s.load ∧
    (s.become t st).edit = s.edit ∧ (s.become t st).scene = s.scene ∧ (s.become t st).out = s.out ∧
    (s.become t st).pending = s.pending := by
  unfold State.become
  (try dsimp only)
  (repeat' split) <;> simp [*]

@[simp] theorem sendTrain_frame (s : State) (t : Tile) :
    (s.sendTrain t).ports = s.ports ∧ (s.sendTrain t).dir = s.dir ∧ (s.sendTrain t).store = s.store ∧
    (s.sendTrain t).load = s.load ∧ (s.sendTrain t).edit = s.edit ∧ (s.sendTrain t).scene = s.scene ∧
    (s.sendTrain t).mail = s.mail ∧ (s.sendTrain t).pending = s.pending := by
  unfold State.sendTrain
  refine ⟨?_, ?_, ?_, ?_, ?_, ?_, ?_, ?_⟩
  · exact (foldl_keeps (fun b : State => b.ports) _ (by intro b a; (try dsimp only); (repeat' split) <;> simp) _ _).trans (by simp)
  · exact (foldl_keeps (fun b : State => b.dir) _ (by intro b a; (try dsimp only); (repeat' split) <;> simp) _ _).trans (by simp)
  · exact (foldl_keeps (fun b : State => b.store) _ (by intro b a; (try dsimp only); (repeat' split) <;> simp) _ _).trans (by simp)
  · exact (foldl_keeps (fun b : State => b.load) _ (by intro b a; (try dsimp only); (repeat' split) <;> simp) _ _).trans (by simp)
  · exact (foldl_keeps (fun b : State => b.edit) _ (by intro b a; (try dsimp only); (repeat' split) <;> simp) _ _).trans (by simp)
  · exact (foldl_keeps (fun b : State => b.scene) _ (by intro b a; (try dsimp only); (repeat' split) <;> simp) _ _).trans (by simp)
  · exact (foldl_keeps (fun b : State => b.mail) _ (by intro b a; (try dsimp only); (repeat' split) <;> simp) _ _).trans (by simp)
  · exact (foldl_keeps (fun b : State => b.pending) _ (by intro b a; (try dsimp only); (repeat' split) <;> simp) _ _).trans (by simp)

@[simp] theorem beginAttempt_frame (s : State) (t : Tile) :
    (s.beginAttempt t).ports = s.ports ∧ (s.beginAttempt t).dir = s.dir ∧ (s.beginAttempt t).store = s.store ∧
    (s.beginAttempt t).load = s.load ∧ (s.beginAttempt t).edit = s.edit ∧ (s.beginAttempt t).scene = s.scene ∧
    (s.beginAttempt t).mail = s.mail ∧ (s.beginAttempt t).pending = s.pending := by
  unfold State.beginAttempt
  (try dsimp only)
  (repeat' split) <;> simp [*]

@[simp] theorem stopTraining_frame (s : State) (t : Tile) :
    (s.stopTraining t).ports = s.ports ∧ (s.stopTraining t).dir = s.dir ∧ (s.stopTraining t).store = s.store ∧
    (s.stopTraining t).load = s.load ∧ (s.stopTraining t).edit = s.edit ∧ (s.stopTraining t).scene = s.scene ∧
    (s.stopTraining t).mail = s.mail ∧ (s.stopTraining t).out = s.out ∧
    (s.stopTraining t).pending = s.pending := by
  unfold State.stopTraining
  (try dsimp only)
  (repeat' split) <;> simp [*]

@[simp] theorem startTraining_frame (s : State) (t : Tile) :
    (s.startTraining t).dir = s.dir ∧ (s.startTraining t).store = s.store ∧
    (s.startTraining t).load = s.load ∧ (s.startTraining t).edit = s.edit ∧
    (s.startTraining t).scene = s.scene ∧ (s.startTraining t).pending = s.pending := by
  unfold State.startTraining
  (try dsimp only)
  (repeat' split) <;> simp [*]

@[simp] theorem failAttempt_frame (s : State) (t : Tile) :
    (s.failAttempt t).dir = s.dir ∧ (s.failAttempt t).store = s.store ∧ (s.failAttempt t).load = s.load ∧
    (s.failAttempt t).edit = s.edit ∧ (s.failAttempt t).scene = s.scene ∧
    (s.failAttempt t).pending = s.pending := by
  unfold State.failAttempt
  (try dsimp only)
  (repeat' split) <;> simp [*]

@[simp] theorem abandonFetch_frame (s : State) (t : Tile) :
    (s.abandonFetch t).ports = s.ports ∧ (s.abandonFetch t).dir = s.dir ∧ (s.abandonFetch t).load = s.load ∧
    (s.abandonFetch t).edit = s.edit ∧ (s.abandonFetch t).scene = s.scene ∧ (s.abandonFetch t).mail = s.mail ∧
    (s.abandonFetch t).pending = s.pending := by
  unfold State.abandonFetch
  (try dsimp only)
  (repeat' split) <;> simp [*]

@[simp] theorem sendLine_frame (s : State) (t : Tile) (f : UnitFetch) (ws : List Word) :
    (s.sendLine t f ws).ports = s.ports ∧ (s.sendLine t f ws).dir = s.dir ∧
    (s.sendLine t f ws).store = s.store ∧ (s.sendLine t f ws).load = s.load ∧
    (s.sendLine t f ws).edit = s.edit ∧ (s.sendLine t f ws).scene = s.scene ∧
    (s.sendLine t f ws).mail = s.mail ∧ (s.sendLine t f ws).pending = s.pending := by
  unfold State.sendLine
  (try dsimp only)
  (repeat' split) <;> simp [*]

@[simp] theorem sendPattern_frame (s : State) (t : Tile) (p : PatternId) :
    (s.sendPattern t p).ports = s.ports ∧ (s.sendPattern t p).dir = s.dir ∧
    (s.sendPattern t p).store = s.store ∧ (s.sendPattern t p).load = s.load ∧
    (s.sendPattern t p).edit = s.edit ∧ (s.sendPattern t p).scene = s.scene ∧
    (s.sendPattern t p).mail = s.mail ∧ (s.sendPattern t p).pending = s.pending := by
  unfold State.sendPattern
  refine ⟨?_, ?_, ?_, ?_, ?_, ?_, ?_, ?_⟩
  · exact (foldl_keeps (fun b : State => b.ports) _ (by intro b a; (try dsimp only); (repeat' split) <;> simp) _ _).trans (by simp)
  · exact (foldl_keeps (fun b : State => b.dir) _ (by intro b a; (try dsimp only); (repeat' split) <;> simp) _ _).trans (by simp)
  · exact (foldl_keeps (fun b : State => b.store) _ (by intro b a; (try dsimp only); (repeat' split) <;> simp) _ _).trans (by simp)
  · exact (foldl_keeps (fun b : State => b.load) _ (by intro b a; (try dsimp only); (repeat' split) <;> simp) _ _).trans (by simp)
  · exact (foldl_keeps (fun b : State => b.edit) _ (by intro b a; (try dsimp only); (repeat' split) <;> simp) _ _).trans (by simp)
  · exact (foldl_keeps (fun b : State => b.scene) _ (by intro b a; (try dsimp only); (repeat' split) <;> simp) _ _).trans (by simp)
  · exact (foldl_keeps (fun b : State => b.mail) _ (by intro b a; (try dsimp only); (repeat' split) <;> simp) _ _).trans (by simp)
  · exact (foldl_keeps (fun b : State => b.pending) _ (by intro b a; (try dsimp only); (repeat' split) <;> simp) _ _).trans (by simp)

@[simp] theorem beginFetch_frame (s : State) (t : Tile) (n : Nat) (src : Source) :
    (s.beginFetch t n src).ports = s.ports ∧ (s.beginFetch t n src).dir = s.dir ∧
    (s.beginFetch t n src).load = s.load ∧ (s.beginFetch t n src).edit = s.edit ∧
    (s.beginFetch t n src).scene = s.scene ∧ (s.beginFetch t n src).pending = s.pending := by
  unfold State.beginFetch
  (try dsimp only)
  (repeat' split) <;> simp [*]

@[simp] theorem takeOrder_frame (s : State) (t : Tile) (n : Nat) (src : Source) (a : Bool) :
    (s.takeOrder t n src a).dir = s.dir ∧ (s.takeOrder t n src a).load = s.load ∧
    (s.takeOrder t n src a).edit = s.edit ∧ (s.takeOrder t n src a).scene = s.scene ∧
    (s.takeOrder t n src a).pending = s.pending := by
  unfold State.takeOrder
  (try dsimp only)
  (repeat' split) <;> simp [*]

@[simp] theorem lineScanned_frame (s : State) (t : Tile) (ws : List Word) :
    (s.lineScanned t ws).ports = s.ports ∧ (s.lineScanned t ws).dir = s.dir ∧
    (s.lineScanned t ws).load = s.load ∧ (s.lineScanned t ws).edit = s.edit ∧
    (s.lineScanned t ws).scene = s.scene ∧ (s.lineScanned t ws).pending = s.pending := by
  unfold State.lineScanned
  (try dsimp only)
  (repeat' split) <;> simp [*]

@[simp] theorem scanDiscarded_frame (s : State) (t : Tile) :
    (s.scanDiscarded t).ports = s.ports ∧ (s.scanDiscarded t).dir = s.dir ∧
    (s.scanDiscarded t).load = s.load ∧ (s.scanDiscarded t).edit = s.edit ∧
    (s.scanDiscarded t).scene = s.scene ∧ (s.scanDiscarded t).out = s.out ∧
    (s.scanDiscarded t).pending = s.pending := by
  unfold State.scanDiscarded
  (try dsimp only)
  (repeat' split) <;> simp [*]

@[simp] theorem countVerdict_frame (s : State) (t : Tile) (v : VerdictKind) (d : Bool) :
    (s.countVerdict t v d).dir = s.dir ∧ (s.countVerdict t v d).store = s.store ∧
    (s.countVerdict t v d).load = s.load ∧ (s.countVerdict t v d).edit = s.edit ∧
    (s.countVerdict t v d).scene = s.scene ∧ (s.countVerdict t v d).pending = s.pending := by
  unfold State.countVerdict
  (try dsimp only)
  (repeat' split) <;> simp [*]

@[simp] theorem countRejoin_frame (s : State) (t : Tile) (d : Bool) :
    (s.countRejoin t d).dir = s.dir ∧ (s.countRejoin t d).store = s.store ∧
    (s.countRejoin t d).load = s.load ∧ (s.countRejoin t d).edit = s.edit ∧
    (s.countRejoin t d).scene = s.scene ∧ (s.countRejoin t d).pending = s.pending := by
  unfold State.countRejoin
  (try dsimp only)
  (repeat' split) <;> simp [*]

@[simp] theorem takeVerdict_frame (s : State) (t : Tile) (v : VerdictKind) (d : Bool) :
    (s.takeVerdict t v d).dir = s.dir ∧ (s.takeVerdict t v d).store = s.store ∧
    (s.takeVerdict t v d).load = s.load ∧ (s.takeVerdict t v d).edit = s.edit ∧
    (s.takeVerdict t v d).scene = s.scene ∧ (s.takeVerdict t v d).pending = s.pending := by
  unfold State.takeVerdict
  (try dsimp only)
  (repeat' split) <;> simp [*]

@[simp] theorem setChange_frame (s : State) (k : ChangeKind) (p : Byte) (f : BitVec 48) :
    (s.setChange k p f).ports = s.ports ∧ (s.setChange k p f).dir = s.dir ∧
    (s.setChange k p f).store = s.store ∧ (s.setChange k p f).load = s.load ∧
    (s.setChange k p f).edit = s.edit ∧ (s.setChange k p f).units = s.units ∧
    (s.setChange k p f).mail = s.mail ∧ (s.setChange k p f).out = s.out ∧
    (s.setChange k p f).pending = s.pending := by
  unfold State.setChange
  (try dsimp only)
  (repeat' split) <;> simp [*]

@[simp] theorem powerOnBound_frame (s : State) :
    (s.powerOnBound).ports = s.ports ∧ (s.powerOnBound).dir = s.dir ∧ (s.powerOnBound).store = s.store ∧
    (s.powerOnBound).load = s.load ∧ (s.powerOnBound).edit = s.edit ∧ (s.powerOnBound).scene = s.scene ∧
    (s.powerOnBound).units = s.units ∧ (s.powerOnBound).out = s.out ∧
    (s.powerOnBound).pending = s.pending := by
  unfold State.powerOnBound
  refine ⟨?_, ?_, ?_, ?_, ?_, ?_, ?_, ?_, ?_⟩
  · exact (foldl_keeps (fun b : State => b.ports) _ (by intro b a; (try dsimp only); (repeat' split) <;> simp) _ _).trans (by simp)
  · exact (foldl_keeps (fun b : State => b.dir) _ (by intro b a; (try dsimp only); (repeat' split) <;> simp) _ _).trans (by simp)
  · exact (foldl_keeps (fun b : State => b.store) _ (by intro b a; (try dsimp only); (repeat' split) <;> simp) _ _).trans (by simp)
  · exact (foldl_keeps (fun b : State => b.load) _ (by intro b a; (try dsimp only); (repeat' split) <;> simp) _ _).trans (by simp)
  · exact (foldl_keeps (fun b : State => b.edit) _ (by intro b a; (try dsimp only); (repeat' split) <;> simp) _ _).trans (by simp)
  · exact (foldl_keeps (fun b : State => b.scene) _ (by intro b a; (try dsimp only); (repeat' split) <;> simp) _ _).trans (by simp)
  · exact (foldl_keeps (fun b : State => b.units) _ (by intro b a; (try dsimp only); (repeat' split) <;> simp) _ _).trans (by simp)
  · exact (foldl_keeps (fun b : State => b.out) _ (by intro b a; (try dsimp only); (repeat' split) <;> simp) _ _).trans (by simp)
  · exact (foldl_keeps (fun b : State => b.pending) _ (by intro b a; (try dsimp only); (repeat' split) <;> simp) _ _).trans (by simp)

@[simp] theorem popStore_frame (s : State) :
    (s.popStore).ports = s.ports ∧ (s.popStore).dir = s.dir ∧ (s.popStore).store = s.store ∧
    (s.popStore).load = s.load ∧ (s.popStore).edit = s.edit ∧ (s.popStore).scene = s.scene ∧
    (s.popStore).units = s.units ∧ (s.popStore).out = s.out ∧ (s.popStore).pending = s.pending := by
  unfold State.popStore
  (try dsimp only)
  (repeat' split) <;> simp [*]

@[simp] theorem sendVerdicts_frame (s : State) (c : Ctx) (a d : TileSet) (v : Bool → VerdictKind) :
    (s.sendVerdicts c a d v).ports = s.ports ∧ (s.sendVerdicts c a d v).dir = s.dir ∧
    (s.sendVerdicts c a d v).store = s.store ∧ (s.sendVerdicts c a d v).load = s.load ∧
    (s.sendVerdicts c a d v).edit = s.edit ∧ (s.sendVerdicts c a d v).scene = s.scene ∧
    (s.sendVerdicts c a d v).units = s.units ∧ (s.sendVerdicts c a d v).out = s.out ∧
    (s.sendVerdicts c a d v).pending = s.pending := by
  unfold State.sendVerdicts
  refine ⟨?_, ?_, ?_, ?_, ?_, ?_, ?_, ?_, ?_⟩
  · exact (foldl_keeps (fun b : State => b.ports) _ (by intro b a; (try dsimp only); (repeat' split) <;> simp) _ _).trans (by simp)
  · exact (foldl_keeps (fun b : State => b.dir) _ (by intro b a; (try dsimp only); (repeat' split) <;> simp) _ _).trans (by simp)
  · exact (foldl_keeps (fun b : State => b.store) _ (by intro b a; (try dsimp only); (repeat' split) <;> simp) _ _).trans (by simp)
  · exact (foldl_keeps (fun b : State => b.load) _ (by intro b a; (try dsimp only); (repeat' split) <;> simp) _ _).trans (by simp)
  · exact (foldl_keeps (fun b : State => b.edit) _ (by intro b a; (try dsimp only); (repeat' split) <;> simp) _ _).trans (by simp)
  · exact (foldl_keeps (fun b : State => b.scene) _ (by intro b a; (try dsimp only); (repeat' split) <;> simp) _ _).trans (by simp)
  · exact (foldl_keeps (fun b : State => b.units) _ (by intro b a; (try dsimp only); (repeat' split) <;> simp) _ _).trans (by simp)
  · exact (foldl_keeps (fun b : State => b.out) _ (by intro b a; (try dsimp only); (repeat' split) <;> simp) _ _).trans (by simp)
  · exact (foldl_keeps (fun b : State => b.pending) _ (by intro b a; (try dsimp only); (repeat' split) <;> simp) _ _).trans (by simp)

@[simp] theorem showCut_frame (s : State) (z : ZoneId) :
    (s.showCut z).store = s.store ∧ (s.showCut z).load = s.load ∧ (s.showCut z).edit = s.edit ∧
    (s.showCut z).units = s.units ∧ (s.showCut z).mail = s.mail ∧ (s.showCut z).out = s.out ∧
    (s.showCut z).pending = s.pending := by
  unfold State.showCut
  (try dsimp only)
  (repeat' split) <;> simp [*]

@[simp] theorem showGate_frame (s : State) (z : ZoneId) (g : GateId) (p : Port) :
    (s.showGate z g p).store = s.store ∧ (s.showGate z g p).load = s.load ∧ (s.showGate z g p).edit = s.edit ∧
    (s.showGate z g p).units = s.units ∧ (s.showGate z g p).mail = s.mail ∧ (s.showGate z g p).out = s.out ∧
    (s.showGate z g p).pending = s.pending := by
  unfold State.showGate
  (try dsimp only)
  (repeat' split) <;> simp [*]

@[simp] theorem dropContext_frame (s : State) (x : Context) :
    (s.dropContext x).store = s.store ∧ (s.dropContext x).load = s.load ∧ (s.dropContext x).edit = s.edit ∧
    (s.dropContext x).units = s.units ∧ (s.dropContext x).mail = s.mail ∧ (s.dropContext x).out = s.out ∧
    (s.dropContext x).pending = s.pending := by
  unfold State.dropContext
  (try dsimp only)
  (repeat' split) <;> simp [*]

@[simp] theorem showReturn_frame (s : State) (z : ZoneId) :
    (s.showReturn z).store = s.store ∧ (s.showReturn z).load = s.load ∧ (s.showReturn z).edit = s.edit ∧
    (s.showReturn z).units = s.units ∧ (s.showReturn z).mail = s.mail ∧ (s.showReturn z).out = s.out ∧
    (s.showReturn z).pending = s.pending := by
  unfold State.showReturn
  (try dsimp only)
  (repeat' split) <;> simp [*]

@[simp] theorem showArmed_frame (s : State) (z : ZoneId) :
    (s.showArmed z).store = s.store ∧ (s.showArmed z).load = s.load ∧ (s.showArmed z).edit = s.edit ∧
    (s.showArmed z).units = s.units ∧ (s.showArmed z).mail = s.mail ∧ (s.showArmed z).out = s.out ∧
    (s.showArmed z).pending = s.pending := by
  unfold State.showArmed
  (try dsimp only)
  (repeat' split) <;> simp [*]

@[simp] theorem countDown_frame (s : State) (z : ZoneId) :
    (s.countDown z).ports = s.ports ∧ (s.countDown z).dir = s.dir ∧ (s.countDown z).store = s.store ∧
    (s.countDown z).load = s.load ∧ (s.countDown z).edit = s.edit ∧ (s.countDown z).units = s.units ∧
    (s.countDown z).mail = s.mail ∧ (s.countDown z).out = s.out ∧ (s.countDown z).pending = s.pending := by
  unfold State.countDown
  (try dsimp only)
  (repeat' split) <;> simp [*]

@[simp] theorem dropReleased_frame (s : State) (z : ZoneId) :
    (s.dropReleased z).ports = s.ports ∧ (s.dropReleased z).store = s.store ∧
    (s.dropReleased z).load = s.load ∧ (s.dropReleased z).edit = s.edit ∧ (s.dropReleased z).units = s.units ∧
    (s.dropReleased z).mail = s.mail ∧ (s.dropReleased z).out = s.out ∧
    (s.dropReleased z).pending = s.pending := by
  unfold State.dropReleased
  (try dsimp only)
  (repeat' split) <;> simp [*]

@[simp] theorem zoneVerdict_frame (s : State) (z : ZoneId) :
    (s.zoneVerdict z).store = s.store ∧ (s.zoneVerdict z).load = s.load ∧ (s.zoneVerdict z).edit = s.edit ∧
    (s.zoneVerdict z).units = s.units ∧ (s.zoneVerdict z).out = s.out ∧
    (s.zoneVerdict z).pending = s.pending := by
  unfold State.zoneVerdict
  (try dsimp only)
  (repeat' split) <;> simp [*]

@[simp] theorem unarmEarly_frame (s : State) (z : ZoneId) :
    (s.unarmEarly z).ports = s.ports ∧ (s.unarmEarly z).dir = s.dir ∧ (s.unarmEarly z).store = s.store ∧
    (s.unarmEarly z).load = s.load ∧ (s.unarmEarly z).edit = s.edit ∧ (s.unarmEarly z).units = s.units ∧
    (s.unarmEarly z).mail = s.mail ∧ (s.unarmEarly z).out = s.out ∧ (s.unarmEarly z).pending = s.pending := by
  unfold State.unarmEarly
  (try dsimp only)
  (repeat' split) <;> simp [*]

@[simp] theorem abandonCut_frame (s : State) (z : ZoneId) (c : Cut) :
    (s.abandonCut z c).store = s.store ∧ (s.abandonCut z c).load = s.load ∧ (s.abandonCut z c).edit = s.edit ∧
    (s.abandonCut z c).units = s.units ∧ (s.abandonCut z c).mail = s.mail ∧ (s.abandonCut z c).out = s.out ∧
    (s.abandonCut z c).pending = s.pending := by
  unfold State.abandonCut
  (try dsimp only)
  (repeat' split) <;> simp [*]

@[simp] theorem skipCut_frame (s : State) (z : ZoneId) (c : Cut) :
    (s.skipCut z c).store = s.store ∧ (s.skipCut z c).load = s.load ∧ (s.skipCut z c).edit = s.edit ∧
    (s.skipCut z c).units = s.units ∧ (s.skipCut z c).mail = s.mail ∧ (s.skipCut z c).out = s.out ∧
    (s.skipCut z c).pending = s.pending := by
  unfold State.skipCut
  (try dsimp only)
  (repeat' split) <;> simp [*]

@[simp] theorem clearArmed_frame (s : State) (z : ZoneId) :
    (s.clearArmed z).store = s.store ∧ (s.clearArmed z).load = s.load ∧ (s.clearArmed z).edit = s.edit ∧
    (s.clearArmed z).units = s.units ∧ (s.clearArmed z).mail = s.mail ∧ (s.clearArmed z).out = s.out ∧
    (s.clearArmed z).pending = s.pending := by
  unfold State.clearArmed
  (try dsimp only)
  (repeat' split) <;> simp [*]

@[simp] theorem armPending_frame (s : State) (z : ZoneId) :
    (s.armPending z).ports = s.ports ∧ (s.armPending z).dir = s.dir ∧ (s.armPending z).store = s.store ∧
    (s.armPending z).load = s.load ∧ (s.armPending z).edit = s.edit ∧ (s.armPending z).units = s.units ∧
    (s.armPending z).mail = s.mail ∧ (s.armPending z).out = s.out ∧ (s.armPending z).pending = s.pending := by
  unfold State.armPending
  (try dsimp only)
  (repeat' split) <;> simp [*]

@[simp] theorem armExpired_frame (s : State) (z : ZoneId) :
    (s.armExpired z).ports = s.ports ∧ (s.armExpired z).dir = s.dir ∧ (s.armExpired z).store = s.store ∧
    (s.armExpired z).load = s.load ∧ (s.armExpired z).edit = s.edit ∧ (s.armExpired z).units = s.units ∧
    (s.armExpired z).mail = s.mail ∧ (s.armExpired z).out = s.out ∧ (s.armExpired z).pending = s.pending := by
  unfold State.armExpired
  (try dsimp only)
  (repeat' split) <;> simp [*]

@[simp] theorem takeUnseen_frame (s : State) (z : ZoneId) (c : Cut) :
    (s.takeUnseen z c).store = s.store ∧ (s.takeUnseen z c).load = s.load ∧ (s.takeUnseen z c).edit = s.edit ∧
    (s.takeUnseen z c).units = s.units ∧ (s.takeUnseen z c).mail = s.mail ∧ (s.takeUnseen z c).out = s.out ∧
    (s.takeUnseen z c).pending = s.pending := by
  unfold State.takeUnseen
  (try dsimp only)
  (repeat' split) <;> simp [*]

@[simp] theorem skipDue_frame (s : State) (z : ZoneId) :
    (s.skipDue z).1.store = s.store ∧ (s.skipDue z).1.load = s.load ∧ (s.skipDue z).1.edit = s.edit ∧
    (s.skipDue z).1.units = s.units ∧ (s.skipDue z).1.mail = s.mail ∧ (s.skipDue z).1.out = s.out ∧
    (s.skipDue z).1.pending = s.pending := by
  unfold State.skipDue
  dsimp only
  refine ⟨?_, ?_, ?_, ?_, ?_, ?_, ?_⟩
  · exact foldl_keeps (fun b : State => b.store) _ (by intro b a; simp) _ _
  · exact foldl_keeps (fun b : State => b.load) _ (by intro b a; simp) _ _
  · exact foldl_keeps (fun b : State => b.edit) _ (by intro b a; simp) _ _
  · exact foldl_keeps (fun b : State => b.units) _ (by intro b a; simp) _ _
  · exact foldl_keeps (fun b : State => b.mail) _ (by intro b a; simp) _ _
  · exact foldl_keeps (fun b : State => b.out) _ (by intro b a; simp) _ _
  · exact foldl_keeps (fun b : State => b.pending) _ (by intro b a; simp) _ _

@[simp] theorem settleDue_frame (s : State) (z : ZoneId) :
    (s.settleDue z).store = s.store ∧ (s.settleDue z).load = s.load ∧ (s.settleDue z).edit = s.edit ∧
    (s.settleDue z).units = s.units ∧ (s.settleDue z).mail = s.mail ∧ (s.settleDue z).out = s.out ∧
    (s.settleDue z).pending = s.pending := by
  unfold State.settleDue
  split
  · simp
  · have h := skipDue_frame s z
    split
    · next e => rw [e] at h; simp only at h; simp [h]
    · next e => rw [e] at h; simp only at h; (repeat' split) <;> simp [h]

@[simp] theorem checkArmed_frame (s : State) (z : ZoneId) :
    (s.checkArmed z).1.ports = s.ports ∧ (s.checkArmed z).1.dir = s.dir ∧ (s.checkArmed z).1.store = s.store ∧
    (s.checkArmed z).1.load = s.load ∧ (s.checkArmed z).1.edit = s.edit ∧ (s.checkArmed z).1.units = s.units ∧
    (s.checkArmed z).1.mail = s.mail ∧ (s.checkArmed z).1.out = s.out ∧
    (s.checkArmed z).1.pending = s.pending := by
  unfold State.checkArmed
  dsimp only
  split
  · simp
  · (repeat' split) <;> simp

@[simp] theorem orderFetch_frame (s : State) (z : ZoneId) (a : Bool) (sc : Scene) (n : Nat) :
    (s.orderFetch z a sc n).ports = s.ports ∧ (s.orderFetch z a sc n).dir = s.dir ∧
    (s.orderFetch z a sc n).store = s.store ∧ (s.orderFetch z a sc n).load = s.load ∧
    (s.orderFetch z a sc n).edit = s.edit ∧ (s.orderFetch z a sc n).units = s.units ∧
    (s.orderFetch z a sc n).out = s.out ∧ (s.orderFetch z a sc n).pending = s.pending := by
  unfold State.orderFetch State.sendOrders
  refine ⟨?_, ?_, ?_, ?_, ?_, ?_, ?_, ?_⟩
  · exact (foldl_keeps (fun b : State => b.ports) _ (by intro b a; (repeat' split) <;> simp) _ _).trans (by simp)
  · exact (foldl_keeps (fun b : State => b.dir) _ (by intro b a; (repeat' split) <;> simp) _ _).trans (by simp)
  · exact (foldl_keeps (fun b : State => b.store) _ (by intro b a; (repeat' split) <;> simp) _ _).trans (by simp)
  · exact (foldl_keeps (fun b : State => b.load) _ (by intro b a; (repeat' split) <;> simp) _ _).trans (by simp)
  · exact (foldl_keeps (fun b : State => b.edit) _ (by intro b a; (repeat' split) <;> simp) _ _).trans (by simp)
  · exact (foldl_keeps (fun b : State => b.units) _ (by intro b a; (repeat' split) <;> simp) _ _).trans (by simp)
  · exact (foldl_keeps (fun b : State => b.out) _ (by intro b a; (repeat' split) <;> simp) _ _).trans (by simp)
  · exact (foldl_keeps (fun b : State => b.pending) _ (by intro b a; (repeat' split) <;> simp) _ _).trans (by simp)

@[simp] theorem zoneChoice_frame (s : State) (z : ZoneId) :
    (s.zoneChoice z).store = s.store ∧ (s.zoneChoice z).load = s.load ∧ (s.zoneChoice z).edit = s.edit ∧
    (s.zoneChoice z).units = s.units ∧ (s.zoneChoice z).out = s.out ∧
    (s.zoneChoice z).pending = s.pending := by
  unfold State.zoneChoice
  dsimp only
  have h := checkArmed_frame ((((s.clearArmed z).armPending z).armExpired z).settleDue z) z
  split
  · next e => rw [e] at h; simp at h; (repeat' split) <;> simp [h]
  · next e => rw [e] at h; simp at h; (repeat' split) <;> simp [h]

@[simp] theorem zoneLit_frame (s : State) (e : Bool) (z : ZoneId) :
    (s.zoneLit e z).store = s.store ∧ (s.zoneLit e z).load = s.load ∧ (s.zoneLit e z).edit = s.edit ∧
    (s.zoneLit e z).units = s.units ∧ (s.zoneLit e z).out = s.out ∧ (s.zoneLit e z).pending = s.pending := by
  unfold State.zoneLit
  (try dsimp only)
  (repeat' split) <;> simp [*]

@[simp] theorem zoneDark_frame (s : State) (z : ZoneId) :
    (s.zoneDark z).store = s.store ∧ (s.zoneDark z).load = s.load ∧ (s.zoneDark z).edit = s.edit ∧
    (s.zoneDark z).units = s.units ∧ (s.zoneDark z).mail = s.mail ∧ (s.zoneDark z).out = s.out ∧
    (s.zoneDark z).pending = s.pending := by
  unfold State.zoneDark
  dsimp only
  split
  · simp
  · have h := skipDue_frame (s.setZone z fun zn => { zn with fetch := none, delivered := 0 }) z
    split
    · next e => rw [e] at h; simp at h; simp [h]
    · next e => rw [e] at h; simp at h; simp [h]

@[simp] theorem modBackground_frame (s : State) (f : Background → Background) :
    (s.modBackground f).ports = s.ports ∧ (s.modBackground f).dir = s.dir ∧
    (s.modBackground f).store = s.store ∧ (s.modBackground f).load = s.load ∧
    (s.modBackground f).edit = s.edit ∧ (s.modBackground f).units = s.units ∧
    (s.modBackground f).mail = s.mail ∧ (s.modBackground f).out = s.out ∧
    (s.modBackground f).pending = s.pending := by
  unfold State.modBackground
  (try dsimp only)
  (repeat' split) <;> simp [*]

@[simp] theorem backgroundLit_frame (s : State) :
    (s.backgroundLit).ports = s.ports ∧ (s.backgroundLit).dir = s.dir ∧ (s.backgroundLit).store = s.store ∧
    (s.backgroundLit).load = s.load ∧ (s.backgroundLit).edit = s.edit ∧ (s.backgroundLit).units = s.units ∧
    (s.backgroundLit).out = s.out ∧ (s.backgroundLit).pending = s.pending := by
  unfold State.backgroundLit State.sendOrders
  dsimp only
  refine ⟨?_, ?_, ?_, ?_, ?_, ?_, ?_, ?_⟩
  · (repeat' split) <;> first
      | (simp; done)
      | exact (foldl_keeps (fun b : State => b.ports) _ (by intro b a; (repeat' split) <;> simp) _ _).trans (by simp)
  · (repeat' split) <;> first
      | (simp; done)
      | exact (foldl_keeps (fun b : State => b.dir) _ (by intro b a; (repeat' split) <;> simp) _ _).trans (by simp)
  · (repeat' split) <;> first
      | (simp; done)
      | exact (foldl_keeps (fun b : State => b.store) _ (by intro b a; (repeat' split) <;> simp) _ _).trans (by simp)
  · (repeat' split) <;> first
      | (simp; done)
      | exact (foldl_keeps (fun b : State => b.load) _ (by intro b a; (repeat' split) <;> simp) _ _).trans (by simp)
  · (repeat' split) <;> first
      | (simp; done)
      | exact (foldl_keeps (fun b : State => b.edit) _ (by intro b a; (repeat' split) <;> simp) _ _).trans (by simp)
  · (repeat' split) <;> first
      | (simp; done)
      | exact (foldl_keeps (fun b : State => b.units) _ (by intro b a; (repeat' split) <;> simp) _ _).trans (by simp)
  · (repeat' split) <;> first
      | (simp; done)
      | exact (foldl_keeps (fun b : State => b.out) _ (by intro b a; (repeat' split) <;> simp) _ _).trans (by simp)
  · (repeat' split) <;> first
      | (simp; done)
      | exact (foldl_keeps (fun b : State => b.pending) _ (by intro b a; (repeat' split) <;> simp) _ _).trans (by simp)

@[simp] theorem unwind_frame (s : State) (z : ZoneId) :
    (s.unwind z).store = s.store ∧ (s.unwind z).load = s.load ∧ (s.unwind z).edit = s.edit ∧
    (s.unwind z).units = s.units ∧ (s.unwind z).mail = s.mail ∧ (s.unwind z).out = s.out ∧
    (s.unwind z).pending = s.pending := by
  unfold State.unwind
  dsimp only
  split
  · simp
  · refine ⟨?_, ?_, ?_, ?_, ?_, ?_, ?_⟩
    · exact (foldl_keeps (fun b : State => b.store) _ (by intro b a; (repeat' split) <;> simp) _ _).trans (by simp)
    · exact (foldl_keeps (fun b : State => b.load) _ (by intro b a; (repeat' split) <;> simp) _ _).trans (by simp)
    · exact (foldl_keeps (fun b : State => b.edit) _ (by intro b a; (repeat' split) <;> simp) _ _).trans (by simp)
    · exact (foldl_keeps (fun b : State => b.units) _ (by intro b a; (repeat' split) <;> simp) _ _).trans (by simp)
    · exact (foldl_keeps (fun b : State => b.mail) _ (by intro b a; (repeat' split) <;> simp) _ _).trans (by simp)
    · exact (foldl_keeps (fun b : State => b.out) _ (by intro b a; (repeat' split) <;> simp) _ _).trans (by simp)
    · exact (foldl_keeps (fun b : State => b.pending) _ (by intro b a; (repeat' split) <;> simp) _ _).trans (by simp)

@[simp] theorem dropArmed_frame (s : State) (z : ZoneId) :
    (s.dropArmed z).store = s.store ∧ (s.dropArmed z).load = s.load ∧ (s.dropArmed z).edit = s.edit ∧
    (s.dropArmed z).units = s.units ∧ (s.dropArmed z).mail = s.mail ∧ (s.dropArmed z).out = s.out ∧
    (s.dropArmed z).pending = s.pending := by
  unfold State.dropArmed
  (try dsimp only)
  (repeat' split) <;> simp [*]

@[simp] theorem dropPending_frame (s : State) (z : ZoneId) :
    (s.dropPending z).dir = s.dir ∧ (s.dropPending z).store = s.store ∧ (s.dropPending z).load = s.load ∧
    (s.dropPending z).edit = s.edit ∧ (s.dropPending z).units = s.units ∧ (s.dropPending z).mail = s.mail ∧
    (s.dropPending z).out = s.out ∧ (s.dropPending z).pending = s.pending := by
  unfold State.dropPending
  (try dsimp only)
  (repeat' split) <;> simp [*]

@[simp] theorem windBack_frame (s : State) (z : ZoneId) :
    (s.windBack z).store = s.store ∧ (s.windBack z).load = s.load ∧ (s.windBack z).edit = s.edit ∧
    (s.windBack z).units = s.units ∧ (s.windBack z).mail = s.mail ∧ (s.windBack z).out = s.out ∧
    (s.windBack z).pending = s.pending := by
  unfold State.windBack
  (try dsimp only)
  (repeat' split) <;> simp [*]

@[simp] theorem abortAll_frame (s : State) :
    (s.abortAll).edit = s.edit ∧ (s.abortAll).scene = s.scene ∧ (s.abortAll).units = s.units ∧
    (s.abortAll).mail = s.mail ∧ (s.abortAll).out = s.out ∧ (s.abortAll).pending = s.pending := by
  unfold State.abortAll
  refine ⟨?_, ?_, ?_, ?_, ?_, ?_⟩
  · exact (foldl_keeps (fun b : State => b.edit) _ (by intro b a; (try dsimp only); (repeat' split) <;> simp) _ _).trans (by simp)
  · exact (foldl_keeps (fun b : State => b.scene) _ (by intro b a; (try dsimp only); (repeat' split) <;> simp) _ _).trans (by simp)
  · exact (foldl_keeps (fun b : State => b.units) _ (by intro b a; (try dsimp only); (repeat' split) <;> simp) _ _).trans (by simp)
  · exact (foldl_keeps (fun b : State => b.mail) _ (by intro b a; (try dsimp only); (repeat' split) <;> simp) _ _).trans (by simp)
  · exact (foldl_keeps (fun b : State => b.out) _ (by intro b a; (try dsimp only); (repeat' split) <;> simp) _ _).trans (by simp)
  · exact (foldl_keeps (fun b : State => b.pending) _ (by intro b a; (try dsimp only); (repeat' split) <;> simp) _ _).trans (by simp)

@[simp] theorem darkEntry_frame (s : State) :
    (s.darkEntry).units = s.units ∧ (s.darkEntry).pending = s.pending := by
  unfold State.darkEntry
  dsimp only
  refine ⟨?_, ?_⟩
  · exact (foldl_keeps (fun b : State => b.units) _ (by intro b a; simp) _ _).trans (by simp only [endEdits_frame, abortAll_frame, modScene_units, modScene_pending, modBackground_frame]; exact (foldl_keeps (fun b : State => b.units) _ (by intro b a; simp) _ _).trans (by simp))
  · exact (foldl_keeps (fun b : State => b.pending) _ (by intro b a; simp) _ _).trans (by simp only [endEdits_frame, abortAll_frame, modScene_units, modScene_pending, modBackground_frame]; exact (foldl_keeps (fun b : State => b.pending) _ (by intro b a; simp) _ _).trans (by simp))

@[simp] theorem wakeEntry_frame (s : State) :
    (s.wakeEntry).dir = s.dir ∧ (s.wakeEntry).load = s.load ∧ (s.wakeEntry).edit = s.edit ∧
    (s.wakeEntry).units = s.units ∧ (s.wakeEntry).mail = s.mail ∧ (s.wakeEntry).out = s.out ∧
    (s.wakeEntry).pending = s.pending := by
  unfold State.wakeEntry
  (try dsimp only)
  (repeat' split) <;> simp [*]

@[simp] theorem takeChange_frame (s : State) :
    (s.takeChange).units = s.units ∧ (s.takeChange).pending = s.pending := by
  unfold State.takeChange
  (try dsimp only)
  (repeat' split) <;> simp [*]

@[simp] theorem examine_frame (s : State) (p : Port) (i : Instr) :
    (s.examine p i).dir = s.dir ∧ (s.examine p i).store = s.store ∧ (s.examine p i).load = s.load ∧
    (s.examine p i).edit = s.edit ∧ (s.examine p i).scene = s.scene ∧ (s.examine p i).units = s.units ∧
    (s.examine p i).mail = s.mail ∧ (s.examine p i).pending = s.pending := by
  unfold State.examine
  split
  · simp [answerBadRequest]
  · simp [getEvents]
  · unfold setEventMask State.checked
    split <;> simp
  · split
    · split <;> simp
    · simp

@[simp] theorem examineAll_frame (p : Port) (is : List Instr) (s : State) :
    (State.examineAll p is s).dir = s.dir ∧ (State.examineAll p is s).store = s.store ∧ (State.examineAll p is s).load = s.load ∧
    (State.examineAll p is s).edit = s.edit ∧ (State.examineAll p is s).scene = s.scene ∧ (State.examineAll p is s).units = s.units ∧
    (State.examineAll p is s).mail = s.mail ∧ (State.examineAll p is s).pending = s.pending := by
  induction is generalizing s with
  | nil => simp [State.examineAll]
  | cons i rest ih =>
    have h := examine_frame s p i
    unfold State.examineAll
    dsimp only
    split
    · simp [h]
    · have := ih (s.examine p i)
      simp only [h] at this
      exact this

@[simp] theorem goOn_frame (s : State) (p : Port) :
    (s.goOn p).dir = s.dir ∧ (s.goOn p).store = s.store ∧ (s.goOn p).load = s.load ∧
    (s.goOn p).edit = s.edit ∧ (s.goOn p).scene = s.scene ∧ (s.goOn p).units = s.units ∧
    (s.goOn p).mail = s.mail ∧ (s.goOn p).pending = s.pending := by
  unfold State.goOn
  split
  · simp
  · exact examineAll_frame p s.ports[p].waiting s

@[simp] theorem goOnAll_frame (s : State) :
    (s.goOnAll).dir = s.dir ∧ (s.goOnAll).store = s.store ∧ (s.goOnAll).load = s.load ∧
    (s.goOnAll).edit = s.edit ∧ (s.goOnAll).scene = s.scene ∧ (s.goOnAll).units = s.units ∧
    (s.goOnAll).mail = s.mail ∧ (s.goOnAll).pending = s.pending := by
  unfold State.goOnAll
  refine ⟨?_, ?_, ?_, ?_, ?_, ?_, ?_, ?_⟩
  · exact (foldl_keeps (fun b : State => b.dir) _ (by intro b a; (try dsimp only); (repeat' split) <;> simp) _ _).trans (by simp)
  · exact (foldl_keeps (fun b : State => b.store) _ (by intro b a; (try dsimp only); (repeat' split) <;> simp) _ _).trans (by simp)
  · exact (foldl_keeps (fun b : State => b.load) _ (by intro b a; (try dsimp only); (repeat' split) <;> simp) _ _).trans (by simp)
  · exact (foldl_keeps (fun b : State => b.edit) _ (by intro b a; (try dsimp only); (repeat' split) <;> simp) _ _).trans (by simp)
  · exact (foldl_keeps (fun b : State => b.scene) _ (by intro b a; (try dsimp only); (repeat' split) <;> simp) _ _).trans (by simp)
  · exact (foldl_keeps (fun b : State => b.units) _ (by intro b a; (try dsimp only); (repeat' split) <;> simp) _ _).trans (by simp)
  · exact (foldl_keeps (fun b : State => b.mail) _ (by intro b a; (try dsimp only); (repeat' split) <;> simp) _ _).trans (by simp)
  · exact (foldl_keeps (fun b : State => b.pending) _ (by intro b a; (try dsimp only); (repeat' split) <;> simp) _ _).trans (by simp)

@[simp] theorem cancelTransit_frame (s : State) (p : Port) :
    (s.cancelTransit p).ports = s.ports ∧ (s.cancelTransit p).dir = s.dir ∧
    (s.cancelTransit p).store = s.store ∧ (s.cancelTransit p).load = s.load ∧
    (s.cancelTransit p).edit = s.edit ∧ (s.cancelTransit p).scene = s.scene ∧
    (s.cancelTransit p).units = s.units ∧ (s.cancelTransit p).mail = s.mail ∧
    (s.cancelTransit p).pending = s.pending := by
  unfold State.cancelTransit
  (try dsimp only)
  (repeat' split) <;> simp [*]

@[simp] theorem releaseZonesOf_frame (s : State) (p : Port) :
    (s.releaseZonesOf p).ports = s.ports ∧ (s.releaseZonesOf p).store = s.store ∧
    (s.releaseZonesOf p).load = s.load ∧ (s.releaseZonesOf p).edit = s.edit ∧
    (s.releaseZonesOf p).units = s.units ∧ (s.releaseZonesOf p).mail = s.mail ∧
    (s.releaseZonesOf p).out = s.out ∧ (s.releaseZonesOf p).pending = s.pending := by
  unfold State.releaseZonesOf
  refine ⟨?_, ?_, ?_, ?_, ?_, ?_, ?_, ?_⟩
  · exact (foldl_keeps (fun b : State => b.ports) _ (by intro b a; (try dsimp only); (repeat' split) <;> simp) _ _).trans (by simp)
  · exact (foldl_keeps (fun b : State => b.store) _ (by intro b a; (try dsimp only); (repeat' split) <;> simp) _ _).trans (by simp)
  · exact (foldl_keeps (fun b : State => b.load) _ (by intro b a; (try dsimp only); (repeat' split) <;> simp) _ _).trans (by simp)
  · exact (foldl_keeps (fun b : State => b.edit) _ (by intro b a; (try dsimp only); (repeat' split) <;> simp) _ _).trans (by simp)
  · exact (foldl_keeps (fun b : State => b.units) _ (by intro b a; (try dsimp only); (repeat' split) <;> simp) _ _).trans (by simp)
  · exact (foldl_keeps (fun b : State => b.mail) _ (by intro b a; (try dsimp only); (repeat' split) <;> simp) _ _).trans (by simp)
  · exact (foldl_keeps (fun b : State => b.out) _ (by intro b a; (try dsimp only); (repeat' split) <;> simp) _ _).trans (by simp)
  · exact (foldl_keeps (fun b : State => b.pending) _ (by intro b a; (try dsimp only); (repeat' split) <;> simp) _ _).trans (by simp)

@[simp] theorem abortLoadsOf_frame (s : State) (p : Port) :
    (s.abortLoadsOf p).ports = s.ports ∧ (s.abortLoadsOf p).edit = s.edit ∧
    (s.abortLoadsOf p).scene = s.scene ∧ (s.abortLoadsOf p).units = s.units ∧
    (s.abortLoadsOf p).mail = s.mail ∧ (s.abortLoadsOf p).out = s.out ∧
    (s.abortLoadsOf p).pending = s.pending := by
  unfold State.abortLoadsOf
  refine ⟨?_, ?_, ?_, ?_, ?_, ?_, ?_⟩
  · exact (foldl_keeps (fun b : State => b.ports) _ (by intro b a; (try dsimp only); (repeat' split) <;> simp) _ _).trans (by simp)
  · exact (foldl_keeps (fun b : State => b.edit) _ (by intro b a; (try dsimp only); (repeat' split) <;> simp) _ _).trans (by simp)
  · exact (foldl_keeps (fun b : State => b.scene) _ (by intro b a; (try dsimp only); (repeat' split) <;> simp) _ _).trans (by simp)
  · exact (foldl_keeps (fun b : State => b.units) _ (by intro b a; (try dsimp only); (repeat' split) <;> simp) _ _).trans (by simp)
  · exact (foldl_keeps (fun b : State => b.mail) _ (by intro b a; (try dsimp only); (repeat' split) <;> simp) _ _).trans (by simp)
  · exact (foldl_keeps (fun b : State => b.out) _ (by intro b a; (try dsimp only); (repeat' split) <;> simp) _ _).trans (by simp)
  · exact (foldl_keeps (fun b : State => b.pending) _ (by intro b a; (try dsimp only); (repeat' split) <;> simp) _ _).trans (by simp)

@[simp] theorem removeEditOf_frame (s : State) (p : Port) :
    (s.removeEditOf p).ports = s.ports ∧ (s.removeEditOf p).load = s.load ∧
    (s.removeEditOf p).units = s.units ∧ (s.removeEditOf p).out = s.out ∧
    (s.removeEditOf p).pending = s.pending := by
  unfold State.removeEditOf
  (try dsimp only)
  (repeat' split) <;> simp [*]

end Sys2Proof.Machine
end

