-- ==== Sys2Proof/Laws/Arbiter.lean ====
section
/-! SUPPORT. The arbiter: a grant changes the running transfer, the waiting requests, the pointers and the power state
of the store, and nothing else of it. -/

namespace Sys2Proof.Machine

/-- What no grant and no request changes of a store. -/
def Store.kept (a b : Store) : Prop :=
  b.mem = a.mem ∧ b.errors = a.errors ∧ b.debt = a.debt ∧ b.refreshed = a.refreshed ∧ b.scrub = a.scrub ∧
    b.corrected = a.corrected ∧ b.record = a.record ∧ b.entryKept = a.entryKept

/-- A store keeps itself. -/
theorem Store.kept_refl (a : Store) : a.kept a := ⟨rfl, rfl, rfl, rfl, rfl, rfl, rfl, rfl⟩

/-- Keeping is passed on. -/
theorem Store.kept_trans {a b c : Store} (h : a.kept b) (k : b.kept c) : a.kept c := by
  obtain ⟨h1, h2, h3, h4, h5, h6, h7, h8⟩ := h
  obtain ⟨k1, k2, k3, k4, k5, k6, k7, k8⟩ := k
  exact ⟨k1.trans h1, k2.trans h2, k3.trans h3, k4.trans h4, k5.trans h5, k6.trans h6, k7.trans h7, k8.trans h8⟩

/-- Each single grant. -/
theorem grantRefresh_kept (s : State) : s.store.kept s.grantRefresh.store := Store.kept_refl _

/-- A grant of SCAN. -/
theorem grantScan_kept (s : State) (t : Tile) : s.store.kept (s.grantScan t).store := by
  unfold State.grantScan
  dsimp only
  split <;> exact Store.kept_refl _

/-- A grant of LOAD. -/
theorem grantLoad_kept (s : State) (c : ChanId) : s.store.kept (s.grantLoad c).store := by
  unfold State.grantLoad
  dsimp only
  (repeat' split) <;> exact Store.kept_refl _

/-- A grant of SCRUB. -/
theorem grantScrub_kept (s : State) : s.store.kept s.grantScrub.store := by
  unfold State.grantScrub
  dsimp only
  split <;> exact Store.kept_refl _

/-- A grant of EDIT. -/
theorem grantEdit_kept (s : State) : s.store.kept s.grantEdit.store := by
  unfold State.grantEdit
  dsimp only
  (repeat' split) <;> exact Store.kept_refl _

/-- Entry to self-refresh. -/
theorem enterSelfRefresh_kept (s : State) : s.store.kept s.enterSelfRefresh.store := Store.kept_refl _

/-- The grant order of an AWAKE store. -/
theorem grantAwake_kept (s : State) : s.store.kept s.grantAwake.store := by
  unfold State.grantAwake
  (repeat' split) <;> first
    | exact Store.kept_refl _
    | exact grantScan_kept _ _
    | exact grantLoad_kept _ _
    | exact grantScrub_kept _
    | exact grantEdit_kept _

/-- A grant. -/
theorem grant_kept (s : State) : s.store.kept s.grant.store := by
  unfold State.grant
  (repeat' split) <;> first
    | exact Store.kept_refl _
    | exact grantAwake_kept _

/-- While a transfer has the bus nothing is granted. -/
theorem grant_busy {s : State} (h : s.store.running ≠ none) : s.grant = s := by
  unfold State.grant
  rw [if_pos (Option.isSome_iff_ne_none.2 h)]

/-- The bus falls free. -/
theorem freeBus_kept (s : State) : s.store.kept s.freeBus.store :=
  Store.kept_trans (Store.kept_refl s.store) (grant_kept _)

/-- A running transfer is marked. -/
theorem discardRunning_kept (s : State) (k : TransferJob → Bool) : s.store.kept (s.discardRunning k).store := by
  unfold State.discardRunning
  split <;> exact Store.kept_refl _

/-- A request of a unit. -/
theorem requestScan_kept (s : State) (t : Tile) : s.store.kept (s.requestScan t).store :=
  Store.kept_trans (Store.kept_refl s.store) (grant_kept _)

/-- A request of a channel. -/
theorem requestLoad_kept (s : State) (c : ChanId) : s.store.kept (s.requestLoad c).store := by
  unfold State.requestLoad
  (repeat' split) <;> first
    | exact Store.kept_refl _
    | exact Store.kept_trans (Store.kept_refl s.store) (grant_kept _)

/-- A request of the edit unit. -/
theorem requestEdit_kept (s : State) : s.store.kept s.requestEdit.store := by
  unfold State.requestEdit
  split
  · exact Store.kept_refl _
  · exact Store.kept_trans (Store.kept_refl s.store) (grant_kept _)

/-- A request of the scrub queue. -/
theorem requestScrub_kept (s : State) : s.store.kept s.requestScrub.store := by
  unfold State.requestScrub
  split
  · exact Store.kept_refl _
  · exact Store.kept_trans (Store.kept_refl s.store) (grant_kept _)

end Sys2Proof.Machine
end

