-- ==== Sys2Proof/Laws/Bits.lean ====
section
/-! SUPPORT. The members of a set held as bits. -/

namespace Sys2Proof.Machine

/-- The members of a set with one more. -/
theorem getLsbD_insertBit {n : Nat} (b : BitVec n) (i j : Nat) (hj : j < n) :
    (insertBit b i).getLsbD j = (b.getLsbD j || decide (i = j)) := by
  simp [insertBit, hj, eq_comm]

/-- The members of a set with one fewer. -/
theorem getLsbD_eraseBit {n : Nat} (b : BitVec n) (i j : Nat) (hj : j < n) :
    (eraseBit b i).getLsbD j = (b.getLsbD j && !decide (i = j)) := by
  simp [eraseBit, hj, eq_comm]

end Sys2Proof.Machine
end

