-- ==== Sys2Proof/Laws/Memory.lean ====
section
/-! SUPPORT. The frame store's memory: its canonical form is kept by every operation, and what a read gives after
a write. -/

namespace Sys2Proof.Machine

/-! ## Lists by address -/

section Sparse
variable {α : Type} [DecidableEq α] {d : α}

/-- A list in canonical form from an address on is so from any lower one. -/
theorem sparseWfFrom_mono {lo lo' : Nat} {m : List (Nat × α)} (h : lo' ≤ lo)
    (w : sparseWfFrom d lo m = true) : sparseWfFrom d lo' m = true := by
  cases m with
  | nil => rfl
  | cons p m =>
    simp only [sparseWfFrom, Bool.and_eq_true, decide_eq_true_eq] at w ⊢
    exact ⟨⟨le_trans h w.1.1, w.1.2⟩, w.2⟩

/-- An address below every listed one reads as unlisted. -/
theorem sparseGet_below {lo a : Nat} {m : List (Nat × α)} (w : sparseWfFrom d lo m = true) (h : a < lo) :
    sparseGet d m a = d := by
  induction m generalizing lo with
  | nil => rfl
  | cons p m ih =>
    simp only [sparseWfFrom, Bool.and_eq_true, decide_eq_true_eq] at w
    have : a ≠ p.1 := by omega
    simp only [sparseGet, this, if_false]
    exact ih w.2 (by omega)

/-- A put keeps the canonical form. -/
theorem sparsePut_wfFrom {lo a : Nat} {v : α} {m : List (Nat × α)} (w : sparseWfFrom d lo m = true) (h : lo ≤ a) :
    sparseWfFrom d lo (sparsePut d m a v) = true := by
  induction m generalizing lo with
  | nil =>
    simp only [sparsePut]
    split <;> simp [sparseWfFrom, *]
  | cons p m ih =>
    have w' := w
    simp only [sparseWfFrom, Bool.and_eq_true, decide_eq_true_eq] at w'
    simp only [sparsePut]
    split
    · split
      · exact w
      · simp only [sparseWfFrom, Bool.and_eq_true, decide_eq_true_eq]
        exact ⟨⟨h, by assumption⟩, ⟨by omega, w'.1.2⟩, w'.2⟩
    · split
      · split
        · exact sparseWfFrom_mono (by omega) w'.2
        · simp only [sparseWfFrom, Bool.and_eq_true, decide_eq_true_eq]
          refine ⟨⟨h, by assumption⟩, ?_⟩
          have : a = p.1 := by assumption
          rw [this]; exact w'.2
      · simp only [sparseWfFrom, Bool.and_eq_true, decide_eq_true_eq]
        exact ⟨w'.1, ih w'.2 (by omega)⟩

/-- What a put leaves at each address. -/
theorem sparseGet_putFrom {lo a x : Nat} {v : α} {m : List (Nat × α)} (w : sparseWfFrom d lo m = true) :
    sparseGet d (sparsePut d m a v) x = if x = a then v else sparseGet d m x := by
  induction m generalizing lo with
  | nil =>
    simp only [sparsePut]
    split
    · next h => subst h; simp [sparseGet]
    · simp [sparseGet]
  | cons p m ih =>
    have w' := w
    simp only [sparseWfFrom, Bool.and_eq_true, decide_eq_true_eq] at w'
    simp only [sparsePut]
    split
    · next hlt =>
      split
      · next hv =>
        split
        · next hx =>
          subst hx; rw [hv, sparseGet, if_neg (by omega)]
          exact sparseGet_below w'.2 (by omega)
        · rfl
      · simp only [sparseGet]
    · split
      · next hge heq =>
        split
        · next hv =>
          split
          · next hx => rw [hx, heq, hv]; exact sparseGet_below w'.2 (by omega)
          · next hx => rw [sparseGet, if_neg (by omega)]
        · simp only [sparseGet]
          split
          · rfl
          · rw [if_neg (by omega)]
      · next hge hne =>
        simp only [sparseGet]
        split
        · next hx => rw [if_neg (by omega)]
        · exact ih w'.2

end Sparse

/-! ## Memory -/

/-- A write keeps the canonical form. -/
theorem write_wf {m : Memory} (w : m.wf = true) (a : Nat) (b : Byte) : (Memory.write m a b).wf = true :=
  sparsePut_wfFrom w (Nat.zero_le a)

/-- A read after a write. -/
theorem read_write {m : Memory} (w : m.wf = true) (a x : Nat) (b : Byte) :
    (Memory.write m a b).read x = if x = a then b else m.read x := sparseGet_putFrom w

/-- A write of several bytes keeps the canonical form. -/
theorem writeBytes_wf {m : Memory} (w : m.wf = true) (a : Nat) (bs : List Byte) :
    (m.writeBytes a bs).wf = true := by
  induction bs generalizing m a with
  | nil => exact w
  | cons b bs ih => exact ih (write_wf w a b) (a + 1)

/-- A read outside the bytes written. -/
theorem read_writeBytes_outside {m : Memory} (w : m.wf = true) (a x : Nat) (bs : List Byte)
    (h : x < a ∨ a + bs.length ≤ x) : (m.writeBytes a bs).read x = m.read x := by
  induction bs generalizing m a with
  | nil => rfl
  | cons b bs ih =>
    simp only [List.length_cons] at h
    rw [Memory.writeBytes, ih (write_wf w a b) (a + 1) (by omega), read_write w, if_neg (by omega)]

/-- A read of one of the bytes written. -/
theorem read_writeBytes_inside {m : Memory} (w : m.wf = true) (a k : Nat) (bs : List Byte) (h : k < bs.length) :
    (m.writeBytes a bs).read (a + k) = bs[k] := by
  induction bs generalizing m a k with
  | nil => simp at h
  | cons b bs ih =>
    rw [Memory.writeBytes]
    cases k with
    | zero =>
      rw [read_writeBytes_outside (write_wf w a b) (a + 1) (a + 0) bs (by omega), read_write w]
      simp
    | succ k =>
      have := ih (write_wf w a b) (a + 1) k (by simpa using h)
      simpa [Nat.add_assoc, Nat.add_comm 1 k] using this

/-- The number of bytes read. -/
@[simp] theorem length_readBytes (m : Memory) (a k : Nat) : (m.readBytes a k).length = k := by
  induction k generalizing a with
  | zero => rfl
  | succ k ih => simp [Memory.readBytes, ih]

/-- Memories that agree on some bytes read them alike. -/
theorem readBytes_congr {m m' : Memory} (a k : Nat) (h : ∀ x, a ≤ x → x < a + k → m.read x = m'.read x) :
    m.readBytes a k = m'.readBytes a k := by
  induction k generalizing a with
  | zero => rfl
  | succ k ih =>
    rw [Memory.readBytes, Memory.readBytes, h a (by omega) (by omega)]
    rw [ih (a + 1) fun x h1 h2 => h x (by omega) (by omega)]

/-- The bytes just written read back. -/
theorem readBytes_writeBytes {m : Memory} (w : m.wf = true) (a : Nat) (bs : List Byte) :
    (m.writeBytes a bs).readBytes a bs.length = bs := by
  induction bs generalizing m a with
  | nil => rfl
  | cons b bs ih =>
    rw [Memory.writeBytes, List.length_cons, Memory.readBytes, ih (write_wf w a b) (a + 1)]
    rw [read_writeBytes_outside (write_wf w a b) (a + 1) a bs (by omega), read_write w, if_pos rfl]

/-! ## Numbers as bytes -/

/-- The bytes of a number are as many as asked. -/
@[simp] theorem length_leBytes (k n : Nat) : (leBytes k n).length = k := by
  induction k generalizing n with
  | zero => rfl
  | succ k ih => simp [leBytes, ih]

/-- Bytes spell the number they came from, modulo their width. -/
theorem leNat_leBytes (k n : Nat) : leNat (leBytes k n) = n % 256 ^ k := by
  induction k generalizing n with
  | zero => simp [leNat, leBytes, Nat.mod_one]
  | succ k ih =>
    rw [leBytes, leNat, ih, BitVec.toNat_ofNat, show (256 : Nat) ^ (k + 1) = 256 * 256 ^ k from Nat.pow_succ',
      Nat.mod_mul (a := 256)]

/-- The number that bytes spell is below their range. -/
theorem leNat_lt (bs : List Byte) : leNat bs < 256 ^ bs.length := by
  induction bs with
  | nil => simp [leNat]
  | cons b bs ih =>
    have hb : b.toNat < 256 := b.isLt
    rw [leNat, List.length_cons, Nat.pow_succ]
    omega

/-- A number's bytes are those it is spelled from. -/
theorem leBytes_leNat (bs : List Byte) : leBytes bs.length (leNat bs) = bs := by
  induction bs with
  | nil => rfl
  | cons b bs ih =>
    have hb : b.toNat < 256 := b.isLt
    have h1 : (b.toNat + 256 * leNat bs) / 256 = leNat bs := by omega
    have h2 : BitVec.ofNat 8 (b.toNat + 256 * leNat bs) = b := by
      apply BitVec.eq_of_toNat_eq
      rw [BitVec.toNat_ofNat]
      omega
    rw [List.length_cons, leNat, leBytes, h1, h2, ih]

/-! ## Words -/

/-- The first byte of a word of a line lies 8 bytes after that of the word before it. -/
theorem byteAddr_word (slot line word : Nat) : byteAddr slot line word = byteAddr slot line 0 + 8 * word := by
  simp only [byteAddr, place]; omega

/-- The addresses of words are multiples of 8. -/
theorem byteAddr_eq (slot line word : Nat) : byteAddr slot line word = 8 * wordNumber slot line word := by
  simp only [wordNumber, byteAddr, place]; omega

/-- A number is told by its quotient and rest. -/
theorem split_unique {a a' b b' k : Nat} (hb : b < k) (hb' : b' < k) (h : a * k + b = a' * k + b') :
    a = a' ∧ b = b' := by
  have h1 : (a * k + b) / k = a := by
    rw [Nat.add_comm, Nat.add_mul_div_right _ _ (by omega), Nat.div_eq_of_lt hb, Nat.zero_add]
  have h2 : (a' * k + b') / k = a' := by
    rw [Nat.add_comm, Nat.add_mul_div_right _ _ (by omega), Nat.div_eq_of_lt hb', Nat.zero_add]
  have e : a = a' := by rw [← h1, ← h2, h]
  subst e
  exact ⟨rfl, by omega⟩

/-- Different words of the frame store have different places (R25). -/
theorem wordNumber_inj {s l w s' l' w' : Nat} (hl : l < 256) (hw : w < 256) (hl' : l' < 256) (hw' : w' < 256)
    (hs : s < 2048) (hs' : s' < 2048) (h : wordNumber s l w = wordNumber s' l' w') : s = s' ∧ l = l' ∧ w = w' := by
  have e : byteAddr s l w = byteAddr s' l' w' := by rw [byteAddr_eq, byteAddr_eq, h]
  simp only [byteAddr, place] at e
  have a1 : l = 4 * (8 * (l / 4 / 8) + l / 4 % 8) + l % 4 := by omega
  have a2 : l' = 4 * (8 * (l' / 4 / 8) + l' / 4 % 8) + l' % 4 := by omega
  have b1 : l / 4 / 8 < 8 := by omega
  have b2 : l' / 4 / 8 < 8 := by omega
  have c1 : l / 4 % 8 < 8 := by omega
  have c2 : l' / 4 % 8 < 8 := by omega
  have d1 : l % 4 < 4 := by omega
  have d2 : l' % 4 < 4 := by omega
  have e1 := split_unique (by omega) (by omega) e
  have e2 := split_unique (k := 16384) (by omega) (by omega) e1.1
  omega

/-- Putting data bits keeps the canonical form of the bytes. -/
theorem putRaw_wf {st : Store} (w : st.mem.wf = true) (slot line word : Nat) (v : Word) :
    (st.putRaw slot line word v).mem.wf = true := writeBytes_wf w _ _

/-- Both canonical forms of the store. -/
def Store.wf (st : Store) : Prop := st.mem.wf = true ∧ sparseWf 0 st.errors = true

/-- Writing a word keeps the canonical forms. -/
theorem writeWord_wf {st : Store} (w : st.wf) (slot line word : Nat) (v : Word) :
    (st.writeWord slot line word v).wf :=
  ⟨putRaw_wf w.1 slot line word v, sparsePut_wfFrom w.2 (Nat.zero_le _)⟩

/-- Bit errors in a word keep the canonical forms. -/
theorem disturbWord_wf {st : Store} (w : st.wf) (slot line word : Nat) (e : ErrorMask) :
    (st.disturbWord slot line word e).wf :=
  ⟨putRaw_wf w.1 slot line word _, sparsePut_wfFrom w.2 (Nat.zero_le _)⟩

/-- Bit errors in a line keep the canonical forms. -/
theorem disturb_wf {st : Store} (w : st.wf) (slot line : Nat) (es : BitErrors) : (st.disturb slot line es).wf := by
  induction es generalizing st with
  | nil => exact w
  | cons e es ih =>
    obtain ⟨n, m⟩ := e
    rw [Store.disturb]
    split
    · exact ih (disturbWord_wf w slot line n m)
    · exact ih w

/-- Bit errors change the bytes and the record of bits in error, and nothing else of the store. -/
theorem disturb_frame (st : Store) (slot line : Nat) (es : BitErrors) :
    st.disturb slot line es =
      { st with mem := (st.disturb slot line es).mem, errors := (st.disturb slot line es).errors } := by
  induction es generalizing st with
  | nil => rfl
  | cons e es ih =>
    obtain ⟨n, m⟩ := e
    rw [Store.disturb]
    split
    · exact ih (st.disturbWord slot line n m)
    · exact ih st

/-- The running transfer is as it was. -/
@[simp] theorem disturb_running (st : Store) (slot line : Nat) (es : BitErrors) :
    (st.disturb slot line es).running = st.running := by rw [disturb_frame]

@[simp] theorem disturb_nil (st : Store) (slot line : Nat) : st.disturb slot line [] = st := rfl

/-- Writing words keeps the canonical forms. -/
theorem writeWords_wf {st : Store} (w : st.wf) (slot line word : Nat) (ws : List Word) :
    (st.writeWords slot line word ws).wf := by
  induction ws generalizing st word with
  | nil => exact w
  | cons v ws ih => exact ih (writeWord_wf w slot line word v) (word + 1)

/-- What a written word changes: nothing but the bytes and the errors. -/
theorem writeWord_other (st : Store) (slot line word : Nat) (v : Word) :
    st.writeWord slot line word v =
      { st with mem := (st.writeWord slot line word v).mem, errors := (st.writeWord slot line word v).errors } := rfl

/-- A byte outside a written word reads as before. -/
theorem writeWord_read_outside {st : Store} (w : st.wf) (slot line word x : Nat) (v : Word)
    (h : x < byteAddr slot line word ∨ byteAddr slot line word + 8 ≤ x) :
    (st.writeWord slot line word v).mem.read x = st.mem.read x :=
  read_writeBytes_outside w.1 _ _ _ (by simpa using h)

/-- A byte outside a written run of words reads as before. -/
theorem writeWords_read_outside {st : Store} (w : st.wf) (slot line word x : Nat) (ws : List Word)
    (h : x < byteAddr slot line word ∨ byteAddr slot line word + 8 * ws.length ≤ x) :
    (st.writeWords slot line word ws).mem.read x = st.mem.read x := by
  induction ws generalizing st word with
  | nil => rfl
  | cons v ws ih =>
    have e : byteAddr slot line (word + 1) = byteAddr slot line word + 8 := by
      rw [byteAddr_word slot line (word + 1), byteAddr_word slot line word]; omega
    rw [Store.writeWords, ih (writeWord_wf w slot line word v) (word + 1) (by simp only [List.length_cons] at h; omega)]
    exact writeWord_read_outside w slot line word x v (by simp only [List.length_cons] at h; omega)

/-- A word just written reads back as written. -/
theorem rawWord_writeWord {st : Store} (w : st.wf) (slot line word : Nat) (v : Word) :
    (st.writeWord slot line word v).rawWord slot line word = v := by
  unfold Store.rawWord
  have h : (st.writeWord slot line word v).mem.readBytes (byteAddr slot line word) 8 = leBytes 8 v.toNat := by
    have := readBytes_writeBytes w.1 (byteAddr slot line word) (leBytes 8 v.toNat)
    rw [length_leBytes] at this
    exact this
  rw [h, leNat_leBytes]
  apply BitVec.eq_of_toNat_eq
  rw [BitVec.toNat_ofNat]
  have := v.isLt
  omega

/-- A word just written has no bit in error (R26). -/
theorem errorOf_writeWord {st : Store} (w : st.wf) (slot line word : Nat) (v : Word) :
    (st.writeWord slot line word v).errorOf slot line word = 0 := by
  have h := sparseGet_putFrom (d := (0 : ErrorMask)) (a := wordNumber slot line word) (v := 0)
    (x := wordNumber slot line word) (lo := 0) w.2
  rw [if_pos rfl] at h
  exact h

/-- A word just written reads CLEAN (R26, R35). -/
theorem readWord_writeWord {st : Store} (w : st.wf) (slot line word : Nat) (v : Word) :
    (st.writeWord slot line word v).readWord slot line word = { cls := .clean, data := v } := by
  rw [Store.readWord, rawWord_writeWord w, errorOf_writeWord w]
  rfl

/-! ## Other words than the one written -/

/-- The bits in error of another word are kept by a write (R36, R38). -/
theorem writeWord_errors_outside {st : Store} (w : st.wf) (slot line word k : Nat) (v : Word)
    (h : k ≠ wordNumber slot line word) :
    sparseGet (0 : ErrorMask) (st.writeWord slot line word v).errors k = sparseGet 0 st.errors k := by
  have e := sparseGet_putFrom (d := (0 : ErrorMask)) (a := wordNumber slot line word) (v := 0) (x := k) (lo := 0) w.2
  rw [if_neg h] at e
  exact e

/-- The numbers of the words of a line follow one another. -/
theorem wordNumber_succ (slot line word : Nat) : wordNumber slot line (word + 1) = wordNumber slot line word + 1 := by
  have h := byteAddr_word slot line word
  have h' := byteAddr_word slot line (word + 1)
  have e := byteAddr_eq slot line word
  have e' := byteAddr_eq slot line (word + 1)
  omega

/-- The bits in error of a word outside a written run of words are kept (R36, R38). -/
theorem writeWords_errors_outside {st : Store} (w : st.wf) (slot line word k : Nat) (ws : List Word)
    (h : k < wordNumber slot line word ∨ wordNumber slot line word + ws.length ≤ k) :
    sparseGet (0 : ErrorMask) (st.writeWords slot line word ws).errors k = sparseGet 0 st.errors k := by
  induction ws generalizing st word with
  | nil => rfl
  | cons v ws ih =>
    rw [List.length_cons] at h
    rw [Store.writeWords, ih (writeWord_wf w slot line word v) (word + 1) (by rw [wordNumber_succ]; omega)]
    exact writeWord_errors_outside w slot line word k v (by omega)

/-- Stores that agree on a word's bytes and bits in error read it alike. -/
theorem readWord_congr {st st' : Store} (slot line word : Nat)
    (hm : ∀ x, byteAddr slot line word ≤ x → x < byteAddr slot line word + 8 → st.mem.read x = st'.mem.read x)
    (he : st.errorOf slot line word = st'.errorOf slot line word) :
    st.readWord slot line word = st'.readWord slot line word := by
  unfold Store.readWord Store.rawWord
  rw [readBytes_congr _ 8 hm, he]

/-- Any word but the one written reads as before. -/
theorem readWord_writeWord_other {st : Store} (w : st.wf) (slot line word a b c : Nat) (v : Word)
    (h : wordNumber a b c ≠ wordNumber slot line word) :
    (st.writeWord slot line word v).readWord a b c = st.readWord a b c := by
  have e := byteAddr_eq slot line word
  have e' := byteAddr_eq a b c
  exact readWord_congr a b c (fun x h1 h2 => writeWord_read_outside w slot line word x v (by omega))
    (writeWord_errors_outside w slot line word _ v h)

end Sys2Proof.Machine
end

