-- ==== Sys2Proof/Laws/Completions.lean ====
section
/-! SUPPORT. Completions that bring new bit errors: each is the completion without them, in the state that the errors
have come into (log entry 2). -/

namespace Sys2Proof.Machine

/-- SCAN_COMPLETE of a transfer whose outcome counts. -/
theorem scanComplete_errors {s : State} {t : Tile} {slot line : Nat} {d : Bool} (es : BitErrors)
    (h : s.store.running = some { job := .scan t slot line, discard := d, dropped := false }) :
    exec (.scanComplete es) s = exec (.scanComplete []) { s with store := s.store.disturb slot line es } := by
  simp [exec, execScanComplete, scanComplete, h, State.modStore]

/-- PATCH_EDIT_COMPLETE of a transfer whose outcome counts. -/
theorem patchEditComplete_errors {s : State} {p : Port} {slot line first : Nat} {plane stipple : BitVec 32}
    {ws : List Word} {d : Bool} (es : BitErrors)
    (h : s.store.running =
      some { job := .patch p slot line first plane stipple ws, discard := d, dropped := false }) :
    exec (.patchEditComplete es) s =
      exec (.patchEditComplete []) { s with store := s.store.disturb slot line es } := by
  simp [exec, execPatchEditComplete, patchEditComplete, h, State.modStore]

/-- COPY_LINE_COMPLETE of a line of a slot, whose outcome counts. -/
theorem copyLineComplete_errors {s : State} {p : Port} {n dest line : Nat} {d : Bool} (es : BitErrors)
    (h : s.store.running = some { job := .copy p (.slot n) dest line, discard := d, dropped := false }) :
    exec (.copyLineComplete es) s = exec (.copyLineComplete []) { s with store := s.store.disturb n line es } := by
  simp [exec, execCopyLineComplete, copyLineComplete, h, State.modStore]

/-- COPY_LINE_COMPLETE of a line of a pattern page, which reads nothing. -/
theorem copyLineComplete_pattern {s : State} {p : Port} {q : PatternId} {dest line : Nat} {d : Bool} (es : BitErrors)
    (h : s.store.running = some { job := .copy p (.pattern q) dest line, discard := d, dropped := false }) :
    exec (.copyLineComplete es) s = exec (.copyLineComplete []) s := by
  simp [exec, execCopyLineComplete, copyLineComplete, h]

end Sys2Proof.Machine
end

