-- ==== Sys2Proof/Laws/Serve.lean ====
section
/-! SUPPORT. The course of a request: what `serve` answers in each stage, what `checked` answers, and the replies of a
request that has reached its block. -/

namespace Sys2Proof.Machine

/-! ### A request that reaches its block -/

/-- The state in which a request is taken is gone on from only where it was in transit. -/
theorem onward_of_not_take {s : State} {h : Hdr} (hn : h.stage ≠ .take) : s.onward h = s := by
  unfold State.onward
  rw [if_neg hn]

/-- A request that was in transit is gone on from at its port. -/
theorem onward_of_take {s : State} {h : Hdr} (hk : h.stage = .take) : s.onward h = s.goOn h.port := by
  unfold State.onward
  rw [if_pos hk]

/-- The state with the reply sent, before the port goes on. -/
def State.told (s : State) (h : Hdr) (code : Byte) (st : Status) (b : Body := .none) : State :=
  { s with out := s.out ++ [.reply h.port { code := code, tag := h.tag, status := st, body := b }] }

/-- A reply at a port that is UP. -/
theorem reply_told {s : State} {h : Hdr} {code : Byte} {st : Status} {b : Body} (hu : s.ports[h.port].up = true) :
    s.reply { port := h.port, tag := h.tag, code := code } st b = s.told h code st b := by
  unfold State.reply State.told State.send
  simp only [hu]
  rfl

/-- A reply at a port that is UP, and the port gone on. -/
theorem reply_answered {s : State} {h : Hdr} {code : Byte} {st : Status} {b : Body}
    (hu : s.ports[h.port].up = true) :
    (s.reply { port := h.port, tag := h.tag, code := code } st b).onward h = s.answered h code st b := by
  rw [reply_told hu]
  rfl

/-- A request that is taken at its block has its effect in the state in which it is taken, and its port goes on. -/
theorem serve_reaches {h : Hdr} {code : Byte} {self : Hdr → Instr} {any : Bool} {act : Caller → State → State}
    {s : State} (r : s.reaches (self h) h any) :
    serve h code self any act s = (act { port := h.port, tag := h.tag, code := code } (s.taking h)).onward h := by
  obtain ⟨hu, ⟨hw, ht, ha⟩ | ⟨hk, ht⟩⟩ := r
  · have e : s.taking h = s := by
      unfold State.taking State.setPort
      rw [upd_of_fixed]
      rw [← ht]
    have hc : ¬ (s.window = .unconfigured ∧ any = false) := by
      rintro ⟨h1, h2⟩
      rcases ha with h3 | h3
      · rw [h2] at h3; cases h3
      · exact h3 h1
    rw [onward_of_not_take (by rw [hw]; decide)]
    unfold serve
    simp only [hu, hw, ht, e]
    simp [hc]
  · rw [onward_of_take hk]
    obtain ⟨p, t, st⟩ := h
    cases hk
    unfold serve
    simp only [hu, ht]
    simp [State.taking]

/-- A request of a port that is DOWN changes nothing (R171). -/
theorem serve_down {h : Hdr} {code : Byte} {self : Hdr → Instr} {any : Bool} {act : Caller → State → State}
    {s : State} (hd : s.ports[h.port].up = false) : serve h code self any act s = s := by
  unfold serve; simp only [hd]; simp

/-- A request that arrives while another of its port is in transit waits (R172, log entry 28). -/
theorem serve_behind {h : Hdr} {code : Byte} {self : Hdr → Instr} {any : Bool} {act : Caller → State → State}
    {s : State} (hn : h.stage ≠ .take) (hu : s.ports[h.port].up = true) (ht : s.ports[h.port].transit.isSome) :
    serve h code self any act s = s.wait h.port (self { h with stage := .take }) := by
  unfold serve
  cases hs : h.stage
  · simp only [hu, ht]; simp
  · simp only [hu, ht]; simp
  · exact absurd hs hn

/-- A request that is not in transit is not taken out of it. -/
theorem serve_absent {h : Hdr} {code : Byte} {self : Hdr → Instr} {any : Bool} {act : Caller → State → State}
    {s : State} (hk : h.stage = .take) (ht : s.ports[h.port].transit ≠ some (self h)) :
    serve h code self any act s = s := by
  obtain ⟨p, t, st⟩ := h
  cases hk
  unfold serve
  dsimp only
  split
  · rfl
  · rfl

/-- A request that its port examines and passes on is then in transit (R172). -/
theorem serve_pass {h : Hdr} {code : Byte} {self : Hdr → Instr} {any : Bool} {act : Caller → State → State}
    {s : State} (hs : h.stage = .pass) (hu : s.ports[h.port].up = true) (ht : s.ports[h.port].transit = none)
    (ha : any = true ∨ s.window ≠ .unconfigured) :
    serve h code self any act s =
      s.setPort h.port fun p => { p with transit := some (self { h with stage := .take }) } := by
  have hc : ¬ (s.window = .unconfigured ∧ any = false) := by
    rintro ⟨h1, h2⟩
    rcases ha with h3 | h3
    · rw [h2] at h3; cases h3
    · exact h3 h1
  unfold serve
  simp only [hu, hs, ht]
  simp [hc]

/-- A request examined in UNCONFIGURED that is not served there is answered by its port (R175). -/
theorem serve_unconfigured {h : Hdr} {code : Byte} {self : Hdr → Instr} {act : Caller → State → State} {s : State}
    (hn : h.stage ≠ .take) (hu : s.ports[h.port].up = true) (ht : s.ports[h.port].transit = none)
    (hw : s.window = .unconfigured) :
    serve h code self false act s = s.answered h code .notConfigured (unservedBody code) := by
  rw [← reply_answered hu, onward_of_not_take hn]
  unfold serve
  cases hs : h.stage
  · simp only [hu, ht, hw]; simp
  · simp only [hu, ht, hw]; simp
  · exact absurd hs hn

/-- A request that its port owns is taken as soon as the port examines it (R172). -/
theorem serveAtPort_runs {h : Hdr} {code : Byte} {self : Hdr → Instr} {act : Caller → State → State} {s : State}
    (hn : h.stage ≠ .take) (hu : s.ports[h.port].up = true) (ht : s.ports[h.port].transit = none) :
    serveAtPort h code self act s = act { port := h.port, tag := h.tag, code := code } s := by
  unfold serveAtPort
  simp only [hu, ht]
  simp [hn]

/-- A request that its port owns waits behind one in transit (R172, log entry 28). -/
theorem serveAtPort_behind {h : Hdr} {code : Byte} {self : Hdr → Instr} {act : Caller → State → State} {s : State}
    (hn : h.stage ≠ .take) (hu : s.ports[h.port].up = true) (ht : s.ports[h.port].transit.isSome) :
    serveAtPort h code self act s = s.wait h.port (self { h with stage := .take }) := by
  unfold serveAtPort
  simp only [hu, ht]
  simp [hn]

/-! ### The requests that wait (R172, log entry 28) -/

/-- While a request is in transit, its port goes on with none. -/
theorem goOn_behind {s : State} {p : Port} (ht : s.ports[p].transit.isSome) : s.goOn p = s := by
  unfold State.goOn
  rw [if_pos ht]

/-- A port at which none waits goes on with none. -/
theorem goOn_none {s : State} {p : Port} (hw : s.ports[p].waiting = []) : s.goOn p = s := by
  unfold State.goOn
  split
  · rfl
  · rw [hw]
    unfold State.examineAll State.setPort
    rw [upd_of_fixed]
    rw [← hw]

/-- A port of which nothing is in transit examines those that wait. -/
theorem goOn_free {s : State} {p : Port} (ht : s.ports[p].transit = none) :
    s.goOn p = State.examineAll p s.ports[p].waiting s := by
  unfold State.goOn
  rw [ht]
  rfl

/-! ### Checks and replies -/

/-- A request whose checks all pass has its effect (R173). -/
theorem checked_pass {s : State} {c : Caller} {ts : List Test} {act : State → State} {b : Body}
    (h : firstFailure ts = none) : s.checked c ts act b = act s := by
  unfold State.checked; rw [h]

/-- A request that fails a check is answered with the status of the first that fails (R173). -/
theorem checked_fail {s : State} {c : Caller} {ts : List Test} {act : State → State} {b : Body} {st : Status}
    (h : firstFailure ts = some st) : s.checked c ts act b = s.reply c st b := by
  unfold State.checked; rw [h]

@[simp] theorem firstFailure_nil : firstFailure [] = none := rfl

@[simp] theorem firstFailure_cons (ok : Bool) (st : Status) (ts : List Test) :
    firstFailure ((ok, st) :: ts) = if ok then firstFailure ts else some st := rfl

/-- No check fails where all pass. -/
theorem firstFailure_none_iff (ts : List Test) : firstFailure ts = none ↔ ∀ t ∈ ts, t.1 = true := by
  induction ts with
  | nil => simp
  | cons t ts ih =>
    obtain ⟨ok, st⟩ := t
    cases ok <;> simp [ih]

/-- The checks of two lists, one after the other. -/
theorem firstFailure_append (ts us : List Test) :
    firstFailure (ts ++ us) = (firstFailure ts).or (firstFailure us) := by
  induction ts with
  | nil => simp
  | cons t ts ih =>
    obtain ⟨ok, st⟩ := t
    cases ok <;> simp [ih]

/-! ### The state in which a request is taken -/

@[simp] theorem taking_port (s : State) (h : Hdr) :
    (s.taking h).ports[h.port.val] = { s.ports[h.port.val] with transit := none } := by simp [State.taking]

/-- Another port is as it was. -/
theorem taking_other (s : State) (h : Hdr) (p : Port) (hp : h.port ≠ p) : (s.taking h).ports[p] = s.ports[p] :=
  upd_other _ _ _ _ hp

/-- A port's class is as it was. -/
@[simp] theorem taking_cls (s : State) (h : Hdr) (p : Port) : (s.taking h).cls p = s.cls p := by
  unfold State.cls State.taking State.setPort
  simp only [upd_at]
  split <;> rfl

/-- A port's link is as it was. -/
@[simp] theorem taking_up (s : State) (h : Hdr) (p : Port) : (s.taking h).ports[p].up = s.ports[p].up := by
  unfold State.taking State.setPort
  simp only [upd_at]
  split <;> rfl

@[simp] theorem taking_dir (s : State) (h : Hdr) : (s.taking h).dir = s.dir := rfl
@[simp] theorem taking_store (s : State) (h : Hdr) : (s.taking h).store = s.store := rfl
@[simp] theorem taking_load (s : State) (h : Hdr) : (s.taking h).load = s.load := rfl
@[simp] theorem taking_edit (s : State) (h : Hdr) : (s.taking h).edit = s.edit := rfl
@[simp] theorem taking_scene (s : State) (h : Hdr) : (s.taking h).scene = s.scene := rfl
@[simp] theorem taking_units (s : State) (h : Hdr) : (s.taking h).units = s.units := rfl
@[simp] theorem taking_mail (s : State) (h : Hdr) : (s.taking h).mail = s.mail := rfl
@[simp] theorem taking_out (s : State) (h : Hdr) : (s.taking h).out = s.out := rfl
@[simp] theorem taking_pending (s : State) (h : Hdr) : (s.taking h).pending = s.pending := rfl

end Sys2Proof.Machine
end

