-- ==== Sys2Proof/Laws/Course.lean ====
section
/-! SUPPORT. Every request is served in one of two ways, and its reply changes no block; and what the entries of
channels and ports are after the shared updates of them. -/

namespace Sys2Proof.Machine

theorem request_served {i : Instr} {h : Hdr} {code : Byte} {f : List Byte} {self : Hdr → Instr} {any : Bool}
    {act : Caller → State → State} (he : ∀ s, exec i s = .next (serve h code self any act s)) (hs : self h = i)
    (ha : any = decide (code = 1 ∨ code = 2 ∨ code = 6 ∨ code = 113))
    (hq : ∀ h', (self h').request = some (h', code, f)) :
    ∃ self any act, self h = i ∧ (∀ s, exec i s = .next (serve h code self any act s)) ∧
      (any = decide (code = 1 ∨ code = 2 ∨ code = 6 ∨ code = 113)) ∧
      (∀ h', (self h').request = some (h', code, f)) := ⟨self, any, act, hs, he, ha, hq⟩

/-- A request that its port owns is served by `serveAtPort`, and every other one by `serve` (R172, R175). -/
theorem request_shape (i : Instr) (h : Hdr) (code : Byte) (f : List Byte) (hr : i.request = some (h, code, f)) :
    ((code = 120 ∨ code = 121) ∧ ∃ self act, self h = i ∧ (∀ s, exec i s = .next (serveAtPort h code self act s)) ∧
      (∀ h', (self h').request = some (h', code, f))) ∨
    (code ≠ 120 ∧ code ≠ 121 ∧ ∃ self any act, self h = i ∧ (∀ s, exec i s = .next (serve h code self any act s)) ∧
      (any = decide (code = 1 ∨ code = 2 ∨ code = 6 ∨ code = 113)) ∧
      (∀ h', (self h').request = some (h', code, f))) := by
  cases i <;> simp only [Instr.request, Option.some.injEq, Prod.mk.injEq, reduceCtorEq] at hr
  all_goals (obtain ⟨rfl, rfl, rfl⟩ := hr)
  case getEvents => exact .inl ⟨by decide, .getEvents, _, rfl, fun s => rfl, fun _ => rfl⟩
  case setEventMask h m => exact .inl ⟨by decide, (.setEventMask · m), _, rfl, fun s => rfl, fun _ => rfl⟩
  all_goals exact .inr ⟨by decide, by decide, request_served (fun s => rfl) rfl (by decide) (fun _ => rfl)⟩

theorem setChan_at (s : State) (c d : ChanId) (f : Option Load → Option Load) :
    (s.setChan c f).load.chans[d] = if c = d then f s.load.chans[d] else s.load.chans[d] := by
  simp only [State.setChan, modLoad_load]; exact upd_at _ _ _ _

theorem raise_at (s : State) (p q : Port) (e : Event) :
    (s.raise p e).ports[q] = if q = p then s.ports[q].take e else s.ports[q] := by
  simp only [State.raise, upd_at]
  by_cases h : p = q
  · subst h; simp
  · simp [h, Ne.symm h]

/-! ### A request that has been taken -/

/-- The port that goes on changes no block. -/
@[simp] theorem onward_frame (s : State) (h : Hdr) :
    (s.onward h).dir = s.dir ∧ (s.onward h).store = s.store ∧ (s.onward h).load = s.load ∧
    (s.onward h).edit = s.edit ∧ (s.onward h).scene = s.scene ∧ (s.onward h).units = s.units ∧
    (s.onward h).mail = s.mail ∧ (s.onward h).pending = s.pending := by
  unfold State.onward
  split
  · exact goOn_frame s h.port
  · simp

/-- A reply changes no block. -/
@[simp] theorem answered_frame (s : State) (h : Hdr) (code : Byte) (st : Status) (b : Body) :
    (s.answered h code st b).dir = s.dir ∧ (s.answered h code st b).store = s.store ∧
    (s.answered h code st b).load = s.load ∧ (s.answered h code st b).edit = s.edit ∧
    (s.answered h code st b).scene = s.scene ∧ (s.answered h code st b).units = s.units ∧
    (s.answered h code st b).mail = s.mail ∧ (s.answered h code st b).pending = s.pending :=
  onward_frame { s with out := s.out ++ [.reply h.port { code := code, tag := h.tag, status := st, body := b }] } h

end Sys2Proof.Machine
end

