-- ==== Sys2Proof/Laws/Pages.lean ====
section
/-! SUPPORT. The page directory: what each of its operations does to an entry and to the free slots. -/

namespace Sys2Proof.Machine

/-! ### Fields of requests -/

/-- A byte below a bound names a number. -/
theorem fieldBelow_some {n : Nat} {b : Byte} {c : Fin n} (h : b.toNat = c.val) : fieldBelow n b = some c := by
  unfold fieldBelow
  rw [dif_pos (by rw [h]; exact c.isLt)]
  exact congrArg some (Fin.ext h)

/-- A byte at or above a bound names none. -/
theorem fieldBelow_none {n : Nat} {b : Byte} (h : n ≤ b.toNat) : fieldBelow n b = none := by
  unfold fieldBelow
  rw [dif_neg (by omega)]

/-- A request that reaches its block has its port UP. -/
theorem up_taking {s : State} {i : Instr} {h : Hdr} {a : Bool} (hr : s.reaches i h a) :
    (s.taking h).ports[h.port].up = true := by
  rw [taking_up]
  exact hr.1

/-! ### Entries -/

/-- Two handles have the same index only if they are the same. -/
theorem handleIndex_inj {a b : Handle} : handleIndex a = handleIndex b ↔ a = b := by
  unfold handleIndex
  rw [Fin.mk.injEq]
  exact ⟨BitVec.eq_of_toNat_eq, fun h => by rw [h]⟩

/-- A changed entry, and every other one. -/
theorem page_setPage (s : State) (pg k : Handle) (f : Page → Page) :
    (s.setPage pg f).page k = if k = pg then (s.page k).map f else s.page k := by
  unfold State.page State.setPage
  simp only [modDir_dir]
  rw [upd_at]
  by_cases h : k = pg
  · rw [if_pos (handleIndex_inj.2 h.symm), if_pos h]
  · rw [if_neg (fun e => h (handleIndex_inj.1 e).symm), if_neg h]

/-- An allocatable handle is no pattern page. -/
theorem isPattern_false {pg : Handle} (h : 4 ≤ pg.toNat) : isPattern pg = false := by
  unfold isPattern
  exact decide_eq_false (by omega)

/-- A handle below 4 is a pattern page. -/
theorem isPattern_true {pg : Handle} (h : pg.toNat < 4) : isPattern pg = true := by
  unfold isPattern
  exact decide_eq_true h

/-- Taking a request leaves every entry. -/
@[simp] theorem taking_page (s : State) (h : Hdr) (k : Handle) : (s.taking h).page k = s.page k := rfl

/-- Taking a request leaves the window. -/
@[simp] theorem taking_window (s : State) (h : Hdr) : (s.taking h).window = s.window := rfl

/-- Every handle is in the list of all. -/
theorem mem_allHandles (k : Handle) : k ∈ allHandles := by
  unfold allHandles
  rw [List.mem_map]
  exact ⟨k.toNat, by simpa using k.isLt, by simp⟩

/-- The list of all handles names none twice. -/
theorem nodup_allHandles : allHandles.Nodup := by
  unfold allHandles
  refine List.Nodup.map_on ?_ List.nodup_range
  intro x hx y hy h
  have := congrArg BitVec.toNat h
  simp at hx hy this
  omega

/-! ### Freeing pages -/

/-- A freed entry, and every other one. -/
theorem freePage_page (s : State) (pg k : Handle) : (s.freePage pg).page k = if k = pg then none else s.page k := by
  unfold State.freePage
  cases hp : s.page pg with
  | none => 
    simp only
    split
    · next h => rw [h, hp]
    · rfl
  | some p =>
    simp only [State.page, modDir_dir]
    rw [upd_at]
    have : handleIndex pg = handleIndex k ↔ k = pg := by
      unfold handleIndex; rw [Fin.mk.injEq]; exact ⟨fun h => (BitVec.eq_of_toNat_eq h).symm, fun h => by rw [h]⟩
    by_cases h : k = pg
    · rw [if_pos (this.2 h), if_pos h]
    · rw [if_neg (fun e => h (this.1 e)), if_neg h]

/-- The slots of a run joined to the runs after it. -/
theorem mem_joinRun (b len : Nat) (rs : List (Nat × Nat)) (n : Nat) :
    (∃ r ∈ joinRun b len rs, inRun n r.1 r.2) ↔ inRun n b len ∨ ∃ r ∈ rs, inRun n r.1 r.2 := by
  cases rs with
  | nil => simp [joinRun]
  | cons r rs =>
    obtain ⟨b', len'⟩ := r
    simp only [joinRun]
    split
    · next h =>
      simp only [List.mem_cons, exists_eq_or_imp, inRun]
      constructor
      · rintro (h1 | h1)
        · by_cases h2 : n < b + len
          · left; omega
          · right; left; omega
        · right; right; exact h1
      · rintro (h1 | h1 | h1)
        · left; omega
        · left; omega
        · right; exact h1
    · simp only [List.mem_cons, exists_eq_or_imp]

/-- The free slots once a run has rejoined them. -/
theorem mem_freeRun (b len : Nat) (rs : List (Nat × Nat)) (n : Nat) :
    (∃ r ∈ freeRun b len rs, inRun n r.1 r.2) ↔ inRun n b len ∨ ∃ r ∈ rs, inRun n r.1 r.2 := by
  induction rs with
  | nil => simp [freeRun]
  | cons r rs ih =>
    obtain ⟨b', len'⟩ := r
    simp only [freeRun]
    split
    · rw [mem_joinRun]
    · rw [mem_joinRun, ih]; simp only [List.mem_cons, exists_eq_or_imp]; tauto

/-- The free slots once a page is freed. -/
theorem freePage_free (s : State) (pg : Handle) (n : Nat) :
    (s.freePage pg).slotFree n ↔ s.slotFree n ∨ ∃ p, s.page pg = some p ∧ inRun n p.baseSlot p.slotCount := by
  unfold State.freePage
  cases hp : s.page pg with
  | none => simp
  | some p =>
    simp only [State.slotFree, modDir_dir]
    rw [mem_freeRun]
    simp only [Option.some.injEq, exists_eq_left']; exact or_comm

/-- The entries once several pages are freed. -/
theorem foldFree_page (l : List Handle) (s : State) (k : Handle) : (l.foldl State.freePage s).page k = if k ∈ l then none else s.page k := by
  induction l generalizing s with
  | nil => simp
  | cons a l ih =>
    rw [List.foldl_cons, ih, freePage_page]
    by_cases h1 : k ∈ l <;> by_cases h2 : k = a <;> simp [h1, h2]

/-- The free slots once several pages are freed. -/
theorem foldFree_free (l : List Handle) (hl : l.Nodup) (s : State) (n : Nat) : (l.foldl State.freePage s).slotFree n ↔
    s.slotFree n ∨ ∃ k ∈ l, ∃ p, s.page k = some p ∧ inRun n p.baseSlot p.slotCount := by
  induction l generalizing s with
  | nil => simp
  | cons a l ih =>
    rw [List.nodup_cons] at hl
    rw [List.foldl_cons, ih hl.2, freePage_free]
    simp only [List.mem_cons, exists_eq_or_imp, freePage_page, or_assoc]
    apply or_congr_right
    apply or_congr_right
    constructor
    · rintro ⟨k, hk, p, hp, hr⟩
      have : k ≠ a := fun e => hl.1 (e ▸ hk)
      rw [if_neg this] at hp; exact ⟨k, hk, p, hp, hr⟩
    · rintro ⟨k, hk, p, hp, hr⟩
      have : k ≠ a := fun e => hl.1 (e ▸ hk)
      exact ⟨k, hk, p, by rw [if_neg this]; exact hp, hr⟩

/-- Freeing several pages changes nothing but entries and free slots. -/
theorem foldFree_keep (l : List Handle) (s : State) : (l.foldl State.freePage s) = { s with dir := (l.foldl State.freePage s).dir } ∧ (l.foldl State.freePage s).dir.populated = s.dir.populated := by
  induction l generalizing s with
  | nil => exact ⟨rfl, rfl⟩
  | cons a l ih =>
    rw [List.foldl_cons]
    have h1 : s.freePage a = { s with dir := (s.freePage a).dir } := by unfold State.freePage; split <;> rfl
    have h2 : (s.freePage a).dir.populated = s.dir.populated := by unfold State.freePage; split <;> rfl
    refine ⟨?_, (ih _).2.trans h2⟩
    have := (ih (s.freePage a)).1
    rw [this]
    simp
/-! ### Allocating -/

/-- The first run long enough is taken. -/
theorem alloc_app (n base len : Nat) (pre post : List (Nat × Nat)) (hp : ∀ r ∈ pre, r.2 < n) (hn : n ≤ len) :
    allocRun n (pre ++ (base, len) :: post) = some (base, pre ++ (if len = n then post else (base + n, len - n) :: post)) := by
  induction pre with
  | nil => simp [allocRun, hn]
  | cons r rs ih =>
    obtain ⟨b, l⟩ := r
    have : ¬ n ≤ l := by have := hp (b, l) (by simp); simp at this; omega
    simp only [List.cons_append, allocRun, this, if_false]
    rw [ih (fun r hr => hp r (by simp [hr]))]; rfl

/-- No run is taken where none is long enough. -/
theorem alloc_none (n : Nat) (l : List (Nat × Nat)) (hp : ∀ r ∈ l, r.2 < n) : allocRun n l = none := by
  induction l with
  | nil => rfl
  | cons r rs ih =>
    obtain ⟨b, l⟩ := r
    have : ¬ n ≤ l := by have := hp (b, l) (by simp); simp at this; omega
    simp only [allocRun, this, if_false]
    rw [ih (fun r hr => hp r (by simp [hr]))]; rfl

/-- The first of a list of numbers' images that passes a test. -/
theorem find_first {α} (p : α → Bool) (f : Nat → α) (N i : Nat) (hi : i < N) (h : p (f i) = true) (hm : ∀ j, j < i → p (f j) = false) :
    ((List.range N).map f).find? p = some (f i) := by
  rw [List.find?_map]
  have : List.find? (p ∘ f) (List.range N) = some i := by
    rw [List.find?_range_eq_some]
    exact ⟨h, by simpa using hi, fun j hj => by simp [hm j hj]⟩
  rw [this]; rfl

/-- The lowest FREE handle. -/
theorem lowest_some (s : State) (pg : Handle) (h4 : 4 ≤ pg.toNat) (hn : s.page pg = none) (hl : ∀ k : Handle, 4 ≤ k.toNat → k.toNat < pg.toNat → s.page k ≠ none) :
    s.lowestFree = some pg := by
  unfold State.lowestFree allHandles
  have e : BitVec.ofNat 8 pg.toNat = pg := by simp
  rw [find_first _ _ 256 pg.toNat pg.isLt, e]
  · rw [e, isPattern_false h4, hn]; rfl
  · intro j hj
    by_cases h : 4 ≤ j
    · have hj' : (BitVec.ofNat 8 j).toNat = j := by simp; have := pg.isLt; omega
      have := hl (BitVec.ofNat 8 j) (by rw [hj']; exact h) (by rw [hj']; exact hj)
      cases hx : s.page (BitVec.ofNat 8 j)
      · exact absurd hx this
      · simp
    · have : isPattern (BitVec.ofNat 8 j) = true := isPattern_true (by simp; omega)
      rw [this]; rfl

/-- No handle is FREE. -/
theorem lowest_none (s : State) (hl : ∀ k : Handle, 4 ≤ k.toNat → s.page k ≠ none) : s.lowestFree = none := by
  unfold State.lowestFree
  rw [List.find?_eq_none]
  intro k _
  by_cases h : 4 ≤ k.toNat
  · have := hl k h
    cases hx : s.page k
    · exact absurd hx this
    · simp
  · rw [isPattern_true (by omega)]; simp

/-- Some handle is FREE. -/
theorem lowest_isSome (s : State) (hl : ∃ k : Handle, 4 ≤ k.toNat ∧ s.page k = none) : ∃ p, s.lowestFree = some p := by
  obtain ⟨k, h4, hn⟩ := hl
  rw [← Option.isSome_iff_exists]
  unfold State.lowestFree
  rw [List.find?_isSome]
  exact ⟨k, mem_allHandles k, by rw [isPattern_false h4, hn]; rfl⟩


end Sys2Proof.Machine
end

