-- ==== Sys2Proof/Laws/Scenes.lean ====
section
/-! SUPPORT. The scene checks: the positions that a placement covers, when no two placements of a scene overlap, and the
status of the first check that a scene fails. -/

namespace Sys2Proof.Machine

/-- A page covers the positions across its width and down its height (R99). -/
theorem mem_coveredFrom {col row width height : Nat} {pos : Nat × Nat} :
    pos ∈ coveredFrom col row width height ↔
      col ≤ pos.1 ∧ pos.1 < col + width ∧ row ≤ pos.2 ∧ pos.2 < row + height := by
  obtain ⟨a, b⟩ := pos
  simp only [coveredFrom, List.mem_flatMap, List.mem_map, List.mem_range, Prod.mk.injEq]
  constructor
  · rintro ⟨y, hy, x, hx, rfl, rfl⟩; omega
  · intro h; exact ⟨b - row, by omega, a - col, by omega, by omega, by omega⟩

/-- A page covers no position twice. -/
theorem coveredFrom_nodup (col row width height : Nat) : (coveredFrom col row width height).Nodup := by
  unfold coveredFrom
  refine List.nodup_flatMap.mpr ⟨fun y _ => ?_, ?_⟩
  · exact List.nodup_range.map fun a b h => by simpa using h
  · refine List.nodup_range.imp fun {a b} hab => ?_
    intro pos ha hb
    simp only [List.mem_map] at ha hb
    obtain ⟨x, _, rfl⟩ := ha
    obtain ⟨x', _, h⟩ := hb
    simp only [Prod.mk.injEq] at h
    omega

/-- The covered positions of a scene are all different exactly where no two of its placements share one (R102). -/
theorem covered_nodup_iff (s : State) (sc : List RawPlacement) :
    (sc.flatMap s.covered).Nodup ↔ sc.Pairwise fun x y => ∀ pos, ¬ (pos ∈ s.covered x ∧ pos ∈ s.covered y) := by
  rw [List.nodup_flatMap]
  constructor
  · exact fun h => h.2.imp fun {x y} hxy pos hp => hxy hp.1 hp.2
  · exact fun h => ⟨fun x _ => coveredFrom_nodup _ _ _ _, h.imp fun {x y} hxy pos ha hb => hxy pos ⟨ha, hb⟩⟩

/-- The checks of a scene are made in order, and the first that fails gives the status (R102). -/
theorem firstFailure_scene (z : ZoneId) (sc : List RawPlacement) (p : Port) (s : State) :
    firstFailure (sceneTests z sc p s) =
      if (sc.all fun x => s.isPage x.page) = false then some .noSuch
      else if (sc.all fun x => !s.isDamaged x.page) = false then some .state
      else if (sc.all fun x => s.showRight p x.page) = false then some .denied
      else if (sc.all fun x => s.modeSuits x) = false then some .badField
      else if (sc.all fun x => (s.zone z).rect.any fun r => s.fits r x) = true ∧ (sc.flatMap s.covered).Nodup then none
      else some .badField := by
  unfold sceneTests firstFailure firstFailure firstFailure firstFailure firstFailure firstFailure
  grind

end Sys2Proof.Machine
end

