-- ==== Sys2Proof/Machine/Formats.lean ====
section
/-! DEFINITION. What the part sends, as bytes: replies (R191, with the encodings of R190) and the messages to
panels (R192). Where R191 leaves the layout of a query reply open, log entries 5 and 26 say what stands here. -/

namespace Sys2Proof.Machine

/-! ## Fields -/

/-- A number in one byte. -/
def byte1 (n : Nat) : List Byte := [BitVec.ofNat 8 n]

/-- A yes-or-no value (R190). -/
def flagByte (b : Bool) : List Byte := if b then [1] else [0]

/-- A port, 255 for none (R191). -/
def portByte : Option Port → List Byte
  | some p => byte1 p.val
  | none => [255]

/-- An optional field, preceded by its presence byte (R191). That an absent one has no bytes after its presence byte is
the model's choice (log entry 26). -/
def optionalBytes {α : Type} (f : α → List Byte) : Option α → List Byte
  | some a => 1 :: f a
  | none => [0]

/-- A list, preceded by its count byte (R191). -/
def listBytes {α : Type} (f : α → List Byte) (l : List α) : List Byte := byte1 l.length ++ l.flatMap f

/-- A frame number, six bytes (R187). -/
def frameBytes (n : Nat) : List Byte := leBytes 6 n

/-- A number whose width the spec leaves open (log entry 5). -/
def openBytes (w : OpenWidth) (n : Nat) : List Byte := leBytes (Config.openWidth w) n

/-- A position byte, 255 for unused (R190). -/
def positionByte : Option (Nat × Nat) → List Byte
  | some (c, r) => byte1 (16 * r + c)
  | none => [255]

/-- The window state (R190). -/
def WindowState.code : WindowState → Nat
  | .unconfigured => 0
  | .lit => 1
  | .darkening => 2
  | .dark => 3
  | .waking => 4

/-- The kind of a pending window change (R190). -/
def ChangeKind.code : ChangeKind → Nat
  | .darken => 0
  | .wake => 1

/-- The store power state (R190). -/
def PowerState.code : PowerState → Nat
  | .awake => 0
  | .entering => 1
  | .selfRefresh => 2
  | .exiting => 3

/-- The tile state (R190). -/
def TileState.code : TileState → Nat
  | .off => 0
  | .training => 1
  | .joining => 2
  | .inStep => 3
  | .lagging => 4
  | .lost => 5

/-- The tile context, 255 for none (R190). -/
def ctxByte : Option Ctx → List Byte
  | some (.zone z) => byte1 z.val
  | some .background => [4]
  | none => [255]

/-- The source of a fetch: type, page handle and slot (R190). -/
def sourceBytes : Source → List Byte
  | .pattern p => [0, BitVec.ofNat 8 p.val] ++ leBytes 2 0
  | .slot h n => [1, h] ++ leBytes 2 n

/-- The kind of a current or saved scene (R190). -/
def SceneKind.code : SceneKind → Nat
  | .gate g => g.val
  | .playlist => 8

/-- The outcome of a cut (R190). -/
def CutOutcome.code : CutOutcome → Nat
  | .shown => 0
  | .skipped => 1
  | .abandoned => 2
  | .unseen => 3
  | .withdrawn => 4
  | .discarded => 5

/-- The origin of a scrub entry, or the source of a fault: a type byte and a number (R190, R191). -/
def originBytes : Origin → List Byte
  | .unit t => [1, BitVec.ofNat 8 t.val]
  | .port p => [2, BitVec.ofNat 8 p.val]

/-- The cell mode (R190). -/
def CellMode.code : CellMode → Nat
  | .loop => 0
  | .hold => 1
  | .live => 2

/-- A placement record (R189). -/
def Placement.bytes (p : Placement) : List Byte :=
  [p.page, BitVec.ofNat 8 (16 * p.row + p.col), BitVec.ofNat 8 p.mode.code, BitVec.ofNat 8 (p.hold.getD 255)]

/-! ## Query replies (R191) -/

/-- The body of a QUERY_WINDOW reply (R185). -/
def WindowInfo.bytes (w : WindowInfo) : List Byte :=
  byte1 w.window.code ++
    optionalBytes (fun c => byte1 c.1.code ++ optionalBytes frameBytes c.2) w.change ++
    frameBytes w.frame ++ optionalBytes frameBytes w.epoch ++
    w.ports.flatMap (fun p => byte1 p.1.value ++ flagByte p.2) ++ byte1 w.requester.val ++
    optionalBytes (fun c => byte1 c.rate ++ openBytes .populatedSlots c.populated ++ byte1 c.cols ++ byte1 c.rows ++
      c.positions.flatMap positionByte) w.config

/-- The state of a page (R191); 0 is FREE. -/
def PageState.code : PageState → Nat
  | .incomplete => 1
  | .loading => 2
  | .ready => 3
  | .damaged => 4
  | .live => 5

/-- The role of an edit that marks a page (R191); 0 is none. -/
def BusyRole.code : BusyRole → Nat
  | .patchTarget => 1
  | .copySource => 2
  | .copyDest => 3

/-- The 22 bytes of a QUERY_PAGE body (R191). -/
def PageInfo.bytes (p : PageInfo) : List Byte :=
  byte1 p.state.code ++ byte1 (match p.kind with
    | .still => 0
    | .live => 1) ++
    byte1 p.width ++ byte1 p.height ++ byte1 p.cells ++ byte1 (p.rate.getD 0) ++
    leBytes 2 (p.baseSlot.getD 65535) ++ leBytes 2 p.slotCount ++ portByte p.owner ++ flagByte p.shared ++
    byte1 p.showClasses.toNat ++ byte1 p.writeClasses.toNat ++ leBytes 2 p.valid.toNat ++
    byte1 (p.latest.getD 255) ++ leBytes 2 p.pins ++ portByte (p.busy.map (·.1)) ++
    byte1 ((p.busy.map (·.2.code)).getD 0) ++ byte1 (match p.damaged with
      | some false => 0
      | some true => 1
      | none => 255)

/-- The body of a QUERY_CHANNEL reply for a channel that is not IDLE (R67). -/
def ChanInfo.bytes (c : ChanInfo) : List Byte :=
  byte1 (if c.waiting then 2 else 1) ++ byte1 (match c.mode with
    | .block _ _ _ => 0
    | .ring _ _ => 1) ++
    byte1 c.port.val ++ [c.page] ++ openBytes .loadWords c.wordsExpected ++ openBytes .loadWords c.wordsReceived ++
    openBytes .loadLines c.linesWritten ++ leBytes 4 c.check.toNat ++ openBytes .bufferFill c.buffered ++
    (match c.mode with
      | .block f n e => byte1 f ++ byte1 n ++ leBytes 4 e.toNat
      | .ring t _ => byte1 t)

/-- The armed item of a QUERY_ZONE reply (R121); the attempt count takes one byte, which is the model's choice (log
entry 26). -/
def ArmedInfo.bytes (a : ArmedInfo) : List Byte :=
  (match a.item with
    | .cut (some (t, l)) => [0] ++ frameBytes t ++ leBytes 2 l.toNat
    | .cut none => [0] ++ frameBytes 0 ++ leBytes 2 0
    | .gate g k => [1] ++ byte1 g.val ++ byte1 k
    | .ret => [2]) ++ flagByte a.fetched

/-- The pending item of a QUERY_ZONE reply (R121). That an invocation gives its gate and its invoker after the kind, one
byte each, is the model's choice (log entry 26). -/
def PendingItem.bytes : PendingItem → List Byte
  | .invocation g p => [0] ++ byte1 g.val ++ byte1 p.val
  | .ret => [1]

/-- A queued cut of a QUERY_ZONE reply (R121). The released mark is 1 where it is set and 0 otherwise, and the placement
count comes last and takes one byte, which is the model's choice (log entry 26). -/
def CutInfo.bytes (c : CutInfo) : List Byte :=
  frameBytes c.target ++ leBytes 2 c.label.toNat ++ byte1 c.slip ++ byte1 c.port.val ++ flagByte c.released ++
    byte1 c.placements

/-- A saved context of a QUERY_ZONE reply (R121); its placement count comes last and takes one byte, which is the
model's choice (log entry 26). -/
def SavedInfo.bytes (x : SavedInfo) : List Byte :=
  byte1 x.kind.code ++ optionalBytes (openBytes .remainingFrames) x.remaining ++ byte1 x.placements

/-- An entry of an outcome log (R104). -/
def LogEntry.bytes (e : LogEntry) : List Byte :=
  leBytes 2 e.label.toNat ++ frameBytes e.target ++ byte1 e.port.val ++ byte1 e.outcome.code ++ frameBytes e.frame

/-- A zone's rectangle (R189). -/
def Rect.bytes (r : Rect) : List Byte := byte1 r.col ++ byte1 r.row ++ byte1 r.cols ++ byte1 r.rows

/-- The body of a QUERY_ZONE reply (R121). The depth of the link stack has no byte of its own, the count byte of the saved
contexts standing for it, which is the model's choice (log entry 26). -/
def ZoneInfo.bytes (z : ZoneInfo) : List Byte :=
  optionalBytes Rect.bytes z.rect ++ portByte z.holder ++ byte1 z.kind.code ++ frameBytes z.origin ++
    optionalBytes (openBytes .remainingFrames) z.remaining ++ listBytes Placement.bytes z.scene ++
    optionalBytes ArmedInfo.bytes z.armed ++ optionalBytes PendingItem.bytes z.pend ++
    optionalBytes (fun f => frameBytes f.1 ++ flagByte f.2) z.fetch ++ listBytes CutInfo.bytes z.cuts ++
    listBytes SavedInfo.bytes z.stack ++ leBytes 2 z.inStep.toNat ++ listBytes LogEntry.bytes z.log

/-- Where a gate stands in its zone (R139); the attempt count and the saved position take one byte each, which is
the model's choice (log entries 25 and 26). -/
def GatePlace.bytes : GatePlace → List Byte
  | .pending => [0]
  | .armed k f => [1] ++ byte1 k ++ flagByte f
  | .current r => [2] ++ optionalBytes (openBytes .remainingFrames) r
  | .saved n r => [3] ++ byte1 n ++ optionalBytes (openBytes .remainingFrames) r

/-- The state and the invoker of a gate that is not UNDEFINED (R190). -/
def GateUse.code : GateUse → Nat × Option Port
  | .defined => (1, none)
  | .invoked p => (2, some p)
  | .active p => (3, some p)

/-- The body of a QUERY_GATE reply for a gate that is not UNDEFINED (R139). -/
def gateBytes (e : Gate) (place : Option GatePlace) : List Byte :=
  byte1 e.use.code.1 ++ byte1 e.zone.val ++ byte1 e.level ++ byte1 e.minClass ++ openBytes .duration e.duration ++
    listBytes Placement.bytes e.scene ++ (match e.use.code.2 with
      | some p => byte1 p.val
      | none => []) ++ (match place with
      | some q => q.bytes
      | none => [])

/-- The body of a QUERY_TILE reply (R157). One byte for each of the three counts, and 1 for power-enable high and for
end sent, 0 otherwise, are the model's choice (log entry 26). -/
def TileInfo.bytes (t : TileInfo) : List Byte :=
  byte1 t.state.code ++ flagByte t.power ++ flagByte t.link ++ positionByte t.position ++ ctxByte t.ctx ++
    optionalBytes (fun f => frameBytes f.1 ++ sourceBytes f.2.1 ++ openBytes .tileLines f.2.2.1 ++
      openBytes .tileLines f.2.2.2.1 ++ flagByte f.2.2.2.2) t.fetch ++
    byte1 t.miss ++ byte1 t.rejoin ++ byte1 t.attempts

/-- An entry of the scrub queue (R44, R190). -/
def ScrubEntry.bytes (e : ScrubEntry) : List Byte :=
  openBytes .scrubSlot e.addr.slot ++ byte1 e.addr.line ++ byte1 e.addr.word ++ originBytes e.origin

/-- The body of a QUERY_STORE reply (R44). The refreshed-since-wake flag and the locked flag are 1 where they are set and
0 otherwise, which is the model's choice (log entry 26). -/
def StoreInfo.bytes (s : StoreInfo) : List Byte :=
  byte1 s.power.code ++ [Config.debtByte s.debt] ++ flagByte s.refreshed ++ listBytes ScrubEntry.bytes s.scrub ++
    openBytes .correctedCount s.corrected ++ openBytes .populatedSlots s.populated ++ flagByte s.locked

/-- The kind of a captured fault (R191). -/
def FaultKind.code : FaultKind → Nat
  | .scanUncorrectable => 1
  | .patchUncorrectable => 2
  | .copyUncorrectable => 3
  | .scrubUncorrectable => 4
  | .refreshMissed => 5

/-- The 17 bytes of a READ_FAULT body (R191). -/
def FaultRecord.bytes (r : FaultRecord) : List Byte :=
  match r.fault with
  | none => [0] ++ flagByte r.locked ++ flagByte r.multiple ++ List.replicate 14 0
  | some f =>
    [1] ++ flagByte r.locked ++ flagByte r.multiple ++ byte1 f.kind.code ++
      leBytes 2 ((f.addr.map (·.slot)).getD 65535) ++ byte1 ((f.addr.map (·.line)).getD 0) ++
      byte1 ((f.addr.map (·.word)).getD 0) ++ [f.page.getD 0] ++ (match f.source with
        | some o => originBytes o
        | none => [0, 0]) ++ frameBytes f.frame

/-! ## Replies (R191) -/

/-- The number of a status (R191). -/
def Status.code : Status → Nat
  | .ok => 0
  | .badRequest => 1
  | .notConfigured => 2
  | .denied => 3
  | .noSuch => 4
  | .badField => 5
  | .state => 6
  | .pinned => 7
  | .noRoom => 8
  | .busy => 9
  | .wait => 10
  | .overrun => 11
  | .queueFull => 12
  | .tooSoon => 13
  | .duplicate => 14
  | .notHolder => 15
  | .held => 16
  | .nestFull => 17
  | .outranked => 18
  | .dark => 19
  | .shown => 20
  | .damagedWords => 21
  | .sourceDamaged => 22
  | .cancelled => 23

/-- The body of a reply (R191). -/
def Body.bytes : Body → List Byte
  | .none => []
  | .created h b => [h] ++ leBytes 2 b
  | .noRoom noRun longest free => flagByte noRun ++ leBytes 2 longest ++ leBytes 2 free
  | .channel c => byte1 c.val
  | .purged n => byte1 n
  | .unwritten n => leBytes 2 n
  | .holder p already => portByte p ++ (match already with
    | .some b => flagByte b
    | .none => [])
  | .mask m => leBytes 2 m.toNat
  | .kinds k => leBytes 2 k.toNat
  | .window w => w.bytes
  | .page p => (p.map PageInfo.bytes).getD [0]
  | .chan c => (c.map ChanInfo.bytes).getD [0]
  | .zone z => z.bytes
  | .gate g => (g.map fun x => gateBytes x.1 x.2).getD [0]
  | .tile t => t.bytes
  | .store s => s.bytes
  | .fault r => r.bytes

/-- The frame of a reply: a header of five bytes and the body (R191). -/
def Reply.bytes (r : Reply) : List Byte :=
  [r.code, r.tag, BitVec.ofNat 8 r.status.code] ++ leBytes 2 r.body.bytes.length ++ r.body.bytes

/-! ## Messages to panels (R192) -/

/-- The bytes of a message to a panel (R192). -/
def PanelMsg.bytes : PanelMsg → List Byte
  | .frameBegin n => [1] ++ frameBytes n
  | .line l ws => [2] ++ byte1 l ++ wordBytes ws
  | .frameEnd n c => [3] ++ frameBytes n ++ leBytes 4 c.toNat
  | .abortFrame n => [4] ++ frameBytes n
  | .showFrame n => [5] ++ frameBytes n
  | .repeatFrame => [6]
  | .blank => [7]
  | .train k p ws => [8] ++ byte1 k ++ byte1 p.val ++ wordBytes ws

end Sys2Proof.Machine
end

