-- ==== Sys2Proof/Tests/Slice0.lean ====
section
/-! SUPPORT. Tests: the checks of well-formedness, frames and messages written out from the spec, worked examples of
the spec, and for each statement states and operands that meet its hypotheses. -/

namespace Sys2Proof.Tests

set_option Elab.async false

open Sys2Proof.Machine

/-! ## States to test on -/

/-- The header of a request of a port, examined and taken in one step. -/
def hdr (p : Port) : Hdr := { port := p, tag := 7, stage := .whole }

/-- The header of a request that its port passes on. -/
def passed (p : Port) : Hdr := { port := p, tag := 7, stage := .pass }

/-- A port that is UP. -/
def upPort (c : Cls) : PortRec := { up := true, cls := c, events := 0, mask := 0, transit := none, waiting := [] }

/-- Ports UP of class OPERATOR, PLAYOUT, OVERLAY and MONITOR. -/
def fourPorts : Vector PortRec 4 := #v[upPort .operator, upPort .playout, upPort .overlay, upPort .monitor]

/-- The part before CONFIGURE with its ports UP. -/
def fresh : State := { State.reset with ports := fourPorts }

/-- A unit at a position of the background, in step with its link UP. -/
def inStepUnit (i : Fin 16) : TileUnit :=
  { TileUnit.initial true with
    state := .inStep, power := true, position := some (i.val % 4, i.val / 4), ctx := some .background }

/-- A configured part, lit, with 512 slots, sixteen tiles in step and the bus free. -/
def lit : State :=
  { fresh with
    store := { Store.initial with running := none }
    dir := { Directory.initial with populated := 512, free := [(0, 512)] }
    scene := { SceneEngine.initial with
      window := .lit, frame := 100, timer := true, grid := some { rate := 25, cols := 4, rows := 4 } }
    units := Vector.ofFn inStepUnit }

/-- A page of one tile and two cells that port 1 owns and shares, in slots 0 and 1. -/
def still : Page :=
  { state := .ready, kind := .still, width := 1, height := 1, cells := 2, rate := some 25, baseSlot := 0
    slotCount := 2, owner := 1, shared := true, showClasses := 0b1110, writeClasses := 0b1110, valid := 0b11
    latest := none, pins := 0, busy := none, damaged := some false }

/-- A LIVE page of one tile and two cells, in slots 2 and 3. -/
def live : Page :=
  { still with state := .live, kind := .live, rate := none, baseSlot := 2, valid := 0b01, latest := some 0, damaged := none }

/-- A state with one page entry given. -/
def withPage (pg : Handle) (p : Page) (s : State) : State :=
  { s with dir := { s.dir with pages := s.dir.pages.set pg.toNat (some p) (by exact pg.isLt) } }

/-- Page 4 is a STILL page, and page 5 a LIVE one. -/
def paged : State := withPage 4 still (withPage 5 live { lit with dir := { lit.dir with free := [(4, 508)] } })

/-- A zone over the left half of the wall, held by port 1. -/
def held : Zone := { Zone.initial with rect := some { col := 0, row := 0, cols := 2, rows := 4 }, holder := some 1 }

/-- A state with one zone changed. -/
def withZone (z : ZoneId) (f : Zone → Zone) (s : State) : State := s.setZone z f

/-- Zone 0 is set and held. -/
def zoned : State := withZone 0 (fun _ => held) paged

/-! ## The small states of the tests -/

/-- A loading port's BLOCK load of one cell of page 4 on channel 0, its words all received. -/
def blockLoad : Load :=
  { waiting := false, mode := .block 0 2 0, port := 1, page := 4, wordsExpected := 131072, wordsReceived := 131072
    linesWritten := 511, check := 0, buffer := [] }

/-- A RING load of page 5 on its cell 1. -/
def ringLoad : Load :=
  { waiting := false, mode := .ring 1 (some 0), port := 2, page := 5, wordsExpected := 65536, wordsReceived := 0
    linesWritten := 255, check := 0, buffer := [] }

/-- A state with a load on channel 0. -/
def withLoad (l : Load) (s : State) : State := { s with load := { s.load with chans := s.load.chans.set 0 (some l) } }

/-- A state with a transfer running. -/
def running (j : TransferJob) (s : State) : State :=
  { s with store := { s.store with running := some { job := j, discard := false, dropped := false } } }

/-- A state with a request in transit at port 1. -/
def carrying (i : Instr) (s : State) : State := s.setPort 1 fun p => { p with transit := some i }

/-- The header of a request taken out of transit. -/
def taken (p : Port) : Hdr := { port := p, tag := 7, stage := .take }

/-- A PATCH of port 1 and a COPY of port 2, in the queue. -/
def patchEdit : Edit := { port := 1, tag := 9, job := .patch 4 0 0 0 3 0 0xFF 0xFFFFFFFF [0, 0] }
def copyEdit : Edit := { port := 2, tag := 8, job := .copy 4 1 6 1 255 }

/-- A state with an edit queue. -/
def editing (q : List Edit) (s : State) : State := { s with edit := { s.edit with queue := q } }

/-- Page 4 before it is loaded whole. -/
def partly : Page := { still with state := .incomplete, valid := 0b01 }

/-- Pages 4 and 6 with nothing on the wall. -/
def twoStills : State := withPage 6 { partly with baseSlot := 4 } paged

/-- A placement of page 4 in cell mode LOOP at the top left. -/
def rawStill : RawPlacement := { page := 4, offsets := 0, mode := 0, hold := 255 }

/-- A cut of port 1 with that placement. -/
def aCut (target : Nat) : Cut :=
  { label := 1, port := 1, target := target, slip := 8, scene := [placementOf rawStill], released := false }

/-- Gate 7, defined on zone 0. -/
def aGate : Gate := { use := .defined, zone := 0, level := 3, minClass := 1, duration := 0, scene := [] }

/-- A state with gate 7. -/
def gated (g : Gate) (s : State) : State := s.setGate 7 fun _ => some g

/-- A state with one unit changed. -/
def withUnit (t : Tile) (f : TileUnit → TileUnit) (s : State) : State := { s with units := upd s.units t f }

/-- A state in which a message to tile 15 is under way. -/
def sent (m : UnitMsg) (s : State) : State := { s with mail := { s.mail with toUnit := upd s.mail.toUnit 15 fun _ => [m] } }

/-- A state in which a report of tile 15 is under way. -/
def told (r : UnitReport) (s : State) : State :=
  { s with mail := { s.mail with toScene := upd s.mail.toScene 15 fun _ => [r] } }

/-- A word written at a place of the frame store, and then some of its bits in error. -/
def stored (slot line word : Nat) (w : Word) (e : ErrorMask) (s : State) : State :=
  { s with store := (s.store.writeWord slot line word w).disturbWord slot line word e }

/-- A state in a window state. -/
def inWindow (w : WindowState) (s : State) : State := { s with scene := { s.scene with window := w } }

/-! ## Well-formedness: an ill-formed command for each check -/

theorem test_wf_badRequest : (Instr.badRequest 0 [2, 7, 0, 0]).wf = false ∧ (Instr.badRequest 0 [2, 7, 1, 0]).wf = true :=
  by decide +kernel

theorem test_wf_queueCut : (Instr.queueCut (hdr 1) 0 2 0 0 (List.replicate 256 rawStill)).wf = false ∧
    (Instr.queueCut (hdr 1) 0 2 0 0 (List.replicate 255 rawStill)).wf = true := by decide +kernel

theorem test_wf_defineGate : (Instr.defineGate (hdr 0) 0 0 1 1 0 (List.replicate 256 rawStill)).wf = false ∧
    (Instr.defineGate (hdr 0) 0 0 1 1 0 (List.replicate 255 rawStill)).wf = true := by decide +kernel

theorem test_wf_unknownTileMessage : (Instr.unknownTileMessage 3 [9, 1, 0, 0, 0, 0, 0]).wf = false ∧
    (Instr.unknownTileMessage 3 [9, 1]).wf = true := by decide +kernel

theorem test_wf_bitErrors : (Instr.scanComplete [(256, 1)]).wf = false ∧ (Instr.patchEditComplete [(256, 1)]).wf = false ∧
    (Instr.copyLineComplete [(256, 1)]).wf = false ∧ (Instr.scanComplete [(255, 1)]).wf = true := by decide +kernel

theorem test_wf_data : (Instr.data (hdr 1) 0 0 0 (List.replicate 8191 0)).wf = false ∧
    (Instr.data (hdr 1) 0 0 0 (List.replicate 8190 0)).wf = true := by
  simp only [Instr.wf, List.length_replicate]; decide

theorem test_wf_patch : (Instr.patch (hdr 1) 4 0 0 0 0 0 0 0 (List.replicate 8190 0)).wf = false ∧
    (Instr.patch (hdr 1) 4 0 0 0 0 0 0 0 (List.replicate 8189 0)).wf = true := by
  simp only [Instr.wf, List.length_replicate]; decide

/-! ## Frames and messages written out from R188, R189, R190 and R192 -/

theorem test_frame_configure :
    decodeFrame 0 [1, 7, 28, 0, 25, 0, 2, 4, 4,
      0x00, 0x01, 0x02, 0x03, 0x10, 0x11, 0x12, 0x13, 0x20, 0x21, 0x22, 0x23, 0x30, 0x31, 0x32, 255,
      1, 0x39, 0x30, 0, 0, 0, 0x80] =
    .configure (hdr 0) 25 512 4 4
      #v[0x00, 0x01, 0x02, 0x03, 0x10, 0x11, 0x12, 0x13, 0x20, 0x21, 0x22, 0x23, 0x30, 0x31, 0x32, 255] 1
      0x800000003039 := by decide +kernel

theorem test_frame_data :
    decodeFrame 1 [33, 7, 24, 0, 3, 2, 0, 1, 4, 3, 2, 1, 1, 2, 3, 4, 5, 6, 7, 8, 9, 0, 0, 0, 0, 0, 0, 0x80] =
    .data (hdr 1) 3 1 0x01020304 [0x0807060504030201, 0x8000000000000009] := by decide +kernel

theorem test_frame_patch :
    decodeFrame 1 [48, 7, 24, 0, 4, 2, 1, 3, 130, 17, 1, 0, 255, 0, 0, 0, 1, 0, 0, 0x80, 1, 0, 0, 0, 2, 0, 0, 0] =
    .patch (hdr 1) 4 2 1 3 130 17 255 0x80000001 [0x0000000200000001] := by decide +kernel

theorem test_frame_queueCut :
    decodeFrame 1 [72, 7, 15, 0, 2, 1, 2, 0, 0, 0, 0, 5, 1, 8, 1, 4, 0x21, 1, 3] =
    .queueCut (hdr 1) 2 0x201 0x105 8 [{ page := 4, offsets := 0x21, mode := 1, hold := 3 }] := by decide +kernel

theorem test_frame_defineGate :
    decodeFrame 0 [80, 7, 7, 0, 5, 1, 3, 2, 0x2C, 1, 0] = .defineGate (hdr 0) 5 1 3 2 300 [] := by decide +kernel

theorem test_frame_setZone : decodeFrame 0 [64, 7, 6, 0, 1, 1, 2, 0, 2, 4] = .setZone (hdr 0) 1 1 2 0 2 4 := by
  decide +kernel

theorem test_frame_loadBegin :
    decodeFrame 1 [32, 7, 8, 0, 4, 0, 0, 2, 0x78, 0x56, 0x34, 0x12] = .loadBegin (hdr 1) 4 0 0 2 0x12345678 := by
  decide +kernel

theorem test_frame_plain : decodeFrame 1 [16, 7, 5, 0, 0, 4, 4, 8, 25] = .createPage (hdr 1) 0 4 4 8 25 ∧
    decodeFrame 0 [96, 7, 1, 0, 15] = .retrainTile (hdr 0) 15 ∧ decodeFrame 3 [113, 7, 0, 0] = .readFault (hdr 3) ∧
    decodeFrame 2 [121, 7, 2, 0, 0xFF, 0x7F] = .setEventMask (hdr 2) 0x7FFF ∧
    decodeFrame 1 [49, 7, 4, 0, 4, 1, 6, 0] = .copy (hdr 1) 4 1 6 0 := by decide +kernel

theorem test_frame_bad : decodeFrame 1 [7, 1, 0, 0] = .badRequest 1 [7, 1, 0, 0] ∧
    decodeFrame 1 [33, 7, 8, 0, 3, 1, 0, 0, 0, 0, 0, 0] = .badRequest 1 [33, 7, 8, 0, 3, 1, 0, 0, 0, 0, 0, 0] ∧
    decodeFrame 1 [2] = .badRequest 1 [2] := by decide +kernel

theorem test_message : decodePanelMessage 3 [9, 1, 2, 0, 0, 0, 0] = .frameAck 3 0x201 ∧
    decodePanelMessage 3 [10, 1, 2, 0, 0, 0, 0] = .frameNak 3 0x201 ∧
    decodePanelMessage 3 [11, 2, 3, 4, 3, 2, 1] = .trainEcho 3 2 3 0x01020304 ∧
    decodePanelMessage 3 [12] = .unknownTileMessage 3 [12] := by decide +kernel

theorem test_replyBytes :
    Reply.bytes { code := 16, tag := 9, status := .noRoom, body := .noRoom true 64 96 } =
      [16, 9, 8, 5, 0, 1, 64, 0, 96, 0] ∧
    Reply.bytes { code := 32, tag := 1, status := .ok, body := .channel 2 } = [32, 1, 0, 1, 0, 2] := by decide +kernel

/-! ## Worked examples of the spec -/

/-- R11: cell 2, column 1, row 3 of a page of 4 by 4 with base slot 352 is in slot 397. -/
theorem test_slotOf : Page.slotOf { still with width := 4, height := 4, cells := 3, baseSlot := 352 } 2 1 3 = 397 := by
  decide +kernel

/-- R25: word 17 of line 130 of slot 397 lies in bank 0, row 3180, at byte 4232. -/
theorem test_place : place 397 130 17 = (0, 3180, 4232) := by decide +kernel

/-- R100: the page shows cell 2 on frame 2000. -/
theorem test_shownCell :
    shownCell { still with cells := 3 } { page := 4, col := 0, row := 0, mode := .loop, hold := none } 1800 2000 = some 2 := by
  decide +kernel

/-- Section 1.9, step f: the run of page 5 does not join the run above. -/
theorem test_slotMap_f : freeRun 128 64 [(480, 32)] = [(128, 64), (480, 32)] := by decide +kernel

/-- Section 1.9, step h: no run holds 80 slots; the longest is 64, and 96 are free. -/
theorem test_slotMap_h : allocRun 80 [(128, 64), (480, 32)] = none ∧ longestRun [(128, 64), (480, 32)] = 64 ∧
    freeSlots [(128, 64), (480, 32)] = 96 := by decide +kernel

/-- Section 1.9, steps i to k. -/
theorem test_slotMap_k : allocRun 32 [(128, 64), (480, 32)] = some (128, [(160, 32), (480, 32)]) ∧
    freeRun 192 128 [(160, 32), (480, 32)] = [(160, 160), (480, 32)] ∧
    allocRun 80 [(160, 160), (480, 32)] = some (160, [(240, 80), (480, 32)]) := by decide +kernel

/-- R35: two bits in error are UNCORRECTABLE, one is CORRECTED. -/
theorem test_classify : (classify 5 3).cls = .uncorrectable ∧ classify 4 1 = { cls := .corrected, data := 5 } ∧
    classify 5 0 = { cls := .clean, data := 5 } := by decide +kernel

/-! ## For each statement, states and operands that meet its hypotheses -/

theorem test_meets_StepTakesTheFrontCommand :
    ({ fresh with pending := [.frameBoundary, .loadComplete] } : State).pending = .frameBoundary :: [.loadComplete] ∧
      fresh.pending = [] := by decide +kernel

theorem test_meets_RequestsTakeTheirCourse :
    (Instr.queryPage (hdr 1) 255).request = some (hdr 1, 20, [255]) ∧ State.reset.ports[(1 : Port)].up = false ∧
      (hdr 1).stage ≠ .take ∧ (carrying (.queryPage (taken 1) 4) paged).ports[(1 : Port)].transit ≠ none ∧
      (Instr.queryPage (passed 1) 255).request = some (passed 1, 20, [255]) ∧ (passed 1).stage = .pass ∧
      (Instr.seizeZone (hdr 1) 3).request = some (hdr 1, 68, [3]) ∧
      paged.ports[(1 : Port)].up = true ∧ paged.ports[(1 : Port)].transit = none ∧ paged.window ≠ .unconfigured ∧
      fresh.ports[(1 : Port)].up = true ∧ fresh.ports[(1 : Port)].transit = none ∧ fresh.window = .unconfigured ∧
      hasForm [33, 7] = false ∧ hasForm [2] = false ∧ hasForm [2, 7, 0, 0] = true := by
  decide +kernel

/-- Port 1 with a request in transit and three behind it. -/
def queued : State :=
  paged.setPort 1 fun p =>
    { p with transit := some (.queryPage (taken 1) 4)
             waiting := [.getEvents (taken 1), .badRequest 1 [9, 8], .queryPage (taken 1) 5, .frameBoundary] }

theorem test_meets_WaitingRequestsAreExamined :
    let r := queued.taking (taken 1)
    queued.ports[(1 : Port)].up = true ∧ queued.ports[(1 : Port)].transit ≠ none ∧ paged.ports[(1 : Port)].waiting = [] ∧
      r.ports[(1 : Port)].up = true ∧ r.ports[(1 : Port)].transit = none ∧
      r.ports[(1 : Port)].waiting =
        [.getEvents (taken 1), .badRequest 1 [9, 8], .queryPage (taken 1) 5, .frameBoundary] ∧
      (Instr.queryPage (taken 1) 5).request = some (taken 1, 20, [5]) ∧ (0x7FFF : BitVec 16).getLsbD 15 = false := by
  decide +kernel

/-- A request is taken; of those behind it two are answered at the port, and the next is then in transit. -/
theorem test_waiting :
    exec (.queryPage (taken 1) 4) queued = .next
      { (paged.setPort 1 fun p =>
          { p with transit := some (.queryPage (taken 1) 5), waiting := [.frameBoundary] }) with
        out := [ .reply 1 { code := 20, tag := 7, status := .ok, body := .page (some still.info) },
                 .reply 1 { code := 120, tag := 7, status := .ok, body := .kinds 0 },
                 .reply 1 { code := 9, tag := 8, status := .badRequest, body := .none } ] } :=
  congrArg Host.Outcome.next (by decide +kernel)

theorem test_meets_OperatorRequestsAreDeniedToOthers :
    (Instr.resetWindow (hdr 3)).request = some (hdr 3, 2, []) ∧ fresh.reaches (.resetWindow (hdr 3)) (hdr 3) true ∧
      fresh.cls 3 ≠ .operator ∧
      (Instr.retrainTile (hdr 1) 0).request = some (hdr 1, 96, [0]) ∧
      paged.reaches (.retrainTile (hdr 1) 0) (hdr 1) ∧ paged.cls 1 ≠ .operator ∧
      (Instr.seizeZone (taken 1) 0).request = some (taken 1, 68, [0]) ∧
      (carrying (.seizeZone (taken 1) 0) paged).reaches (.seizeZone (taken 1) 0) (taken 1) ∧
      (carrying (.seizeZone (taken 1) 0) paged).cls 1 ≠ .operator := by decide +kernel

theorem test_meets_ClientLinksComeUpAndAreLost :
    State.reset.ports[(3 : Port)].up = false ∧ (withLoad blockLoad paged).ports[(1 : Port)].up = true ∧
      (withLoad blockLoad paged).load.chans[(0 : ChanId)] = some blockLoad ∧
      (∀ z : ZoneId, ((withLoad blockLoad paged).zone z).log.length ≤ 8) ∧
      ((withZone 0 (fun zn => { zn with armed := some (.gate 7 1 3) }) zoned).zone 0).armed =
        some (.gate 7 1 3) := by decide +kernel

theorem test_meets_EventsAreReportedAndMasked :
    (hdr 0).stage ≠ .take ∧ fresh.ports[(hdr 0).port].up = true ∧ fresh.ports[(hdr 0).port].transit = none ∧
      (0x7FFF : BitVec 16).getLsbD 15 = false ∧ (0x8000 : BitVec 16).getLsbD 15 = true := by decide +kernel

/-- Tile links 0 to 15 at the sixteen places of the grid, but the last unused. -/
def fifteen : Vector Byte 16 :=
  #v[0x00, 0x01, 0x02, 0x03, 0x10, 0x11, 0x12, 0x13, 0x20, 0x21, 0x22, 0x23, 0x30, 0x31, 0x33, 255]

theorem test_meets_ConfigureLightsTheWindow :
    fresh.reaches (.configure (hdr 0) 60 2048 4 4 fifteen 1 77) (hdr 0) true ∧ fresh.cls 0 = .operator ∧
      fresh.window = .unconfigured ∧ configureAdmitted 60 2048 4 4 fifteen 1 ∧
      fresh.reaches (.configure (hdr 0) 24 512 1 1 (Vector.replicate 16 255) 0 0) (hdr 0) true ∧
      configureAdmitted 24 512 1 1 (Vector.replicate 16 255) 0 := by and_intros <;> decide +kernel

theorem test_meets_ResetWindowClearsThePart :
    fresh.reaches (.resetWindow (hdr 0)) (hdr 0) true ∧ fresh.window = .unconfigured ∧ fresh.cls 0 = .operator ∧
      (editing [copyEdit] twoStills).reaches (.resetWindow (hdr 0)) (hdr 0) true ∧
      (editing [copyEdit] twoStills).window = .lit ∧ (editing [copyEdit] twoStills).cls 0 = .operator ∧
      (inWindow .dark paged).reaches (.resetWindow (hdr 0)) (hdr 0) true ∧ (inWindow .dark paged).window = .dark ∧
      (inWindow .dark paged).cls 0 = .operator := by decide +kernel

theorem test_meets_EpochsAndWindowChangesArePending :
    paged.reaches (.setEpoch (hdr 0) 0xFFFFFFFFFFFF) (hdr 0) ∧ paged.cls 0 = .operator ∧
      (0xFFFFFFFFFFFF : BitVec 48).toNat ≠ paged.scene.frame ∧
      paged.reaches (.setEpoch (hdr 0) 100) (hdr 0) ∧ (100 : BitVec 48).toNat = paged.scene.frame ∧
      paged.reaches (.darken (hdr 0) 1 0) (hdr 0) ∧ paged.window = .lit ∧
      (inWindow .dark paged).reaches (.darken (hdr 0) 0 0) (hdr 0) ∧ (inWindow .dark paged).window ≠ .lit ∧
      (inWindow .dark paged).cls 0 = .operator ∧
      (inWindow .dark paged).reaches (.wake (hdr 0) 1 0) (hdr 0) ∧ (inWindow .dark paged).window = .dark ∧
      paged.reaches (.wake (hdr 0) 0 0) (hdr 0) ∧ paged.window ≠ .darkening ∧ paged.window ≠ .dark := by
  decide +kernel

theorem test_meets_QueriesReportAndChangeNothing :
    fresh.reaches (.queryWindow (hdr 3)) (hdr 3) true ∧ paged.reaches (.queryChannel (hdr 3) 3) (hdr 3) ∧
      (3 : Byte).toNat = (3 : ChanId).val ∧ paged.reaches (.queryChannel (hdr 3) 4) (hdr 3) ∧ 4 ≤ (4 : Byte).toNat ∧
      paged.reaches (.queryZone (hdr 3) 3) (hdr 3) ∧ paged.reaches (.queryZone (hdr 3) 4) (hdr 3) ∧
      paged.reaches (.queryGate (hdr 3) 7) (hdr 3) ∧ (7 : Byte).toNat = (7 : GateId).val ∧
      paged.reaches (.queryGate (hdr 3) 8) (hdr 3) ∧ 8 ≤ (8 : Byte).toNat := by decide +kernel

theorem test_meets_QueryPageReportsTheEntry :
    paged.reaches (.queryPage (hdr 3) 3) (hdr 3) ∧ (3 : Handle).toNat < 4 ∧ paged.reaches (.queryPage (hdr 3) 255) (hdr 3) ∧
      4 ≤ (255 : Handle).toNat ∧ paged.page 255 = none ∧ paged.reaches (.queryPage (hdr 3) 4) (hdr 3) ∧
      4 ≤ (4 : Handle).toNat ∧ paged.page 4 = some still := by decide +kernel

theorem test_meets_StoreRequestsReportTheStore :
    paged.reaches (.queryStore (hdr 3)) (hdr 3) ∧ fresh.window = .unconfigured ∧
      fresh.ports[(hdr 3).port].up = true ∧ fresh.ports[(hdr 3).port].transit = none ∧
      fresh.reaches (.readFault (hdr 3)) (hdr 3) true ∧ fresh.cls 3 ≠ .operator ∧
      fresh.reaches (.readFault (hdr 0)) (hdr 0) true ∧ fresh.cls 0 = .operator := by decide +kernel

/-- A directory with no handle left. -/
def crowded : State := { lit with dir := { lit.dir with pages := Vector.replicate 256 (some still) } }

theorem test_meets_CreatePageAllocatesFirstFit :
    paged.reaches (.createPage (hdr 1) 0 4 4 16 255) (hdr 1) ∧ paged.cls 1 ≠ .monitor ∧ createAdmitted 0 4 4 16 255 ∧
      4 ≤ (6 : Handle).toNat ∧ paged.page 6 = none ∧
      (∀ k : Handle, 4 ≤ k.toNat → k.toNat < (6 : Handle).toNat → paged.page k ≠ none) ∧
      paged.dir.free = [] ++ (4, 508) :: [] ∧ 256 ≤ 508 ∧
      crowded.reaches (.createPage (hdr 1) 1 1 1 2 0) (hdr 1) ∧ crowded.cls 1 ≠ .monitor ∧ createAdmitted 1 1 1 2 0 ∧
      (∀ k : Handle, 4 ≤ k.toNat → crowded.page k ≠ none) := by decide +kernel

theorem test_meets_CreatePageAllocatesFirstFit_noRun :
    let s : State := { paged with dir := { paged.dir with free := [(4, 1), (300, 2)] } }
    s.reaches (.createPage (hdr 1) 0 1 1 3 1) (hdr 1) ∧ s.cls 1 ≠ .monitor ∧ createAdmitted 0 1 1 3 1 ∧
      (∃ k : Handle, 4 ≤ k.toNat ∧ s.page k = none) ∧ (∀ r ∈ s.dir.free, r.2 < 3) := by decide +kernel

theorem test_meets_PagesAreDeletedAndShared :
    paged.reaches (.deletePage (hdr 1) 4) (hdr 1) ∧ deletable paged 1 4 still ∧
      paged.reaches (.purgePages (hdr 0) 1 1) (hdr 0) ∧ paged.cls 0 = .operator ∧ (1 : Byte).toNat = (1 : Port).val ∧
      purged (withPage 6 { still with shared := false } paged) 1 true 6 { still with shared := false } ∧
      paged.reaches (.setPageRights (hdr 0) 4 0 0x0E 0x0E) (hdr 0) ∧ 4 ≤ (4 : Handle).toNat ∧
      paged.page 4 = some still ∧ (0x0E : Byte) &&& 0xF1 = 0 := by
  decide +kernel

theorem test_meets_LoadBeginBindsAChannel :
    paged.reaches (.loadBegin (hdr 1) 4 0 1 1 0) (hdr 1) ∧ blockLoadAdmitted paged 1 4 still 1 1 0 ∧
      blockLoadAdmitted paged 1 4 still 0 2 0 ∧
      (withLoad blockLoad paged).reaches (.loadBegin (hdr 2) 5 1 0 0 0) (hdr 2) ∧
      ringLoadAdmitted (withLoad blockLoad paged) 2 5 live 1 := by and_intros <;> decide +kernel

theorem test_meets_DataJoinsTheBuffer :
    let s := withLoad { ringLoad with wordsReceived := 65535 } paged
    let r := withLoad { blockLoad with wordsReceived := 0 } paged
    s.reaches (.data (hdr 2) 0 1 9 [1]) (hdr 2) ∧ dataAdmitted s 2 0 1 [1] 0 { ringLoad with wordsReceived := 65535 } ∧
      r.reaches (.data (hdr 1) 0 0 0 (List.replicate 256 1)) (hdr 1) ∧
      dataAdmitted r 1 0 0 (List.replicate 256 1) 0 { blockLoad with wordsReceived := 0 } := by decide +kernel

theorem test_meets_LoadAbortEndsTheLoad :
    let s := withLoad ringLoad paged
    let r := withLoad blockLoad paged
    s.reaches (.loadAbort (hdr 0) 0) (hdr 0) ∧ s.load.chans[(0 : ChanId)] = some ringLoad ∧ s.cls 0 = .operator ∧
      r.reaches (.loadAbort (hdr 1) 0) (hdr 1) ∧ r.load.chans[(0 : ChanId)] = some blockLoad ∧ blockLoad.port = 1 := by
  decide +kernel

theorem test_meets_LoadCompleteWritesTheLine :
    let s := running (.load 0 1 255 [1, 2]) (withLoad { blockLoad with linesWritten := 7 } paged)
    let r := { s with store := { s.store with
      running := some { job := .load 0 1 255 [1, 2], discard := true, dropped := false } } }
    s.memoryOk ∧ runs s (.load 0 1 255 [1, 2]) ∧ runs r (.load 0 1 255 [1, 2]) true ∧
      s.load.chans[(0 : ChanId)] = some { blockLoad with linesWritten := 7 } ∧ (7 + 1) * 256 ≠ 131072 ∧
      (511 + 1) * 256 = blockLoad.wordsExpected :=
  ⟨⟨rfl, rfl⟩, by decide +kernel⟩

theorem test_meets_LastLineEndsTheLoadOrTheCell :
    let b := running (.load 0 1 255 []) (withLoad blockLoad paged)
    let f := running (.load 0 1 255 []) (withLoad { blockLoad with mode := .block 0 2 5 } paged)
    let r := running (.load 0 1 255 []) (withLoad ringLoad paged)
    let q := running (.load 0 1 255 []) (withLoad { ringLoad with check := 1 } paged)
    (runs b (.load 0 1 255 []) ∧ b.load.chans[(0 : ChanId)] = some blockLoad ∧ (511 + 1) * 256 = blockLoad.wordsExpected ∧
      b.page 4 = some still ∧ blockLoad.mode = .block 0 2 0 ∧ blockLoad.check = 0) ∧
    (runs f (.load 0 1 255 []) ∧ blockLoad.check ≠ 5) ∧
    (runs r (.load 0 1 255 []) ∧ r.load.chans[(0 : ChanId)] = some ringLoad ∧ (255 + 1) * 256 = ringLoad.wordsExpected ∧
      r.page 5 = some live ∧ ringLoad.mode = .ring 1 (some 0) ∧ ringLoad.check = 0 ∧
      (5, (1 + 1) % live.cells) ∉ r.load.latched ∧
      (5, (1 + 1) % live.cells) ∈ ({ r with load := { r.load with latched := [(5, 0)] } } : State).load.latched) ∧
    (runs q (.load 0 1 255 []) ∧ some ringLoad.check ≠ some 1 ∧ (5, 1) ∉ q.load.latched) := by decide +kernel

theorem test_meets_AnnouncementsReplaceTheLatchedSet :
    let s := withLoad { ringLoad with waiting := true } { paged with mail := { paged.mail with toLoad := [[(5, 1)], []] } }
    s.mail.toLoad = [(5, 1)] :: [[]] ∧ s.load.chans[(0 : ChanId)] = some { ringLoad with waiting := true } ∧
      (5, 1) ∈ [((5 : Handle), 1)] ∧ (5, 1) ∉ ([] : List Latch) := by decide +kernel

theorem test_meets_EditsAreAccepted :
    let s := editing [copyEdit] paged
    let r := running .refresh paged
    s.reaches (.patch (hdr 1) 4 1 0 0 255 255 0 0 [1]) (hdr 1) ∧ patchAdmitted s 1 4 still 1 0 0 255 1 ∧
      s.edit.queue ≠ [] ∧
      r.reaches (.patch (hdr 1) 4 1 0 0 255 0 0 0 [1]) (hdr 1) ∧ patchAdmitted r 1 4 still 1 0 0 0 256 ∧
      r.edit.queue = [] ∧
      twoStills.reaches (.copy (hdr 1) 4 1 6 1) (hdr 1) ∧
      copyAdmitted twoStills 1 4 6 still { partly with baseSlot := 4 } 1 1 ∧
      twoStills.reaches (.copy (hdr 1) 3 0 6 1) (hdr 1) ∧
      patternCopyAdmitted twoStills 1 3 6 { partly with baseSlot := 4 } 0 1 := by
  intro s r; and_intros <;> decide +kernel

theorem test_meets_CancelEditRemovesTheEdit :
    let s := editing [patchEdit, copyEdit] twoStills
    s.reaches (.cancelEdit (hdr 3)) (hdr 3) ∧ (∀ e ∈ s.edit.queue, e.port ≠ 3) ∧
      s.reaches (.cancelEdit (hdr 1)) (hdr 1) ∧ s.edit.queue = [] ++ patchEdit :: [copyEdit] ∧ patchEdit.port = 1 ∧
      s.reaches (.cancelEdit (hdr 2)) (hdr 2) ∧ s.edit.queue = [patchEdit] ++ copyEdit :: [] ∧ copyEdit.port = 2 ∧
      (∀ x ∈ [patchEdit], x.port ≠ 2) ∧ [patchEdit] ≠ [] := by decide +kernel

/-- A PATCH of two words of which the second has two bits in error. -/
def patching : State :=
  stored 0 3 1 5 3 (running (.patch 1 0 3 0 0xFF 0xFFFFFFFF [9, 9]) (editing [patchEdit, copyEdit] twoStills))

theorem test_meets_PatchCompleteMergesTheRun :
    patching.memoryOk ∧ patching.scrubOk ∧ runs patching (.patch 1 0 3 0 0xFF 0xFFFFFFFF [9, 9]) ∧
      patching.edit.queue = patchEdit :: [copyEdit] ∧
      (∃ pg cell x y l w a b us, patchEdit.job = .patch pg cell x y l w a b us) ∧
      (patching.store.readWord 0 3 1).cls = .uncorrectable ∧ (patching.store.readWord 0 3 0).cls = .clean :=
  ⟨⟨by decide +kernel, by decide +kernel⟩, ⟨by decide +kernel, by decide +kernel, by decide +kernel⟩,
    by decide +kernel, by decide +kernel, ⟨4, 0, 0, 0, 3, 0, 0xFF, 0xFFFFFFFF, [0, 0], rfl⟩, by decide +kernel, by decide +kernel⟩

/-- A COPY from a source, one line before its last or at its last. -/
def copying (src : CopySource) (e : Edit) : State := running (.copy 2 src 5 255) (editing [e] twoStills)

theorem test_meets_CopyCompleteMovesTheLine :
    let s := copying (.slot 1) copyEdit
    let r := stored 1 255 255 0 3 s
    let p := copying (.pattern 3) copyEdit
    s.memoryOk ∧ s.scrubOk ∧ r.scrubOk ∧ s.edit.queue = { port := 2, tag := 8, job := .copy 4 1 6 1 255 } :: [] ∧ 4 ≤ (6 : Handle).toNat ∧
      s.page 6 = some { partly with baseSlot := 4 } ∧ runs s (.copy 2 (.slot 1) 5 255) ∧ 255 + 1 = 1 * 1 * 256 ∧
      (∀ w, w < 256 → (s.store.readWord 1 255 w).cls ≠ .uncorrectable) ∧
      r.memoryOk ∧ runs r (.copy 2 (.slot 1) 5 255) ∧ (r.store.readWord 1 255 255).cls = .uncorrectable ∧
      runs p (.copy 2 (.pattern 3) 5 255) :=
  ⟨⟨rfl, rfl⟩, ⟨by decide +kernel, by decide +kernel, by decide +kernel⟩,
    ⟨by decide +kernel, by decide +kernel, by decide +kernel⟩, by decide +kernel, by decide +kernel, by decide +kernel,
    by decide +kernel, by decide +kernel, by decide +kernel, ⟨by decide +kernel, by decide +kernel⟩, by decide +kernel, by decide +kernel, by decide +kernel⟩

theorem test_meets_SetZoneMovesTheTiles :
    zoned.reaches (.setZone (hdr 0) 1 1 2 0 2 4) (hdr 0) ∧ zoned.cls 0 = .operator ∧ (1 : Byte).toNat = (1 : ZoneId).val ∧
      rectAdmitted zoned 1 { rate := 25, cols := 4, rows := 4 } { col := 2, row := 0, cols := 2, rows := 4 } ∧
      rectAdmitted zoned 0 { rate := 25, cols := 4, rows := 4 } { col := 3, row := 3, cols := 1, rows := 1 } ∧
      zoned.reaches (.setZone (hdr 0) 0 0 0 0 0 0) (hdr 0) ∧ zoned.idleZone 0 = true ∧ (zoned.zone 0).holder = some 1 ∧
      zoned.units[(0 : Tile)].position.any (fun p => (zoned.zone 0).rect.any (·.covers p)) = true ∧
      zoned.units[(2 : Tile)].position.any (fun p => (zoned.zone 0).rect.any (·.covers p)) = false := by
  and_intros <;> decide +kernel

theorem test_meets_ZonesAreClaimedAndReleased :
    let free := withZone 0 (fun zn => { zn with holder := none }) zoned
    free.reaches (.claimZone (hdr 1) 0) (hdr 1) ∧ free.cls 1 = .playout ∧ (free.zone 0).rect ≠ none ∧
      (free.zone 0).holder = none ∧
      zoned.reaches (.claimZone (hdr 0) 0) (hdr 0) ∧ zoned.cls 0 = .operator ∧ (zoned.zone 0).holder = some 1 ∧
      zoned.reaches (.handOver (hdr 1) 0 0) (hdr 1) ∧ holds zoned 1 0 0 ∧ zoned.ports[(0 : Port)].up = true ∧
      zoned.reaches (.handOver (hdr 1) 0 1) (hdr 1) ∧ zoned.cls 1 = .playout ∧
      zoned.reaches (.seizeZone (hdr 0) 0) (hdr 0) ∧ (zoned.zone 0).holder ≠ some 0 ∧
      holds (withZone 0 (fun zn => { zn with holder := some 0 }) zoned) 0 0 0 ∧
      (withZone 0 (fun zn => { zn with holder := some 0 }) zoned).reaches (.seizeZone (hdr 0) 0) (hdr 0) := by
  intro _; and_intros <;> decide +kernel

/-- Zone 0 with cuts queued. -/
def cutsQueued : State := withZone 0 (fun zn => { zn with cuts := [aCut 102, aCut 105] }) zoned

/-- Zone 0 with its head cut armed and fetched for frame 100. -/
def cutFetched : State :=
  withZone 0 (fun zn => { zn with armed := some .cut, fetch := some { frame := 100, armed := true, latched := [] }
                                  inStep := 0x3, delivered := 0x3 }) cutsQueued

theorem test_meets_ZonesAreClaimedAndReleased_released :
    cutFetched.reaches (.releaseZone (hdr 1) 0) (hdr 1) ∧ holds cutFetched 1 0 0 ∧ (cutFetched.zone 0).log.length ≤ 8 ∧
      (cutFetched.zone 0).armed = some .cut ∧ (cutFetched.zone 0).fetch.any (·.armed) = true ∧
      cutsQueued.reaches (.releaseZone (hdr 1) 0) (hdr 1) ∧ holds cutsQueued 1 0 0 := by decide +kernel

/-- A scene of one placement is without overlap. -/
theorem alone (s : State) (x : RawPlacement) : liesApart s [x] := List.pairwise_singleton _ _

/-- A placement of a pattern page with its one cell held, at the last position of zone 0. -/
def heldPattern : RawPlacement := { page := 3, offsets := 0x31, mode := 1, hold := 0 }

/-- A placement of the LIVE page. -/
def rawLive : RawPlacement := { page := 5, offsets := 0x30, mode := 2, hold := 255 }

theorem test_meets_CutsAreQueuedAndWithdrawn_scenes :
    sceneAdmitted cutsQueued 0 1 [rawStill] ∧ sceneAdmitted zoned 0 1 [] ∧ sceneAdmitted zoned 0 1 [heldPattern] ∧
      sceneAdmitted zoned 0 1 [rawLive] :=
  ⟨⟨by decide +kernel, by decide +kernel, by decide +kernel, by decide +kernel, by decide +kernel, alone _ _⟩,
    ⟨by decide +kernel, by decide +kernel, by decide +kernel, by decide +kernel, by decide +kernel, .nil⟩,
    ⟨by decide +kernel, by decide +kernel, by decide +kernel, by decide +kernel, by decide +kernel, alone _ _⟩,
    ⟨by decide +kernel, by decide +kernel, by decide +kernel, by decide +kernel, by decide +kernel, alone _ _⟩⟩

/-- The scene checks in order: a FREE page, a DAMAGED one, one not shared, then a mode, a place and an overlap. -/
theorem test_meets_CutsAreQueuedAndWithdrawn_refused :
    cutAsked zoned 1 0 102 0 [rawStill, rawStill] 0 ∧ cutAsked zoned 1 0 102 0 [rawStill] 0 ∧
      sceneRefused zoned 0 1 [{ rawStill with page := 6 }] .noSuch ∧
      sceneRefused (withPage 4 { still with state := .damaged, shared := false } zoned) 0 2 [rawStill] .state ∧
      sceneRefused (withPage 4 { still with shared := false } zoned) 0 2 [{ rawStill with mode := 3 }] .denied ∧
      sceneRefused zoned 0 1 [{ rawStill with mode := 1, hold := 2 }] .badField ∧
      sceneRefused zoned 0 1 [{ rawStill with offsets := 0x02 }] .badField ∧
      sceneRefused zoned 0 1 [rawStill, rawStill] .badField := by
  refine ⟨by decide +kernel, by decide +kernel, .inl ?_, .inr (.inl ?_), .inr (.inr (.inl ?_)), ?_, ?_, ?_⟩
  · decide +kernel
  · decide +kernel
  · decide +kernel
  · exact .inr (.inr (.inr ⟨by decide +kernel, by decide +kernel, by decide +kernel,
      fun h => absurd h.1 (by decide +kernel), rfl⟩))
  · exact .inr (.inr (.inr ⟨by decide +kernel, by decide +kernel, by decide +kernel,
      fun h => absurd h.2.1 (by decide +kernel), rfl⟩))
  · refine .inr (.inr (.inr ⟨by decide +kernel, by decide +kernel, by decide +kernel, fun h => ?_, rfl⟩))
    have covers : coversPos zoned (placementOf rawStill) (0, 0) := by unfold coversPos; decide +kernel
    exact (List.pairwise_cons.mp h.2.2).1 rawStill (by simp) (0, 0) ⟨covers, covers⟩

theorem test_meets_CutsAreQueuedAndWithdrawn :
    cutsQueued.reaches (.queueCut (hdr 1) 0 103 6 8 [rawStill]) (hdr 1) ∧ cutAsked cutsQueued 1 0 103 8 [rawStill] 0 ∧
      zoned.reaches (.queueCut (hdr 1) 0 102 6 0 []) (hdr 1) ∧ cutAsked zoned 1 0 102 0 [] 0 ∧
      cutFetched.reaches (.withdrawCut (hdr 1) 0 105) (hdr 1) ∧ cutFetched.cls 1 = .playout ∧ holds cutFetched 1 0 0 ∧
      (cutFetched.zone 0).cuts = [aCut 102] ++ aCut 105 :: [] ∧ (aCut 105).target = (105 : BitVec 48).toNat ∧
      (∀ x ∈ [aCut 102], x.target ≠ (105 : BitVec 48).toNat) ∧
      ¬ ((cutFetched.zone 0).armed = some .cut ∧ [aCut 102] = []) := by decide +kernel

theorem test_meets_ClearGateDropsTheDefinition :
    let s := gated aGate zoned
    let r := gated { aGate with use := .active 1 } zoned
    fresh.window = .unconfigured ∧ fresh.ports[(hdr 0).port].up = true ∧ fresh.ports[(hdr 0).port].transit = none ∧
      s.reaches (.clearGate (hdr 1) 7) (hdr 1) ∧ s.cls 1 ≠ .operator ∧ s.reaches (.clearGate (hdr 0) 8) (hdr 0) ∧
      s.cls 0 = .operator ∧ r.reaches (.clearGate (hdr 0) 7) (hdr 0) ∧ r.cls 0 = .operator ∧
      (∀ e ∈ r.gate 7, e.use ≠ .defined) ∧ s.reaches (.clearGate (hdr 0) 7) (hdr 0) ∧ s.gate 7 = some aGate ∧
      aGate.use = .defined := by decide +kernel

theorem test_meets_GatesAreDefinedInvokedAndReturned :
    let s := gated aGate zoned
    let r := withZone 0 (fun zn => { zn with current := { zn.current with kind := .gate 7, invoker := some 2 } }) zoned
    s.reaches (.defineGate (hdr 0) 7 0 3 3 65535 [rawStill]) (hdr 0) ∧ gateAsked s 0 7 0 3 3 [rawStill] 7 0 ∧
      s.reaches (.defineGate (hdr 0) 0 0 1 1 0 []) (hdr 0) ∧ gateAsked s 0 0 0 1 1 [] 0 0 ∧ sceneAdmitted s 0 0 [] ∧
      sceneRefused s 0 0 [{ rawStill with page := 6 }] .noSuch ∧ gateAsked s 0 0 0 1 1 [{ rawStill with page := 6 }] 0 0 ∧
      s.reaches (.invokeGate (hdr 2) 7) (hdr 2) ∧ invocationAdmitted s 2 7 7 aGate ∧
      r.reaches (.returnGate (hdr 2) 0) (hdr 2) ∧ returnAdmitted r 2 0 0 := by
  intro s r
  have refused : sceneRefused s 0 0 [{ rawStill with page := 6 }] .noSuch := .inl (by decide +kernel)
  and_intros <;> first | exact refused | exact .nil | decide +kernel

theorem test_meets_QueryTileReportsTheUnit :
    fresh.window = .unconfigured ∧ lit.reaches (.queryTile (hdr 3) 16) (hdr 3) ∧ 16 ≤ (16 : Byte).toNat ∧
      lit.reaches (.queryTile (hdr 3) 15) (hdr 3) ∧ (15 : Byte).toNat = (15 : Tile).val := by decide +kernel

/-- A fetch of frame 100 from a slot. -/
def slotFetch : UnitFetch :=
  { frame := 100, source := .slot 4 0, requested := 256, sent := 255, endSent := false, sum := 0 }

/-- Tile 15 with that fetch. -/
def fetching (f : UnitFetch) (s : State) : State := withUnit 15 (fun u => { u with fetch := some f }) s

theorem test_meets_AnswersAndReportsAreTaken :
    let f := { slotFetch with endSent := true }
    judging (fetching f lit).units[(15 : Tile)] ∧ (fetching f lit).units[(15 : Tile)].fetch = some f ∧
      f.frame = (100 : BitVec 48).toNat ∧ lit.units[(15 : Tile)].fetch = none := by decide +kernel

/-- Tile 15 in training, in an attempt. -/
def trainee (failed : Nat) (matched : BitVec 4) : State :=
  withUnit 15 (fun u => { u with state := .training, attempts := failed, matched := matched, timer := true }) lit

theorem test_meets_TrainingSucceedsOrFails :
    let u := (trainee 1 0b0111).units[(15 : Tile)]
    let v := (trainee 2 0b0001).units[(15 : Tile)]
    u.state = .training ∧ (2 : Byte).toNat = u.attempts + 1 ∧ (3 : Byte).toNat = (3 : PatternId).val ∧
      u.matched.getLsbD 3 = false ∧ insertBit u.matched 3 = BitVec.allOnes 4 ∧ u.attempts < 2 ∧ u.timer = true ∧
      v.state = .training ∧ (3 : Byte).toNat = v.attempts + 1 ∧ v.matched.getLsbD 1 = false ∧
      insertBit v.matched 1 ≠ BitVec.allOnes 4 ∧ v.attempts = 2 ∧ v.timer = true := by decide +kernel

/-- Echoes of another attempt, of a pattern matched, of a pattern above 3 and at a unit that is not TRAINING; and a unit
whose timer does not run. -/
theorem test_meets_TrainingSucceedsOrFails_ignored :
    let u := (trainee 1 0b0111).units[(15 : Tile)]
    let awaited (u : TileUnit) (attempt pattern : Byte) (p : PatternId) : Prop :=
      u.state = .training ∧ attempt.toNat = u.attempts + 1 ∧ pattern.toNat = p.val ∧ u.matched.getLsbD p.val = false
    (∀ p, ¬ awaited u 3 3 p) ∧ (∀ p, ¬ awaited u 2 2 p) ∧ (∀ p, ¬ awaited u 2 4 p) ∧
      (∀ p, ¬ awaited { u with state := .joining } 2 3 p) ∧ fresh.units[(15 : Tile)].timer = false := by
  decide +kernel

theorem test_meets_FetchOrdersBeginTheFetch :
    let s := sent (.fetch 101 (.slot 4 0) true) (running .refresh (withUnit 15 (fun u => { u with state := .joining }) lit))
    let b := sent (.fetch 101 (.slot 4 0) false) (running (.scan 15 0 3) (fetching slotFetch lit))
    let r := sent (.fetch 101 (.pattern 2) true) (withUnit 15 (fun u => { u with state := .joining }) lit)
    let q := sent (.fetch 101 (.pattern 2) true) (withUnit 15 (fun u => { u with state := .lost }) lit)
    (s.mail.toUnit[(15 : Tile)] = .fetch 101 (.slot 4 0) true :: [] ∧ judging s.units[(15 : Tile)] ∧
      s.store.running = some { job := .refresh, discard := false, dropped := false }) ∧
    (b.mail.toUnit[(15 : Tile)] = .fetch 101 (.slot 4 0) false :: [] ∧ judging b.units[(15 : Tile)] ∧
      b.store.running = some { job := .scan 15 0 3, discard := false, dropped := false } ∧
      (TransferJob.scan 15 0 3).isScanOf 15 = true) ∧
    (r.mail.toUnit[(15 : Tile)] = .fetch 101 (.pattern 2) true :: [] ∧ judging r.units[(15 : Tile)] ∧
      r.units[(15 : Tile)].state = .joining) ∧
    (q.mail.toUnit[(15 : Tile)] = .fetch 101 (.pattern 2) true :: [] ∧ ¬ judging q.units[(15 : Tile)]) := by
  and_intros <;> decide +kernel

theorem test_meets_VerdictsReachThePanel :
    let s (st : TileState) (miss rejoin : Nat) (d : Bool) :=
      sent (.verdict (.showFrame 100) d) (withUnit 15 (fun u => { u with state := st, miss := miss, rejoin := rejoin }) lit)
    (s .joining 0 0 true).mail.toUnit[(15 : Tile)] = .verdict (.showFrame 100) true :: [] ∧
      (s .joining 0 0 true).units[(15 : Tile)].state = .joining ∧ (s .lost 0 0 true).units[(15 : Tile)].state = .lost ∧
      (s .inStep 6 0 false).units[(15 : Tile)].miss < 7 ∧ (s .inStep 6 0 false).units[(15 : Tile)].state = .inStep ∧
      (s .inStep 7 0 false).units[(15 : Tile)].miss = 7 ∧
      (s .lagging 8 0 true).units[(15 : Tile)].rejoin ≠ 1 ∧
      (s .lagging 8 1 true).units[(15 : Tile)].rejoin = 1 ∧ (s .lagging 8 1 true).units[(15 : Tile)].state = .lagging := by
  decide +kernel

theorem test_meets_UnitsAreStartedAndStopped :
    let s := sent .powerOn { lit with units := Vector.replicate 16 (TileUnit.initial true) }
    let r := withUnit 15 (fun u => { u with state := .lost, power := false }) lit
    r.reaches (.retrainTile (hdr 0) 15) (hdr 0) ∧ retrainAdmitted r 0 15 15 ∧
      (sent .powerOn lit).mail.toUnit[(15 : Tile)] = .powerOn :: [] ∧ (sent .powerOn lit).units[(15 : Tile)].state ≠ .off ∧
      s.mail.toUnit[(15 : Tile)] = .powerOn :: [] ∧ s.units[(15 : Tile)].state = .off ∧
      (sent .powerOff lit).mail.toUnit[(15 : Tile)] = .powerOff :: [] ∧
      (sent .powerOff lit).units[(15 : Tile)].state ≠ .lost ∧ State.reset.units[(15 : Tile)].state = .off ∧
      lit.units[(15 : Tile)].state ≠ .off ∧ lit.units[(15 : Tile)].state ≠ .lost := by
  and_intros <;> decide +kernel

theorem test_meets_AnswersAndReportsAreTaken_reports :
    let s (c : Option Ctx) (r : UnitReport) := told r (withUnit 15 (fun u => { u with ctx := c }) lit)
    (s (some (.zone 3)) (.delivery 100)).mail.toScene[(15 : Tile)] = .delivery 100 :: [] ∧
      (s (some (.zone 3)) (.delivery 100)).units[(15 : Tile)].ctx = some (.zone 3) ∧
      (s none (.state .lost)).mail.toScene[(15 : Tile)] = .state .lost :: [] ∧
      (s none (.state .lost)).units[(15 : Tile)].ctx = none ∧
      (s (some .background) (.state .inStep)).units[(15 : Tile)].ctx = some .background := by decide +kernel

theorem test_meets_FrameBoundaryStartsTheNextFrame : fresh.scene.timer = false ∧ cutFetched.scene.timer = true := by
  decide +kernel

theorem test_meets_VerdictsJudgeTheFetch :
    let some' := withZone 0 (fun zn => { zn with delivered := 0x1 }) cutFetched
    let let' := withZone 0 (fun zn => { zn with cuts := [{ aCut 102 with released := true }] }) some'
    (zoned.zone 0).fetch = none ∧
      (cutFetched.zone 0).fetch = some { frame := 100, armed := true, latched := [] } ∧
      (cutFetched.zone 0).armed = some .cut ∧ (cutFetched.zone 0).cuts = aCut 102 :: [aCut 105] ∧
      wholeIn (cutFetched.zone 0) ∧ ¬ wholeIn (some'.zone 0) ∧ (some'.zone 0).fetch = (cutFetched.zone 0).fetch ∧
      ¬ ((some'.zone 0).cuts.head?.any (·.released) = true) ∧ ¬ wholeIn (let'.zone 0) ∧
      (let'.zone 0).cuts = { aCut 102 with released := true } :: [] := by
  decide +kernel

/-- Zone 0 with an item armed and fetched for frame 100, a gate current and the playlist beneath it. -/
def gateFetched (a : Armed) : State :=
  withZone 0 (fun zn =>
    { zn with armed := some a, fetch := some { frame := 100, armed := true, latched := [] }, stack := [.blank]
              current := { Context.blank with kind := .gate 7, remaining := some 0, invoker := some 1 } })
    (gated aGate zoned)

theorem test_meets_GatesAndReturnsAreShown :
    let s := gateFetched (.gate 7 1 0)
    let r := gateFetched .ret
    (s.zone 0).fetch = some { frame := 100, armed := true, latched := [] } ∧ wholeIn (s.zone 0) ∧
      (s.zone 0).armed = some (.gate 7 1 0) ∧ s.gate 7 = some aGate ∧ (r.zone 0).armed = some .ret ∧
      (r.zone 0).stack = [] ++ [.blank] ∧ (r.zone 0).current.kind = .gate 7 ∧ (r.zone 0).current.invoker = some 1 := by
  decide +kernel

/-- Zone 0 at a later frame, with something armed and pending. -/
def choosing (frame : Nat) (a : Option Armed) (p : Option PendingItem) (s : State) : State :=
  let s := withZone 0 (fun zn => { zn with armed := a, pend := p }) s
  { s with scene := { s.scene with frame := frame } }

theorem test_meets_ChoiceClearsAndArms :
    let cut (n : Nat) : State := choosing n (some .cut) none cutsQueued
    let gate (k : Nat) (p : Option PendingItem) : State := choosing 100 (some (.gate 7 1 k)) p (gated aGate zoned)
    let spent : State := choosing 100 none none (gateFetched .ret)
    ((cut 100).zone 0).cuts = aCut 102 :: [aCut 105] ∧ ((cut 100).zone 0).armed = some .cut ∧
      (aCut 102).target + (aCut 102).slip < (cut 110).scene.frame + 1 ∧
      (cut 104).scene.frame + 1 ≤ (aCut 102).target + (aCut 102).slip ∧
      (aCut 105).target ≤ (cut 104).scene.frame + 1 ∧ (cut 100).scene.frame + 1 < (aCut 102).target ∧
      ((gate 8 none).zone 0).armed = some (.gate 7 1 8) ∧
      keepsArmed (choosing 101 (some .cut) (some (.invocation 7 2)) cutsQueued) 0 ∧
      keepsArmed (choosing 101 none (some .ret) (gateFetched .ret)) 0 ∧ keepsArmed (gate 7 none) 0 ∧
      ((spent.zone 0).armed = none ∧ (spent.zone 0).pend = none ∧ (spent.zone 0).current.kind ≠ .playlist ∧
        (spent.zone 0).current.remaining = some 0) := by
  intro _ _ _
  refine ⟨?_, ?_, ?_, ?_, ?_, ?_, ?_, ?_, trivial, (by decide : 7 < 8), ?_, ?_, ?_, ?_⟩ <;> try decide +kernel
  rintro c later h
  obtain ⟨rfl, rfl⟩ : aCut 102 = c ∧ [aCut 105] = later := by
    have h' : aCut 102 :: [aCut 105] = c :: later := h
    exact ⟨(List.cons.inj h').1, (List.cons.inj h').2⟩
  decide +kernel

theorem test_meets_DueCutsAreSettled :
    let s (n : Nat) : State := choosing n none none cutsQueued
    let r : State := withZone 0 (fun zn => { zn with stack := [.blank] }) (s 104)
    unarmed ((s 104).zone 0) ∧ dueCuts (s 104) 0 [aCut 102] (aCut 105) [] ∧ dueCuts (s 101) 0 [] (aCut 102) [aCut 105] ∧
      ((s 104).zone 0).log.length ≤ 8 ∧ ((s 104).zone 0).stack = [] ∧
      (s 104).scene.frame + 1 ≤ (aCut 105).target + (aCut 105).slip ∧ dueCuts (s 113) 0 [aCut 102] (aCut 105) [] ∧
      (aCut 105).target + (aCut 105).slip < (s 113).scene.frame + 1 ∧ (r.zone 0).stack ≠ [] ∧
      (∀ x ∈ ((s 100).zone 0).cuts, (s 100).scene.frame + 1 < x.target) ∧ (s 104).scene.frame ≠ 2 ^ 48 - 1 ∧
      (s (2 ^ 48 - 1)).scene.frame = 2 ^ 48 - 1 := by
  unfold unarmed dueCuts; decide +kernel

theorem test_meets_ArmedItemsAreFetchedOrSlip :
    let c : State := choosing 101 (some .cut) none cutsQueued
    let g : State := choosing 100 (some (.gate 7 1 7)) none (gated { aGate with scene := [placementOf rawStill] } zoned)
    let r : State := choosing 100 (some .ret) none (gateFetched .ret)
    let busy (s : State) : State := withPage 4 { still with busy := some (2, .copySource) } s
    fetchable c (aCut 102).scene ∧ ¬ fetchable (busy c) (aCut 102).scene ∧ (c.zone 0).cuts = aCut 102 :: [aCut 105] ∧
      (c.zone 0).pend = none ∧ fetchable g [placementOf rawStill] ∧ ¬ fetchable (busy g) [placementOf rawStill] ∧
      g.gate 7 = some { aGate with scene := [placementOf rawStill] } ∧ fetchable r [] ∧ keepsArmed r 0 ∧
      (r.zone 0).stack = [] ++ [.blank] ∧ unarmed (zoned.zone 0) := by
  intro c g r busy
  have page (s : State) (p : Page) (h : s.page 4 = some p) (hk : p.kind = .still) (hr : p.state = .ready)
      (hv : p.valid = 0b11 ∧ p.cells = 2) : fetchable s [placementOf rawStill] ↔ p.busy = none := by
    simp only [fetchable, List.mem_singleton, forall_eq]
    constructor
    · rintro (h' | ⟨e, he, hb, -⟩)
      · exact absurd h' (by decide)
      · rw [show (placementOf rawStill).page = 4 from rfl, h] at he; cases he; exact hb
    · intro hb
      refine Or.inr ⟨p, h, hb, Or.inr ⟨hk, Or.inl hr, Or.inl ⟨rfl, ?_⟩⟩⟩
      rw [hv.1, hv.2]; decide
  refine ⟨(page c still (by decide +kernel) rfl rfl ⟨rfl, rfl⟩).mpr rfl, fun h => ?_, by decide +kernel,
    by decide +kernel, (page g still (by decide +kernel) rfl rfl ⟨rfl, rfl⟩).mpr rfl, fun h => ?_, by decide +kernel,
    fun x hx => absurd hx List.not_mem_nil, trivial, by decide +kernel, by unfold unarmed; decide +kernel⟩
  · exact absurd ((page (busy c) { still with busy := some (2, .copySource) } (by decide +kernel) rfl rfl ⟨rfl, rfl⟩).mp h)
      (by decide)
  · exact absurd ((page (busy g) { still with busy := some (2, .copySource) } (by decide +kernel) rfl rfl ⟨rfl, rfl⟩).mp h)
      (by decide)

theorem test_meets_FetchOrdersNameTheSources :
    let s := withUnit 15 (fun u => { u with ctx := some (.zone 0) })
      { zoned with scene := { zoned.scene with reported := zoned.scene.reported.set 15 (some .joining) } }
    ordered s (.zone 0) 15 = true ∧ admitted s (.zone 0) 15 = true ∧ (s.zone 0).rect = held.rect ∧
      s.units[(15 : Tile)].position = some (3, 3) ∧ ordered s (.zone 0) 14 = false ∧
      coversPos s (placementOf rawStill) (0, 0) ∧ ¬ coversPos s (placementOf rawStill) (1, 0) ∧
      s.page 4 = some still ∧ still.valid.getLsbD 1 = true ∧ ({ still with valid := 0 } : Page).valid.getLsbD 1 = false ∧
      s.scene.background.fetch = none ∧ s.scene.frame ≠ 2 ^ 48 - 1 := by
  unfold coversPos; decide +kernel

/-- A state with a pending window change that is due at the next boundary. -/
def due (k : ChangeKind) (w : WindowState) : State :=
  let s := inWindow w (withLoad blockLoad (editing [patchEdit, copyEdit] cutFetched))
  { s with scene := { s.scene with change := some (k, some 101) } }

theorem test_meets_DueWindowChangesDarkenAndWake :
    (due .darken .lit).scene.timer = true ∧ (due .darken .lit).editsOk ∧ (due .darken .lit).window = .lit ∧
      (due .darken .lit).scene.change = some (.darken, some 101) ∧ dueAt (some 101) (nextFrame (due .darken .lit)) ∧
      (due .wake .dark).window = .dark ∧ (due .wake .dark).scene.change = some (.wake, some 101) ∧
      (due .wake .dark).scene.timer = true ∧
      ({ lit with edit := { lit.edit with endAsked := true } } : State).edit.endAsked = true ∧
      lit.edit.queue = [] := by
  refine ⟨by decide +kernel, by unfold State.editsOk; decide +kernel, by decide +kernel, by decide +kernel, ?_, by decide +kernel⟩
  intro m h; cases h; decide +kernel

/-- At a DARKEN, gate 7 is current on zone 0 with a released cut armed beside it, and gate 6 is pending on zone 1. -/
def darkening : State :=
  withZone 1 (fun zn => { zn with pend := some (.invocation 6 2) })
    (withZone 0 (fun zn => { zn with cuts := [{ aCut 102 with released := true }] }) (gateFetched .cut))

theorem test_meets_DueWindowChangesDarkenAndWake_gates :
    gateEnds (darkening.zone 0) 7 1 ∧ gateAbandons (darkening.zone 1) 6 2 ∧
      gateAbandons ((gateFetched (.gate 7 1 0)).zone 0) 7 1 ∧ (∀ p, ¬ gateEnds (darkening.zone 0) 6 p) ∧
      woundBack (darkening.zone 0) 101 =
        { darkening.zone 0 with
          current := .blank, armed := none, stack := [], fetch := none, cuts := []
          log := [logEntry { aCut 102 with released := true } .discarded 101] } := by
  refine ⟨?_, .inr rfl, .inl ⟨0, rfl⟩, ?_, by decide +kernel⟩
  · unfold gateEnds; decide +kernel
  · unfold gateEnds; decide +kernel

/-- A state with a refresh debt. -/
def owing (d : Int) (s : State) : State := { s with store := { s.store with debt := d } }

/-- A state with a store power state. -/
def powered (w : PowerState) (s : State) : State := { s with store := { s.store with power := w } }

theorem test_meets_RefreshesAreOwedAndPaid :
    (powered .exiting lit).store.power = .exiting ∧ (owing 7 lit).store.power = .awake ∧ (owing 7 lit).store.debt ≠ 8 ∧
      (running .refresh (owing 7 lit)).store.running ≠ none ∧ (owing 8 lit).store.debt = 8 ∧
      (owing 8 lit).store.record.locked = false ∧ runs (running .refresh lit) .refresh := by decide +kernel

theorem test_meets_SelfRefreshIsEnteredAndLeft :
    let s (w : WindowState) (r : StoreReport) := inWindow w { lit with mail := { lit.mail with fromStore := [r] } }
    (powered .exiting lit).store.power = .exiting ∧ lit.store.power = .awake ∧ lit.store.refreshed = false ∧
      (powered .entering lit).store.power = .entering ∧ (s .darkening .entered).mail.fromStore = .entered :: [] ∧
      (s .waking .exited).mail.fromStore = .exited :: [] ∧ (s .waking .exited).window = .waking ∧
      (s .unconfigured .exited).window ≠ .waking := by decide +kernel

theorem test_meets_ScanCompleteSendsTheLine :
    let s := running (.scan 15 0 255) (fetching slotFetch paged)
    let r := { s with store := { s.store with
      running := some { job := .scan 15 0 255, discard := true, dropped := false } } }
    s.scrubOk ∧ runs s (.scan 15 0 255) ∧ s.units[(15 : Tile)].fetch = some slotFetch ∧ runs r (.scan 15 0 255) true ∧
      slotFetch.source = .slot 4 0 ∧ slotFetch.requested ≠ 0 ∧ ({ slotFetch with requested := 0 }).requested = 0 :=
  ⟨⟨by decide +kernel, by decide +kernel, by decide +kernel⟩, by decide +kernel⟩

/-- A scrub of word 2 of line 1 of slot 0, whose stored bits differ by `e`. -/
def scrubbing (e : ErrorMask) : State :=
  stored 0 1 2 77 e (running (.scrub { addr := { slot := 0, line := 1, word := 2 }, origin := .unit 15 }) paged)

theorem test_meets_ScrubCompleteWritesBack :
    let a : ScrubEntry := { addr := { slot := 0, line := 1, word := 2 }, origin := .unit 15 }
    runs (scrubbing 0) (.scrub a) ∧ ((scrubbing 0).store.readWord 0 1 2).cls = .clean ∧
      ((scrubbing 1).store.readWord 0 1 2).cls = .corrected ∧ ((scrubbing 3).store.readWord 0 1 2).cls = .uncorrectable ∧
      (scrubbing 1).memoryOk ∧ (scrubbing 3).memoryOk :=
  ⟨by decide +kernel, by decide +kernel, by decide +kernel, by decide +kernel, ⟨by decide +kernel, by decide +kernel⟩,
    by decide +kernel, by decide +kernel⟩

theorem test_meets_TheGrantOrderIsKept :
    let s (f : Store → Store) (d : Int) : State := owing d { lit with store := f lit.store }
    let scans := s (fun st => { st with scanWaiting := 0x8001 }) 7
    let loads := s (fun st => { st with loadWaiting := 0x9 }) 0
    (running .refresh lit).store.running ≠ none ∧ (owing 8 lit).store.running = none ∧ (owing 8 lit).store.debt = 8 ∧
      (powered .entering lit).store.power = .entering ∧ (powered .entering lit).store.refreshed = false ∧
      (scans.store.scanWaiting.getLsbD 0 = true ∧ ∀ u : Tile, scans.store.scanWaiting.getLsbD u.val = true →
        (0 + 15 - scans.store.scanPointer.val) % 16 ≤ (u.val + 15 - scans.store.scanPointer.val) % 16) ∧
      1 ≤ (owing 1 lit).store.debt ∧ (owing 1 lit).store.scanWaiting = 0 ∧
      (loads.store.loadWaiting.getLsbD 0 = true ∧ ∀ d : ChanId, loads.store.loadWaiting.getLsbD d.val = true →
        (0 + 3 - loads.store.loadPointer.val) % 4 ≤ (d.val + 3 - loads.store.loadPointer.val) % 4) ∧
      (owing 0 lit).store.debt < 1 ∧ (owing 0 lit).store.loadWaiting = 0 ∧
      (s (fun st => { st with scrubWaiting := true }) 0).store.scrubWaiting = true ∧
      (s (fun st => { st with editWaiting := true }) 0).store.editWaiting = true ∧
      -8 < (owing (-7) lit).store.debt ∧ (owing (-8) lit).store.debt ≤ -8 ∧
      (fetching slotFetch lit).units[(15 : Tile)].fetch = some slotFetch ∧
      (withLoad blockLoad paged).page blockLoad.page = some still ∧
      (editing [patchEdit] paged).edit.queue = patchEdit :: [] ∧ paged.page 4 = some still ∧
      (editing [copyEdit] twoStills).page 6 = some { partly with baseSlot := 4 } ∧ twoStills.page 4 = some still := by
  decide +kernel

theorem test_meets_DroppedTransfersHaveNoOutcome :
    let r : Transfer := { job := .scan 15 0 255, discard := false, dropped := true }
    let s : State := { paged with store := { paged.store with running := some r } }
    s.store.running = some r ∧ r.dropped = true ∧ completes (.scanComplete [(3, 3)]) r.job ∧ completes .refreshComplete .refresh :=
  ⟨rfl, rfl, ⟨_, rfl⟩, rfl⟩

theorem test_meets_StoredWordsAreClassified : (scrubbing 3).memoryOk ∧ (0 : Nat) < 72 ∧ 71 < 72 ∧ 17 < 18 ∧
    ¬ ((2047 : Nat) = 2047 ∧ (255 : Nat) = 255 ∧ (255 : Nat) = 254) ∧
    2 ≤ ((List.range 4).filter (0b1001 : BitVec 4).getLsbD).length :=
  ⟨⟨by decide +kernel, by decide +kernel⟩, by decide, by decide, by decide, by decide, by decide +kernel⟩

theorem test_meets_RequestFramesAreReadBack :
    let i := Instr.defineGate (hdr 0) 255 255 255 255 65535 [rawStill, rawStill]
    (∃ code f, i.request = some (hdr 0, code, f)) ∧ i.wf = true ∧ (hdr 0).stage = .whole ∧
      (encodeFrame i).isSome = true :=
  ⟨⟨_, _, rfl⟩, by decide +kernel, rfl, by decide +kernel⟩

theorem test_meets_MemoryStaysCanonical :
    (scrubbing 1).memoryOk ∧ step (scrubbing 1) = .next (scrubbing 1) :=
  ⟨⟨by decide +kernel, by decide +kernel⟩, rfl⟩

theorem test_meets_CountersLinksAndLinesStayLegal :
    (owing (-7) { lit with store := { lit.store with refreshed := true } }).debtOk ∧ lit.scrubOk ∧ queued.portsOk ∧
      State.portsOk { lit with ports := fourPorts.set 3 (PortRec.initial .monitor) } ∧ lit.powerOk ∧ lit.frameOk ∧
      (editing [patchEdit, copyEdit] twoStills).editsOk :=
  ⟨⟨by decide +kernel, by decide +kernel, fun _ => by decide +kernel, fun h => absurd h (by decide +kernel)⟩,
    ⟨by decide +kernel, by decide +kernel, by decide +kernel⟩, fun p => by revert p; decide +kernel,
    fun p => by revert p; decide +kernel, fun p => by revert p; decide +kernel,
    ⟨by decide +kernel, fun n h => by cases h⟩, by unfold State.editsOk; decide +kernel⟩

theorem test_meets_ZonesStayLegal : cutsQueued.zonesOk ∧ step cutsQueued = .next cutsQueued := by
  refine ⟨fun z => ⟨?_, ?_, ?_, ?_, ?_, ?_⟩, rfl⟩
  · revert z; decide +kernel
  · revert z; decide +kernel
  · revert z; decide +kernel
  · revert z; decide +kernel
  · intro _; exact (show ∀ z : ZoneId, (cutsQueued.zone z).stack.length ≤ 2 by decide +kernel) z
  · revert z; decide +kernel

theorem test_meets_SlotMapStaysConsistent : lit.slotsOk ∧ lit.unconfiguredOk ∧ step lit = .next lit := by
  have none (h : Handle) : lit.page h = none := by revert h; decide +kernel
  have free (n : Nat) : lit.slotFree n ↔ n < 512 := by
    have h : lit.dir.free = [(0, 512)] := rfl
    simp [State.slotFree, inRun, h]
  refine ⟨⟨⟨by decide +kernel, by decide +kernel⟩, ?_, ?_, ?_, ?_, ?_⟩, ?_, rfl⟩
  · intro h p hp
    rw [none] at hp; cases hp
  · rintro h n ⟨p, hp, -⟩
    rw [none] at hp; cases hp
  · rintro h k n ⟨p, hp, -⟩
    rw [none] at hp; cases hp
  · exact fun n hn => (free n).mp hn
  · exact fun n hn => Or.inl ((free n).mpr hn)
  · exact fun h => absurd h (by decide +kernel)

/-- Page 4, loading, is pinned by the placement of a queued cut; nothing else refers to a page. -/
def pinned : State :=
  withPage 4 { partly with pins := 1, state := .loading } (withLoad blockLoad (withZone 0 (fun _ =>
    { held with cuts := [aCut 102] }) lit))

theorem test_meets_PagesAndPinsStayLegal :
    pinned.pagesOk ∧ pinned.pinsOk ∧ pinned.unconfiguredOk ∧ step pinned = .next pinned := by
  have page (h : Handle) : pinned.page h = if h = 4 then some { partly with pins := 1, state := .loading } else none := by
    revert h; decide +kernel
  refine ⟨⟨?_, ?_, ?_⟩, ?_, fun h => absurd h (by decide +kernel), rfl⟩
  · intro h p hp
    rw [page] at hp
    split at hp
    · cases hp; exact ⟨by decide, by decide, fun _ h => absurd rfl h⟩
    · cases hp
  · intro h; revert h; decide +kernel
  · intro c l n k hl hm
    revert hm
    have : ∀ c : ChanId, ∀ l ∈ pinned.load.chans[c], l.mode = .block 0 2 0 := by decide +kernel
    rw [this c l hl]; exact nofun
  · intro pg; revert pg; decide +kernel

end Sys2Proof.Tests
end

