-- ==== Sys2Proof/Proofs/QueryPage.lean ====
section
/-! QUERY_PAGE (R23): the reply is the entry of the handle in the state in which the request is taken, and no block
changes. -/

namespace Sys2Proof.Machine

/-- A request whose effect is one reply: it is answered in the state in which it is taken. -/
theorem serve_answers {h : Hdr} {code : Byte} {self : Hdr → Instr} {any : Bool} {act : Caller → State → State}
    {s : State} {st : Status} {b : Body} (r : s.reaches (self h) h any)
    (ha : act { port := h.port, tag := h.tag, code := code } (s.taking h) =
      (s.taking h).reply { port := h.port, tag := h.tag, code := code } st b) :
    serve h code self any act s = (s.taking h).answered h code st b := by
  have hu : (s.taking h).ports[h.port].up = true := (taking_up s h h.port).trans r.1
  rw [serve_reaches r, ha, reply_answered hu]

theorem queryPage_pattern {pg : Handle} (hp : pg.toNat < 4) (c : Caller) (s : State) :
    queryPage pg c s = s.reply c .ok (.page (some patternInfo)) := by
  rw [queryPage, isPattern_true hp, if_pos rfl]

theorem queryPage_allocatable {pg : Handle} (hp : 4 ≤ pg.toNat) (c : Caller) (s : State) :
    queryPage pg c s = s.reply c .ok (.page ((s.page pg).map Page.info)) := by
  rw [queryPage, isPattern_false hp, if_neg Bool.false_ne_true]

/-- QUERY_PAGE of a pattern page is answered with the fixed values of R2, whatever the directory holds. -/
theorem exec_queryPage_pattern {h : Hdr} {pg : Handle} {s : State} (r : s.reaches (.queryPage h pg) h)
    (hp : pg.toNat < 4) :
    exec (.queryPage h pg) s = .next ((s.taking h).answered h 20 .ok (.page (some patternInfo))) :=
  congrArg Host.Outcome.next (serve_answers (self := (.queryPage · pg)) r (queryPage_pattern hp _ _))

/-- QUERY_PAGE of an allocatable handle is answered with what its entry carries (R5), nothing of it where FREE. -/
theorem exec_queryPage_allocatable {h : Hdr} {pg : Handle} {s : State} (r : s.reaches (.queryPage h pg) h)
    (hp : 4 ≤ pg.toNat) :
    exec (.queryPage h pg) s =
      .next ((s.taking h).answered h 20 .ok (.page ((s.page pg).map Page.info))) :=
  congrArg Host.Outcome.next (serve_answers (self := (.queryPage · pg)) r (queryPage_allocatable hp _ _))

/-- Settles O14: a handle is a pattern page or allocatable, and an allocatable one is FREE or a page. -/
theorem queryPageReportsTheEntry : Obligations.QueryPageReportsTheEntry := by
  intro h pg s r
  refine ⟨fun hp => ?pattern, fun hp hfree => ?free, fun p hp hpage => ?page⟩
  case pattern => exact exec_queryPage_pattern r hp
  case free => rw [exec_queryPage_allocatable r hp, hfree, Option.map_none]
  case page => rw [exec_queryPage_allocatable r hp, hpage, Option.map_some, Page.info]

end Sys2Proof.Machine
end

