-- ==== Sys2Proof/Proofs/StoreRequests.lean ====
section
/-! QUERY_STORE and READ_FAULT (R43, R44): each reports the controller in the state in which it is taken; the record is
unlocked after its contents are taken, and for an OPERATOR port alone. -/

namespace Sys2Proof.Machine

/-- The store with its fault capture record unlocked and the multiple flag cleared, its other fields kept (R43). -/
def Store.unlocked (st : Store) : Store :=
  { st with record := { st.record with locked := false, multiple := false } }

/-- A reply reads no block, so the store may as well be changed before it is sent. -/
theorem reply_modStore (s : State) (c : Caller) (st : Status) (b : Body) (f : Store → Store) :
    (s.reply c st b).modStore f = (s.modStore f).reply c st b := by
  cases hu : s.ports[c.port].up
  case false => rw [reply_down s c st b hu, reply_down (s.modStore f) c st b hu]
  case true => rw [reply_up s c st b hu, reply_up (s.modStore f) c st b hu]; rfl

theorem readFault_others {c : Caller} {s : State} (hc : s.cls c.port ≠ .operator) :
    readFault c s = s.reply c .ok (.fault s.store.record) := by
  have hr : (s.reply c .ok (.fault s.store.record)).cls c.port ≠ .operator := by
    rwa [State.cls, reply_ports]
  rw [readFault, if_neg hr]

theorem readFault_operator {c : Caller} {s : State} (hc : s.cls c.port = .operator) :
    readFault c s = (s.modStore Store.unlocked).reply c .ok (.fault s.store.record) := by
  have hr : (s.reply c .ok (.fault s.store.record)).cls c.port = .operator := by
    rwa [State.cls, reply_ports]
  rw [readFault, if_pos hr]
  exact reply_modStore s c .ok (.fault s.store.record) Store.unlocked

/-- QUERY_STORE that reaches the controller is answered with its state (R44). -/
theorem exec_queryStore_reaches {h : Hdr} {s : State} (r : s.reaches (.queryStore h) h) :
    exec (.queryStore h) s = .next ((s.taking h).answered h 112 .ok (.store s.storeInfo)) :=
  congrArg Host.Outcome.next (serve_answers (self := .queryStore) r rfl)

/-- QUERY_STORE that its port examines in UNCONFIGURED does not reach the controller (R44, R175). -/
theorem exec_queryStore_unconfigured {h : Hdr} {s : State} (hn : h.stage ≠ .take)
    (hu : s.ports[h.port].up = true) (ht : s.ports[h.port].transit = none) (hw : s.window = .unconfigured) :
    exec (.queryStore h) s = .next (s.answered h 112 .notConfigured) :=
  congrArg Host.Outcome.next (serve_unconfigured hn hu ht hw)

/-- READ_FAULT of a port that is not of class OPERATOR reports the record and changes nothing (R43). -/
theorem exec_readFault_others {h : Hdr} {s : State} (r : s.reaches (.readFault h) h true)
    (hc : s.cls h.port ≠ .operator) :
    exec (.readFault h) s = .next ((s.taking h).answered h 113 .ok (.fault s.store.record)) := by
  have hc' : (s.taking h).cls h.port ≠ .operator := by rwa [taking_cls]
  exact congrArg Host.Outcome.next (serve_answers (self := .readFault) r (readFault_others hc'))

/-- READ_FAULT of an OPERATOR port reports the record as it was before it is unlocked (R43). -/
theorem exec_readFault_operator {h : Hdr} {s : State} (r : s.reaches (.readFault h) h true)
    (hc : s.cls h.port = .operator) :
    exec (.readFault h) s =
      .next (((s.taking h).modStore Store.unlocked).answered h 113 .ok (.fault s.store.record)) := by
  have hc' : (s.taking h).cls h.port = .operator := by rwa [taking_cls]
  have hu : ((s.taking h).modStore Store.unlocked).ports[h.port].up = true := up_taking r
  calc exec (.readFault h) s
      = .next (serve h 113 .readFault true readFault s) := rfl
    _ = .next ((readFault { port := h.port, tag := h.tag, code := 113 } (s.taking h)).onward h) := by
        rw [serve_reaches (self := .readFault) r]
    _ = _ := by rw [readFault_operator hc', reply_answered hu, taking_store]

/-- Settles O15: QUERY_STORE by the window state in which it is examined, READ_FAULT by the class of its port. -/
theorem storeRequestsReportTheStore : Obligations.StoreRequestsReportTheStore := by
  refine ⟨fun h s r => ?query, fun h s hn hu ht hw => ?unconfigured, fun h s r hc => ?others,
    fun h s r hc => ?operator⟩
  case query => rw [exec_queryStore_reaches r, State.storeInfo]
  case unconfigured => exact exec_queryStore_unconfigured hn hu ht hw
  case others => exact exec_readFault_others r hc
  case operator => exact exec_readFault_operator r hc

end Sys2Proof.Machine
end

