-- ==== Sys2Proof/Proofs/Unpinning.lean ====
section
/-! SUPPORT. Unpinning the pages of a scene (R15): each page named by a placement loses one pin for it, and nothing but
pin counts changes; and the answer of a request whose effect leaves the ports as they are. -/

namespace Sys2Proof.Machine

/-! ### One page -/

/-- A pattern page is never pinned, so it has no pin to lose (R2, R15). -/
theorem unpin_pattern {s : State} {pg : Handle} (hp : pg.toNat < 4) : s.unpin pg = s := by
  rw [State.unpin, isPattern_true hp, if_pos rfl]

theorem unpin_allocatable {s : State} {pg : Handle} (hp : 4 ≤ pg.toNat) :
    s.unpin pg = s.setPage pg fun p => { p with pins := p.pins - 1 } := by
  rw [State.unpin, isPattern_false hp, if_neg Bool.false_ne_true]

theorem page_unpin_same {s : State} {pg : Handle} (hp : 4 ≤ pg.toNat) :
    (s.unpin pg).page pg = (s.page pg).map fun p => { p with pins := p.pins - 1 } := by
  rw [unpin_allocatable hp, page_setPage, if_pos rfl]

theorem page_unpin_other {s : State} {named pg : Handle} (hne : pg ≠ named) :
    (s.unpin named).page pg = s.page pg := by
  rcases Nat.lt_or_ge named.toNat 4 with hp | hp
  · rw [unpin_pattern hp]
  · rw [unpin_allocatable hp, page_setPage, if_neg hne]

/-- Losing a pin moves no slot (R12, R15). -/
theorem unpin_slotMap (s : State) (pg : Handle) :
    (s.unpin pg).dir.free = s.dir.free ∧ (s.unpin pg).dir.populated = s.dir.populated := by
  rcases Nat.lt_or_ge pg.toNat 4 with hp | hp
  · rw [unpin_pattern hp]; exact ⟨rfl, rfl⟩
  · rw [unpin_allocatable hp]; exact ⟨rfl, rfl⟩

/-! ### The pages of a scene -/

theorem unpinScene_nil (s : State) : s.unpinScene [] = s := rfl

theorem unpinScene_cons (s : State) (x : Placement) (sc : Scene) :
    s.unpinScene (x :: sc) = (s.unpin x.page).unpinScene sc := rfl

theorem placementsNaming_nil (pg : Handle) : placementsNaming [] pg = 0 := rfl

theorem placementsNaming_cons_same {x : Placement} {sc : Scene} {pg : Handle} (h : pg = x.page) :
    placementsNaming (x :: sc) pg = placementsNaming sc pg + 1 :=
  List.countP_cons_of_pos (decide_eq_true h.symm)

theorem placementsNaming_cons_other {x : Placement} {sc : Scene} {pg : Handle} (h : pg ≠ x.page) :
    placementsNaming (x :: sc) pg = placementsNaming sc pg :=
  List.countP_cons_of_neg (by simpa using h.symm)

theorem page_unpinScene_pattern {pg : Handle} (hp : pg.toNat < 4) (sc : Scene) (s : State) :
    (s.unpinScene sc).page pg = s.page pg := by
  induction sc generalizing s with
  | nil => rfl
  | cons x sc ih =>
    rw [unpinScene_cons, ih]
    by_cases h : pg = x.page
    · rw [← h, unpin_pattern hp]
    · exact page_unpin_other h

/-- A page loses one pin for each placement of the scene that names it (R15). -/
theorem page_unpinScene_allocatable {pg : Handle} (hp : 4 ≤ pg.toNat) (sc : Scene) (s : State) :
    (s.unpinScene sc).page pg =
      (s.page pg).map fun p => { p with pins := p.pins - placementsNaming sc pg } := by
  induction sc generalizing s with
  | nil => simp [unpinScene_nil, placementsNaming_nil]
  | cons x sc ih =>
    rw [unpinScene_cons, ih]
    by_cases h : pg = x.page
    · rw [placementsNaming_cons_same h, ← h, page_unpin_same hp, Option.map_map]
      refine congrArg (Option.map · (s.page pg)) (funext fun p => ?_)
      simp [Nat.sub_sub, Nat.add_comm]
    · rw [placementsNaming_cons_other h, page_unpin_other h]

theorem unpinScene_slotMap (sc : Scene) (s : State) :
    (s.unpinScene sc).dir.free = s.dir.free ∧ (s.unpinScene sc).dir.populated = s.dir.populated :=
  ⟨foldl_keeps (·.dir.free) _ (fun b x => (unpin_slotMap b x.page).1) sc s,
    foldl_keeps (·.dir.populated) _ (fun b x => (unpin_slotMap b x.page).2) sc s⟩

/-- Unpinning a scene is the fall of pins that its placements call for, and no other change of the directory (R15). -/
theorem pinsMove_unpinScene (s : State) (sc : Scene) : pinsMove s (s.unpinScene sc) [] sc := by
  refine ⟨fun pg => ?_, unpinScene_slotMap sc s⟩
  split
  case isTrue hp => exact page_unpinScene_pattern hp sc s
  case isFalse hp =>
    simpa [placementsNaming_nil] using page_unpinScene_allocatable (Nat.le_of_not_lt hp) sc s

/-- Unpinning a scene changes the directory alone. -/
theorem unpinScene_eq (s : State) (sc : Scene) :
    s.unpinScene sc = { s with dir := (s.unpinScene sc).dir } := by
  obtain ⟨hports, hstore, hload, hedit, hscene, hunits, hmail, hout, hpending⟩ := unpinScene_frame s sc
  exact State.eq_of_blocks hports rfl hstore hload hedit hscene hunits hmail hout hpending

/-! ### A request with an effect -/

/-- A request whose effect leaves the ports is answered in the state after its effect. -/
theorem serve_effects {h : Hdr} {code : Byte} {self : Hdr → Instr} {any : Bool} {act : Caller → State → State}
    {s t : State} {st : Status} {b : Body} (r : s.reaches (self h) h any)
    (ha : act { port := h.port, tag := h.tag, code := code } (s.taking h) =
      t.reply { port := h.port, tag := h.tag, code := code } st b)
    (hports : t.ports = (s.taking h).ports) :
    serve h code self any act s = t.answered h code st b := by
  have hu : t.ports[h.port].up = true := by rw [hports]; exact up_taking r
  rw [serve_reaches r, ha, reply_answered hu]

end Sys2Proof.Machine
end

