-- ==== Sys2Proof/Proofs/ClearGate.lean ====
section
/-! CLEAR_GATE (R126): its checks in their order, each by the status of the first that fails, and the effect of a
request that passes them. -/

namespace Sys2Proof.Machine

/-! ### The gate that a request names -/

theorem gateAt_of_field {s : State} {gate : Byte} {g : GateId} (hg : gateField gate = some g) :
    s.gateAt gate = s.gate g := by
  rw [State.gateAt, hg]; rfl

/-- A gate is made UNDEFINED, and the pages of the scene that its definition carried are unpinned (R126). -/
def State.dropGate (s : State) (g : GateId) (sc : Scene) : State := (s.unpinScene sc).setGate g fun _ => none

theorem dropGate_ports (s : State) (g : GateId) (sc : Scene) : (s.dropGate g sc).ports = s.ports :=
  (unpinScene_frame s sc).1

/-- Dropping a gate changes the gate table in the scene engine, and no block beside it but the directory. -/
theorem dropGate_eq (s : State) (g : GateId) (sc : Scene) :
    s.dropGate g sc = { s with scene := (s.dropGate g sc).scene, dir := (s.dropGate g sc).dir } := by
  rw [State.dropGate, unpinScene_eq]; rfl

theorem dropGate_scene (s : State) (g : GateId) (sc : Scene) :
    (s.dropGate g sc).scene = { s.scene with gates := upd s.scene.gates g fun _ => none } := by
  rw [State.dropGate, unpinScene_eq]; rfl

theorem dropGate_same (s : State) (g : GateId) (sc : Scene) : (s.dropGate g sc).gate g = none := by
  rw [State.gate, dropGate_scene]; exact upd_same ..

theorem dropGate_other (s : State) {g k : GateId} (sc : Scene) (hk : k ≠ g) :
    (s.dropGate g sc).gate k = s.gate k := by
  rw [State.gate, dropGate_scene]; exact upd_other _ _ _ _ hk.symm

/-- The gate table stands beside the directory: the pins fall as they do by the unpinning. -/
theorem pinsMove_dropGate (s : State) (g : GateId) (sc : Scene) : pinsMove s (s.dropGate g sc) [] sc :=
  pinsMove_unpinScene s sc

/-! ### CLEAR_GATE at the scene engine -/

theorem clearGate_denied {gate : Byte} {c : Caller} {s : State} (hc : s.cls c.port ≠ .operator) :
    clearGate gate c s = s.reply c .denied :=
  checked_fail (by rw [firstFailure_cons, decide_eq_false hc]; rfl)

theorem clearGate_badField {gate : Byte} {c : Caller} {s : State} (hc : s.cls c.port = .operator)
    (hg : gateField gate = none) : clearGate gate c s = s.reply c .badField :=
  checked_fail (by rw [firstFailure_cons, decide_eq_true hc, hg]; rfl)

/-- A gate that is UNDEFINED, INVOKED or ACTIVE is not cleared (R126). -/
theorem clearGate_state {gate : Byte} {g : GateId} {c : Caller} {s : State} (hc : s.cls c.port = .operator)
    (hg : gateField gate = some g) (hu : ∀ e ∈ s.gate g, e.use ≠ .defined) :
    clearGate gate c s = s.reply c .state := by
  have hany : ((s.gateAt gate).any fun e => e.use = .defined) = false := by
    rw [gateAt_of_field hg, Option.any_eq_false]
    exact fun e he => decide_eq_false (hu e he)
  exact checked_fail (by rw [firstFailure_cons, decide_eq_true hc, hg, hany]; rfl)

theorem clearGate_ok {gate : Byte} {g : GateId} {e : Gate} {c : Caller} {s : State}
    (hc : s.cls c.port = .operator) (hg : gateField gate = some g) (he : s.gate g = some e)
    (hu : e.use = .defined) : clearGate gate c s = (s.dropGate g e.scene).reply c .ok := by
  have hany : ((s.gateAt gate).any fun e => e.use = .defined) = true := by
    rw [gateAt_of_field hg, he]; exact decide_eq_true hu
  rw [clearGate, checked_pass (by rw [firstFailure_cons, decide_eq_true hc, hg, hany]; rfl), hg]
  change (s.dropGate g (((s.gate g).map (·.scene)).getD [])).reply c .ok = _
  rw [he]; rfl

/-! ### CLEAR_GATE as a request -/

/-- CLEAR_GATE that its port examines in UNCONFIGURED does not reach the scene engine (R126, R175). -/
theorem exec_clearGate_unconfigured {h : Hdr} {gate : Byte} {s : State} (hn : h.stage ≠ .take)
    (hup : s.ports[h.port].up = true) (ht : s.ports[h.port].transit = none) (hw : s.window = .unconfigured) :
    exec (.clearGate h gate) s = .next (s.answered h 81 .notConfigured) :=
  congrArg Host.Outcome.next (serve_unconfigured hn hup ht hw)

/-- CLEAR_GATE that a check refuses changes nothing and is answered with its status. -/
theorem exec_clearGate_refused {h : Hdr} {gate : Byte} {s : State} {st : Status}
    (r : s.reaches (.clearGate h gate) h)
    (hr : clearGate gate { port := h.port, tag := h.tag, code := 81 } (s.taking h) =
      (s.taking h).reply { port := h.port, tag := h.tag, code := 81 } st) :
    exec (.clearGate h gate) s = .next ((s.taking h).answered h 81 st) :=
  congrArg Host.Outcome.next (serve_answers (self := (.clearGate · gate)) r hr)

/-- CLEAR_GATE that passes its checks drops the gate (R126). -/
theorem exec_clearGate_ok {h : Hdr} {gate : Byte} {g : GateId} {e : Gate} {s : State}
    (r : s.reaches (.clearGate h gate) h) (hc : (s.taking h).cls h.port = .operator)
    (hg : gateField gate = some g) (he : s.gate g = some e) (hu : e.use = .defined) :
    exec (.clearGate h gate) s = .next (((s.taking h).dropGate g e.scene).answered h 81 .ok) :=
  congrArg Host.Outcome.next
    (serve_effects (self := (.clearGate · gate)) r (clearGate_ok hc hg he hu) (dropGate_ports _ g e.scene))

/-- Settles O31: by the checks in their order, the first that fails or none. -/
theorem clearGateDropsTheDefinition : Obligations.ClearGateDropsTheDefinition := by
  refine ⟨fun h gate s hn hup ht hw => exec_clearGate_unconfigured hn hup ht hw, fun h gate s r => ?_⟩
  rw [← taking_cls s h]
  refine ⟨fun hc => ?denied, fun hc hg => ?badField, fun g hc hg hu => ?state, fun g e hc hg he hu => ?cleared⟩
  case denied => exact exec_clearGate_refused r (clearGate_denied hc)
  case badField => exact exec_clearGate_refused r (clearGate_badField hc (fieldBelow_none hg))
  case state => exact exec_clearGate_refused r (clearGate_state hc (fieldBelow_some hg) hu)
  case cleared =>
    exact ⟨(s.taking h).dropGate g e.scene, exec_clearGate_ok r hc (fieldBelow_some hg) he hu,
      dropGate_eq _ g e.scene, by rw [dropGate_scene, taking_scene], dropGate_same _ g e.scene,
      fun k hk => dropGate_other _ e.scene hk, pinsMove_dropGate _ g e.scene⟩

end Sys2Proof.Machine
end

