-- ==== Sys2Proof/Proofs/QueryTile.lean ====
section
/-! QUERY_TILE (R157): the port refuses it in UNCONFIGURED, the unit refuses a number that names no tile, and otherwise
the reply is the unit's record in the state in which the request is taken. -/

namespace Sys2Proof.Machine

/-! ### QUERY_TILE at the unit -/

theorem queryTile_badField {tile : Byte} (ht : tileField tile = none) (c : Caller) (s : State) :
    queryTile tile c s = s.reply c .badField :=
  checked_fail (by rw [firstFailure_cons, ht]; rfl)

theorem queryTile_ok {tile : Byte} {t : Tile} (ht : tileField tile = some t) (c : Caller) (s : State) :
    queryTile tile c s = s.reply c .ok (.tile s.units[t].info) := by
  rw [queryTile, checked_pass (by rw [firstFailure_cons, ht]; rfl), ht]

/-! ### QUERY_TILE as a request -/

/-- QUERY_TILE that its port examines in UNCONFIGURED does not reach the unit (R157, R175). -/
theorem exec_queryTile_unconfigured {h : Hdr} {tile : Byte} {s : State} (hn : h.stage ≠ .take)
    (hup : s.ports[h.port].up = true) (ht : s.ports[h.port].transit = none) (hw : s.window = .unconfigured) :
    exec (.queryTile h tile) s = .next (s.answered h 97 .notConfigured) :=
  congrArg Host.Outcome.next (serve_unconfigured hn hup ht hw)

/-- QUERY_TILE of a number outside 0 to 15 changes nothing and is refused (R157). -/
theorem exec_queryTile_badField {h : Hdr} {tile : Byte} {s : State} (r : s.reaches (.queryTile h tile) h)
    (ht : 16 ≤ tile.toNat) :
    exec (.queryTile h tile) s = .next ((s.taking h).answered h 97 .badField) :=
  congrArg Host.Outcome.next
    (serve_answers (self := (.queryTile · tile)) r (queryTile_badField (fieldBelow_none ht) _ _))

/-- QUERY_TILE of a tile changes nothing and is answered with the record of its unit (R157). -/
theorem exec_queryTile_ok {h : Hdr} {tile : Byte} {t : Tile} {s : State} (r : s.reaches (.queryTile h tile) h)
    (ht : tile.toNat = t.val) :
    exec (.queryTile h tile) s = .next ((s.taking h).answered h 97 .ok (.tile s.units[t].info)) :=
  congrArg Host.Outcome.next
    (serve_answers (self := (.queryTile · tile)) r (queryTile_ok (fieldBelow_some ht) _ _))

/-- Settles O34: the port examines the window state, and the unit then the tile number. -/
theorem queryTileReportsTheUnit : Obligations.QueryTileReportsTheUnit := by
  refine ⟨fun h tile s hn hup ht hw => ?unconfigured, fun h tile s r => ⟨fun ht => ?badField, fun t ht => ?ok⟩⟩
  case unconfigured => exact exec_queryTile_unconfigured hn hup ht hw
  case badField => exact exec_queryTile_badField r ht
  case ok => rw [exec_queryTile_ok r ht, TileUnit.info]

end Sys2Proof.Machine
end

