-- ==== Sys2Proof/Proofs/Effects.lean ====
section
/-! What each command leaves as it was at its block, what every command does there, and how far a request gets to it: a
predicate that neither the ports nor what has been sent can change is kept by every step where each effect keeps it. -/

set_option linter.unusedTactic false
set_option linter.unusedSimpArgs false
set_option linter.unreachableTactic false
set_option linter.unnecessarySeqFocus false

namespace Sys2Proof.Machine

/-! ### What each request and each event leaves as it was -/

@[simp] theorem setEpoch_frame (frame : BitVec 48) (c : Caller) (s : State) :
    (setEpoch frame c s).ports = s.ports ∧ (setEpoch frame c s).dir = s.dir ∧
    (setEpoch frame c s).store = s.store ∧ (setEpoch frame c s).load = s.load ∧
    (setEpoch frame c s).edit = s.edit ∧ (setEpoch frame c s).units = s.units ∧
    (setEpoch frame c s).mail = s.mail ∧ (setEpoch frame c s).pending = s.pending := by
  unfold setEpoch State.checked
  generalize firstFailure _ = f
  cases f <;> dsimp only <;> (repeat' split) <;> simp [*]

@[simp] theorem darken_frame (presence : Byte) (frame : BitVec 48) (c : Caller) (s : State) :
    (darken presence frame c s).ports = s.ports ∧ (darken presence frame c s).dir = s.dir ∧
    (darken presence frame c s).store = s.store ∧ (darken presence frame c s).load = s.load ∧
    (darken presence frame c s).edit = s.edit ∧ (darken presence frame c s).units = s.units ∧
    (darken presence frame c s).mail = s.mail ∧ (darken presence frame c s).pending = s.pending := by
  unfold darken State.checked
  generalize firstFailure _ = f
  cases f <;> dsimp only <;> (repeat' split) <;> simp [*]

@[simp] theorem wake_frame (presence : Byte) (frame : BitVec 48) (c : Caller) (s : State) :
    (wake presence frame c s).ports = s.ports ∧ (wake presence frame c s).dir = s.dir ∧
    (wake presence frame c s).store = s.store ∧ (wake presence frame c s).load = s.load ∧
    (wake presence frame c s).edit = s.edit ∧ (wake presence frame c s).units = s.units ∧
    (wake presence frame c s).mail = s.mail ∧ (wake presence frame c s).pending = s.pending := by
  unfold wake State.checked
  generalize firstFailure _ = f
  cases f <;> dsimp only <;> (repeat' split) <;> simp [*]

@[simp] theorem queryWindow_frame (c : Caller) (s : State) :
    (queryWindow c s).ports = s.ports ∧ (queryWindow c s).dir = s.dir ∧ (queryWindow c s).store = s.store ∧
    (queryWindow c s).load = s.load ∧ (queryWindow c s).edit = s.edit ∧ (queryWindow c s).scene = s.scene ∧
    (queryWindow c s).units = s.units ∧ (queryWindow c s).mail = s.mail ∧ (queryWindow c s).pending = s.pending := by
  simp [queryWindow]

@[simp] theorem createPage_frame (kind width height cells rate : Byte) (c : Caller) (s : State) :
    (createPage kind width height cells rate c s).ports = s.ports ∧
    (createPage kind width height cells rate c s).store = s.store ∧
    (createPage kind width height cells rate c s).load = s.load ∧
    (createPage kind width height cells rate c s).edit = s.edit ∧
    (createPage kind width height cells rate c s).scene = s.scene ∧
    (createPage kind width height cells rate c s).units = s.units ∧
    (createPage kind width height cells rate c s).mail = s.mail ∧
    (createPage kind width height cells rate c s).pending = s.pending := by
  unfold createPage State.checked
  generalize firstFailure _ = f
  cases f <;> dsimp only <;> (repeat' split) <;> simp [*]

@[simp] theorem deletePage_frame (pg : Handle) (c : Caller) (s : State) :
    (deletePage pg c s).ports = s.ports ∧ (deletePage pg c s).store = s.store ∧
    (deletePage pg c s).load = s.load ∧ (deletePage pg c s).edit = s.edit ∧
    (deletePage pg c s).scene = s.scene ∧ (deletePage pg c s).units = s.units ∧
    (deletePage pg c s).mail = s.mail ∧ (deletePage pg c s).pending = s.pending := by
  unfold deletePage State.checked
  generalize firstFailure _ = f
  cases f <;> dsimp only <;> (repeat' split) <;> simp [*]

@[simp] theorem setPageRights_frame (pg : Handle) (shared showC writeC : Byte) (c : Caller) (s : State) :
    (setPageRights pg shared showC writeC c s).ports = s.ports ∧
    (setPageRights pg shared showC writeC c s).store = s.store ∧
    (setPageRights pg shared showC writeC c s).load = s.load ∧
    (setPageRights pg shared showC writeC c s).edit = s.edit ∧
    (setPageRights pg shared showC writeC c s).scene = s.scene ∧
    (setPageRights pg shared showC writeC c s).units = s.units ∧
    (setPageRights pg shared showC writeC c s).mail = s.mail ∧
    (setPageRights pg shared showC writeC c s).pending = s.pending := by
  unfold setPageRights State.checked
  generalize firstFailure _ = f
  cases f <;> dsimp only <;> (repeat' split) <;> simp [*]

@[simp] theorem queryPage_frame (pg : Handle) (c : Caller) (s : State) :
    (queryPage pg c s).ports = s.ports ∧ (queryPage pg c s).dir = s.dir ∧ (queryPage pg c s).store = s.store ∧
    (queryPage pg c s).load = s.load ∧ (queryPage pg c s).edit = s.edit ∧ (queryPage pg c s).scene = s.scene ∧
    (queryPage pg c s).units = s.units ∧ (queryPage pg c s).mail = s.mail ∧
    (queryPage pg c s).pending = s.pending := by
  simp [queryPage]

@[simp] theorem loadBegin_frame (pg : Handle) (mode first count : Byte) (check : Check) (c : Caller) (s :
    State) :
    (loadBegin pg mode first count check c s).ports = s.ports ∧
    (loadBegin pg mode first count check c s).store = s.store ∧
    (loadBegin pg mode first count check c s).edit = s.edit ∧
    (loadBegin pg mode first count check c s).scene = s.scene ∧
    (loadBegin pg mode first count check c s).units = s.units ∧
    (loadBegin pg mode first count check c s).mail = s.mail ∧
    (loadBegin pg mode first count check c s).pending = s.pending := by
  unfold loadBegin State.checked
  generalize firstFailure _ = f
  cases f <;> dsimp only <;> (repeat' split) <;> simp [*]

@[simp] theorem data_frame (ch presence : Byte) (check : Check) (ws : List Word) (c : Caller) (s : State) :
    (data ch presence check ws c s).ports = s.ports ∧ (data ch presence check ws c s).dir = s.dir ∧
    (data ch presence check ws c s).edit = s.edit ∧ (data ch presence check ws c s).scene = s.scene ∧
    (data ch presence check ws c s).units = s.units ∧ (data ch presence check ws c s).pending = s.pending := by
  unfold data State.checked
  generalize firstFailure _ = f
  cases f <;> dsimp only <;> (repeat' split) <;> simp [*]

@[simp] theorem loadAbort_frame (ch : Byte) (c : Caller) (s : State) :
    (loadAbort ch c s).edit = s.edit ∧ (loadAbort ch c s).scene = s.scene ∧ (loadAbort ch c s).units = s.units ∧
    (loadAbort ch c s).mail = s.mail ∧ (loadAbort ch c s).pending = s.pending := by
  unfold loadAbort State.checked
  dsimp only
  generalize firstFailure _ = f
  cases f <;> dsimp only <;> (repeat' split) <;> simp [*]

@[simp] theorem queryChannel_frame (ch : Byte) (c : Caller) (s : State) :
    (queryChannel ch c s).ports = s.ports ∧ (queryChannel ch c s).dir = s.dir ∧
    (queryChannel ch c s).store = s.store ∧ (queryChannel ch c s).load = s.load ∧
    (queryChannel ch c s).edit = s.edit ∧ (queryChannel ch c s).scene = s.scene ∧
    (queryChannel ch c s).units = s.units ∧ (queryChannel ch c s).mail = s.mail ∧
    (queryChannel ch c s).pending = s.pending := by
  unfold queryChannel State.checked
  generalize firstFailure _ = f
  cases f <;> dsimp only <;> (repeat' split) <;> simp [*]

@[simp] theorem patch_frame (pg : Handle) (cell col row line first : Byte) (plane stipple : BitVec 32) (ws :
    List Word) (c : Caller) (s : State) :
    (patch pg cell col row line first plane stipple ws c s).ports = s.ports ∧
    (patch pg cell col row line first plane stipple ws c s).load = s.load ∧
    (patch pg cell col row line first plane stipple ws c s).scene = s.scene ∧
    (patch pg cell col row line first plane stipple ws c s).units = s.units ∧
    (patch pg cell col row line first plane stipple ws c s).pending = s.pending := by
  unfold patch State.checked
  generalize firstFailure _ = f
  cases f <;> dsimp only <;> (repeat' split) <;> simp [*]

@[simp] theorem copy_frame (src : Handle) (sc : Byte) (dst : Handle) (dc : Byte) (c : Caller) (s : State) :
    (copy src sc dst dc c s).ports = s.ports ∧ (copy src sc dst dc c s).load = s.load ∧
    (copy src sc dst dc c s).scene = s.scene ∧ (copy src sc dst dc c s).units = s.units ∧
    (copy src sc dst dc c s).pending = s.pending := by
  unfold copy State.checked
  generalize firstFailure _ = f
  cases f <;> dsimp only <;> (repeat' split) <;> simp [*]

@[simp] theorem cancelEdit_frame (c : Caller) (s : State) :
    (cancelEdit c s).ports = s.ports ∧ (cancelEdit c s).load = s.load ∧ (cancelEdit c s).scene = s.scene ∧
    (cancelEdit c s).units = s.units ∧ (cancelEdit c s).pending = s.pending := by
  unfold cancelEdit
  (repeat' split) <;> simp [*]

@[simp] theorem setZone_frame (zone presence col row cols rows : Byte) (c : Caller) (s : State) :
    (setZone zone presence col row cols rows c s).dir = s.dir ∧
    (setZone zone presence col row cols rows c s).store = s.store ∧
    (setZone zone presence col row cols rows c s).load = s.load ∧
    (setZone zone presence col row cols rows c s).edit = s.edit ∧
    (setZone zone presence col row cols rows c s).mail = s.mail ∧
    (setZone zone presence col row cols rows c s).pending = s.pending := by
  unfold setZone State.checked
  dsimp only
  generalize firstFailure _ = f
  cases f <;> dsimp only <;> (repeat' split) <;> simp [*]

@[simp] theorem claimZone_frame (zone : Byte) (c : Caller) (s : State) :
    (claimZone zone c s).ports = s.ports ∧ (claimZone zone c s).dir = s.dir ∧
    (claimZone zone c s).store = s.store ∧ (claimZone zone c s).load = s.load ∧
    (claimZone zone c s).edit = s.edit ∧ (claimZone zone c s).units = s.units ∧
    (claimZone zone c s).mail = s.mail ∧ (claimZone zone c s).pending = s.pending := by
  unfold claimZone State.checked
  dsimp only
  generalize firstFailure _ = f
  cases f <;> dsimp only <;> (repeat' split) <;> simp [*]

@[simp] theorem handOver_frame (zone port : Byte) (c : Caller) (s : State) :
    (handOver zone port c s).ports = s.ports ∧ (handOver zone port c s).dir = s.dir ∧
    (handOver zone port c s).store = s.store ∧ (handOver zone port c s).load = s.load ∧
    (handOver zone port c s).edit = s.edit ∧ (handOver zone port c s).units = s.units ∧
    (handOver zone port c s).mail = s.mail ∧ (handOver zone port c s).pending = s.pending := by
  unfold handOver State.checked
  dsimp only
  generalize firstFailure _ = f
  cases f <;> dsimp only <;> (repeat' split) <;> simp [*]

@[simp] theorem seizeZone_frame (zone : Byte) (c : Caller) (s : State) :
    (seizeZone zone c s).dir = s.dir ∧ (seizeZone zone c s).store = s.store ∧
    (seizeZone zone c s).load = s.load ∧ (seizeZone zone c s).edit = s.edit ∧
    (seizeZone zone c s).units = s.units ∧ (seizeZone zone c s).mail = s.mail ∧
    (seizeZone zone c s).pending = s.pending := by
  unfold seizeZone State.checked
  dsimp only
  generalize firstFailure _ = f
  cases f <;> dsimp only <;> (repeat' split) <;> simp [*]

@[simp] theorem queryZone_frame (zone : Byte) (c : Caller) (s : State) :
    (queryZone zone c s).ports = s.ports ∧ (queryZone zone c s).dir = s.dir ∧
    (queryZone zone c s).store = s.store ∧ (queryZone zone c s).load = s.load ∧
    (queryZone zone c s).edit = s.edit ∧ (queryZone zone c s).scene = s.scene ∧
    (queryZone zone c s).units = s.units ∧ (queryZone zone c s).mail = s.mail ∧
    (queryZone zone c s).pending = s.pending := by
  unfold queryZone State.checked
  generalize firstFailure _ = f
  cases f <;> dsimp only <;> (repeat' split) <;> simp [*]

@[simp] theorem queueCut_frame (zone : Byte) (target : BitVec 48) (label : BitVec 16) (slip : Byte) (sc :
    List RawPlacement) (c : Caller) (s : State) :
    (queueCut zone target label slip sc c s).ports = s.ports ∧
    (queueCut zone target label slip sc c s).store = s.store ∧
    (queueCut zone target label slip sc c s).load = s.load ∧
    (queueCut zone target label slip sc c s).edit = s.edit ∧
    (queueCut zone target label slip sc c s).units = s.units ∧
    (queueCut zone target label slip sc c s).mail = s.mail ∧
    (queueCut zone target label slip sc c s).pending = s.pending := by
  unfold queueCut State.checked
  generalize firstFailure _ = f
  cases f <;> dsimp only <;> (repeat' split) <;> simp [*]

@[simp] theorem withdrawCut_frame (zone : Byte) (target : BitVec 48) (c : Caller) (s : State) :
    (withdrawCut zone target c s).ports = s.ports ∧ (withdrawCut zone target c s).store = s.store ∧
    (withdrawCut zone target c s).load = s.load ∧ (withdrawCut zone target c s).edit = s.edit ∧
    (withdrawCut zone target c s).units = s.units ∧ (withdrawCut zone target c s).mail = s.mail ∧
    (withdrawCut zone target c s).pending = s.pending := by
  unfold withdrawCut State.checked
  dsimp only
  generalize firstFailure _ = f
  cases f <;> dsimp only <;> (repeat' split) <;> simp [*]

@[simp] theorem defineGate_frame (gate zone level minClass : Byte) (duration : BitVec 16) (sc : List
    RawPlacement) (c : Caller) (s : State) :
    (defineGate gate zone level minClass duration sc c s).ports = s.ports ∧
    (defineGate gate zone level minClass duration sc c s).store = s.store ∧
    (defineGate gate zone level minClass duration sc c s).load = s.load ∧
    (defineGate gate zone level minClass duration sc c s).edit = s.edit ∧
    (defineGate gate zone level minClass duration sc c s).units = s.units ∧
    (defineGate gate zone level minClass duration sc c s).mail = s.mail ∧
    (defineGate gate zone level minClass duration sc c s).pending = s.pending := by
  unfold defineGate State.checked
  generalize firstFailure _ = f
  cases f <;> dsimp only <;> (repeat' split) <;> simp [*]

@[simp] theorem clearGate_frame (gate : Byte) (c : Caller) (s : State) :
    (clearGate gate c s).ports = s.ports ∧ (clearGate gate c s).store = s.store ∧
    (clearGate gate c s).load = s.load ∧ (clearGate gate c s).edit = s.edit ∧
    (clearGate gate c s).units = s.units ∧ (clearGate gate c s).mail = s.mail ∧
    (clearGate gate c s).pending = s.pending := by
  unfold clearGate State.checked
  generalize firstFailure _ = f
  cases f <;> dsimp only <;> (repeat' split) <;> simp [*]

@[simp] theorem invokeGate_frame (gate : Byte) (c : Caller) (s : State) :
    (invokeGate gate c s).ports = s.ports ∧ (invokeGate gate c s).dir = s.dir ∧
    (invokeGate gate c s).store = s.store ∧ (invokeGate gate c s).load = s.load ∧
    (invokeGate gate c s).edit = s.edit ∧ (invokeGate gate c s).units = s.units ∧
    (invokeGate gate c s).mail = s.mail ∧ (invokeGate gate c s).pending = s.pending := by
  unfold invokeGate State.checked
  generalize firstFailure _ = f
  cases f <;> dsimp only <;> (repeat' split) <;> simp [*]

@[simp] theorem returnGate_frame (zone : Byte) (c : Caller) (s : State) :
    (returnGate zone c s).ports = s.ports ∧ (returnGate zone c s).dir = s.dir ∧
    (returnGate zone c s).store = s.store ∧ (returnGate zone c s).load = s.load ∧
    (returnGate zone c s).edit = s.edit ∧ (returnGate zone c s).units = s.units ∧
    (returnGate zone c s).mail = s.mail ∧ (returnGate zone c s).pending = s.pending := by
  unfold returnGate State.checked
  dsimp only
  generalize firstFailure _ = f
  cases f <;> dsimp only <;> (repeat' split) <;> simp [*]

@[simp] theorem queryGate_frame (gate : Byte) (c : Caller) (s : State) :
    (queryGate gate c s).ports = s.ports ∧ (queryGate gate c s).dir = s.dir ∧
    (queryGate gate c s).store = s.store ∧ (queryGate gate c s).load = s.load ∧
    (queryGate gate c s).edit = s.edit ∧ (queryGate gate c s).scene = s.scene ∧
    (queryGate gate c s).units = s.units ∧ (queryGate gate c s).mail = s.mail ∧
    (queryGate gate c s).pending = s.pending := by
  unfold queryGate State.checked
  generalize firstFailure _ = f
  cases f <;> dsimp only <;> (repeat' split) <;> simp [*]

@[simp] theorem retrainTile_frame (tile : Byte) (c : Caller) (s : State) :
    (retrainTile tile c s).dir = s.dir ∧ (retrainTile tile c s).load = s.load ∧
    (retrainTile tile c s).edit = s.edit ∧ (retrainTile tile c s).scene = s.scene ∧
    (retrainTile tile c s).pending = s.pending := by
  unfold retrainTile State.checked
  dsimp only
  generalize firstFailure _ = f
  cases f <;> dsimp only <;> (repeat' split) <;> simp [*]

@[simp] theorem queryTile_frame (tile : Byte) (c : Caller) (s : State) :
    (queryTile tile c s).ports = s.ports ∧ (queryTile tile c s).dir = s.dir ∧
    (queryTile tile c s).store = s.store ∧ (queryTile tile c s).load = s.load ∧
    (queryTile tile c s).edit = s.edit ∧ (queryTile tile c s).scene = s.scene ∧
    (queryTile tile c s).units = s.units ∧ (queryTile tile c s).mail = s.mail ∧
    (queryTile tile c s).pending = s.pending := by
  unfold queryTile State.checked
  generalize firstFailure _ = f
  cases f <;> dsimp only <;> (repeat' split) <;> simp [*]

@[simp] theorem getEvents_frame (c : Caller) (s : State) :
    (getEvents c s).dir = s.dir ∧ (getEvents c s).store = s.store ∧ (getEvents c s).load = s.load ∧
    (getEvents c s).edit = s.edit ∧ (getEvents c s).scene = s.scene ∧ (getEvents c s).units = s.units ∧
    (getEvents c s).mail = s.mail ∧ (getEvents c s).pending = s.pending := by
  simp [getEvents]

@[simp] theorem setEventMask_frame (mask : BitVec 16) (c : Caller) (s : State) :
    (setEventMask mask c s).dir = s.dir ∧ (setEventMask mask c s).store = s.store ∧
    (setEventMask mask c s).load = s.load ∧ (setEventMask mask c s).edit = s.edit ∧
    (setEventMask mask c s).scene = s.scene ∧ (setEventMask mask c s).units = s.units ∧
    (setEventMask mask c s).mail = s.mail ∧ (setEventMask mask c s).pending = s.pending := by
  unfold setEventMask State.checked
  generalize firstFailure _ = f
  cases f <;> dsimp only <;> (repeat' split) <;> simp [*]

@[simp] theorem queryStore_frame (c : Caller) (s : State) :
    (queryStore c s).ports = s.ports ∧ (queryStore c s).dir = s.dir ∧ (queryStore c s).store = s.store ∧
    (queryStore c s).load = s.load ∧ (queryStore c s).edit = s.edit ∧ (queryStore c s).scene = s.scene ∧
    (queryStore c s).units = s.units ∧ (queryStore c s).mail = s.mail ∧ (queryStore c s).pending = s.pending := by
  simp [queryStore]

@[simp] theorem readFault_frame (c : Caller) (s : State) :
    (readFault c s).ports = s.ports ∧ (readFault c s).dir = s.dir ∧ (readFault c s).load = s.load ∧
    (readFault c s).edit = s.edit ∧ (readFault c s).scene = s.scene ∧ (readFault c s).units = s.units ∧
    (readFault c s).mail = s.mail ∧ (readFault c s).pending = s.pending := by
  unfold readFault
  dsimp only
  (repeat' split) <;> simp [*]

@[simp] theorem clientLinkUp_frame (p : Port) (s : State) :
    (clientLinkUp p s).dir = s.dir ∧ (clientLinkUp p s).store = s.store ∧ (clientLinkUp p s).load = s.load ∧
    (clientLinkUp p s).edit = s.edit ∧ (clientLinkUp p s).scene = s.scene ∧ (clientLinkUp p s).units = s.units ∧
    (clientLinkUp p s).mail = s.mail ∧ (clientLinkUp p s).out = s.out ∧ (clientLinkUp p s).pending = s.pending := by
  unfold clientLinkUp
  (repeat' split) <;> simp [*]

@[simp] theorem tileLinkUp_frame (t : Tile) (s : State) :
    (tileLinkUp t s).ports = s.ports ∧ (tileLinkUp t s).dir = s.dir ∧ (tileLinkUp t s).store = s.store ∧
    (tileLinkUp t s).load = s.load ∧ (tileLinkUp t s).edit = s.edit ∧ (tileLinkUp t s).scene = s.scene ∧
    (tileLinkUp t s).mail = s.mail ∧ (tileLinkUp t s).pending = s.pending := by
  unfold tileLinkUp
  dsimp only
  (repeat' split) <;> simp [*]

@[simp] theorem tileLinkDown_frame (t : Tile) (s : State) :
    (tileLinkDown t s).dir = s.dir ∧ (tileLinkDown t s).load = s.load ∧ (tileLinkDown t s).edit = s.edit ∧
    (tileLinkDown t s).scene = s.scene ∧ (tileLinkDown t s).pending = s.pending := by
  unfold tileLinkDown
  dsimp only
  (repeat' split) <;> simp [*]

@[simp] theorem frameAck_frame (t : Tile) (frame : BitVec 48) (s : State) :
    (frameAck t frame s).ports = s.ports ∧ (frameAck t frame s).dir = s.dir ∧
    (frameAck t frame s).store = s.store ∧ (frameAck t frame s).load = s.load ∧
    (frameAck t frame s).edit = s.edit ∧ (frameAck t frame s).scene = s.scene ∧
    (frameAck t frame s).out = s.out ∧ (frameAck t frame s).pending = s.pending := by
  unfold frameAck
  (repeat' split) <;> simp [*]

@[simp] theorem frameNak_frame (t : Tile) (frame : BitVec 48) (s : State) :
    (frameNak t frame s).ports = s.ports ∧ (frameNak t frame s).dir = s.dir ∧
    (frameNak t frame s).store = s.store ∧ (frameNak t frame s).load = s.load ∧
    (frameNak t frame s).edit = s.edit ∧ (frameNak t frame s).scene = s.scene ∧
    (frameNak t frame s).mail = s.mail ∧ (frameNak t frame s).out = s.out ∧
    (frameNak t frame s).pending = s.pending := by
  unfold frameNak
  (repeat' split) <;> simp [*]

@[simp] theorem trainEcho_frame (t : Tile) (attempt pattern : Byte) (check : Check) (s : State) :
    (trainEcho t attempt pattern check s).dir = s.dir ∧ (trainEcho t attempt pattern check s).store = s.store ∧
    (trainEcho t attempt pattern check s).load = s.load ∧ (trainEcho t attempt pattern check s).edit = s.edit ∧
    (trainEcho t attempt pattern check s).scene = s.scene ∧
    (trainEcho t attempt pattern check s).pending = s.pending := by
  unfold trainEcho
  dsimp only
  (repeat' split) <;> simp [*]

@[simp] theorem attemptTimerExpiry_frame (t : Tile) (s : State) :
    (attemptTimerExpiry t s).dir = s.dir ∧ (attemptTimerExpiry t s).store = s.store ∧
    (attemptTimerExpiry t s).load = s.load ∧ (attemptTimerExpiry t s).edit = s.edit ∧
    (attemptTimerExpiry t s).scene = s.scene ∧ (attemptTimerExpiry t s).pending = s.pending := by
  unfold attemptTimerExpiry
  (repeat' split) <;> simp [*]

@[simp] theorem refreshIntervalExpiry_frame (s : State) :
    (refreshIntervalExpiry s).dir = s.dir ∧ (refreshIntervalExpiry s).load = s.load ∧
    (refreshIntervalExpiry s).edit = s.edit ∧ (refreshIntervalExpiry s).scene = s.scene ∧
    (refreshIntervalExpiry s).units = s.units ∧ (refreshIntervalExpiry s).out = s.out ∧
    (refreshIntervalExpiry s).pending = s.pending := by
  unfold refreshIntervalExpiry
  (repeat' split) <;> simp [*]

@[simp] theorem scanComplete_frame (errors : BitErrors) (s : State) :
    (scanComplete errors s).load = s.load ∧ (scanComplete errors s).edit = s.edit ∧
    (scanComplete errors s).scene = s.scene ∧ (scanComplete errors s).pending = s.pending := by
  unfold scanComplete
  dsimp only
  (repeat' split) <;> simp [*]

@[simp] theorem loadComplete_frame (s : State) :
    (loadComplete s).edit = s.edit ∧ (loadComplete s).scene = s.scene ∧ (loadComplete s).units = s.units ∧
    (loadComplete s).out = s.out ∧ (loadComplete s).pending = s.pending := by
  unfold loadComplete
  dsimp only
  (repeat' split) <;> simp [*]

@[simp] theorem patchEditComplete_frame (errors : BitErrors) (s : State) :
    (patchEditComplete errors s).load = s.load ∧ (patchEditComplete errors s).units = s.units ∧
    (patchEditComplete errors s).pending = s.pending := by
  unfold patchEditComplete
  dsimp only
  (repeat' split) <;> simp [*]

@[simp] theorem copyLineComplete_frame (errors : BitErrors) (s : State) :
    (copyLineComplete errors s).load = s.load ∧ (copyLineComplete errors s).units = s.units ∧
    (copyLineComplete errors s).pending = s.pending := by
  unfold copyLineComplete
  dsimp only
  (repeat' split) <;> simp [*]

@[simp] theorem scrubComplete_frame (errors : ErrorMask) (s : State) :
    (scrubComplete errors s).load = s.load ∧ (scrubComplete errors s).edit = s.edit ∧
    (scrubComplete errors s).scene = s.scene ∧ (scrubComplete errors s).units = s.units ∧
    (scrubComplete errors s).out = s.out ∧ (scrubComplete errors s).pending = s.pending := by
  unfold scrubComplete
  dsimp only
  (repeat' split) <;> simp [*]

@[simp] theorem refreshComplete_frame (s : State) :
    (refreshComplete s).ports = s.ports ∧ (refreshComplete s).dir = s.dir ∧ (refreshComplete s).load = s.load ∧
    (refreshComplete s).edit = s.edit ∧ (refreshComplete s).scene = s.scene ∧
    (refreshComplete s).units = s.units ∧ (refreshComplete s).out = s.out ∧
    (refreshComplete s).pending = s.pending := by
  unfold refreshComplete
  (repeat' split) <;> simp [*]

@[simp] theorem selfRefreshExit_frame (s : State) :
    (selfRefreshExit s).ports = s.ports ∧ (selfRefreshExit s).dir = s.dir ∧ (selfRefreshExit s).load = s.load ∧
    (selfRefreshExit s).edit = s.edit ∧ (selfRefreshExit s).scene = s.scene ∧
    (selfRefreshExit s).units = s.units ∧ (selfRefreshExit s).out = s.out ∧
    (selfRefreshExit s).pending = s.pending := by
  unfold selfRefreshExit
  dsimp only
  (repeat' split) <;> simp [*]

@[simp] theorem entryCompletion_frame (s : State) :
    (entryCompletion s).dir = s.dir ∧ (entryCompletion s).store = s.store ∧ (entryCompletion s).load = s.load ∧
    (entryCompletion s).edit = s.edit ∧ (entryCompletion s).units = s.units ∧ (entryCompletion s).out = s.out ∧
    (entryCompletion s).pending = s.pending := by
  unfold entryCompletion
  (repeat' split) <;> simp [*]

@[simp] theorem exitCompletion_frame (s : State) :
    (exitCompletion s).dir = s.dir ∧ (exitCompletion s).store = s.store ∧ (exitCompletion s).load = s.load ∧
    (exitCompletion s).edit = s.edit ∧ (exitCompletion s).units = s.units ∧ (exitCompletion s).out = s.out ∧
    (exitCompletion s).pending = s.pending := by
  unfold exitCompletion
  dsimp only
  (repeat' split) <;> simp [*]

@[simp] theorem deliveryReport_frame (t : Tile) (s : State) :
    (deliveryReport t s).ports = s.ports ∧ (deliveryReport t s).dir = s.dir ∧
    (deliveryReport t s).store = s.store ∧ (deliveryReport t s).load = s.load ∧
    (deliveryReport t s).edit = s.edit ∧ (deliveryReport t s).units = s.units ∧
    (deliveryReport t s).out = s.out ∧ (deliveryReport t s).pending = s.pending := by
  unfold deliveryReport
  (repeat' split) <;> simp [*]

@[simp] theorem stateReport_frame (t : Tile) (s : State) :
    (stateReport t s).ports = s.ports ∧ (stateReport t s).dir = s.dir ∧ (stateReport t s).store = s.store ∧
    (stateReport t s).load = s.load ∧ (stateReport t s).edit = s.edit ∧ (stateReport t s).units = s.units ∧
    (stateReport t s).out = s.out ∧ (stateReport t s).pending = s.pending := by
  unfold stateReport
  (repeat' split) <;> simp [*]

@[simp] theorem fetchOrder_frame (t : Tile) (s : State) :
    (fetchOrder t s).dir = s.dir ∧ (fetchOrder t s).load = s.load ∧ (fetchOrder t s).edit = s.edit ∧
    (fetchOrder t s).scene = s.scene ∧ (fetchOrder t s).pending = s.pending := by
  unfold fetchOrder
  (repeat' split) <;> simp [*]

@[simp] theorem verdict_frame (t : Tile) (s : State) :
    (verdict t s).dir = s.dir ∧ (verdict t s).store = s.store ∧ (verdict t s).load = s.load ∧
    (verdict t s).edit = s.edit ∧ (verdict t s).scene = s.scene ∧ (verdict t s).pending = s.pending := by
  unfold verdict
  (repeat' split) <;> simp [*]

@[simp] theorem powerOnOrder_frame (t : Tile) (s : State) :
    (powerOnOrder t s).dir = s.dir ∧ (powerOnOrder t s).store = s.store ∧ (powerOnOrder t s).load = s.load ∧
    (powerOnOrder t s).edit = s.edit ∧ (powerOnOrder t s).scene = s.scene ∧
    (powerOnOrder t s).pending = s.pending := by
  unfold powerOnOrder
  dsimp only
  (repeat' split) <;> simp [*]

@[simp] theorem powerOffOrder_frame (t : Tile) (s : State) :
    (powerOffOrder t s).dir = s.dir ∧ (powerOffOrder t s).load = s.load ∧ (powerOffOrder t s).edit = s.edit ∧
    (powerOffOrder t s).scene = s.scene ∧ (powerOffOrder t s).pending = s.pending := by
  unfold powerOffOrder
  dsimp only
  (repeat' split) <;> simp [*]

@[simp] theorem recheckAll_frame (cs : List ChanId) (s : State) :
    (cs.foldl State.recheckWaiting s).ports = s.ports ∧ (cs.foldl State.recheckWaiting s).store = s.store ∧
    (cs.foldl State.recheckWaiting s).edit = s.edit ∧ (cs.foldl State.recheckWaiting s).scene = s.scene ∧
    (cs.foldl State.recheckWaiting s).units = s.units ∧ (cs.foldl State.recheckWaiting s).mail = s.mail ∧
    (cs.foldl State.recheckWaiting s).out = s.out ∧ (cs.foldl State.recheckWaiting s).pending = s.pending := by
  induction cs generalizing s with
  | nil => simp
  | cons c cs ih => simpa using ih (s.recheckWaiting c)

@[simp] theorem latchedCellAnnouncement_frame (s : State) :
    (latchedCellAnnouncement s).ports = s.ports ∧ (latchedCellAnnouncement s).store = s.store ∧
    (latchedCellAnnouncement s).edit = s.edit ∧ (latchedCellAnnouncement s).scene = s.scene ∧
    (latchedCellAnnouncement s).units = s.units ∧ (latchedCellAnnouncement s).out = s.out ∧
    (latchedCellAnnouncement s).pending = s.pending := by
  unfold latchedCellAnnouncement
  split <;> simp

@[simp] theorem answerBadRequest_frame (port : Port) (frame : List Byte) (s : State) :
    (answerBadRequest port frame s).ports = s.ports ∧ (answerBadRequest port frame s).dir = s.dir ∧
    (answerBadRequest port frame s).store = s.store ∧ (answerBadRequest port frame s).load = s.load ∧
    (answerBadRequest port frame s).edit = s.edit ∧ (answerBadRequest port frame s).scene = s.scene ∧
    (answerBadRequest port frame s).units = s.units ∧ (answerBadRequest port frame s).mail = s.mail ∧
    (answerBadRequest port frame s).pending = s.pending := by
  simp [answerBadRequest]

@[simp] theorem badRequest_frame (port : Port) (frame : List Byte) (s : State) :
    (badRequest port frame s).dir = s.dir ∧ (badRequest port frame s).store = s.store ∧
    (badRequest port frame s).load = s.load ∧ (badRequest port frame s).edit = s.edit ∧
    (badRequest port frame s).scene = s.scene ∧ (badRequest port frame s).units = s.units ∧
    (badRequest port frame s).mail = s.mail ∧ (badRequest port frame s).pending = s.pending := by
  unfold badRequest
  (repeat' split) <;> simp [*]

@[simp] theorem configure_frame (rate : Byte) (slots : BitVec 16) (cols rows : Byte) (positions : Vector Byte 16)
    (presence : Byte) (start : BitVec 48) (c : Caller) (s : State) :
    (configure rate slots cols rows positions presence start c s).store = s.store ∧
    (configure rate slots cols rows positions presence start c s).load = s.load ∧
    (configure rate slots cols rows positions presence start c s).edit = s.edit ∧
    (configure rate slots cols rows positions presence start c s).pending = s.pending := by
  unfold configure State.checked
  generalize firstFailure _ = f
  cases f <;> dsimp only
  case none =>
    refine ⟨?_, ?_, ?_, ?_⟩ <;> simp only [reply_store, reply_load, reply_edit, reply_pending, powerOnBound_frame,
      setWindow_frame, modScene_store, modScene_load, modScene_edit, modScene_pending]
    · exact foldl_keeps (fun b : State => b.store) _ (by intro b t; split <;> simp) _ _
    · exact foldl_keeps (fun b : State => b.load) _ (by intro b t; split <;> simp) _ _
    · exact foldl_keeps (fun b : State => b.edit) _ (by intro b t; split <;> simp) _ _
    · exact foldl_keeps (fun b : State => b.pending) _ (by intro b t; split <;> simp) _ _
  case some => simp

@[simp] theorem resetWindow_frame (c : Caller) (s : State) : (resetWindow c s).pending = s.pending := by
  unfold resetWindow State.checked
  generalize firstFailure _ = f
  cases f <;> dsimp only
  case none =>
    simp only [goOnAll_frame, reply_pending, setWindow_frame, grant_frame]
    exact (foldl_keeps (fun b : State => b.pending) _ (by simp) _ _).trans
      (foldl_keeps (fun b : State => b.pending) _ (by simp) _ _)
  case some => simp

@[simp] theorem purgePages_frame (owner unsharedOnly : Byte) (c : Caller) (s : State) :
    (purgePages owner unsharedOnly c s).ports = s.ports ∧ (purgePages owner unsharedOnly c s).store = s.store ∧
    (purgePages owner unsharedOnly c s).load = s.load ∧ (purgePages owner unsharedOnly c s).edit = s.edit ∧
    (purgePages owner unsharedOnly c s).scene = s.scene ∧ (purgePages owner unsharedOnly c s).units = s.units ∧
    (purgePages owner unsharedOnly c s).mail = s.mail ∧
    (purgePages owner unsharedOnly c s).pending = s.pending := by
  unfold purgePages State.checked
  generalize firstFailure _ = f
  cases f <;> dsimp only
  case none =>
    split
    · rw [(foldFree_keep _ _).1]; simp
    · simp
  case some => simp

@[simp] theorem releaseZone_request_frame (zone : Byte) (c : Caller) (s : State) :
    (releaseZone zone c s).ports = s.ports ∧ (releaseZone zone c s).store = s.store ∧
    (releaseZone zone c s).load = s.load ∧ (releaseZone zone c s).edit = s.edit ∧
    (releaseZone zone c s).units = s.units ∧ (releaseZone zone c s).mail = s.mail ∧
    (releaseZone zone c s).pending = s.pending := by
  unfold releaseZone State.checked
  dsimp only
  generalize firstFailure _ = f
  cases f <;> dsimp only <;> (repeat' split) <;> simp [*]

/-- The loss of an invoker changes the scene engine alone, at each zone. -/
theorem loseInvoker_fold_eq (p : Port) (zs : List ZoneId) (s : State) :
    (zs.foldl (fun s z => s.loseInvoker p z) s) =
      { s with scene := (zs.foldl (fun s z => s.loseInvoker p z) s).scene } := by
  induction zs generalizing s with
  | nil => rfl
  | cons z zs ih => rw [List.foldl_cons, ih]; simp

@[simp] theorem loseInvoker_fold_frame (p : Port) (zs : List ZoneId) (s : State) :
    (zs.foldl (fun s z => s.loseInvoker p z) s).ports = s.ports ∧
    (zs.foldl (fun s z => s.loseInvoker p z) s).dir = s.dir ∧
    (zs.foldl (fun s z => s.loseInvoker p z) s).store = s.store ∧
    (zs.foldl (fun s z => s.loseInvoker p z) s).load = s.load ∧
    (zs.foldl (fun s z => s.loseInvoker p z) s).edit = s.edit ∧
    (zs.foldl (fun s z => s.loseInvoker p z) s).units = s.units ∧
    (zs.foldl (fun s z => s.loseInvoker p z) s).mail = s.mail ∧
    (zs.foldl (fun s z => s.loseInvoker p z) s).out = s.out ∧
    (zs.foldl (fun s z => s.loseInvoker p z) s).pending = s.pending := by
  rw [loseInvoker_fold_eq]
  simp

@[simp] theorem portLoss_frame (p : Port) (s : State) :
    (portLoss p s).units = s.units ∧ (portLoss p s).out = s.out ∧ (portLoss p s).pending = s.pending := by
  unfold portLoss
  split
  · simp
  · simp

@[simp] theorem zonesLit_frame (e : Bool) (zs : List ZoneId) (s : State) :
    (zs.foldl (fun s z => s.zoneLit e z) s).store = s.store ∧
    (zs.foldl (fun s z => s.zoneLit e z) s).load = s.load ∧ (zs.foldl (fun s z => s.zoneLit e z) s).edit = s.edit ∧
    (zs.foldl (fun s z => s.zoneLit e z) s).units = s.units ∧ (zs.foldl (fun s z => s.zoneLit e z) s).out = s.out ∧
    (zs.foldl (fun s z => s.zoneLit e z) s).pending = s.pending := by
  induction zs generalizing s with
  | nil => simp
  | cons z zs ih => simpa using ih (s.zoneLit e z)

@[simp] theorem zonesDark_frame (zs : List ZoneId) (s : State) :
    (zs.foldl State.zoneDark s).store = s.store ∧ (zs.foldl State.zoneDark s).load = s.load ∧
    (zs.foldl State.zoneDark s).edit = s.edit ∧ (zs.foldl State.zoneDark s).units = s.units ∧
    (zs.foldl State.zoneDark s).mail = s.mail ∧ (zs.foldl State.zoneDark s).out = s.out ∧
    (zs.foldl State.zoneDark s).pending = s.pending := by
  induction zs generalizing s with
  | nil => simp
  | cons z zs ih => simpa using ih (s.zoneDark z)

@[simp] theorem frameBoundary_frame (s : State) :
    (frameBoundary s).units = s.units ∧ (frameBoundary s).pending = s.pending := by
  unfold frameBoundary
  dsimp only
  (repeat' split) <;> simp [State.modBackground]


/-! ### The effect of a command at its block -/

/-- What a command does at its block: a request once it is taken there for its caller, another command at once. -/
def atBlock (i : Instr) (c : Caller) (s : State) : State :=
  match i with
  | .powerOnReset straps => { State.reset with
      ports := straps.map fun b => .initial (classOfStraps b), out := s.out, pending := s.pending }
  | .badRequest port frame => badRequest port frame s
  | .configure _ rate slots cols rows positions presence start =>
    configure rate slots cols rows positions presence start c s
  | .resetWindow _ => resetWindow c s
  | .setEpoch _ frame => setEpoch frame c s
  | .darken _ presence frame => darken presence frame c s
  | .wake _ presence frame => wake presence frame c s
  | .queryWindow _ => queryWindow c s
  | .createPage _ kind width height cells rate => createPage kind width height cells rate c s
  | .deletePage _ page => deletePage page c s
  | .purgePages _ owner unsharedOnly => purgePages owner unsharedOnly c s
  | .setPageRights _ page shared showClasses writeClasses => setPageRights page shared showClasses writeClasses c s
  | .queryPage _ page => queryPage page c s
  | .loadBegin _ page mode first count check => loadBegin page mode first count check c s
  | .data _ chan presence check words => data chan presence check words c s
  | .loadAbort _ chan => loadAbort chan c s
  | .queryChannel _ chan => queryChannel chan c s
  | .patch _ page cell col row line first plane stipple words =>
    patch page cell col row line first plane stipple words c s
  | .copy _ source sourceCell dest destCell => copy source sourceCell dest destCell c s
  | .cancelEdit _ => cancelEdit c s
  | .setZone _ zone presence col row cols rows => setZone zone presence col row cols rows c s
  | .claimZone _ zone => claimZone zone c s
  | .releaseZone _ zone => releaseZone zone c s
  | .handOver _ zone port => handOver zone port c s
  | .seizeZone _ zone => seizeZone zone c s
  | .queryZone _ zone => queryZone zone c s
  | .queueCut _ zone target label slip scene => queueCut zone target label slip scene c s
  | .withdrawCut _ zone target => withdrawCut zone target c s
  | .defineGate _ gate zone level minClass duration scene => defineGate gate zone level minClass duration scene c s
  | .clearGate _ gate => clearGate gate c s
  | .invokeGate _ gate => invokeGate gate c s
  | .returnGate _ zone => returnGate zone c s
  | .queryGate _ gate => queryGate gate c s
  | .retrainTile _ tile => retrainTile tile c s
  | .queryTile _ tile => queryTile tile c s
  | .getEvents _ => getEvents c s
  | .setEventMask _ mask => setEventMask mask c s
  | .queryStore _ => queryStore c s
  | .readFault _ => readFault c s
  | .clientLinkUp port => clientLinkUp port s
  | .portLoss port => portLoss port s
  | .tileLinkUp tile => tileLinkUp tile s
  | .tileLinkDown tile => tileLinkDown tile s
  | .frameAck tile frame => frameAck tile frame s
  | .frameNak tile frame => frameNak tile frame s
  | .trainEcho tile attempt pattern check => trainEcho tile attempt pattern check s
  | .unknownTileMessage _ _ => s
  | .frameBoundary => frameBoundary s
  | .refreshIntervalExpiry => refreshIntervalExpiry s
  | .attemptTimerExpiry tile => attemptTimerExpiry tile s
  | .scanComplete errors => scanComplete errors s
  | .loadComplete => loadComplete s
  | .patchEditComplete errors => patchEditComplete errors s
  | .copyLineComplete errors => copyLineComplete errors s
  | .scrubComplete errors => scrubComplete errors s
  | .refreshComplete => refreshComplete s
  | .selfRefreshExit => selfRefreshExit s
  | .entryCompletion => entryCompletion s
  | .exitCompletion => exitCompletion s
  | .deliveryReport tile => deliveryReport tile s
  | .stateReport tile => stateReport tile s
  | .fetchOrder tile => fetchOrder tile s
  | .verdict tile => verdict tile s
  | .powerOnOrder tile => powerOnOrder tile s
  | .powerOffOrder tile => powerOffOrder tile s
  | .latchedCellAnnouncement => latchedCellAnnouncement s

/-- The course of a command (R172): a request is served at its port for its block or by the port itself, and every
other command has its effect at once. -/
theorem exec_course (i : Instr) (s : State) :
    (∃ h code self any, (∀ h', Instr.servedUnconfigured (self h') = any) ∧
      exec i s = .next (serve h code self any (atBlock i) s)) ∨
    (∃ h code self, exec i s = .next (serveAtPort h code self (atBlock i) s)) ∨
    ∀ c, exec i s = .next (atBlock i c s) := by
  cases i with
  | powerOnReset | badRequest | clientLinkUp | portLoss | tileLinkUp | tileLinkDown | frameAck | frameNak |
  trainEcho | unknownTileMessage | frameBoundary | refreshIntervalExpiry | attemptTimerExpiry | scanComplete |
  loadComplete | patchEditComplete | copyLineComplete | scrubComplete | refreshComplete | selfRefreshExit |
  entryCompletion | exitCompletion | deliveryReport | stateReport | fetchOrder | verdict | powerOnOrder |
  powerOffOrder | latchedCellAnnouncement =>
    exact .inr (.inr fun _ => rfl)
  | getEvents | setEventMask => exact .inr (.inl ⟨_, _, _, rfl⟩)
  | _ h => exact .inl ⟨h, _, _, _, fun _ => rfl, rfl⟩

/-! ### What every step keeps -/

/-- A predicate that the ports, what has been sent and the commands that wait have no part in. -/
def Quiet (P : State → Prop) : Prop :=
  ∀ (s : State) (ports : Vector PortRec 4) (out : List Output) (pending : List Instr),
    P s → P { s with ports := ports, out := out, pending := pending }

/-- Two states that differ in the ports, in what has been sent and in the commands that wait alone. -/
def sameBlocks (s t : State) : Prop :=
  t.dir = s.dir ∧ t.store = s.store ∧ t.load = s.load ∧ t.edit = s.edit ∧ t.scene = s.scene ∧ t.units = s.units ∧
    t.mail = s.mail

theorem Quiet.congr {P : State → Prop} (hq : Quiet P) {s t : State} (h : sameBlocks s t) (hs : P s) : P t := by
  obtain ⟨hd, hst, hl, he, hsc, hu, hm⟩ := h
  have ht : t = { s with ports := t.ports, out := t.out, pending := t.pending } :=
    State.eq_of_blocks rfl hd hst hl he hsc hu hm rfl rfl
  rw [ht]
  exact hq s _ _ _ hs

theorem Quiet.and {P Q : State → Prop} (hp : Quiet P) (hq : Quiet Q) : Quiet fun s => P s ∧ Q s :=
  fun s a b c h => ⟨hp s a b c h.1, hq s a b c h.2⟩

/-- A request that is served keeps a predicate that its effect keeps. -/
theorem serve_keeps {P : State → Prop} (hq : Quiet P) {act : Caller → State → State}
    (ha : ∀ c s, P s → P (act c s)) (h : Hdr) (code : Byte) (self : Hdr → Instr) (any : Bool) {s : State} (hs : P s) :
    P (serve h code self any act s) := by
  have hgo : ∀ (t : State) (p : Port), P t → P (t.goOn p) := fun t p => hq.congr (by simp [sameBlocks])
  unfold serve
  dsimp only
  split
  · exact hs
  cases h.stage
  case take =>
    dsimp only
    split
    · exact hgo _ _ (ha _ _ (hq.congr (by simp [sameBlocks]) hs))
    · exact hs
  case whole =>
    dsimp only
    split
    · exact hq.congr (by simp [sameBlocks]) hs
    split
    · exact hq.congr (by simp [sameBlocks]) hs
    · exact ha _ _ hs
  case pass =>
    dsimp only
    repeat' split
    all_goals exact hq.congr (by simp [sameBlocks]) hs

/-- A request that its port owns keeps a predicate that its effect keeps. -/
theorem serveAtPort_keeps {P : State → Prop} (hq : Quiet P) {act : Caller → State → State}
    (ha : ∀ c s, P s → P (act c s)) (h : Hdr) (code : Byte) (self : Hdr → Instr) {s : State} (hs : P s) :
    P (serveAtPort h code self act s) := by
  unfold serveAtPort
  dsimp only
  repeat' split
  · exact hs
  · exact hq.congr (by simp [sameBlocks]) hs
  · exact ha _ _ hs

/-- What every command does at its block keeps a predicate; so does every command. -/
theorem exec_keeps {P : State → Prop} (hq : Quiet P) (ha : ∀ i c s, P s → P (atBlock i c s)) {i : Instr} {s t : State}
    (h : exec i s = .next t) (hs : P s) : P t := by
  rcases exec_course i s with ⟨_, _, _, _, -, he⟩ | ⟨_, _, _, he⟩ | he
  · cases he.symm.trans h; exact serve_keeps hq (ha i) _ _ _ _ hs
  · cases he.symm.trans h; exact serveAtPort_keeps hq (ha i) _ _ _ hs
  · cases (he ⟨0, 0, 0⟩).symm.trans h; exact ha i _ s hs

theorem step_cases {s t : State} (h : step s = .next t) :
    t = s ∨ ∃ i rest, s.pending = i :: rest ∧ exec i { s with pending := rest } = .next t := by
  unfold step at h
  cases hp : s.pending with
  | nil => rw [hp] at h; cases h; exact .inl rfl
  | cons i rest => rw [hp] at h; exact .inr ⟨i, rest, rfl, h⟩

/-- A step keeps a predicate that every command's effect keeps at its block. -/
theorem step_keeps {P : State → Prop} (hq : Quiet P) (ha : ∀ i c s, P s → P (atBlock i c s)) {s t : State}
    (h : step s = .next t) (hs : P s) : P t := by
  rcases step_cases h with rfl | ⟨i, rest, -, h⟩
  · exact hs
  · exact exec_keeps hq ha h (hq s _ _ _ hs)

end Sys2Proof.Machine
end

