-- ==== Sys2Proof/Proofs/StoreLaws.lean ====
section
/-! The frame store between its contents: what requests, grants, withdrawals and the entry to and exit from self-refresh
change of it. They leave the bytes, the errors, the debt, the counts and the queues, and let a REFRESH run only where one
is owed or may be pulled in (R29, R31). -/

namespace Sys2Proof.Machine

/-- A refresh whose outcome counts has the bus. -/
def Store.refreshes (st : Store) : Prop := ∃ t, st.running = some t ∧ t.job = .refresh ∧ t.dropped = false

/-- The bytes, the errors, the debt, the counts and the scrub queue of a store are those of another. -/
def Store.sameContents (a b : Store) : Prop :=
  b.mem = a.mem ∧ b.errors = a.errors ∧ b.debt = a.debt ∧ b.refreshed = a.refreshed ∧ b.scrub = a.scrub ∧
    b.corrected = a.corrected

theorem Store.sameContents_refl (a : Store) : a.sameContents a := ⟨rfl, rfl, rfl, rfl, rfl, rfl⟩

theorem Store.sameContents.trans {a b c : Store} (h : a.sameContents b) (k : b.sameContents c) : a.sameContents c := by
  obtain ⟨h1, h2, h3, h4, h5, h6⟩ := h
  obtain ⟨k1, k2, k3, k4, k5, k6⟩ := k
  exact ⟨k1.trans h1, k2.trans h2, k3.trans h3, k4.trans h4, k5.trans h5, k6.trans h6⟩

theorem Store.kept.contents {a b : Store} (h : a.kept b) : a.sameContents b := by
  obtain ⟨h1, h2, h3, h4, h5, h6, -⟩ := h
  exact ⟨h1, h2, h3, h4, h5, h6⟩

/-- What the arbiter and its requesters may do to a store. -/
def Store.arbitrated (a b : Store) : Prop :=
  a.sameContents b ∧ (b.refreshes → a.refreshes ∨ -8 < a.debt ∨ a.refreshed = false)

theorem Store.arbitrated_refl (a : Store) : a.arbitrated a := ⟨Store.sameContents_refl a, .inl⟩

theorem Store.arbitrated_of_eq {a b : Store} (h : b = a) : a.arbitrated b := h ▸ Store.arbitrated_refl a

theorem Store.arbitrated.trans {a b c : Store} (h : a.arbitrated b) (k : b.arbitrated c) : a.arbitrated c := by
  refine ⟨h.1.trans k.1, fun hc => ?_⟩
  obtain ⟨-, -, hdebt, hflag, -⟩ := h.1
  rcases k.2 hc with hb | hb
  · exact h.2 hb
  · rw [hdebt, hflag] at hb; exact .inr hb

/-- An update that keeps the contents and lets no refresh run. -/
theorem Store.arbitrated_of_contents {a b : Store} (hk : a.sameContents b) (hr : b.refreshes → a.refreshes) : a.arbitrated b :=
  ⟨hk, fun h => .inl (hr h)⟩

/-- A fold of steps of the arbiter and its requesters is one. -/
theorem arbitrated_foldl {α : Type} (f : State → α → State)
    (h : ∀ (s : State) a, s.store.arbitrated (f s a).store)
    (l : List α) (s : State) : s.store.arbitrated (l.foldl f s).store := by
  induction l generalizing s with
  | nil => exact Store.arbitrated_refl _
  | cons a l ih => exact (h s a).trans (ih (f s a))

/-! ### Grants -/

/-- A transfer other than a REFRESH is given the bus. -/
theorem run_arbitrated {s : State} {j : TransferJob} (hj : j ≠ .refresh) : s.store.arbitrated (s.run j).store :=
  Store.arbitrated_of_contents (Store.sameContents_refl _) fun ⟨t, ht, hr, _⟩ => by cases ht; exact absurd hr hj

theorem grantRefresh_arbitrated {s : State} (h : -8 < s.store.debt ∨ s.store.refreshed = false) :
    s.store.arbitrated s.grantRefresh.store := ⟨(grantRefresh_kept s).contents, fun _ => .inr h⟩

theorem grantScan_arbitrated (s : State) (t : Tile) : s.store.arbitrated (s.grantScan t).store := by
  unfold State.grantScan
  dsimp only
  split
  · exact Store.arbitrated.trans (Store.arbitrated_refl s.store) (run_arbitrated (by simp))
  · exact Store.arbitrated_refl _

theorem grantLoad_arbitrated (s : State) (c : ChanId) : s.store.arbitrated (s.grantLoad c).store := by
  unfold State.grantLoad
  dsimp only
  split
  · split
    · exact Store.arbitrated.trans (Store.arbitrated_refl s.store) (run_arbitrated (by simp))
    · exact Store.arbitrated_refl _
  · exact Store.arbitrated_refl _

theorem grantScrub_arbitrated (s : State) : s.store.arbitrated s.grantScrub.store := by
  unfold State.grantScrub
  dsimp only
  split
  · exact Store.arbitrated.trans (Store.arbitrated_refl s.store) (run_arbitrated (by simp))
  · exact Store.arbitrated_refl _

/-- An edit's transfer is no REFRESH. -/
theorem editTransfer_ne_refresh {s : State} {e : Edit} {j : TransferJob} (h : s.editTransfer e = some j) :
    j ≠ .refresh := by
  rintro rfl
  unfold State.editTransfer at h
  split at h
  · simp at h
  · simp only [Option.bind_eq_some_iff] at h
    obtain ⟨d, -, h⟩ := h
    split at h <;> simp at h

theorem grantEdit_arbitrated (s : State) : s.store.arbitrated s.grantEdit.store := by
  unfold State.grantEdit
  dsimp only
  split
  · split
    · next h => exact Store.arbitrated.trans (Store.arbitrated_refl s.store) (run_arbitrated (editTransfer_ne_refresh h))
    · exact Store.arbitrated_refl _
  · exact Store.arbitrated_refl _

theorem grantAwake_arbitrated (s : State) : s.store.arbitrated s.grantAwake.store := by
  unfold State.grantAwake
  split
  · exact grantRefresh_arbitrated (.inl (by omega))
  split
  · exact grantScan_arbitrated _ _
  split
  · exact grantRefresh_arbitrated (.inl (by omega))
  split
  · exact grantLoad_arbitrated _ _
  split
  · exact grantScrub_arbitrated _
  split
  · exact grantEdit_arbitrated _
  split
  · exact grantRefresh_arbitrated (.inl (by omega))
  · exact Store.arbitrated_refl _

theorem grant_arbitrated (s : State) : s.store.arbitrated s.grant.store := by
  unfold State.grant
  split
  · exact Store.arbitrated_refl _
  split
  · exact grantAwake_arbitrated s
  · split
    · next h => exact grantRefresh_arbitrated (h.imp (fun h => by omega) id)
    · exact Store.arbitrated_refl _
  · exact Store.arbitrated_refl _
  · exact Store.arbitrated_refl _

theorem freeBus_arbitrated (s : State) : s.store.arbitrated s.freeBus.store :=
  Store.arbitrated.trans (b := { s.store with running := none })
    (Store.arbitrated_of_contents (Store.sameContents_refl _) fun ⟨_, ht, _⟩ => by cases ht) (grant_arbitrated _)

theorem discardRunning_arbitrated (s : State) (k : TransferJob → Bool) :
    s.store.arbitrated (s.discardRunning k).store := by
  refine Store.arbitrated_of_contents (discardRunning_kept s k).contents ?_
  unfold State.discardRunning
  split
  · rintro ⟨t, ht, hj, hd⟩
    obtain ⟨r, hr, rfl⟩ := Option.map_eq_some_iff.1 ht
    exact ⟨r, hr, hj, hd⟩
  · exact id

/-! ### Requests -/

theorem requestScan_arbitrated (s : State) (t : Tile) : s.store.arbitrated (s.requestScan t).store :=
  Store.arbitrated.trans (Store.arbitrated_refl s.store) (grant_arbitrated _)

theorem requestLoad_arbitrated (s : State) (c : ChanId) : s.store.arbitrated (s.requestLoad c).store := by
  unfold State.requestLoad
  split
  · split
    · exact Store.arbitrated.trans (Store.arbitrated_refl s.store) (grant_arbitrated _)
    · exact Store.arbitrated_refl _
  · exact Store.arbitrated_refl _

theorem requestEdit_arbitrated (s : State) : s.store.arbitrated s.requestEdit.store := by
  unfold State.requestEdit
  split
  · exact Store.arbitrated_refl _
  · exact Store.arbitrated.trans (Store.arbitrated_refl s.store) (grant_arbitrated _)

theorem requestScrub_arbitrated (s : State) : s.store.arbitrated s.requestScrub.store := by
  unfold State.requestScrub
  split
  · exact Store.arbitrated_refl _
  · exact Store.arbitrated.trans (Store.arbitrated_refl s.store) (grant_arbitrated _)

/-! ### Self-refresh -/

/-- An update of what is neither contents nor the running transfer. -/
theorem Store.arbitrated_of_running {a b : Store} (hk : a.sameContents b) (hr : b.running = a.running) :
    a.arbitrated b := Store.arbitrated_of_contents hk (by simp only [Store.refreshes, hr]; exact id)

theorem entryRequest_arbitrated (s : State) : s.store.arbitrated s.entryRequest.store := by
  unfold State.entryRequest
  split
  · dsimp only; split <;> exact Store.arbitrated_of_running (Store.sameContents_refl _) rfl
  all_goals exact Store.arbitrated_of_running (Store.sameContents_refl _) rfl

theorem exitRequest_arbitrated (s : State) : s.store.arbitrated s.exitRequest.store := by
  unfold State.exitRequest
  split <;> exact Store.arbitrated_of_running (Store.sameContents_refl _) rfl

theorem takeEnds_arbitrated (s : State) (f : EndReports → EndReports) : s.store.arbitrated (s.takeEnds f).store := by
  unfold State.takeEnds
  split
  · exact entryRequest_arbitrated _
  · exact Store.arbitrated_refl _

theorem reportEditsEnded_arbitrated (s : State) : s.store.arbitrated s.reportEditsEnded.store := by
  unfold State.reportEditsEnded
  split
  · exact takeEnds_arbitrated _ _
  · exact Store.arbitrated_refl _

/-! ### Edits -/

theorem enqueueEdit_arbitrated (s : State) (e : Edit) : s.store.arbitrated (s.enqueueEdit e).store := by
  unfold State.enqueueEdit
  dsimp only
  split
  · exact requestEdit_arbitrated (s.modEdit _)
  · exact Store.arbitrated_refl _

/-- An edit whose pins and marks are released, with the queue changed. -/
theorem releaseEdit_arbitrated (s : State) (f : EditUnit → EditUnit) (e : Edit) (done : Bool) :
    s.store.arbitrated ((s.modEdit f).releaseEdit e done).store := Store.arbitrated_of_eq (by simp)

theorem removeEdit_arbitrated (s : State) (e : Edit) : s.store.arbitrated (s.removeEdit e).store := by
  unfold State.removeEdit
  dsimp only
  split
  · refine Store.arbitrated.trans ?_ (requestEdit_arbitrated _)
    refine Store.arbitrated.trans ?_ (discardRunning_arbitrated _ _)
    exact Store.arbitrated_of_running (by simp [Store.sameContents]) (by simp)
  · exact releaseEdit_arbitrated s _ e false

theorem endEdits_arbitrated (s : State) : s.store.arbitrated s.endEdits.store := by
  unfold State.endEdits
  dsimp only
  refine Store.arbitrated.trans ?_ (reportEditsEnded_arbitrated _)
  refine Store.arbitrated.trans (Store.arbitrated_refl s.store) (arbitrated_foldl _ (fun s e => ?_) _ _)
  split
  · exact Store.arbitrated_refl _
  · rw [reply_store]; exact removeEdit_arbitrated _ _

theorem nextEdit_arbitrated (s : State) : s.store.arbitrated s.nextEdit.reportEditsEnded.store :=
  (requestEdit_arbitrated s).trans (reportEditsEnded_arbitrated _)

theorem patchDone_arbitrated (s : State) (n : Nat) : s.store.arbitrated (s.patchDone n).store := by
  unfold State.patchDone
  split
  · dsimp only
    refine Store.arbitrated.trans (Store.arbitrated_of_eq ?_) (nextEdit_arbitrated _)
    split <;> simp
  · exact Store.arbitrated_refl _

theorem copyMoved_arbitrated (s : State) : s.store.arbitrated s.copyMoved.store := by
  unfold State.copyMoved
  split
  · dsimp only
    split
    · exact Store.arbitrated.trans (Store.arbitrated_of_eq (by simp)) (nextEdit_arbitrated _)
    · exact requestEdit_arbitrated (s.modEdit _)
  · exact Store.arbitrated_refl _

theorem copyStopped_arbitrated (s : State) : s.store.arbitrated s.copyStopped.store := by
  unfold State.copyStopped
  split
  · exact Store.arbitrated.trans (Store.arbitrated_of_eq (by simp)) (nextEdit_arbitrated _)
  · exact Store.arbitrated_refl _

/-! ### Loads -/

theorem abortLoad_arbitrated (s : State) (c : ChanId) : s.store.arbitrated (s.abortLoad c).store := by
  unfold State.abortLoad
  split
  · refine Store.arbitrated.trans (b := ((s.modStore fun st => { st with
      loadWaiting := eraseBit st.loadWaiting c.val }).discardRunning (TransferJob.isLoadOf c)).store) ?_
      (Store.arbitrated_of_eq ?_)
    · exact Store.arbitrated.trans (Store.arbitrated_of_running (Store.sameContents_refl _) rfl)
        (discardRunning_arbitrated _ _)
    · dsimp only; split <;> simp
  · exact Store.arbitrated_refl _

theorem lineLoaded_arbitrated (s : State) (c : ChanId) : s.store.arbitrated (s.lineLoaded c).store := by
  unfold State.lineLoaded
  dsimp only
  split
  · split
    · split <;> exact Store.arbitrated_of_eq (by simp)
    · exact requestLoad_arbitrated (s.setChan c _) c
  · exact Store.arbitrated_refl _

theorem abortLoadsOf_arbitrated (s : State) (p : Port) : s.store.arbitrated (s.abortLoadsOf p).store := by
  refine arbitrated_foldl _ (fun s c => ?_) _ _
  split
  · exact abortLoad_arbitrated _ _
  · exact Store.arbitrated_refl _

theorem abortAll_arbitrated (s : State) : s.store.arbitrated s.abortAll.store := by
  refine arbitrated_foldl _ (fun s c => ?_) _ _
  split
  · exact abortLoad_arbitrated _ _
  · exact Store.arbitrated_refl _

/-! ### Units -/

theorem abandonFetch_arbitrated (s : State) (t : Tile) : s.store.arbitrated (s.abandonFetch t).store := by
  unfold State.abandonFetch
  split
  · refine Store.arbitrated.trans (b := ((s.modStore fun st => { st with
      scanWaiting := eraseBit st.scanWaiting t.val }).discardRunning (TransferJob.isScanOf t)).store) ?_
      (Store.arbitrated_of_eq ?_)
    · exact Store.arbitrated.trans (Store.arbitrated_of_running (Store.sameContents_refl _) rfl)
        (discardRunning_arbitrated _ _)
    · dsimp only; split <;> simp [State.sendPanel]
  · exact Store.arbitrated_refl _

theorem beginFetch_arbitrated (s : State) (t : Tile) (n : Nat) (src : Source) :
    s.store.arbitrated (s.beginFetch t n src).store := by
  unfold State.beginFetch
  dsimp only
  refine Store.arbitrated.trans (abandonFetch_arbitrated s t) ?_
  split
  · exact Store.arbitrated_of_eq (by simp)
  · split
    · exact Store.arbitrated_refl _
    · exact requestScan_arbitrated (((s.abandonFetch t).setUnit t _).sendPanel t _) t

theorem takeOrder_arbitrated (s : State) (t : Tile) (n : Nat) (src : Source) (a : Bool) :
    s.store.arbitrated (s.takeOrder t n src a).store := by
  unfold State.takeOrder
  split
  case h_4 =>
    dsimp only
    refine Store.arbitrated.trans (Store.arbitrated_of_eq ?_) (beginFetch_arbitrated _ _ _ _)
    split <;> simp
  case h_5 | h_6 => exact beginFetch_arbitrated _ _ _ _
  all_goals exact Store.arbitrated_refl _

theorem lineScanned_arbitrated (s : State) (t : Tile) (ws : List Word) :
    s.store.arbitrated (s.lineScanned t ws).store := by
  unfold State.lineScanned
  split
  · dsimp only
    split
    · exact Store.arbitrated_of_eq (by simp)
    · exact Store.arbitrated.trans (Store.arbitrated_of_eq (by simp)) (requestScan_arbitrated _ t)
  · exact Store.arbitrated_refl _

theorem scanDiscarded_arbitrated (s : State) (t : Tile) : s.store.arbitrated (s.scanDiscarded t).store := by
  unfold State.scanDiscarded
  split
  · exact requestScan_arbitrated _ _
  · exact Store.arbitrated_refl _

/-! ### Dark entry and the loss of a port -/

theorem darkEntry_arbitrated (s : State) : s.store.arbitrated s.darkEntry.store := by
  unfold State.darkEntry
  dsimp only
  rw [foldl_keeps (fun b : State => b.store) (fun (s : State) t => s.toUnit t UnitMsg.powerOff) (by simp)]
  refine Store.arbitrated.trans ?_ (endEdits_arbitrated _)
  rw [modScene_store]
  refine Store.arbitrated.trans (Store.arbitrated_of_eq ?_) (abortAll_arbitrated _)
  rw [State.modBackground, modScene_store, foldl_keeps (fun b : State => b.store) State.windBack (by simp)]
  simp

theorem takeChange_arbitrated (s : State) : s.store.arbitrated s.takeChange.store := by
  unfold State.takeChange
  dsimp only
  split
  · split
    · exact darkEntry_arbitrated s
    · exact Store.arbitrated_refl _
  · split
    · exact Store.arbitrated.trans (Store.arbitrated_of_eq (by simp)) (exitRequest_arbitrated _)
    · exact Store.arbitrated_refl _
  · exact Store.arbitrated_refl _

theorem removeEditOf_arbitrated (s : State) (p : Port) : s.store.arbitrated (s.removeEditOf p).store := by
  unfold State.removeEditOf
  split
  · exact (removeEdit_arbitrated s _).trans (reportEditsEnded_arbitrated _)
  · exact Store.arbitrated_refl _

theorem portLoss_arbitrated (p : Port) (s : State) : s.store.arbitrated (portLoss p s).store := by
  unfold portLoss
  split
  · dsimp only
    rw [(loseInvoker_fold_frame _ _ _).2.2.1]
    refine Store.arbitrated.trans ?_ (removeEditOf_arbitrated _ p)
    refine Store.arbitrated.trans (Store.arbitrated_of_eq ?_) (abortLoadsOf_arbitrated _ p)
    simp
  · exact Store.arbitrated_refl _

theorem frameBoundary_arbitrated (s : State) : s.store.arbitrated (frameBoundary s).store := by
  unfold frameBoundary
  split
  · dsimp only
    rw [modMail_store]
    split
    · rw [(backgroundLit_frame _).2.2.1, (zonesLit_frame _ _ _).1]
      exact Store.arbitrated.trans (Store.arbitrated_of_eq rfl) (takeChange_arbitrated _)
    · rw [State.modBackground, modScene_store, (zonesDark_frame _ _).1]
      exact Store.arbitrated.trans (Store.arbitrated_of_eq rfl) (takeChange_arbitrated _)
  · exact Store.arbitrated_refl _

/-! ### The commands that do no more -/

/-- The commands that change the contents of the store: the completions of transfers, what pays or raises the debt, and
the resets. -/
def changesContents : Instr → Bool
  | .powerOnReset _ | .resetWindow _ | .refreshIntervalExpiry | .scanComplete _ | .loadComplete | .patchEditComplete _
  | .copyLineComplete _ | .scrubComplete _ | .refreshComplete | .selfRefreshExit => true
  | _ => false

theorem data_arbitrated (ch presence : Byte) (check : Check) (ws : List Word) (c : Caller) (s : State) :
    s.store.arbitrated (data ch presence check ws c s).store := by
  unfold data State.checked
  split
  · exact Store.arbitrated_of_eq (by simp)
  · split
    · exact Store.arbitrated.trans (Store.arbitrated_of_eq (by simp)) (requestLoad_arbitrated _ _)
    · exact Store.arbitrated_refl _

theorem loadAbort_arbitrated (ch : Byte) (c : Caller) (s : State) : s.store.arbitrated (loadAbort ch c s).store := by
  unfold loadAbort State.checked
  dsimp only
  split
  · exact Store.arbitrated_of_eq (by simp)
  · split
    · next k l _ _ =>
      refine Store.arbitrated.trans (abortLoad_arbitrated s k) (Store.arbitrated_of_eq ?_)
      split <;> simp
    · exact Store.arbitrated_refl _

theorem patch_arbitrated (pg : Handle) (cell col row line first : Byte) (plane stipple : BitVec 32) (ws : List Word)
    (c : Caller) (s : State) :
    s.store.arbitrated (patch pg cell col row line first plane stipple ws c s).store := by
  unfold patch State.checked
  split
  · exact Store.arbitrated_of_eq (by simp)
  · exact Store.arbitrated.trans (Store.arbitrated_of_eq (by simp)) (enqueueEdit_arbitrated _ _)

theorem copy_arbitrated (src : Handle) (sc : Byte) (dst : Handle) (dc : Byte) (c : Caller) (s : State) :
    s.store.arbitrated (copy src sc dst dc c s).store := by
  unfold copy State.checked
  split
  · exact Store.arbitrated_of_eq (by simp)
  · dsimp only
    refine Store.arbitrated.trans (Store.arbitrated_of_eq ?_) (enqueueEdit_arbitrated _ _)
    split <;> simp

theorem cancelEdit_arbitrated (c : Caller) (s : State) : s.store.arbitrated (cancelEdit c s).store := by
  unfold cancelEdit
  split
  · exact Store.arbitrated_of_eq (by simp)
  · split
    · exact Store.arbitrated_of_eq (by simp)
    · exact Store.arbitrated.trans (Store.arbitrated_of_eq (by simp)) (removeEdit_arbitrated _ _)

theorem retrainTile_arbitrated (tile : Byte) (c : Caller) (s : State) :
    s.store.arbitrated (retrainTile tile c s).store := by
  unfold retrainTile State.checked
  dsimp only
  split
  · exact Store.arbitrated_of_eq (by simp)
  · split
    · next t _ => exact Store.arbitrated.trans (abandonFetch_arbitrated s t) (Store.arbitrated_of_eq (by simp))
    · exact Store.arbitrated_refl _

theorem readFault_arbitrated (c : Caller) (s : State) : s.store.arbitrated (readFault c s).store := by
  unfold readFault
  dsimp only
  split
  · rw [modStore_store, reply_store]
    exact Store.arbitrated_of_running (Store.sameContents_refl _) rfl
  · exact Store.arbitrated_of_eq (by simp)

theorem fetchOrder_arbitrated (t : Tile) (s : State) : s.store.arbitrated (fetchOrder t s).store := by
  unfold fetchOrder
  split
  · exact Store.arbitrated.trans (Store.arbitrated_refl s.store) (takeOrder_arbitrated _ _ _ _ _)
  · exact Store.arbitrated_refl _

theorem powerOffOrder_arbitrated (t : Tile) (s : State) : s.store.arbitrated (powerOffOrder t s).store := by
  unfold powerOffOrder
  split
  · dsimp only
    split
    · refine Store.arbitrated.trans (abandonFetch_arbitrated (s.popUnitMsg t) t) (Store.arbitrated_of_eq ?_)
      split <;> simp
    · exact Store.arbitrated_refl _
  · exact Store.arbitrated_refl _

theorem tileLinkDown_arbitrated (t : Tile) (s : State) : s.store.arbitrated (tileLinkDown t s).store := by
  unfold tileLinkDown
  dsimp only
  split
  · simp only [become_frame, stopTraining_frame]
    exact abandonFetch_arbitrated (s.setUnit t _) t
  · exact Store.arbitrated_refl _

/-- A command that does not change the contents of the store does to it what the arbiter and its requesters may. -/
theorem atBlock_arbitrated (i : Instr) (hi : changesContents i = false) (c : Caller) (s : State) :
    s.store.arbitrated (atBlock i c s).store := by
  cases i with
  | powerOnReset | resetWindow | refreshIntervalExpiry | scanComplete | loadComplete | patchEditComplete
  | copyLineComplete | scrubComplete | refreshComplete | selfRefreshExit => cases hi
  | data => exact data_arbitrated _ _ _ _ _ _
  | loadAbort => exact loadAbort_arbitrated _ _ _
  | patch => exact patch_arbitrated _ _ _ _ _ _ _ _ _ _ _
  | copy => exact copy_arbitrated _ _ _ _ _ _
  | cancelEdit => exact cancelEdit_arbitrated _ _
  | retrainTile => exact retrainTile_arbitrated _ _ _
  | readFault => exact readFault_arbitrated _ _
  | portLoss => exact portLoss_arbitrated _ _
  | frameBoundary => exact frameBoundary_arbitrated _
  | fetchOrder => exact fetchOrder_arbitrated _ _
  | powerOffOrder => exact powerOffOrder_arbitrated _ _
  | tileLinkDown => exact tileLinkDown_arbitrated _ _
  | _ => exact Store.arbitrated_of_eq (by simp [atBlock])

/-! ### Words read and written -/

theorem writeWords_frame (st : Store) (slot line word : Nat) (ws : List Word) :
    st.writeWords slot line word ws = { st with
      mem := (st.writeWords slot line word ws).mem, errors := (st.writeWords slot line word ws).errors } := by
  induction ws generalizing st word with
  | nil => rfl
  | cons w ws ih => rw [Store.writeWords, ih, writeWord_other]

theorem patchWords_frame (st : Store) (slot line : Nat) (plane stipple : BitVec 32) (word : Nat) (ws : List Word) :
    st.patchWords slot line plane stipple word ws = { st with
      mem := (st.patchWords slot line plane stipple word ws).mem
      errors := (st.patchWords slot line plane stipple word ws).errors } := by
  induction ws generalizing st word with
  | nil => rfl
  | cons w ws ih =>
    rw [Store.patchWords, ih]
    dsimp only
    (repeat' split) <;> rfl

theorem patchWords_wf {st : Store} (h : st.wf) (slot line : Nat) (plane stipple : BitVec 32) (word : Nat)
    (ws : List Word) : (st.patchWords slot line plane stipple word ws).wf := by
  induction ws generalizing st word with
  | nil => exact h
  | cons w ws ih =>
    rw [Store.patchWords]
    apply ih
    (repeat' split) <;> first | exact writeWord_wf h _ _ _ _ | exact h

/-- What words read change of a store: the count, the scrub queue with its request, and the fault record. -/
def Store.reported (a b : Store) : Prop :=
  b = { a with corrected := b.corrected, scrub := b.scrub, scrubWaiting := b.scrubWaiting, record := b.record }

theorem Store.reported.trans {a b c : Store} (h : a.reported b) (k : b.reported c) : a.reported c := by
  unfold Store.reported at *
  rw [k, h]

/-- A fault that is offered changes the record alone. -/
theorem offerFault_store (s : State) (f : CapturedFault) :
    (s.offerFault f).store = { s.store with record := (s.offerFault f).store.record } := by
  unfold State.offerFault
  split <;> rfl

theorem uncorrectable_store (s : State) (kind : FaultKind) (o : Origin) (a : WordAddr) :
    (s.uncorrectable kind o a).store = (s.offerFault
      { kind := kind, addr := some a, page := s.slotOwner a.slot, source := some o, frame := s.scene.frame }).store := by
  unfold State.uncorrectable State.offerFault
  dsimp only
  (repeat' split) <;> simp_all

/-- The effects of a word leave the store but for its reports. -/
theorem wordEffect_reported (s : State) (kind : FaultKind) (o : Origin) (a : WordAddr) (c : ReadClass) :
    s.store.reported (s.wordEffect kind o a c).store := by
  cases c with
  | clean => rfl
  | corrected =>
    simp only [State.wordEffect, State.offerScrub]
    split <;> rfl
  | uncorrectable =>
    simp only [State.wordEffect]
    rw [uncorrectable_store, offerFault_store]
    rfl

theorem lineEffects_reported (kind : FaultKind) (o : Origin) (slot line : Nat) (ws : List (Nat × ReadClass))
    (s : State) : s.store.reported (s.lineEffects kind o slot line ws).store := by
  induction ws generalizing s with
  | nil => rfl
  | cons w ws ih => exact (wordEffect_reported s kind o _ w.2).trans (ih _)

/-! ### Laws of the store's contents -/

/-- A law of the store that every single change of its contents keeps. -/
structure StoreLaw (P : State → Prop) : Prop where
  arbitrated : ∀ s t : State, s.store.arbitrated t.store → P s → P t
  written : ∀ s t : State, t.store = { s.store with mem := t.store.mem, errors := t.store.errors } →
    (s.store.wf → t.store.wf) → P s → P t
  effect : ∀ (s : State) kind o a c, P s → P (s.wordEffect kind o a c)
  counted : ∀ s : State, P s → P s.countCorrected
  scrubbed : ∀ s : State, P s → P (s.modStore fun st => { st with scrub := st.scrub.tail })
  owed : ∀ s : State, s.store.debt ≠ 8 → P s → P (s.modStore fun st => { st with debt := st.debt + 1 })
  paid : ∀ s : State, s.refreshing → P s →
    P (s.modStore fun st => { st with debt := st.debt - 1, refreshed := true, running := none })
  woken : ∀ s : State, P s →
    P (s.modStore fun st => { st with power := .awake, debt := 0, refreshed := false, entryKept := false })
  initial : ∀ s : State, s.store = .initial → P s
  reset : ∀ s : State, P s → P (s.modStore Store.resetWindow)

namespace StoreLaw

variable {P : State → Prop} (law : StoreLaw P)

include law

theorem of_store_eq {s t : State} (hs : P s) (h : t.store = s.store) : P t :=
  law.arbitrated s t (Store.arbitrated_of_eq h) hs

theorem lineEffects (kind : FaultKind) (o : Origin) (slot line : Nat) (ws : List (Nat × ReadClass)) {s : State}
    (hs : P s) : P (s.lineEffects kind o slot line ws) := by
  induction ws generalizing s with
  | nil => exact hs
  | cons w ws ih => exact ih (law.effect s kind o _ w.2 hs)

theorem refreshIntervalExpiry {s : State} (hs : P s) : P (refreshIntervalExpiry s) := by
  unfold Machine.refreshIntervalExpiry
  split
  · split
    · refine law.arbitrated s _ ?_ hs
      rw [offerFault_store]
      exact Store.arbitrated_of_running (Store.sameContents_refl _) rfl
    · exact law.arbitrated _ _ (grant_arbitrated _) (law.owed s ‹_› hs)
  · exact hs

theorem scanComplete (errors : BitErrors) {s : State} (hs : P s) : P (scanComplete errors s) := by
  unfold Machine.scanComplete
  split
  case h_2 => exact hs
  case h_1 t slot line discard dropped h =>
    split
    · exact law.arbitrated _ _ (freeBus_arbitrated s) hs
    dsimp only
    have hd : P (s.modStore fun _ => s.store.disturb slot line errors) :=
      law.written s _ (disturb_frame _ _ _ _) (fun hw => disturb_wf hw _ _ _) hs
    have hf := law.arbitrated _ _ (freeBus_arbitrated _) (law.lineEffects .scanUncorrectable (.unit t) slot line
      (numbered ((s.store.disturb slot line errors).readLine slot line)) hd)
    split
    · exact law.arbitrated _ _ (scanDiscarded_arbitrated _ _) hf
    · exact law.arbitrated _ _ (lineScanned_arbitrated _ _ _) hf

theorem loadComplete {s : State} (hs : P s) : P (loadComplete s) := by
  unfold Machine.loadComplete
  split
  case h_2 => exact hs
  case h_1 c slot line ws discard dropped h =>
    split
    · exact law.arbitrated _ _ (freeBus_arbitrated s) hs
    dsimp only
    have hw : P (s.modStore fun st => st.writeWords slot line 0 ws) :=
      law.written s _ (writeWords_frame _ _ _ _ _) (fun hw => writeWords_wf hw _ _ _ _) hs
    have hf := law.arbitrated _ _ (freeBus_arbitrated _) hw
    split
    · exact law.arbitrated _ _ (requestLoad_arbitrated _ _) hf
    · exact law.arbitrated _ _ (lineLoaded_arbitrated _ _) hf

theorem patchEditComplete (errors : BitErrors) {s : State} (hs : P s) : P (patchEditComplete errors s) := by
  unfold Machine.patchEditComplete
  split
  case h_2 => exact hs
  case h_1 p slot line first plane stipple ws discard dropped h =>
    split
    · exact law.arbitrated _ _ (freeBus_arbitrated s) hs
    dsimp only
    have hd : P (s.modStore fun _ => (s.store.disturb slot line errors).patchWords slot line plane stipple first ws) :=
      law.written s _ (by rw [modStore_store, patchWords_frame, disturb_frame])
        (fun hw => patchWords_wf (disturb_wf hw _ _ _) _ _ _ _ _ _) hs
    have hf := law.arbitrated _ _ (freeBus_arbitrated _) (law.lineEffects .patchUncorrectable (.port p) slot line
      (patchReads (s.store.disturb slot line errors) slot line plane stipple first ws) hd)
    split
    · exact hf
    · exact law.arbitrated _ _ (patchDone_arbitrated _ _) hf

theorem copyLineComplete (errors : BitErrors) {s : State} (hs : P s) : P (copyLineComplete errors s) := by
  unfold Machine.copyLineComplete
  split
  case h_2 => exact hs
  case h_1 p src dest line discard dropped h =>
    split
    · exact law.arbitrated _ _ (freeBus_arbitrated s) hs
    split
    · next q =>
      generalize patternLine q line = ws
      have hw : P (s.modStore fun st => st.writeWords dest line 0 ws) :=
        law.written s _ (writeWords_frame _ _ _ _ _) (fun hw => writeWords_wf hw _ _ _ _) hs
      have hf := law.arbitrated _ _ (freeBus_arbitrated _) hw
      dsimp only
      split
      · exact hf
      · exact law.arbitrated _ _ (copyMoved_arbitrated _) hf
    · next n =>
      dsimp only
      generalize hr : (s.store.disturb n line errors).readLine n line = reads
      generalize (reads.any fun r => decide (r.cls = .uncorrectable)) = bad
      have hd : P (s.modStore fun _ => if bad then s.store.disturb n line errors else
          (s.store.disturb n line errors).writeWords dest line 0 (reads.map (·.data))) := by
        refine law.written s _ ?_ (fun hw => ?_) hs
        · cases bad
          · simp only [modStore_store, Bool.false_eq_true, if_false]; rw [writeWords_frame, disturb_frame]
          · exact disturb_frame _ _ _ _
        · cases bad
          · exact writeWords_wf (disturb_wf hw _ _ _) _ _ _ _
          · exact disturb_wf hw _ _ _
      have hf := law.arbitrated _ _ (freeBus_arbitrated _)
        (law.lineEffects .copyUncorrectable (.port p) n line (numbered reads) hd)
      generalize State.freeBus _ = u at hf ⊢
      split
      · exact hf
      split
      · exact law.arbitrated _ _ (copyStopped_arbitrated _) hf
      · exact law.arbitrated _ _ (copyMoved_arbitrated _) hf

theorem scrubWord (e : ScrubEntry) {s : State} (hs : P s) : P (s.scrubWord e) := by
  unfold State.scrubWord
  dsimp only
  split
  · exact hs
  · exact law.counted _ (law.written s _ rfl (fun hw => writeWord_wf hw _ _ _ _) hs)
  · exact law.effect s .scrubUncorrectable e.origin e.addr .uncorrectable hs

theorem scrubComplete (errors : ErrorMask) {s : State} (hs : P s) : P (scrubComplete errors s) := by
  unfold Machine.scrubComplete
  split
  case h_2 => exact hs
  case h_1 e _ dropped h =>
    split
    · exact law.arbitrated _ _ (freeBus_arbitrated s) hs
    dsimp only
    have hd : P (s.modStore fun st => st.disturbWord e.addr.slot e.addr.line e.addr.word errors) :=
      law.written s _ rfl (fun hw => disturbWord_wf hw _ _ _ _) hs
    exact law.arbitrated _ _ (requestScrub_arbitrated _)
      (law.scrubbed _ (law.arbitrated _ _ (freeBus_arbitrated _) (law.scrubWord e hd)))

theorem refreshComplete {s : State} (hs : P s) : P (refreshComplete s) := by
  unfold Machine.refreshComplete
  split
  case h_2 => exact hs
  case h_1 _ dropped h =>
    split
    · exact law.arbitrated _ _ (freeBus_arbitrated s) hs
    · next hd =>
      have hr : s.refreshing := ⟨_, h, rfl, by simpa using hd⟩
      exact law.arbitrated _ _ (grant_arbitrated _) (law.paid s hr hs)

theorem selfRefreshExit {s : State} (hs : P s) : P (selfRefreshExit s) := by
  unfold Machine.selfRefreshExit
  split
  · dsimp only
    refine law.arbitrated _ _ (grant_arbitrated _) ?_
    have hw := law.woken s hs
    split
    · exact law.arbitrated _ _ (entryRequest_arbitrated _) (law.of_store_eq hw rfl)
    · exact law.of_store_eq hw rfl
  · exact hs

theorem resetWindow (c : Caller) {s : State} (hs : P s) : P (resetWindow c s) := by
  unfold Machine.resetWindow State.checked
  split
  · exact law.of_store_eq hs (by simp)
  · dsimp only
    have hb : P (State.resetBlocks (allPorts.foldl State.cancelTransit
        (s.edit.queue.foldl (fun s e => s.reply e.caller .cancelled) s))) := by
      refine law.of_store_eq (law.reset s hs) ?_
      simp only [State.resetBlocks, modStore_store]
      rw [foldl_keeps (fun b : State => b.store) State.cancelTransit (by simp),
        foldl_keeps (fun b : State => b.store) (fun s (e : Edit) => s.reply e.caller .cancelled) (by simp)]
    exact law.of_store_eq (law.arbitrated _ _ (grant_arbitrated _) hb) (by simp)

/-- Every command keeps a law of the store's contents at its block. -/
theorem atBlock (i : Instr) (c : Caller) {s : State} (hs : P s) : P (atBlock i c s) := by
  by_cases hi : changesContents i = false
  · exact law.arbitrated _ _ (atBlock_arbitrated i hi c s) hs
  · cases i with
    | powerOnReset => exact law.initial _ rfl
    | resetWindow => exact law.resetWindow c hs
    | refreshIntervalExpiry => exact law.refreshIntervalExpiry hs
    | scanComplete => exact law.scanComplete _ hs
    | loadComplete => exact law.loadComplete hs
    | patchEditComplete => exact law.patchEditComplete _ hs
    | copyLineComplete => exact law.copyLineComplete _ hs
    | scrubComplete => exact law.scrubComplete _ hs
    | refreshComplete => exact law.refreshComplete hs
    | selfRefreshExit => exact law.selfRefreshExit hs
    | _ => exact absurd rfl hi

/-- Every step keeps a law of the store's contents. -/
theorem step {s t : State} (h : step s = .next t) (hs : P s) : P t :=
  step_keeps (fun _ _ _ _ h => law.of_store_eq h rfl) (fun i c _ => law.atBlock i c) h hs

end StoreLaw

/-! ### The three laws -/

theorem memoryOk_law : StoreLaw State.memoryOk where
  arbitrated s t h hs := by
    obtain ⟨⟨hm, he, -⟩, -⟩ := h
    unfold State.memoryOk
    rwa [hm, he]
  written _ _ _ h hs := h hs
  effect s kind o a c hs := by
    have h := wordEffect_reported s kind o a c
    unfold State.memoryOk
    rw [h]
    exact hs
  counted _ hs := hs
  scrubbed _ hs := hs
  owed _ _ hs := hs
  paid _ _ hs := hs
  woken _ hs := hs
  initial s h := by unfold State.memoryOk; rw [h]; exact ⟨rfl, rfl⟩
  reset _ hs := hs

theorem debtOk_law : StoreLaw State.debtOk where
  arbitrated s t h hs := by
    obtain ⟨⟨-, -, hd, hf, -⟩, hr⟩ := h
    obtain ⟨lo, hi, hrun, hflag⟩ := hs
    unfold State.debtOk
    rw [hd, hf]
    refine ⟨lo, hi, fun h => ?_, hflag⟩
    rcases hr h with h | h | h
    · exact hrun h
    · omega
    · have := hflag h; omega
  written s t h _ hs := by
    unfold State.debtOk State.refreshing
    rw [h]
    exact hs
  effect s kind o a c hs := by
    unfold State.debtOk State.refreshing
    rw [wordEffect_reported s kind o a c]
    exact hs
  counted _ hs := hs
  scrubbed _ hs := hs
  owed s h8 hs := by
    obtain ⟨lo, hi, hrun, hflag⟩ := hs
    refine ⟨?_, ?_, fun h => ?_, fun h => ?_⟩ <;> simp only [modStore_store]
    · omega
    · omega
    · have := hrun h; omega
    · have := hflag h; omega
  paid s hr hs := by
    obtain ⟨lo, hi, hrun, hflag⟩ := hs
    have := hrun hr
    refine ⟨?_, ?_, ?_, ?_⟩ <;> simp only [modStore_store]
    · omega
    · omega
    · rintro ⟨_, h, -⟩; cases h
    · intro h; cases h
  woken s hs := ⟨by simp, by simp, by simp, by simp⟩
  initial s h := by
    unfold State.debtOk State.refreshing
    rw [h]
    exact ⟨by decide, by decide, fun _ => by decide, fun _ => by decide⟩
  reset s hs := by
    refine ⟨?_, ?_, fun _ => ?_, fun _ => ?_⟩ <;> simp [Store.resetWindow, Store.initial]

theorem offerScrub_scrubOk (s : State) (a : WordAddr) (o : Origin) (hs : s.scrubOk) : (s.offerScrub a o).scrubOk := by
  obtain ⟨hlen, hnd, hc⟩ := hs
  unfold State.offerScrub
  split
  · next h =>
    refine ⟨?_, ?_, hc⟩
    · simpa using h.1
    · have hnew : ∀ e ∈ s.store.scrub, e.addr ≠ a := by simpa using h.2
      simp only [modStore_store, List.map_append, List.map_cons, List.map_nil]
      refine List.nodup_append.2 ⟨hnd, by simp, ?_⟩
      simpa using hnew
  · exact ⟨hlen, hnd, hc⟩

theorem countCorrected_scrubOk (s : State) (hs : s.scrubOk) : s.countCorrected.scrubOk :=
  ⟨hs.1, hs.2.1, Nat.min_le_left _ _⟩

theorem scrubOk_law : StoreLaw State.scrubOk where
  arbitrated s t h hs := by
    obtain ⟨⟨-, -, -, -, hq, hc⟩, -⟩ := h
    unfold State.scrubOk
    rwa [hq, hc]
  written s t h _ hs := by
    unfold State.scrubOk
    rw [h]
    exact hs
  effect s kind o a c hs := by
    cases c with
    | clean => exact hs
    | corrected => exact offerScrub_scrubOk _ _ _ (countCorrected_scrubOk s hs)
    | uncorrectable =>
      unfold State.scrubOk
      rw [State.wordEffect, uncorrectable_store, offerFault_store]
      exact hs
  counted := countCorrected_scrubOk
  scrubbed s hs := by
    obtain ⟨hlen, hnd, hc⟩ := hs
    refine ⟨?_, ?_, hc⟩
    · simp only [modStore_store, List.length_tail]; omega
    · simpa [List.map_tail] using hnd.tail
  owed _ _ hs := hs
  paid _ _ hs := hs
  woken _ hs := hs
  initial s h := by
    unfold State.scrubOk
    rw [h]
    exact ⟨by decide, by decide, by decide⟩
  reset s hs := by
    refine ⟨?_, ?_, ?_⟩ <;> simp [Store.resetWindow, Store.initial]

/-- Settles O56: canonical form is a law of the store's contents. -/
theorem memoryStaysCanonical : Obligations.MemoryStaysCanonical :=
  fun _ _ hs h => memoryOk_law.step h hs

end Sys2Proof.Machine
end

