-- ==== Sys2Proof/Proofs/TileLaws.lean ====
section
/-! The tile output units: what each operation of a unit does, as one equation of states. -/

namespace Sys2Proof.Machine

/-! ### Training -/

theorem sendTrain_eq (s : State) (t : Tile) :
    s.sendTrain t = { s with
      units := upd s.units t fun u => { u with trainSent := true }
      out := s.out ++ trainMessages t (s.units[t].attempts + 1) true } := by
  simp [State.sendTrain, allPatterns, State.sendPanel, State.send, State.setUnit, trainMessages]

theorem beginAttempt_eq (s : State) (t : Tile) :
    s.beginAttempt t = { s with
      units := upd s.units t fun u => { u with timer := true, matched := 0, trainSent := u.link }
      out := s.out ++ trainMessages t (s.units[t].attempts + 1) s.units[t].link } := by
  unfold State.beginAttempt
  dsimp only
  cases hl : s.units[t.val].link with
  | true =>
    rw [sendTrain_eq]
    simp [State.setUnit, upd_upd, hl]
    exact upd_congr s.units t (by simp [hl])
  | false =>
    simp [State.setUnit, hl, trainMessages]
    exact upd_congr s.units t (by simp [hl])

theorem stopTraining_eq (s : State) (t : Tile) :
    s.stopTraining t = { s with
      units := upd s.units t fun u => { u with timer := false, matched := 0, trainSent := false } } := rfl

/-- A unit's new state, its power line, TILE_CHANGE and the report (R141, R145). -/
theorem become_eq (s : State) (t : Tile) (st : TileState) :
    s.become t st = { s with
      units := upd s.units t fun u => { u with state := st, power := st.powered }
      ports := if st.announced then s.ports.map (·.take .tileChange) else s.ports
      mail := { s.mail with toScene := upd s.mail.toScene t (· ++ [.state st]) } } := by
  unfold State.become
  dsimp only
  split <;> rfl

theorem startTraining_eq (s : State) (t : Tile) :
    s.startTraining t = { s with
      units := upd s.units t fun u =>
        { u with
          state := .training, power := true, attempts := 0, miss := 0, rejoin := 0, timer := true, matched := 0
          trainSent := u.link }
      mail := { s.mail with toScene := upd s.mail.toScene t (· ++ [.state .training]) }
      out := s.out ++ trainMessages t 1 s.units[t].link } := by
  rw [State.startTraining, beginAttempt_eq, become_eq]
  simp [State.setUnit, upd_upd, TileState.powered, TileState.announced]

theorem failAttempt_next {s : State} {t : Tile} (h : s.units[t].attempts < 2) :
    s.failAttempt t = { s with
      units := upd s.units t fun u =>
        { u with attempts := u.attempts + 1, timer := true, matched := 0, trainSent := u.link }
      out := s.out ++ trainMessages t (s.units[t].attempts + 2) s.units[t].link } := by
  have h' : s.units[t.val].attempts < 2 := h
  rw [State.failAttempt]
  simp [beginAttempt_eq, State.setUnit, upd_upd, h']

theorem failAttempt_last {s : State} {t : Tile} (h : 2 ≤ s.units[t].attempts) :
    s.failAttempt t = { s with
      units := upd s.units t fun u =>
        { u with attempts := u.attempts + 1, state := .lost, power := false, timer := false, matched := 0
                 trainSent := false }
      ports := s.ports.map (·.take .tileChange)
      mail := { s.mail with toScene := upd s.mail.toScene t (· ++ [.state .lost]) } } := by
  have h' : ¬ (s.units[t.val]).attempts + 1 < 3 := by
    have : 2 ≤ (s.units[t.val]).attempts := h
    omega
  rw [State.failAttempt]
  simp [become_eq, stopTraining_eq, State.setUnit, upd_upd, h', TileState.powered, TileState.announced]

/-! ### Fetching -/

theorem discardRunning_eq (s : State) (k : TransferJob → Bool) :
    s.discardRunning k = { s with store := { s.store with running := (s.store.running.map (fun r =>
      if k r.job = true ∧ r.dropped = false then { r with discard := true } else r)) } } := by
  unfold State.discardRunning State.runningIs
  cases hr : s.store.running with
  | none => simp only [Option.any_none, Bool.false_eq_true, if_false, Option.map_none]; rw [← hr]
  | some r =>
    by_cases hk : k r.job = true ∧ r.dropped = false
    · simp [hk.1, hk.2, hr, State.modStore]
    · have hn : (k r.job && !r.dropped) = false := by simpa using hk
      simp only [Option.any_some, hn, Bool.false_eq_true, if_false, Option.map_some, if_neg hk]
      rw [← hr]

/-- A fetch that is abandoned, or none: the unit has none afterwards (R148). -/
theorem abandonFetch_eq (s : State) (t : Tile) :
    s.abandonFetch t = { s with
      store := scanWithdrawn s t
      units := upd s.units t fun u => { u with fetch := none }
      out := s.out ++ abortMessages s t } := by
  unfold State.abandonFetch scanWithdrawn abortMessages
  cases hf : s.units[t.val].fetch with
  | none =>
    have hu : upd s.units t (fun u => { u with fetch := none }) = s.units := by
      refine upd_of_fixed _ _ _ ?_
      simp only [Fin.getElem_fin]
      rw [← hf]
    simp [hu]
  | some f =>
    simp only [discardRunning_eq]
    cases hl : s.units[t.val].link <;>
      simp [hl, State.modStore, State.setUnit, State.sendPanel, State.send]

/-- A line goes to the panel, and after line 255 FRAME_END (R147). -/
theorem sendLine_eq (s : State) (t : Tile) (f : UnitFetch) (ws : List Word) :
    s.sendLine t f ws = { s with
      units := upd s.units t fun u =>
        { u with fetch := some { f with sent := f.sent + 1, sum := f.sum + checkSum ws, endSent := decide (f.sent = 255) } }
      out := s.out ++ [.panel t (.line f.sent ws)] ++
        (if f.sent = 255 then [.panel t (.frameEnd f.frame (f.sum + checkSum ws))] else []) } := by
  unfold State.sendLine
  by_cases h : f.sent = 255 <;> simp [h, State.sendPanel, State.send, State.setUnit]

/-- A unit whose new fetch has sent its first `k` lines. -/
def linesSent (s : State) (t : Tile) (frame : Nat) (src : Source) (lines : Nat → List Word) (k : Nat) : State :=
  let sum : Check := ((List.range k).map fun l => checkSum (lines l)).sum
  { s with
    units := upd s.units t fun u =>
      { u with
        fetch := some
          { frame := frame, source := src, requested := 0, sent := k, endSent := decide (k = 256), sum := sum } }
    out := s.out ++ ((List.range k).map fun l => .panel t (.line l (lines l))) ++
      (if k = 256 then [.panel t (.frameEnd frame sum)] else []) }

/-- One more line of a fetch that has not sent all of them. -/
theorem sendLine_linesSent (s : State) (t : Tile) (frame : Nat) (src : Source) (lines : Nat → List Word) {k : Nat}
    (hk : k < 256) :
    (match (linesSent s t frame src lines k).units[t].fetch with
      | some f => (linesSent s t frame src lines k).sendLine t f (lines k)
      | none => linesSent s t frame src lines k) = linesSent s t frame src lines (k + 1) := by
  have hne : k ≠ 256 := by omega
  have hlast : k + 1 = 256 ↔ k = 255 := by omega
  simp only [linesSent, upd_same, sendLine_eq, upd_upd, hne, if_false, List.append_nil, List.range_succ, List.map_append,
    List.map_cons, List.map_nil, List.sum_append, List.sum_cons, List.sum_nil, add_zero, hlast, List.append_assoc]

/-- The 256 lines of a pattern go to the panel of a fetch that has sent none. -/
theorem sendPattern_linesSent (s : State) (t : Tile) (frame : Nat) (src : Source) (p : PatternId) :
    (linesSent s t frame src (patternLine p) 0).sendPattern t p = linesSent s t frame src (patternLine p) 256 := by
  have h : ∀ k, k ≤ 256 → (List.range k).foldl
      (fun s l => match s.units[t].fetch with
        | some f => s.sendLine t f (patternLine p l)
        | none => s) (linesSent s t frame src (patternLine p) 0) = linesSent s t frame src (patternLine p) k := by
    intro k hk
    induction k with
    | zero => rfl
    | succ k ih =>
      rw [List.range_succ, List.foldl_append, ih (by omega)]
      exact sendLine_linesSent s t frame src (patternLine p) hk
  exact h 256 le_rfl

/-- The request of a unit, as the statements write it. -/
theorem requestScan_eq (s : State) (t : Tile) : s.requestScan t = scanRequested s t := rfl

/-- A unit that has abandoned its fetch and begun another one, of which nothing is sent yet. -/
def fetchBegun (s : State) (t : Tile) (frame : Nat) (src : Source) : State :=
  linesSent { s with store := scanWithdrawn s t, out := s.out ++ abortMessages s t ++ [.panel t (.frameBegin frame)] }
    t frame src (fun _ => []) 0

theorem beginFetch_pattern (s : State) (t : Tile) (frame : Nat) (p : PatternId) :
    s.beginFetch t frame (.pattern p) = linesSent
      { s with store := scanWithdrawn s t, out := s.out ++ abortMessages s t ++ [.panel t (.frameBegin frame)] }
      t frame (.pattern p) (patternLine p) 256 := by
  rw [← sendPattern_linesSent]
  unfold State.beginFetch
  simp only [abandonFetch_eq]
  simp [linesSent, State.setUnit, State.sendPanel, State.send, upd_upd]

theorem beginFetch_slot (s : State) (t : Tile) (frame : Nat) (pg : Handle) (n : Nat) :
    s.beginFetch t frame (.slot pg n) =
      if s.runningIs (TransferJob.isScanOf t) then fetchBegun s t frame (.slot pg n)
      else scanRequested (fetchBegun s t frame (.slot pg n)) t := by
  have hb : ((s.abandonFetch t).setUnit t fun u =>
      { u with
        fetch := some
          { frame := frame, source := .slot pg n, requested := 0, sent := 0, endSent := false
            sum := 0 } }).sendPanel t (.frameBegin frame) = fetchBegun s t frame (.slot pg n) := by
    rw [abandonFetch_eq]
    simp [fetchBegun, linesSent, State.setUnit, State.sendPanel, State.send, upd_upd]
  have hr : (fetchBegun s t frame (.slot pg n)).runningIs (TransferJob.isScanOf t) =
      s.runningIs (TransferJob.isScanOf t) := by
    simp only [fetchBegun, linesSent, State.runningIs, scanWithdrawn]
    split
    · rfl
    · cases s.store.running with
      | none => rfl
      | some r => by_cases hk : r.job.isScanOf t = true ∧ r.dropped = false <;> simp [hk]
  unfold State.beginFetch
  simp only [hb, hr, requestScan_eq]

/-! ### Messages taken -/

theorem popUnitMsg_eq {s : State} {t : Tile} {m : UnitMsg} {rest : List UnitMsg} (h : s.mail.toUnit[t] = m :: rest) :
    s.popUnitMsg t = { s with mail := { s.mail with toUnit := upd s.mail.toUnit t fun _ => rest } } := by
  unfold State.popUnitMsg State.modMail
  dsimp only
  rw [upd_congr s.mail.toUnit t (f := List.tail) (g := fun _ => rest) (by rw [h]; rfl)]

theorem popReport_eq {s : State} {t : Tile} {m : UnitReport} {rest : List UnitReport}
    (h : s.mail.toScene[t] = m :: rest) :
    s.popReport t = { s with mail := { s.mail with toScene := upd s.mail.toScene t fun _ => rest } } := by
  unfold State.popReport State.modMail
  dsimp only
  rw [upd_congr s.mail.toScene t (f := List.tail) (g := fun _ => rest) (by rw [h]; rfl)]

end Sys2Proof.Machine
end

