-- ==== Sys2Proof/Proofs/Tiles.lean ====
section
/-! The tile output units at work (chapter 8): starting and stopping, training, fetching, verdicts, and the answers of a
panel. Each command is one equation of states, from the equations of the unit's operations. -/

namespace Sys2Proof.Machine

/-! ### Starting and stopping (R142, R153, R154, R156) -/

/-- RETRAIN_TILE that passes its checks. -/
theorem retrainTile_ok {tile : Byte} {t : Tile} {c : Caller} {s : State} (hc : s.cls c.port = .operator)
    (ht : tileField tile = some t) (hw : s.window = .lit) (hp : s.units[t].position ≠ none)
    (hs : s.units[t].state = .lost ∨ s.units[t].state = .lagging) :
    retrainTile tile c s = ((s.abandonFetch t).startTraining t).reply c .ok := by
  have hp' : s.units[t.val].position.isSome = true := Option.isSome_iff_ne_none.2 hp
  have hs' : s.units[t.val].state = .lost ∨ s.units[t.val].state = .lagging := hs
  unfold retrainTile
  rw [checked_pass (by simp [hc, ht, hw, hp', hs'])]
  simp [ht]

theorem powerOnOrder_take {t : Tile} {rest : List UnitMsg} {s : State} (h : s.mail.toUnit[t] = .powerOn :: rest) :
    powerOnOrder t s =
      if s.units[t].state = .off then (s.popUnitMsg t).startTraining t else s.popUnitMsg t := by
  unfold powerOnOrder
  rw [h]
  rfl

theorem powerOffOrder_take {t : Tile} {rest : List UnitMsg} {s : State} (h : s.mail.toUnit[t] = .powerOff :: rest) :
    powerOffOrder t s =
      if s.units[t].state.powered then
        (if s.units[t].link then (((s.popUnitMsg t).abandonFetch t).stopTraining t).sendPanel t .blank
          else ((s.popUnitMsg t).abandonFetch t).stopTraining t).become t .off
      else s.popUnitMsg t := by
  have hl : (((s.popUnitMsg t).abandonFetch t).stopTraining t).units[t].link = s.units[t].link := by
    simp [abandonFetch_eq, stopTraining_eq]
  unfold powerOffOrder
  rw [h]
  dsimp only
  rw [hl]
  rfl

theorem powered_iff (st : TileState) : st.powered = true ↔ st ≠ .off ∧ st ≠ .lost := by
  cases st <;> simp [TileState.powered]

theorem not_powered {st : TileState} (h : st = .off ∨ st = .lost) : ¬ st.powered = true := by
  rcases h with rfl | rfl <;> simp [TileState.powered]

@[simp] theorem scanWithdrawn_taking (s : State) (h : Hdr) (t : Tile) :
    scanWithdrawn (s.taking h) t = scanWithdrawn s t := rfl

@[simp] theorem abortMessages_taking (s : State) (h : Hdr) (t : Tile) :
    abortMessages (s.taking h) t = abortMessages s t := rfl

/-- What an abandonment does to the store and tells the panel does not depend on the messages under way. -/
@[simp] theorem scanWithdrawn_mail (s : State) (m : Mail) (t : Tile) :
    scanWithdrawn { s with mail := m } t = scanWithdrawn s t := rfl

@[simp] theorem abortMessages_mail (s : State) (m : Mail) (t : Tile) :
    abortMessages { s with mail := m } t = abortMessages s t := rfl

/-- RETRAIN_TILE: the unit abandons its fetch and trains again. -/
theorem exec_retrainTile {h : Hdr} {tile : Byte} {t : Tile} {s : State} (r : s.reaches (.retrainTile h tile) h)
    (ha : retrainAdmitted s h.port tile t) :
    exec (.retrainTile h tile) s = .next (((s.taking h).abandonFetch t).startTraining t |>.answered h 96 .ok) := by
  obtain ⟨hc, ht, hw, hp, hs⟩ := ha
  refine congrArg Host.Outcome.next (serve_effects (self := (.retrainTile · tile)) r
    (retrainTile_ok (by simpa using hc) (fieldBelow_some ht) hw hp hs) ?_)
  simp [startTraining_eq]

/-- Settles O33: training begins and ends as one equation for each command. -/
theorem unitsAreStartedAndStopped : Obligations.UnitsAreStartedAndStopped := by
  refine ⟨?retrain, ?powerOn, ?powerOff, ?linkUp, ?linkDown⟩
  case retrain =>
    intro h tile t s r ha
    rw [exec_retrainTile r ha, startTraining_eq, abandonFetch_eq]
    simp [upd_upd]
  case powerOn =>
    intro t rest s h
    refine ⟨fun hs => ?_, fun hs => ?_⟩ <;> change Host.Outcome.next (powerOnOrder t s) = _ <;> congr 1
    · rw [powerOnOrder_take h, if_neg hs, popUnitMsg_eq h]
    · rw [powerOnOrder_take h, if_pos hs, startTraining_eq, popUnitMsg_eq h]
  case powerOff =>
    intro t rest s h
    refine ⟨fun hs => ?_, fun ho hl => ?_⟩ <;> change Host.Outcome.next (powerOffOrder t s) = _ <;> congr 1
    · rw [powerOffOrder_take h, if_neg (not_powered hs), popUnitMsg_eq h]
    · rw [powerOffOrder_take h, if_pos ((powered_iff _).2 ⟨ho, hl⟩), become_eq, popUnitMsg_eq h, abandonFetch_eq,
        stopTraining_eq]
      cases s.units[t.val].link <;>
        simp [upd_upd, State.sendPanel, State.send, TileState.powered, TileState.announced]
  case linkUp =>
    intro t s
    change Host.Outcome.next (tileLinkUp t s) = _
    congr 1
    unfold tileLinkUp
    dsimp only
    have hu : (s.setUnit t fun u => { u with link := true }).units[t] = { s.units[t] with link := true } := by
      simp
    rw [hu]
    split
    · rw [sendTrain_eq]; simp [State.setUnit, upd_upd]
    · rfl
  case linkDown =>
    intro t s
    have hu : (s.setUnit t fun u => { u with link := false }).units[t] = { s.units[t] with link := false } := by
      simp
    have hm : abortMessages (s.setUnit t fun u => { u with link := false }) t = [] := by
      simp only [abortMessages, hu]
      split <;> simp_all
    have hw : scanWithdrawn (s.setUnit t fun u => { u with link := false }) t = scanWithdrawn s t := by
      simp only [scanWithdrawn, hu]
      rfl
    have hd : tileLinkDown t s = if s.units[t].state.powered then
        ((((s.setUnit t fun u => { u with link := false }).abandonFetch t).stopTraining t).become t .lost)
        else s.setUnit t fun u => { u with link := false } := by
      unfold tileLinkDown
      dsimp only
      rw [hu]
    refine ⟨fun hs => ?_, fun ho hl => ?_⟩ <;> change Host.Outcome.next (tileLinkDown t s) = _ <;> congr 1
    · rw [hd, if_neg (not_powered hs)]; rfl
    · rw [hd, if_pos ((powered_iff _).2 ⟨ho, hl⟩), become_eq, abandonFetch_eq, hm, hw,
        stopTraining_eq]
      simp [upd_upd, State.setUnit, TileState.powered, TileState.announced]

/-! ### Training (R143, R144) -/

/-- An echo that is awaited, with the check value of its pattern. -/
theorem trainEcho_match {t : Tile} {attempt pattern : Byte} {p : PatternId} {s : State}
    (hs : s.units[t].state = .training) (ha : attempt.toNat = s.units[t].attempts + 1) (hp : pattern.toNat = p.val)
    (hm : s.units[t].matched.getLsbD p.val = false) :
    trainEcho t attempt pattern (trainCheck p) s =
      if insertBit s.units[t].matched p.val = BitVec.allOnes 4 then
        (((s.setUnit t fun u => { u with matched := insertBit u.matched p.val }).stopTraining t).become t
          .joining).sendPanel t .blank
      else s.setUnit t fun u => { u with matched := insertBit u.matched p.val } := by
  unfold trainEcho
  rw [fieldBelow_some hp]
  dsimp only
  rw [if_pos ⟨hs, ha, hm⟩, if_pos rfl]
  simp

/-- An echo that is awaited, with another check value. -/
theorem trainEcho_differ {t : Tile} {attempt pattern : Byte} {p : PatternId} {check : Check} {s : State}
    (hs : s.units[t].state = .training) (ha : attempt.toNat = s.units[t].attempts + 1) (hp : pattern.toNat = p.val)
    (hm : s.units[t].matched.getLsbD p.val = false) (hc : check ≠ trainCheck p) :
    trainEcho t attempt pattern check s = s.failAttempt t := by
  unfold trainEcho
  rw [fieldBelow_some hp]
  dsimp only
  rw [if_pos ⟨hs, ha, hm⟩, if_neg hc]

/-- An echo that is not awaited. -/
theorem trainEcho_ignored {t : Tile} {attempt pattern : Byte} {check : Check} {s : State}
    (hn : ¬ ∃ p : PatternId, s.units[t].state = .training ∧ attempt.toNat = s.units[t].attempts + 1 ∧
      pattern.toNat = p.val ∧ s.units[t].matched.getLsbD p.val = false) :
    trainEcho t attempt pattern check s = s := by
  unfold trainEcho
  dsimp only
  split
  · next p hp =>
    have hpv : pattern.toNat = p.val := by
      unfold fieldBelow at hp
      split at hp
      · cases hp; rfl
      · cases hp
    rw [if_neg fun h => hn ⟨p, h.1, h.2.1, hpv, h.2.2⟩]
  · rfl

/-- Settles O35: an echo or an expiry records, joins, or fails the attempt. -/
theorem trainingSucceedsOrFails : Obligations.TrainingSucceedsOrFails := by
  intro t s
  dsimp only
  refine ⟨?record, ?join, ?fail, ?ignored, ?stopped⟩
  case record =>
    rintro attempt pattern p ⟨hs, ha, hp, hm⟩ hne
    exact congrArg Host.Outcome.next ((trainEcho_match hs ha hp hm).trans (if_neg hne))
  case join =>
    rintro attempt pattern p ⟨hs, ha, hp, hm⟩ heq
    refine congrArg Host.Outcome.next (((trainEcho_match hs ha hp hm).trans (if_pos heq)).trans ?_)
    rw [become_eq, stopTraining_eq]
    simp [State.setUnit, State.sendPanel, State.send, upd_upd, TileState.powered, TileState.announced]
  case fail =>
    intro i hi
    have he : exec i s = .next (s.failAttempt t) := by
      rcases hi with ⟨attempt, pattern, p, check, ⟨hs, ha, hp, hm⟩, rfl, hc⟩ | ⟨rfl, ht⟩
      · exact congrArg Host.Outcome.next (trainEcho_differ hs ha hp hm hc)
      · exact congrArg Host.Outcome.next (if_pos ht)
    refine ⟨fun h => ?_, fun h => ⟨s.failAttempt t, he, ?_, fun q => ?_⟩⟩
    · rw [he, failAttempt_next h]
    · rw [failAttempt_last h.ge, upd_congr s.units t]
      simpa using h
    · rw [failAttempt_last h.ge]; simp
  case ignored =>
    intro attempt pattern check hn
    exact congrArg Host.Outcome.next (trainEcho_ignored hn)
  case stopped =>
    intro ht
    exact congrArg Host.Outcome.next (if_neg (by rw [ht]; simp))

/-! ### Fetch orders (R146) -/

theorem runningIs_iff (s : State) (k : TransferJob → Bool) :
    s.runningIs k = true ↔ ∃ r, s.store.running = some r ∧ k r.job = true ∧ r.dropped = false := by
  unfold State.runningIs
  cases s.store.running <;> simp

theorem fetchOrder_take {t : Tile} {n : Nat} {src : Source} {adm : Bool} {rest : List UnitMsg} {s : State}
    (h : s.mail.toUnit[t] = .fetch n src adm :: rest) :
    fetchOrder t s = (s.popUnitMsg t).takeOrder t n src adm := by
  unfold fetchOrder
  rw [h]

/-- A unit once an order has admitted it: one that is JOINING is IN_STEP where the order is admitting. -/
def stepAdmitted (s : State) (t : Tile) (adm : Bool) : State :=
  if (decide (s.units[t].state = .joining) && adm) = true then
    (s.setUnit t fun u => { u with miss := 0, rejoin := 0 }).become t .inStep
  else s

theorem takeOrder_judging {s : State} {t : Tile} {n : Nat} {src : Source} {adm : Bool} (h : judging s.units[t]) :
    s.takeOrder t n src adm = (stepAdmitted s t adm).beginFetch t n src := by
  unfold State.takeOrder stepAdmitted
  rcases h with h | h | h <;> simp only [h] <;> cases adm <;> rfl

theorem takeOrder_discarded {s : State} {t : Tile} {n : Nat} {src : Source} {adm : Bool}
    (h : ¬ judging s.units[t]) : s.takeOrder t n src adm = s := by
  unfold State.takeOrder
  cases hs : s.units[t].state <;> simp_all [judging]

theorem stepAdmitted_eq (s : State) (t : Tile) (adm : Bool) :
    stepAdmitted s t adm =
      let joins : Bool := decide (s.units[t].state = .joining) && adm
      { s with
        units := upd s.units t fun u =>
          if joins then { u with state := .inStep, power := true, miss := 0, rejoin := 0 } else u
        mail := if joins then { s.mail with toScene := upd s.mail.toScene t (· ++ [.state .inStep]) } else s.mail
        ports := if joins then s.ports.map (·.take .tileChange) else s.ports } := by
  unfold stepAdmitted
  dsimp only
  cases decide (s.units[t].state = .joining) && adm with
  | true => simp [become_eq, State.setUnit, upd_upd, TileState.powered, TileState.announced]
  | false => simp [upd_of_fixed]

@[simp] theorem stepAdmitted_out (s : State) (t : Tile) (adm : Bool) : (stepAdmitted s t adm).out = s.out := by
  rw [stepAdmitted_eq]

@[simp] theorem stepAdmitted_store (s : State) (t : Tile) (adm : Bool) : (stepAdmitted s t adm).store = s.store := by
  rw [stepAdmitted_eq]

@[simp] theorem scanWithdrawn_stepAdmitted (s : State) (t : Tile) (adm : Bool) :
    scanWithdrawn (stepAdmitted s t adm) t = scanWithdrawn s t := by
  rw [stepAdmitted_eq]
  unfold scanWithdrawn
  cases decide (s.units[t].state = .joining) && adm <;> simp

@[simp] theorem abortMessages_stepAdmitted (s : State) (t : Tile) (adm : Bool) :
    abortMessages (stepAdmitted s t adm) t = abortMessages s t := by
  rw [stepAdmitted_eq]
  unfold abortMessages
  cases decide (s.units[t].state = .joining) && adm <;> simp

/-- Settles O36: the unit is stepAdmitted, abandons its fetch and begins the new one. -/
theorem fetchOrdersBeginTheFetch : Obligations.FetchOrdersBeginTheFetch := by
  intro t n src adm rest s h
  dsimp only
  have hpop : ∀ s', (s.popUnitMsg t).takeOrder t n src adm = s' → exec (.fetchOrder t) s = .next s' := fun s' hs =>
    congrArg Host.Outcome.next ((fetchOrder_take h).trans hs)
  have hrun : (stepAdmitted (s.popUnitMsg t) t adm).runningIs (TransferJob.isScanOf t) =
      s.runningIs (TransferJob.isScanOf t) := by
    unfold State.runningIs; simp
  refine ⟨fun hn => hpop _ ?_, ?_, ?_⟩
  · exact (takeOrder_discarded (s := s.popUnitMsg t) hn).trans (popUnitMsg_eq h)
  · rintro p rfl hj
    refine hpop _ ((takeOrder_judging (s := s.popUnitMsg t) hj).trans ?_)
    rw [beginFetch_pattern, popUnitMsg_eq h]
    simp only [linesSent, scanWithdrawn_stepAdmitted, abortMessages_stepAdmitted, stepAdmitted_out]
    rw [stepAdmitted_eq]
    dsimp only
    cases decide (s.units[t].state = .joining) && adm <;> simp [upd_upd]
  · rintro pg slot rfl hj
    have hb := hpop _ ((takeOrder_judging (s := s.popUnitMsg t) hj).trans (beginFetch_slot ..))
    rw [hrun] at hb
    refine ⟨fun hr => hb.trans (congrArg Host.Outcome.next ((if_pos ((runningIs_iff s _).2 hr)).trans ?_)),
      fun hr => hb.trans (congrArg Host.Outcome.next ((if_neg fun h' => hr ((runningIs_iff s _).1 h')).trans
        (congrArg (scanRequested · t) ?_)))⟩ <;>
    · simp only [fetchBegun, linesSent, scanWithdrawn_stepAdmitted, abortMessages_stepAdmitted, stepAdmitted_out]
      rw [stepAdmitted_eq, popUnitMsg_eq h]
      dsimp only
      cases decide (s.units[t].state = .joining) && adm <;> simp [upd_upd]
/-! ### Verdicts (R150 to R152) -/

theorem verdict_take {t : Tile} {v : VerdictKind} {d : Bool} {rest : List UnitMsg} {s : State}
    (h : s.mail.toUnit[t] = .verdict v d :: rest) : verdict t s = (s.popUnitMsg t).takeVerdict t v d := by
  unfold verdict
  rw [h]

theorem countVerdict_eq (s : State) (t : Tile) (v : VerdictKind) (d : Bool) :
    s.countVerdict t v d =
      if d = true ∨ s.units[t].miss < 7 then
        { s with
          units := upd s.units t fun u => { u with miss := if d then 0 else u.miss + 1 }
          out := s.out ++ [.panel t v.message] }
      else
        { s with
          ports := s.ports.map (·.take .tileChange)
          mail := { s.mail with toScene := upd s.mail.toScene t (· ++ [.state .lagging]) }
          units := upd s.units t fun u => { u with state := .lagging, power := true, miss := u.miss + 1, rejoin := 0 }
          out := s.out ++ [.panel t .blank] } := by
  unfold State.countVerdict
  by_cases h : d = true ∨ s.units[t.val].miss < 7
  · have h8 : (if d = true then 0 else s.units[t.val].miss + 1) < 8 := by
      split
      · omega
      · have := h.resolve_left ‹_›; omega
    simp [h, h8, State.setUnit, State.sendPanel, State.send]
  · obtain ⟨rfl, hm⟩ : d = false ∧ 7 ≤ s.units[t.val].miss := by simpa using h
    have h8 : ¬ s.units[t.val].miss + 1 < 8 := by omega
    have h7 : ¬ s.units[t.val].miss < 7 := by omega
    simp [h7, h8, State.setUnit, State.sendPanel, State.send, become_eq, upd_upd, TileState.powered,
      TileState.announced]

theorem countRejoin_eq (s : State) (t : Tile) (d : Bool) :
    s.countRejoin t d =
      if d = true ∧ s.units[t].rejoin = 1 then
        { s with
          mail := { s.mail with toScene := upd s.mail.toScene t (· ++ [.state .joining]) }
          units := upd s.units t fun u => { u with state := .joining, power := true, rejoin := u.rejoin + 1 }
          out := s.out ++ [.panel t .blank] }
      else
        { s with
          units := upd s.units t fun u => { u with rejoin := if d then u.rejoin + 1 else 0 }
          out := s.out ++ [.panel t .blank] } := by
  have h2 : (if d = true then s.units[t].rejoin + 1 else 0) = 2 ↔ d = true ∧ s.units[t].rejoin = 1 := by
    cases d <;> simp
  unfold State.countRejoin
  dsimp only
  rw [setUnit_units, upd_same, show (s.sendPanel t .blank).units = s.units from rfl]
  by_cases h : d = true ∧ s.units[t].rejoin = 1
  · rw [if_pos (h2.2 h), if_pos h]
    simp [h.1, State.setUnit, State.sendPanel, State.send, become_eq, upd_upd, TileState.powered, TileState.announced]
  · rw [if_neg (fun h' => h (h2.1 h')), if_neg h]
    rfl

/-- Settles O37: by the state of the unit. -/
theorem verdictsReachThePanel : Obligations.VerdictsReachThePanel := by
  intro t v d rest s h
  dsimp only
  have hpop : exec (.verdict t) s = .next ((s.popUnitMsg t).takeVerdict t v d) :=
    congrArg Host.Outcome.next (verdict_take h)
  have hby : ∀ {st : TileState}, s.units[t].state = st → (s.popUnitMsg t).units[t].state = st := id
  rw [hpop, State.takeVerdict]
  refine ⟨fun hs => ?joining, fun hs => ?other, fun hs hm => ?counted, fun hs hd hm => ?aside, fun hs hm => ?lagging,
    fun hs hd hm => ?rejoins⟩
  case joining =>
    rw [hby hs, popUnitMsg_eq h]
    rfl
  case other =>
    rcases hs with hs | hs | hs <;> rw [hby hs, popUnitMsg_eq h]
  case counted =>
    rw [hby hs, popUnitMsg_eq h]
    exact congrArg Host.Outcome.next ((countVerdict_eq ..).trans (if_pos hm))
  case aside =>
    rw [hby hs, popUnitMsg_eq h]
    refine ⟨_, congrArg Host.Outcome.next ((countVerdict_eq ..).trans (if_neg (by simp [hd]; exact hm.ge))), ?_, fun q => ?_⟩
    · dsimp only
      rw [upd_congr s.units t]
      simpa using hm
    · simp
  case lagging =>
    rw [hby hs, popUnitMsg_eq h]
    exact congrArg Host.Outcome.next ((countRejoin_eq ..).trans (if_neg (by rintro ⟨rfl, h1⟩; simp_all)))
  case rejoins =>
    rw [hby hs, popUnitMsg_eq h]
    refine congrArg Host.Outcome.next (((countRejoin_eq ..).trans (if_pos ⟨hd, hm⟩)).trans ?_)
    dsimp only
    rw [upd_congr s.units t]
    simpa using hm

/-! ### Answers and reports (R145, R149) -/

theorem judges_iff (u : TileUnit) (n : Nat) :
    u.judges n = true ↔ ∃ f, judging u ∧ u.fetch = some f ∧ f.frame = n ∧ f.endSent = true := by
  unfold TileUnit.judges
  cases hs : u.state <;> cases u.fetch <;> simp [judging, hs]

theorem deliveryReport_take {t : Tile} {n : Nat} {rest : List UnitReport} {s : State}
    (h : s.mail.toScene[t] = .delivery n :: rest) : deliveryReport t s = (s.popReport t).takeDelivery t n := by
  unfold deliveryReport
  rw [h]

theorem stateReport_take {t : Tile} {st : TileState} {rest : List UnitReport} {s : State}
    (h : s.mail.toScene[t] = .state st :: rest) : stateReport t s = (s.popReport t).takeStateReport t st := by
  unfold stateReport
  rw [h]

/-- Settles O38. -/
theorem answersAndReportsAreTaken : Obligations.AnswersAndReportsAreTaken := by
  refine ⟨?answers, ?reports, fun _ _ _ => rfl⟩
  case answers =>
    refine fun t n s => ⟨fun f hj hf hn he => ?_, fun hno => ?_⟩
    · have hju : s.units[t].judges n.toNat = true := (judges_iff ..).2 ⟨f, hj, hf, hn, he⟩
      exact ⟨congrArg Host.Outcome.next (if_pos hju), congrArg Host.Outcome.next (if_pos hju)⟩
    · have hju : ¬ s.units[t].judges n.toNat = true := fun h => hno ((judges_iff ..).1 h)
      exact ⟨congrArg Host.Outcome.next (if_neg hju), congrArg Host.Outcome.next (if_neg hju)⟩
  case reports =>
    intro t rest s
    dsimp only
    refine ⟨fun n h => ?delivery, fun st h => ?state⟩
    case delivery =>
      have hpop : ∀ s', (s.popReport t).takeDelivery t n = s' → exec (.deliveryReport t) s = .next s' := fun s' hs =>
        congrArg Host.Outcome.next ((deliveryReport_take h).trans hs)
      refine ⟨fun z hc => hpop _ ?_, fun hc => hpop _ ?_, fun hc => hpop _ ?_⟩ <;>
        rw [popReport_eq h, State.takeDelivery, hc]
      · dsimp only
        refine if_congr ?_ rfl rfl
        change (s.zone z).fetch.any (fun f => decide (f.frame = n)) = true ↔ _
        cases (s.zone z).fetch <;> simp
      · rfl
    case state =>
      have hpop : ∀ s', (s.popReport t).takeStateReport t st = s' → exec (.stateReport t) s = .next s' := fun s' hs =>
        congrArg Host.Outcome.next ((stateReport_take h).trans hs)
      refine ⟨fun z hc => hpop _ ?_, fun hc => hpop _ ?_, fun hc => hpop _ ?_⟩ <;>
        rw [popReport_eq h, State.takeStateReport, hc]
      · simp only [State.leaveStep, modScene_units, hc]
        rfl
      · simp only [State.leaveStep, modScene_units, hc]
        rfl
      · rfl

end Sys2Proof.Machine
end

