-- ==== Sys2Proof/Proofs/PortLaws.lean ====
section
/-! The client ports: what a port hears of the events of the part, which commands do more to a port than that, and how a
port goes on with the requests that wait. -/

set_option linter.unusedTactic false
set_option linter.unusedSimpArgs false
set_option linter.unreachableTactic false
set_option linter.unnecessarySeqFocus false

namespace Sys2Proof.Machine

/-! ### What a port hears (R180) -/

/-- A port has heard of events alone: they joined its set where it is UP, and nothing else of it changed. -/
def PortRec.hears (r r' : PortRec) : Prop :=
  r' = { r with events := r'.events } ∧ (r.up = false → r'.events = r.events) ∧
    ∀ k, k < 15 → r.events.getLsbD k = true → r'.events.getLsbD k = true

/-- Every port has heard of events alone. -/
def State.hears (s t : State) : Prop := ∀ q : Port, s.ports[q].hears t.ports[q]

theorem PortRec.hears_refl (r : PortRec) : r.hears r := ⟨rfl, fun _ => rfl, fun _ _ h => h⟩

theorem PortRec.hears.trans {a b c : PortRec} (h : a.hears b) (k : b.hears c) : a.hears c := by
  obtain ⟨hb, hd, hm⟩ := h
  obtain ⟨kc, kd, km⟩ := k
  have hup : b.up = a.up := by rw [hb]
  refine ⟨by rw [kc, hb], fun hu => ?_, fun i hi he => km i hi (hm i hi he)⟩
  rw [kd (hup.trans hu), hd hu]

theorem PortRec.hears_take (r : PortRec) (e : Event) : r.hears (r.take e) := by
  unfold PortRec.take
  split
  · next hu =>
    refine ⟨rfl, fun h => absurd (hu.symm.trans h) (by simp), fun k hk h => ?_⟩
    change (insertBit r.events e.bit).getLsbD k = true
    rw [getLsbD_insertBit _ _ _ hk, h]
    rfl
  · exact r.hears_refl

theorem PortRec.take_heard {r : PortRec} (hu : r.up = true) (e : Event) :
    (r.take e).events.getLsbD e.bit = true := by
  rw [PortRec.take, if_pos hu, getLsbD_insertBit _ _ _ (by cases e <;> decide)]
  simp

theorem State.hears_refl (s : State) : s.hears s := fun q => s.ports[q].hears_refl

theorem State.hears.trans {a b c : State} (h : a.hears b) (k : b.hears c) : a.hears c := fun q => (h q).trans (k q)

theorem State.hears_of_eq {s t : State} (h : t.ports = s.ports) : s.hears t := by
  intro q
  rw [h]
  exact PortRec.hears_refl _

/-- A port of which the state hears stays UP or DOWN. -/
theorem State.hears.up {s t : State} (h : s.hears t) (q : Port) : t.ports[q].up = s.ports[q].up := by
  rw [(h q).1]

theorem State.hears.cls {s t : State} (h : s.hears t) (q : Port) : t.cls q = s.cls q := by
  unfold State.cls
  rw [(h q).1]

theorem State.hears.transit {s t : State} (h : s.hears t) (q : Port) :
    t.ports[q].transit = s.ports[q].transit := by
  rw [(h q).1]

theorem State.hears.waiting {s t : State} (h : s.hears t) (q : Port) :
    t.ports[q].waiting = s.ports[q].waiting := by
  rw [(h q).1]

theorem hears_foldl {α : Type} (f : State → α → State) (hf : ∀ (s : State) a, s.hears (f s a)) (l : List α) (s : State) :
    s.hears (l.foldl f s) := by
  induction l generalizing s with
  | nil => exact s.hears_refl
  | cons a l ih => exact (hf s a).trans (ih _)

theorem raise_hears (s : State) (p : Port) (e : Event) : s.hears (s.raise p e) := by
  intro q
  rw [raise_at]
  split
  · exact PortRec.hears_take _ _
  · exact PortRec.hears_refl _

theorem raiseAll_hears (s : State) (e : Event) : s.hears (s.raiseAll e) := by
  intro q
  simpa using PortRec.hears_take s.ports[q.val] e

theorem raiseOperators_hears (s : State) (e : Event) : s.hears (s.raiseOperators e) := by
  intro q
  have h : (s.raiseOperators e).ports[q] = if s.ports[q].cls = .operator then s.ports[q].take e else s.ports[q] := by
    simp
  rw [h]
  split
  · exact PortRec.hears_take _ _
  · exact PortRec.hears_refl _

/-- An event raised once other blocks have changed. -/
theorem hears_raise {s t : State} (h : s.hears t) (p : Port) (e : Event) : s.hears (t.raise p e) :=
  h.trans (raise_hears t p e)

theorem hears_then {s t u : State} (h : s.hears t) (hp : u.ports = t.ports) : s.hears u :=
  h.trans (State.hears_of_eq hp)

/-! ### The operations that raise events -/

theorem offerFault_hears (s : State) (f : CapturedFault) : s.hears (s.offerFault f) := by
  unfold State.offerFault
  split
  · exact State.hears_of_eq rfl
  · exact (State.hears_of_eq rfl).trans (raiseOperators_hears _ _)

theorem uncorrectable_hears (s : State) (k : FaultKind) (o : Origin) (a : WordAddr) :
    s.hears (s.uncorrectable k o a) := by
  unfold State.uncorrectable
  dsimp only
  have hd : ∀ f : CapturedFault, s.hears ((match s.slotOwner a.slot with
      | some h => s.setPage h Page.damage
      | none => s).offerFault f) := by
    intro f
    refine State.hears.trans (State.hears_of_eq ?_) (offerFault_hears _ f)
    split <;> rfl
  split
  · exact hears_raise (hd _) _ _
  · exact hd _

theorem wordEffect_hears (s : State) (k : FaultKind) (o : Origin) (a : WordAddr) (c : ReadClass) :
    s.hears (s.wordEffect k o a c) := by
  cases c with
  | clean => exact s.hears_refl
  | corrected => exact State.hears_of_eq (by simp [State.wordEffect])
  | uncorrectable => exact uncorrectable_hears s k o a

theorem lineEffects_hears (s : State) (k : FaultKind) (o : Origin) (slot line : Nat) (ws : List (Nat × ReadClass)) :
    s.hears (s.lineEffects k o slot line ws) := by
  induction ws generalizing s with
  | nil => exact s.hears_refl
  | cons w ws ih => exact (wordEffect_hears s k o _ _).trans (ih _)

theorem setWindow_hears (s : State) (w : WindowState) : s.hears (s.setWindow w) :=
  (State.hears_of_eq rfl).trans (raiseAll_hears _ _)

theorem become_hears (s : State) (t : Tile) (st : TileState) : s.hears (s.become t st) := by
  rw [become_eq]
  cases st.announced
  · exact State.hears_of_eq rfl
  · exact raiseAll_hears s .tileChange

theorem startTraining_hears (s : State) (t : Tile) : s.hears (s.startTraining t) :=
  State.hears_of_eq (by rw [startTraining_eq])

theorem failAttempt_hears (s : State) (t : Tile) : s.hears (s.failAttempt t) := by
  unfold State.failAttempt
  dsimp only
  split
  · exact State.hears_of_eq (by simp)
  · exact State.hears.trans (State.hears_of_eq (by simp)) (become_hears _ _ _)

theorem takeOrder_hears (s : State) (t : Tile) (n : Nat) (src : Source) (adm : Bool) :
    s.hears (s.takeOrder t n src adm) := by
  by_cases h : judging s.units[t]
  · rw [takeOrder_judging h]
    refine hears_then (?_ : s.hears (stepAdmitted s t adm)) (by simp)
    unfold stepAdmitted
    split
    · exact (State.hears_of_eq rfl).trans (become_hears _ _ _)
    · exact s.hears_refl
  · rw [takeOrder_discarded h]
    exact s.hears_refl

theorem takeVerdict_hears (s : State) (t : Tile) (v : VerdictKind) (d : Bool) : s.hears (s.takeVerdict t v d) := by
  unfold State.takeVerdict
  cases s.units[t].state with
  | off | training | lost => exact s.hears_refl
  | joining => exact State.hears_of_eq rfl
  | inStep =>
    dsimp only
    rw [countVerdict_eq]
    split
    · exact State.hears_of_eq rfl
    · exact raiseAll_hears s .tileChange
  | lagging =>
    dsimp only
    rw [countRejoin_eq]
    split <;> exact State.hears_of_eq rfl

theorem endBlock_hears (s : State) (c : ChanId) (l : Load) (first count : Nat) (k : Check) :
    s.hears (s.endBlock c l first count k) := by
  unfold State.endBlock
  dsimp only
  split <;> exact State.hears.trans (State.hears_of_eq rfl) (raise_hears _ _ _)

theorem endCell_hears (s : State) (c : ChanId) (l : Load) (target : Nat) (k : Option Check) :
    s.hears (s.endCell c l target k) := by
  unfold State.endCell
  dsimp only
  split
  · exact State.hears_of_eq (by simp)
  · exact State.hears.trans (State.hears_of_eq (by simp)) (raise_hears _ _ _)

theorem lineLoaded_hears (s : State) (c : ChanId) : s.hears (s.lineLoaded c) := by
  have h : s.hears (s.setChan c (·.map fun l =>
    { l with buffer := l.buffer.drop wordsPerLine, linesWritten := l.linesWritten + 1 })) := State.hears_of_eq rfl
  unfold State.lineLoaded
  generalize s.setChan c _ = t at h ⊢
  dsimp only
  split
  · split
    · split
      · exact h.trans (endBlock_hears _ _ _ _ _ _)
      · exact h.trans (endCell_hears _ _ _ _ _)
    · exact hears_then h (by simp)
  · exact h

theorem freeGate_hears (s : State) (g : GateId) (p : Port) (e : Event) : s.hears (s.freeGate g p e) :=
  State.hears.trans (State.hears_of_eq (by simp)) (raise_hears _ _ _)

theorem abandonCut_hears (s : State) (z : ZoneId) (c : Cut) : s.hears (s.abandonCut z c) :=
  State.hears.trans (State.hears_of_eq (by simp)) (raise_hears _ _ _)

theorem skipCut_hears (s : State) (z : ZoneId) (c : Cut) : s.hears (s.skipCut z c) :=
  State.hears.trans (State.hears_of_eq (by simp)) (raise_hears _ _ _)

theorem showCut_hears (s : State) (z : ZoneId) : s.hears (s.showCut z) := by
  unfold State.showCut
  split
  · dsimp only
    split
    · exact State.hears_of_eq (by simp)
    · exact State.hears.trans (State.hears_of_eq (by simp)) (raise_hears _ _ _)
  · exact s.hears_refl

theorem showGate_hears (s : State) (z : ZoneId) (g : GateId) (p : Port) : s.hears (s.showGate z g p) := by
  unfold State.showGate
  split
  · exact State.hears.trans (State.hears_of_eq (by simp)) (raise_hears _ _ _)
  · exact s.hears_refl

theorem dropContext_hears (s : State) (x : Context) : s.hears (s.dropContext x) := by
  unfold State.dropContext
  dsimp only
  split
  · exact State.hears.trans (State.hears_of_eq (by simp)) (freeGate_hears _ _ _ _)
  · exact State.hears_of_eq (by simp)

theorem showReturn_hears (s : State) (z : ZoneId) : s.hears (s.showReturn z) := by
  unfold State.showReturn
  split
  · exact hears_then (dropContext_hears s _) rfl
  · exact s.hears_refl

theorem showArmed_hears (s : State) (z : ZoneId) : s.hears (s.showArmed z) := by
  unfold State.showArmed
  split
  · exact showCut_hears s z
  · exact showGate_hears s z _ _
  · exact showReturn_hears s z
  · exact s.hears_refl

theorem zoneVerdict_hears (s : State) (z : ZoneId) : s.hears (s.zoneVerdict z) := by
  unfold State.zoneVerdict
  split
  · exact s.hears_refl
  · dsimp only
    split
    · refine hears_then (?_ : s.hears (if _ then _ else _)) (countDown_frame _ _).1
      split
      · exact State.hears.trans (State.hears_of_eq (by simp)) (showArmed_hears _ _)
      · exact State.hears_of_eq (by simp)
    · exact State.hears_of_eq (by split <;> simp)

theorem clearArmed_hears (s : State) (z : ZoneId) : s.hears (s.clearArmed z) := by
  unfold State.clearArmed
  split
  · split
    · exact hears_then (abandonCut_hears s z _) (disarm_frame _ _).1
    · split
      · exact hears_then (skipCut_hears s z _) (disarm_frame _ _).1
      · exact s.hears_refl
  · split
    · exact hears_then (freeGate_hears s _ _ _) (disarm_frame _ _).1
    · exact s.hears_refl
  · exact s.hears_refl

theorem takeUnseen_hears (s : State) (z : ZoneId) (c : Cut) : s.hears (s.takeUnseen z c) := by
  unfold State.takeUnseen
  refine State.hears.trans (State.hears_of_eq ?_) (raise_hears _ _ _)
  split <;> simp

theorem skipDue_hears (s : State) (z : ZoneId) : s.hears (s.skipDue z).1 :=
  hears_foldl _ (fun s c => skipCut_hears s z c) _ s

theorem settleDue_hears (s : State) (z : ZoneId) : s.hears (s.settleDue z) := by
  have hd := skipDue_hears s z
  unfold State.settleDue
  split
  · exact s.hears_refl
  · split
    · next h => rw [h] at hd; exact hd
    · next h =>
      rw [h] at hd
      split
      · exact hd.trans (takeUnseen_hears _ _ _)
      split
      · exact hd.trans (abandonCut_hears _ _ _)
      · exact hears_then hd rfl

theorem zoneChoice_hears (s : State) (z : ZoneId) : s.hears (s.zoneChoice z) := by
  have h : s.hears ((((s.clearArmed z).armPending z).armExpired z).settleDue z) :=
    (hears_then (clearArmed_hears s z) (by simp)).trans (settleDue_hears _ z)
  unfold State.zoneChoice
  dsimp only
  have hc := (checkArmed_frame ((((s.clearArmed z).armPending z).armExpired z).settleDue z) z).1
  split
  · next hk => rw [hk] at hc; exact hears_then h (by simpa using hc)
  · next hk => rw [hk] at hc; exact hears_then h (by simpa using hc)

/-- A zone's boundary in LIT up to its choice: the verdict, and at an epoch the early cut unarmed (R98, R112). -/
def State.judged (s : State) (epoch : Bool) (z : ZoneId) : State :=
  if epoch then (s.zoneVerdict z).unarmEarly z else s.zoneVerdict z

theorem zoneLit_eq (s : State) (e : Bool) (z : ZoneId) :
    s.zoneLit e z =
      if (s.judged e z).scene.frame = maxFrame then (s.judged e z).setZone z fun zn => { zn with fetch := none }
      else (s.judged e z).zoneChoice z := rfl

theorem judged_hears (s : State) (e : Bool) (z : ZoneId) : s.hears (s.judged e z) := by
  unfold State.judged
  split
  · exact hears_then (zoneVerdict_hears s z) (unarmEarly_frame _ _).1
  · exact zoneVerdict_hears s z

theorem zoneLit_hears (s : State) (e : Bool) (z : ZoneId) : s.hears (s.zoneLit e z) := by
  have h := judged_hears s e z
  rw [zoneLit_eq]
  generalize s.judged e z = t at h ⊢
  split
  · exact hears_then h (setZone_ports _ _ _)
  · exact h.trans (zoneChoice_hears _ _)

theorem zoneDark_hears (s : State) (z : ZoneId) : s.hears (s.zoneDark z) := by
  unfold State.zoneDark
  dsimp only
  split
  · exact State.hears_of_eq rfl
  · have hd : s.hears ((s.setZone z fun zn => { zn with fetch := none, delivered := 0 }).skipDue z).1 :=
      State.hears.trans (State.hears_of_eq rfl) (skipDue_hears _ z)
    split
    · next h => rw [h] at hd; exact hd
    · next h => rw [h] at hd; exact hd.trans (takeUnseen_hears _ _ _)

theorem unwind_hears (s : State) (z : ZoneId) : s.hears (s.unwind z) := by
  unfold State.unwind
  dsimp only
  split
  · exact s.hears_refl
  · exact hears_then (hears_foldl _ (fun s x => dropContext_hears s x) _ s) rfl

theorem dropArmed_hears (s : State) (z : ZoneId) : s.hears (s.dropArmed z) := by
  unfold State.dropArmed
  split
  · exact State.hears_of_eq (by split <;> simp)
  · exact hears_then (freeGate_hears s _ _ _) (disarm_frame _ _).1
  · exact State.hears_of_eq (by simp)

theorem dropPending_hears (s : State) (z : ZoneId) : s.hears (s.dropPending z) := by
  unfold State.dropPending
  dsimp only
  split
  · exact hears_then (freeGate_hears s _ _ _) rfl
  · exact State.hears_of_eq rfl

theorem windBack_hears (s : State) (z : ZoneId) : s.hears (s.windBack z) :=
  hears_then (((unwind_hears s z).trans (dropArmed_hears _ z)).trans (dropPending_hears _ z)) rfl

theorem abortAll_hears (s : State) : s.hears s.abortAll := by
  refine hears_foldl _ (fun s c => ?_) _ s
  split
  · exact hears_raise (State.hears_of_eq (by simp)) _ _
  · exact s.hears_refl

theorem darkEntry_hears (s : State) : s.hears s.darkEntry := by
  have hz : s.hears (allZones.foldl State.windBack ((s.modScene fun e => { e with change := none }).setWindow
      .darkening)) :=
    ((State.hears_of_eq (modScene_ports s fun e => { e with change := none })).trans (setWindow_hears _ _)).trans
      (hears_foldl _ windBack_hears _ _)
  unfold State.darkEntry
  dsimp only
  generalize allZones.foldl State.windBack _ = t at hz ⊢
  refine State.hears.trans ?_ (hears_foldl (fun (s : State) i => s.toUnit i .powerOff)
    (fun s i => State.hears_of_eq (toUnit_ports s i .powerOff)) allTiles _)
  refine hears_then ?_ (endEdits_frame _).1
  refine hears_then ?_ (modScene_ports _ _)
  exact (hears_then hz (modBackground_frame _ _).1).trans (abortAll_hears _)

theorem wakeEntry_hears (s : State) : s.hears s.wakeEntry :=
  hears_then ((State.hears_of_eq (modScene_ports s fun e => { e with change := none })).trans
    (setWindow_hears _ .waking)) (exitRequest_frame _).1

theorem takeChange_hears (s : State) : s.hears s.takeChange := by
  unfold State.takeChange
  dsimp only
  split
  · split
    · exact darkEntry_hears s
    · exact s.hears_refl
  · split
    · exact wakeEntry_hears s
    · exact s.hears_refl
  · exact s.hears_refl

/-! ### Which commands do more to a port than tell it of events -/

/-- The commands that change more of a client port than its pending events. -/
def changesPorts : Instr → Bool
  | .powerOnReset _ | .badRequest _ _ | .resetWindow _ | .getEvents _ | .setEventMask _ _ | .clientLinkUp _
  | .portLoss _ => true
  | _ => false

theorem configure_hears (rate : Byte) (slots : BitVec 16) (cols rows : Byte) (positions : Vector Byte 16)
    (presence : Byte) (start : BitVec 48) (c : Caller) (s : State) :
    s.hears (configure rate slots cols rows positions presence start c s) := by
  unfold configure State.checked
  generalize firstFailure _ = f
  cases f with
  | some st => exact State.hears_of_eq (reply_ports _ _ _ _)
  | none =>
    dsimp only
    refine hears_then ?_ (reply_ports _ _ _ _)
    refine hears_then ?_ (powerOnBound_frame _).1
    refine State.hears.trans ?_ (setWindow_hears _ _)
    refine hears_then ?_ (modScene_ports _ _)
    refine State.hears_of_eq ?_
    exact (foldl_keeps (fun b : State => b.ports) _ (by intro b t; split <;> simp) _ _)

theorem loadAbort_hears (ch : Byte) (c : Caller) (s : State) : s.hears (loadAbort ch c s) := by
  unfold loadAbort State.checked
  dsimp only
  generalize firstFailure _ = f
  cases f with
  | some st => exact State.hears_of_eq (reply_ports _ _ _ _)
  | none =>
    dsimp only
    split
    · refine hears_then ?_ (reply_ports _ _ _ _)
      split
      · exact State.hears_of_eq (by simp)
      · exact hears_raise (State.hears_of_eq (by simp)) _ _
    · exact s.hears_refl

theorem setZone_hears (zone presence col row cols rows : Byte) (c : Caller) (s : State) :
    s.hears (setZone zone presence col row cols rows c s) := by
  unfold setZone State.checked
  dsimp only
  generalize firstFailure _ = f
  cases f with
  | some st => exact State.hears_of_eq (reply_ports _ _ _ _)
  | none =>
    dsimp only
    split
    · split
      · exact State.hears_of_eq (by simp)
      · refine hears_then ?_ (reply_ports _ _ _ _)
        split
        · split
          · exact State.hears_of_eq (by simp)
          · exact hears_raise (State.hears_of_eq (by simp)) _ _
        · exact State.hears_of_eq (by simp)
    · exact s.hears_refl

theorem seizeZone_hears (zone : Byte) (c : Caller) (s : State) : s.hears (seizeZone zone c s) := by
  unfold seizeZone State.checked
  dsimp only
  generalize firstFailure _ = f
  cases f with
  | some st => exact State.hears_of_eq (reply_ports _ _ _ _)
  | none =>
    dsimp only
    split
    · refine hears_then ?_ (reply_ports _ _ _ _)
      split
      · exact s.hears_refl
      · split
        · exact hears_raise (State.hears_of_eq (by simp)) _ _
        · exact State.hears_of_eq (by simp)
    · exact s.hears_refl

theorem retrainTile_hears (tile : Byte) (c : Caller) (s : State) : s.hears (retrainTile tile c s) := by
  unfold retrainTile State.checked
  dsimp only
  generalize firstFailure _ = f
  cases f with
  | some st => exact State.hears_of_eq (reply_ports _ _ _ _)
  | none =>
    dsimp only
    split
    · refine hears_then ?_ (reply_ports _ _ _ _)
      exact (State.hears_of_eq (abandonFetch_frame _ _).1).trans (startTraining_hears _ _)
    · exact s.hears_refl

theorem tileLinkDown_hears (t : Tile) (s : State) : s.hears (tileLinkDown t s) := by
  unfold tileLinkDown
  dsimp only
  split
  · exact State.hears.trans (State.hears_of_eq (by simp)) (become_hears _ _ _)
  · exact State.hears_of_eq rfl

theorem trainEcho_hears (t : Tile) (attempt pattern : Byte) (check : Check) (s : State) :
    s.hears (trainEcho t attempt pattern check s) := by
  unfold trainEcho
  dsimp only
  split
  · split
    · split
      · split
        · exact hears_then (State.hears.trans (State.hears_of_eq rfl) (become_hears _ t .joining)) rfl
        · exact State.hears_of_eq rfl
      · exact failAttempt_hears _ _
    · exact s.hears_refl
  · exact s.hears_refl

theorem attemptTimerExpiry_hears (t : Tile) (s : State) : s.hears (attemptTimerExpiry t s) := by
  unfold attemptTimerExpiry
  split
  · exact failAttempt_hears _ _
  · exact s.hears_refl

theorem fetchOrder_hears (t : Tile) (s : State) : s.hears (fetchOrder t s) := by
  unfold fetchOrder
  split
  · exact (State.hears_of_eq (popUnitMsg_ports s t)).trans (takeOrder_hears _ _ _ _ _)
  · exact s.hears_refl

theorem verdict_hears (t : Tile) (s : State) : s.hears (verdict t s) := by
  unfold verdict
  split
  · exact (State.hears_of_eq (popUnitMsg_ports s t)).trans (takeVerdict_hears _ _ _ _)
  · exact s.hears_refl

theorem powerOnOrder_hears (t : Tile) (s : State) : s.hears (powerOnOrder t s) := by
  unfold powerOnOrder
  dsimp only
  split
  · split
    · exact (State.hears_of_eq (popUnitMsg_ports s t)).trans (startTraining_hears _ _)
    · exact State.hears_of_eq rfl
  · exact s.hears_refl

theorem powerOffOrder_hears (t : Tile) (s : State) : s.hears (powerOffOrder t s) := by
  unfold powerOffOrder
  dsimp only
  split
  · split
    · exact State.hears.trans (State.hears_of_eq (by split <;> simp)) (become_hears _ t .off)
    · exact State.hears_of_eq rfl
  · exact s.hears_refl

theorem refreshIntervalExpiry_hears (s : State) : s.hears (refreshIntervalExpiry s) := by
  unfold refreshIntervalExpiry
  split
  · split
    · exact offerFault_hears _ _
    · exact State.hears_of_eq (by simp)
  · exact s.hears_refl

theorem scanComplete_hears (errors : BitErrors) (s : State) : s.hears (scanComplete errors s) := by
  unfold scanComplete
  split
  · split
    · exact State.hears_of_eq (by simp)
    · dsimp only
      have h := fun (st : Store) k o slot line ws =>
        (State.hears_of_eq (modStore_ports s fun _ => st)).trans (lineEffects_hears _ k o slot line ws)
      split
      · exact hears_then (h _ _ _ _ _ _) (by rw [(scanDiscarded_frame _ _).1, (freeBus_frame _).1])
      · exact hears_then (h _ _ _ _ _ _) (by rw [(lineScanned_frame _ _ _).1, (freeBus_frame _).1])
  · exact s.hears_refl

theorem loadComplete_hears (s : State) : s.hears (loadComplete s) := by
  unfold loadComplete
  split
  · split
    · exact State.hears_of_eq (by simp)
    · dsimp only
      split
      · exact State.hears_of_eq (by simp)
      · exact State.hears.trans (State.hears_of_eq (by simp)) (lineLoaded_hears _ _)
  · exact s.hears_refl

theorem patchEditComplete_hears (errors : BitErrors) (s : State) : s.hears (patchEditComplete errors s) := by
  unfold patchEditComplete
  split
  · split
    · exact State.hears_of_eq (by simp)
    · dsimp only
      have h := fun (st : Store) k o slot line ws =>
        (State.hears_of_eq (modStore_ports s fun _ => st)).trans (lineEffects_hears _ k o slot line ws)
      split
      · exact hears_then (h _ _ _ _ _ _) (freeBus_frame _).1
      · exact hears_then (h _ _ _ _ _ _) (by rw [(patchDone_frame _ _).1, (freeBus_frame _).1])
  · exact s.hears_refl

theorem copyLineComplete_hears (errors : BitErrors) (s : State) : s.hears (copyLineComplete errors s) := by
  unfold copyLineComplete
  split
  · split
    · exact State.hears_of_eq (by simp)
    · split
      · dsimp only
        refine State.hears_of_eq ?_
        split
        · rw [(freeBus_frame _).1, modStore_ports]
        · rw [(copyMoved_frame _).1, (freeBus_frame _).1, modStore_ports]
      · dsimp only
        have h := fun (st : Store) k o slot line ws =>
          (State.hears_of_eq (modStore_ports s fun _ => st)).trans (lineEffects_hears _ k o slot line ws)
        split
        · exact hears_then (h _ _ _ _ _ _) (freeBus_frame _).1
        split
        · exact hears_then (h _ _ _ _ _ _) (by rw [(copyStopped_frame _).1, (freeBus_frame _).1])
        · exact hears_then (h _ _ _ _ _ _) (by rw [(copyMoved_frame _).1, (freeBus_frame _).1])
  · exact s.hears_refl

theorem scrubWord_hears (s : State) (e : ScrubEntry) : s.hears (s.scrubWord e) := by
  unfold State.scrubWord
  dsimp only
  split
  · exact State.hears_refl _
  · exact State.hears_of_eq (by simp)
  · exact uncorrectable_hears _ _ _ _

theorem scrubComplete_hears (errors : ErrorMask) (s : State) : s.hears (scrubComplete errors s) := by
  unfold scrubComplete
  split
  case h_2 => exact s.hears_refl
  case h_1 e _ dropped h =>
    split
    · exact State.hears_of_eq (freeBus_frame s).1
    · dsimp only
      refine hears_then ?_ (requestScrub_frame _).1
      refine hears_then ?_ (modStore_ports _ _)
      refine hears_then ?_ (freeBus_frame _).1
      exact (State.hears_of_eq (modStore_ports s fun st => st.disturbWord e.addr.slot e.addr.line e.addr.word
        errors)).trans (scrubWord_hears _ e)

theorem entryCompletion_hears (s : State) : s.hears (entryCompletion s) := by
  unfold entryCompletion
  split
  · exact (State.hears_of_eq (popStore_frame s).1).trans (setWindow_hears _ _)
  · exact s.hears_refl

theorem exitCompletion_hears (s : State) : s.hears (exitCompletion s) := by
  unfold exitCompletion
  dsimp only
  split
  · split
    · exact hears_then ((State.hears_of_eq (popStore_frame s).1).trans (setWindow_hears _ .lit))
        (powerOnBound_frame _).1
    · exact State.hears_of_eq (popStore_frame s).1
  · exact s.hears_refl

theorem frameBoundary_hears (s : State) : s.hears (frameBoundary s) := by
  unfold frameBoundary
  dsimp only
  split
  · refine hears_then ?_ (modMail_ports _ _)
    have hc := fun t : State => takeChange_hears t
    split
    · refine hears_then ?_ (backgroundLit_frame _).1
      refine State.hears.trans ?_ (hears_foldl _ (fun s z => zoneLit_hears s _ z) _ _)
      exact (State.hears_of_eq (by simp)).trans (takeChange_hears _)
    · refine hears_then ?_ (modBackground_frame _ _).1
      refine State.hears.trans ?_ (hears_foldl _ zoneDark_hears _ _)
      exact (State.hears_of_eq (by simp)).trans (takeChange_hears _)
  · exact s.hears_refl

/-- Every other command tells the ports of events alone. -/
theorem atBlock_hears (i : Instr) (hi : changesPorts i = false) (c : Caller) (s : State) :
    s.hears (atBlock i c s) := by
  cases i with
  | powerOnReset | badRequest | resetWindow | getEvents | setEventMask | clientLinkUp | portLoss => cases hi
  | configure => exact configure_hears _ _ _ _ _ _ _ _ _
  | loadAbort => exact loadAbort_hears _ _ _
  | setZone => exact setZone_hears _ _ _ _ _ _ _ _
  | seizeZone => exact seizeZone_hears _ _ _
  | retrainTile => exact retrainTile_hears _ _ _
  | tileLinkDown => exact tileLinkDown_hears _ _
  | trainEcho => exact trainEcho_hears _ _ _ _ _
  | attemptTimerExpiry => exact attemptTimerExpiry_hears _ _
  | fetchOrder => exact fetchOrder_hears _ _
  | verdict => exact verdict_hears _ _
  | powerOnOrder => exact powerOnOrder_hears _ _
  | powerOffOrder => exact powerOffOrder_hears _ _
  | refreshIntervalExpiry => exact refreshIntervalExpiry_hears _
  | scanComplete => exact scanComplete_hears _ _
  | loadComplete => exact loadComplete_hears _
  | patchEditComplete => exact patchEditComplete_hears _ _
  | copyLineComplete => exact copyLineComplete_hears _ _
  | scrubComplete => exact scrubComplete_hears _ _
  | entryCompletion => exact entryCompletion_hears _
  | exitCompletion => exact exitCompletion_hears _
  | frameBoundary => exact frameBoundary_hears _
  | _ => exact State.hears_of_eq (by simp [atBlock])

end Sys2Proof.Machine
end

