-- ==== Sys2Proof/Proofs/PortCourse.lean ====
section
/-! The course of the requests at a port: a DOWN port stays empty, requests wait only behind one in transit, and in
UNCONFIGURED no request is in transit but one that is served there (R171, R172, R175, R184). -/

namespace Sys2Proof.Machine

/-- A port that is DOWN has an empty event set and mask, and nothing in transit. -/
def PortRec.emptyDown (r : PortRec) : Prop := r.up = false → r.events = 0 ∧ r.mask = 0 ∧ r.transit = none

/-- Requests wait only behind one in transit. -/
def PortRec.inOrder (r : PortRec) : Prop := r.transit = none → r.waiting = []

theorem portsOk_iff (s : State) : s.portsOk ↔ ∀ p : Port, s.ports[p].emptyDown ∧ s.ports[p].inOrder := Iff.rfl

theorem PortRec.emptyDown_of_up {r : PortRec} (h : r.up = true) : r.emptyDown :=
  fun h' => absurd (h.symm.trans h') (by decide)

theorem PortRec.hears.emptyDown {r r' : PortRec} (h : r.hears r') (hr : r.emptyDown) : r'.emptyDown := by
  obtain ⟨he, hd, -⟩ := h
  intro hu
  have hu' : r.up = false := by rw [he] at hu; exact hu
  obtain ⟨h1, h2, h3⟩ := hr hu'
  rw [he]
  exact ⟨(hd hu').trans h1, h2, h3⟩

theorem PortRec.hears.inOrder {r r' : PortRec} (h : r.hears r') (hr : r.inOrder) : r'.inOrder := by
  unfold PortRec.inOrder
  rw [h.1]
  exact hr

theorem State.hears.portsOk {s t : State} (h : s.hears t) (hs : s.portsOk) : t.portsOk := fun p =>
  ⟨(h p).emptyDown (hs p).1, (h p).inOrder (hs p).2⟩

theorem portsOk_of_eq {s t : State} (h : t.ports = s.ports) (hs : s.portsOk) : t.portsOk :=
  (State.hears_of_eq h).portsOk hs

/-! ### A port goes on with the requests that wait (R172) -/

/-- What became of a port that goes on, and of the others: the others stay; the port stays UP or DOWN. -/
def PortsGo (p : Port) (s t : State) : Prop :=
  (∀ q : Port, q ≠ p → t.ports[q] = s.ports[q]) ∧ t.ports[p].up = s.ports[p].up ∧ t.scene = s.scene

theorem PortsGo.refl (p : Port) (s : State) : PortsGo p s s := ⟨fun _ _ => rfl, rfl, rfl⟩

theorem PortsGo.trans {p : Port} {a b c : State} (h : PortsGo p a b) (k : PortsGo p b c) : PortsGo p a c :=
  ⟨fun q hq => (k.1 q hq).trans (h.1 q hq), k.2.1.trans h.2.1, k.2.2.trans h.2.2⟩

theorem portsGo_setPort (s : State) (p : Port) (f : PortRec → PortRec) (hf : ∀ r, (f r).up = r.up) :
    PortsGo p s (s.setPort p f) := by
  refine ⟨fun q hq => ?_, ?_, rfl⟩
  · simpa using upd_other s.ports p q f (Ne.symm hq)
  · rw [setPort_ports, upd_same, hf]

theorem portsGo_of_eq {p : Port} {s t : State} (h : t.ports = s.ports) (hs : t.scene = s.scene) : PortsGo p s t :=
  ⟨fun _ _ => by rw [h], by rw [h], hs⟩

/-- What is in transit at a port that has gone on from nothing is served in UNCONFIGURED where that is the window. -/
def passesServed (p : Port) (s t : State) : Prop :=
  ∀ j, t.ports[p].transit = some j → s.window = .unconfigured → Instr.servedUnconfigured j = true

theorem passesServed_of_none {p : Port} {s t : State} (h : t.ports[p].transit = none) : passesServed p s t :=
  fun j hj => absurd (h.symm.trans hj) (by simp)

/-- A port has examined a request: the others stay, and in UNCONFIGURED only what is served there is passed on. -/
def Examined (p : Port) (s t : State) : Prop := PortsGo p s t ∧ passesServed p s t

theorem examined_reply {s : State} {p : Port} (ht : s.ports[p].transit = none) (c : Caller) (st : Status) (b : Body) :
    Examined p s (s.reply c st b) :=
  ⟨portsGo_of_eq (reply_ports _ _ _ _) (reply_scene _ _ _ _),
    passesServed_of_none (by rw [reply_ports]; exact ht)⟩

/-- A port's own request, answered once the port has changed. -/
theorem examined_own {s : State} {p : Port} (ht : s.ports[p].transit = none) (f : PortRec → PortRec)
    (hu : ∀ r, (f r).up = r.up) (hf : ∀ r, (f r).transit = r.transit) (c : Caller) (st : Status) (b : Body) :
    Examined p s ((s.setPort p f).reply c st b) := by
  refine ⟨(portsGo_setPort s p f hu).trans (portsGo_of_eq (reply_ports _ _ _ _) (reply_scene _ _ _ _)),
    passesServed_of_none ?_⟩
  rw [reply_ports, setPort_ports, upd_same, hf]
  exact ht

theorem examine_examined (s : State) (p : Port) (i : Instr) (ht : s.ports[p].transit = none) :
    Examined p s (s.examine p i) := by
  unfold State.examine
  split
  · exact examined_reply ht _ _ _
  · exact examined_own ht (fun r => { r with events := 0 }) (fun _ => rfl) (fun _ => rfl) _ _ _
  · next mask =>
    unfold setEventMask State.checked
    split
    · exact examined_reply ht _ _ _
    · exact examined_own ht (fun r => { r with mask := (maskField mask).getD 0 }) (fun _ => rfl) (fun _ => rfl) _ _ _
  · split
    · split
      · exact examined_reply ht _ _ _
      · next hu =>
        refine ⟨portsGo_setPort s p _ fun _ => rfl, fun j hj hw => ?_⟩
        rw [setPort_ports, upd_same] at hj
        obtain rfl := Option.some.inj hj
        simpa [hw] using hu
    · exact ⟨PortsGo.refl p s, passesServed_of_none ht⟩

/-- A port has gone on: it has examined every request that waited, or one of them is in transit. -/
def WentOn (p : Port) (s t : State) : Prop := Examined p s t ∧ t.ports[p].inOrder

theorem wentOn_waiting {p : Port} {s t : State} (h : Examined p s t) (is : List Instr)
    (hw : t.ports[p].transit.isSome = true ∨ is = []) : WentOn p s (t.setPort p fun r => { r with waiting := is }) := by
  refine ⟨⟨h.1.trans (portsGo_setPort t p _ fun _ => rfl), fun j hj => ?_⟩, fun hn => ?_⟩
  · rw [setPort_ports, upd_same] at hj
    exact h.2 j hj
  · rw [setPort_ports, upd_same] at hn ⊢
    have hn' : t.ports[p].transit = none := hn
    rw [hn'] at hw
    simpa using hw

theorem examineAll_wentOn (p : Port) (is : List Instr) (s : State) (ht : s.ports[p].transit = none) :
    WentOn p s (State.examineAll p is s) := by
  induction is generalizing s with
  | nil => exact wentOn_waiting ⟨PortsGo.refl p s, passesServed_of_none ht⟩ [] (.inr rfl)
  | cons i is ih =>
    have he := examine_examined s p i ht
    rw [State.examineAll]
    split
    · next hsome => exact wentOn_waiting he is (.inl hsome)
    · next hnone =>
      obtain ⟨⟨k1, k2⟩, k3⟩ := ih (s.examine p i) (by simpa using hnone)
      refine ⟨⟨he.1.trans k1, fun j hj hw => k2 j hj ?_⟩, k3⟩
      unfold State.window at hw ⊢
      rw [he.1.2.2]
      exact hw

/-- A port goes on: the other ports stay, requests wait at it only behind one in transit, and what it passes on in
UNCONFIGURED is served there. -/
theorem goOn_portsGo (s : State) (p : Port) :
    PortsGo p s (s.goOn p) ∧ (s.goOn p).ports[p].inOrder ∧
      ∀ j, (s.goOn p).ports[p].transit = some j → s.ports[p].transit = some j ∨
        (s.window = .unconfigured → Instr.servedUnconfigured j = true) := by
  unfold State.goOn
  split
  · next h =>
    refine ⟨PortsGo.refl p s, fun hn => ?_, fun j hj => .inl hj⟩
    rw [hn] at h
    cases h
  · next h =>
    obtain ⟨⟨hgo, hserved⟩, hord⟩ := examineAll_wentOn p s.ports[p].waiting s (by simpa using h)
    exact ⟨hgo, hord, fun j hj => .inr (hserved j hj)⟩

/-- Every port is as it should be but that requests may wait at one, which is UP, with nothing in transit. -/
def State.goesOnAt (s : State) (p : Port) : Prop :=
  s.ports[p].up = true ∧ ∀ q : Port, s.ports[q].emptyDown ∧ (q ≠ p → s.ports[q].inOrder)

theorem State.hears.goesOnAt {s t : State} {p : Port} (h : s.hears t) (hs : s.goesOnAt p) : t.goesOnAt p :=
  ⟨(h.up p).trans hs.1, fun q => ⟨(h q).emptyDown (hs.2 q).1, fun hq => (h q).inOrder ((hs.2 q).2 hq)⟩⟩

theorem portsOk_goesOnAt {s : State} {p : Port} (hs : s.portsOk) (hu : s.ports[p].up = true) : s.goesOnAt p :=
  ⟨hu, fun q => ⟨(hs q).1, fun _ => (hs q).2⟩⟩

/-- A port that goes on puts its requests in order again. -/
theorem goOn_portsOk {s : State} {p : Port} (hs : s.goesOnAt p) : (s.goOn p).portsOk := by
  obtain ⟨⟨hother, hup, -⟩, hord, -⟩ := goOn_portsGo s p
  intro q
  by_cases hq : q = p
  · subst hq
    exact ⟨PortRec.emptyDown_of_up (hup.trans hs.1), hord⟩
  · rw [hother q hq]
    exact ⟨(hs.2 q).1, (hs.2 q).2 hq⟩

theorem taking_goesOnAt {s : State} {h : Hdr} (hs : s.portsOk) (hu : s.ports[h.port].up = true) :
    (s.taking h).goesOnAt h.port := by
  refine ⟨(taking_up s h _).trans hu, fun q => ?_⟩
  by_cases hq : q = h.port
  · subst hq
    exact ⟨PortRec.emptyDown_of_up ((taking_up s h _).trans hu), fun h' => absurd rfl h'⟩
  · rw [taking_other s h q (Ne.symm hq)]
    exact ⟨(hs q).1, fun _ => (hs q).2⟩

theorem wait_portsOk {s : State} {p : Port} (hs : s.portsOk) (ht : s.ports[p].transit.isSome = true) (i : Instr) :
    (s.wait p i).portsOk := by
  intro q
  by_cases hq : p = q
  · subst hq
    rw [wait_ports, upd_same]
    refine ⟨(hs p).1, fun hn => ?_⟩
    have hn' : s.ports[p].transit = none := hn
    rw [hn'] at ht
    cases ht
  · rw [wait_ports, upd_other _ _ _ _ hq]
    exact hs q

/-- A request that is served keeps the ports as they should be where its effect does. -/
theorem serve_portsOk {act : Caller → State → State} (ha : ∀ c s p, s.goesOnAt p → (act c s).goesOnAt p)
    (hok : ∀ c s, s.portsOk → (act c s).portsOk)
    (h : Hdr) (code : Byte) (self : Hdr → Instr) (any : Bool) {s : State} (hs : s.portsOk) :
    (serve h code self any act s).portsOk := by
  unfold serve
  dsimp only
  split
  · exact hs
  next hu =>
  have hup : s.ports[h.port].up = true := by simpa using hu
  cases h.stage
  case take =>
    dsimp only
    split
    · exact goOn_portsOk (ha _ _ _ (taking_goesOnAt hs hup))
    · exact hs
  case whole =>
    dsimp only
    split
    · next ht => exact wait_portsOk hs ht _
    split
    · exact portsOk_of_eq (reply_ports _ _ _ _) hs
    · exact hok _ _ hs
  case pass =>
    dsimp only
    split
    · next ht => exact wait_portsOk hs ht _
    split
    · exact portsOk_of_eq (reply_ports _ _ _ _) hs
    · intro q
      by_cases hq : h.port = q
      · subst hq
        rw [setPort_ports, upd_same]
        exact ⟨PortRec.emptyDown_of_up hup, fun hn => absurd hn (by simp)⟩
      · rw [setPort_ports, upd_other _ _ _ _ hq]
        exact hs q

theorem serveAtPort_portsOk {act : Caller → State → State}
    (ha : ∀ c s, s.ports[c.port].up = true → s.portsOk → (act c s).portsOk) (h : Hdr) (code : Byte)
    (self : Hdr → Instr) {s : State} (hs : s.portsOk) : (serveAtPort h code self act s).portsOk := by
  unfold serveAtPort
  dsimp only
  split
  · exact hs
  next hn =>
  split
  · next ht => exact wait_portsOk hs ht _
  · exact ha _ _ (by simp at hn; simpa using hn.1) hs

/-- A port that is UP is changed but for its requests. -/
theorem setPort_portsOk {s : State} {p : Port} {f : PortRec → PortRec} (hs : s.portsOk)
    (hf : (f s.ports[p]).emptyDown ∧ (f s.ports[p]).inOrder) : (s.setPort p f).portsOk := by
  intro q
  by_cases hq : p = q
  · subst hq
    rw [setPort_ports, upd_same]
    exact hf
  · rw [setPort_ports, upd_other _ _ _ _ hq]
    exact hs q

theorem mem_allPorts (q : Port) : q ∈ allPorts := by fin_cases q <;> decide

/-- Every port goes on: each has its requests in order again. -/
theorem goOnAll_portsOk {s : State} (hs : ∀ q : Port, s.ports[q].emptyDown ∧
    (s.ports[q].up = false → s.ports[q].waiting = [])) :
    s.goOnAll.portsOk ∧ ∀ q : Port, s.goOnAll.ports[q].up = s.ports[q].up := by
  have h : ∀ (l : List Port) (s : State), (∀ q : Port, s.ports[q].emptyDown ∧
      (s.ports[q].up = false → s.ports[q].waiting = []) ∧ (q ∉ l → s.ports[q].inOrder)) →
      (l.foldl State.goOn s).portsOk ∧ ∀ q : Port, (l.foldl State.goOn s).ports[q].up = s.ports[q].up := by
    intro l
    induction l with
    | nil => exact fun s hs => ⟨fun q => ⟨(hs q).1, (hs q).2.2 (by simp)⟩, fun _ => rfl⟩
    | cons p l ih =>
      intro s hs
      obtain ⟨⟨hother, hup, -⟩, hord, -⟩ := goOn_portsGo s p
      have hall : ∀ q : Port, (s.goOn p).ports[q].up = s.ports[q].up := fun q => by
        by_cases hq : q = p
        · subst hq; exact hup
        · rw [hother q hq]
      have hnext : ∀ q : Port, (s.goOn p).ports[q].emptyDown ∧
          ((s.goOn p).ports[q].up = false → (s.goOn p).ports[q].waiting = []) ∧
          (q ∉ l → (s.goOn p).ports[q].inOrder) := by
        intro q
        by_cases hq : q = p
        · subst hq
          cases hu : s.ports[q].up with
          | true =>
            have hup' := hup.trans hu
            exact ⟨PortRec.emptyDown_of_up hup', fun h' => absurd (hup'.symm.trans h') (by decide), fun _ => hord⟩
          | false =>
            rw [goOn_none ((hs q).2.1 hu)]
            exact ⟨(hs q).1, (hs q).2.1, fun _ _ => (hs q).2.1 hu⟩
        · rw [hother q hq]
          exact ⟨(hs q).1, (hs q).2.1, fun hl => (hs q).2.2 (by simp [hq, hl])⟩
      obtain ⟨k1, k2⟩ := ih (s.goOn p) hnext
      exact ⟨k1, fun q => (k2 q).trans (hall q)⟩
  exact h allPorts s fun q => ⟨(hs q).1, (hs q).2, fun hq => absurd (mem_allPorts q) hq⟩

/-- The ports once every block is reset, before they go on. -/
theorem resetBlocks_port (s : State) (q : Port) :
    s.resetBlocks.ports[q] = { s.ports[q] with events := 0, transit := none } := by
  simp [State.resetBlocks]

/-- RESET_WINDOW tells the ports of events alone where it is refused, and otherwise puts them all in order. -/
theorem resetWindow_ports (c : Caller) {s : State} (hs : ∀ q : Port, s.ports[q].emptyDown ∧
    (s.ports[q].up = false → s.ports[q].waiting = [])) :
    s.hears (resetWindow c s) ∨ (resetWindow c s).portsOk ∧
      ∀ q : Port, (resetWindow c s).ports[q].up = s.ports[q].up := by
  unfold resetWindow State.checked
  generalize firstFailure _ = f
  cases f with
  | some st => exact .inl (State.hears_of_eq (reply_ports _ _ _ _))
  | none =>
    refine .inr ?_
    dsimp only
    have hp : (allPorts.foldl State.cancelTransit (s.edit.queue.foldl (fun s e => s.reply e.caller .cancelled)
        s)).ports = s.ports :=
      (foldl_keeps (fun b : State => b.ports) _ (by simp) _ _).trans
        (foldl_keeps (fun b : State => b.ports) _ (by simp) _ _)
    generalize allPorts.foldl State.cancelTransit _ = u at hp ⊢
    have hh : u.resetBlocks.hears ((u.resetBlocks.grant.setWindow .unconfigured).reply c .ok) :=
      hears_then ((State.hears_of_eq (grant_frame _).1).trans (setWindow_hears _ _)) (reply_ports _ _ _ _)
    have hu : ∀ q : Port, u.resetBlocks.ports[q] = { s.ports[q] with events := 0, transit := none } := fun q => by
      rw [resetBlocks_port, hp]
    generalize (u.resetBlocks.grant.setWindow .unconfigured).reply c .ok = v at hh ⊢
    obtain ⟨k1, k2⟩ := goOnAll_portsOk (s := v) fun q => ⟨(hh q).emptyDown (by
        rw [hu q]
        exact fun hd => ⟨rfl, ((hs q).1 hd).2.1, rfl⟩),
      fun hd => by
        rw [hh.up q, hu q] at hd
        rw [hh.waiting q, hu q]
        exact (hs q).2 hd⟩
    exact ⟨k1, fun q => by rw [k2 q, hh.up q, hu q]⟩

theorem goesOnAt_down {s : State} {p : Port} (hs : s.goesOnAt p) (q : Port) :
    s.ports[q].emptyDown ∧ (s.ports[q].up = false → s.ports[q].waiting = []) := by
  refine ⟨(hs.2 q).1, fun hd => ?_⟩
  have hq : q ≠ p := fun h => absurd (hs.1.symm.trans (h ▸ hd)) (by decide)
  exact (hs.2 q).2 hq ((hs.2 q).1 hd).2.2

theorem portsOk_down {s : State} (hs : s.portsOk) (q : Port) :
    s.ports[q].emptyDown ∧ (s.ports[q].up = false → s.ports[q].waiting = []) :=
  ⟨(hs q).1, fun hd => (hs q).2 ((hs q).1 hd).2.2⟩

theorem resetWindow_goesOnAt {c : Caller} {s : State} {p : Port} (hs : s.goesOnAt p) :
    (resetWindow c s).goesOnAt p := by
  rcases resetWindow_ports c (goesOnAt_down hs) with h | ⟨h, hu⟩
  · exact h.goesOnAt hs
  · exact portsOk_goesOnAt h ((hu p).trans hs.1)

theorem resetWindow_portsOk {c : Caller} {s : State} (hs : s.portsOk) : (resetWindow c s).portsOk := by
  rcases resetWindow_ports c (portsOk_down hs) with h | ⟨h, -⟩
  · exact h.portsOk hs
  · exact h

theorem badRequest_portsOk (p : Port) (frame : List Byte) {s : State} (hs : s.portsOk) :
    (badRequest p frame s).portsOk := by
  unfold badRequest
  split
  · exact hs
  split
  · next ht => exact wait_portsOk hs ht _
  · exact portsOk_of_eq (reply_ports _ _ _ _) hs

theorem clientLinkUp_portsOk (p : Port) {s : State} (hs : s.portsOk) : (clientLinkUp p s).portsOk := by
  unfold clientLinkUp
  split
  · exact hs
  · exact setPort_portsOk hs ⟨PortRec.emptyDown_of_up rfl, fun _ => rfl⟩

theorem portLoss_ports (p : Port) (s : State) :
    (portLoss p s).ports = if s.ports[p].up then upd s.ports p fun r =>
      { r with up := false, events := 0, mask := 0, transit := none, waiting := [] } else s.ports := by
  unfold portLoss
  split
  · dsimp only
    rw [(loseInvoker_fold_frame _ _ _).1, (removeEditOf_frame _ _).1, (abortLoadsOf_frame _ _).1,
      (releaseZonesOf_frame _ _).1, setPort_ports]
  · rfl

theorem portLoss_portsOk (p : Port) {s : State} (hs : s.portsOk) : (portLoss p s).portsOk := by
  have hp := portLoss_ports p s
  split at hp
  · exact portsOk_of_eq hp (setPort_portsOk (f := fun r =>
      { r with up := false, events := 0, mask := 0, transit := none, waiting := [] }) hs
      ⟨fun _ => ⟨rfl, rfl, rfl⟩, fun _ => rfl⟩)
  · exact portsOk_of_eq hp hs

theorem getEvents_portsOk {c : Caller} {s : State} (hu : s.ports[c.port].up = true) (hs : s.portsOk) :
    (getEvents c s).portsOk :=
  portsOk_of_eq (reply_ports _ _ _ _)
    (setPort_portsOk hs ⟨PortRec.emptyDown_of_up hu, (hs c.port).2⟩)

theorem setEventMask_portsOk (mask : BitVec 16) {c : Caller} {s : State} (hu : s.ports[c.port].up = true)
    (hs : s.portsOk) : (setEventMask mask c s).portsOk := by
  unfold setEventMask State.checked
  split
  · exact portsOk_of_eq (reply_ports _ _ _ _) hs
  · exact portsOk_of_eq (reply_ports _ _ _ _)
      (setPort_portsOk hs ⟨PortRec.emptyDown_of_up hu, (hs c.port).2⟩)

theorem powerOnReset_portsOk (straps : Vector (BitVec 2) 4) (c : Caller) (s : State) :
    (atBlock (.powerOnReset straps) c s).portsOk := by
  intro q
  have h : (atBlock (.powerOnReset straps) c s).ports[q] = .initial (classOfStraps straps[q]) := by simp [atBlock]
  rw [h]
  exact ⟨fun _ => ⟨rfl, rfl, rfl⟩, fun _ => rfl⟩

/-- Every command keeps the ports as they should be. -/
theorem exec_portsOk {i : Instr} {s t : State} (h : exec i s = .next t) (hs : s.portsOk) : t.portsOk := by
  have hserve : ∀ (h : Hdr) (code : Byte) (self : Hdr → Instr) (any : Bool), changesPorts i = false →
      (serve h code self any (atBlock i) s).portsOk := fun h code self any hi =>
    serve_portsOk (fun c s p hp => (atBlock_hears i hi c s).goesOnAt hp)
      (fun c s hp => (atBlock_hears i hi c s).portsOk hp) h code self any hs
  have hevent : ∀ c, changesPorts i = false → (atBlock i c s).portsOk := fun c hi => (atBlock_hears i hi c s).portsOk hs
  cases i with
  | powerOnReset straps => cases h; exact powerOnReset_portsOk straps ⟨0, 0, 0⟩ s
  | badRequest p frame => cases h; exact badRequest_portsOk p frame hs
  | clientLinkUp p => cases h; exact clientLinkUp_portsOk p hs
  | portLoss p => cases h; exact portLoss_portsOk p hs
  | getEvents => cases h; exact serveAtPort_portsOk (fun c s => getEvents_portsOk) _ _ _ hs
  | setEventMask _ mask => cases h; exact serveAtPort_portsOk (fun c s => setEventMask_portsOk mask) _ _ _ hs
  | resetWindow =>
    cases h
    exact serve_portsOk (fun c s p => resetWindow_goesOnAt) (fun c s => resetWindow_portsOk) _ _ _ _ hs
  | tileLinkUp | tileLinkDown | frameAck | frameNak | trainEcho | unknownTileMessage | frameBoundary
  | refreshIntervalExpiry | attemptTimerExpiry | scanComplete | loadComplete | patchEditComplete | copyLineComplete
  | scrubComplete | refreshComplete | selfRefreshExit | entryCompletion | exitCompletion | deliveryReport | stateReport
  | fetchOrder | verdict | powerOnOrder | powerOffOrder | latchedCellAnnouncement =>
    cases h; exact hevent ⟨0, 0, 0⟩ rfl
  | _ => cases h; exact hserve _ _ _ _ rfl

theorem step_portsOk {s t : State} (h : step s = .next t) (hs : s.portsOk) : t.portsOk := by
  rcases step_cases h with rfl | ⟨i, rest, -, h⟩
  · exact hs
  · exact exec_portsOk h (portsOk_of_eq (s := s) rfl hs)

end Sys2Proof.Machine
end

