-- ==== Sys2Proof/Proofs/ClockLaws.lean ====
section
/-! The frame clock: only SET_EPOCH, CONFIGURE, a reset and the start of a frame change the frame number, the pending
epoch, the timer or the grid (R97, R98). -/

namespace Sys2Proof.Machine

/-- The frame number, the pending epoch, the timer and the grid are as before. -/
abbrev sameClock (s t : State) : Prop :=
  t.scene.frame = s.scene.frame ∧ t.scene.epoch = s.scene.epoch ∧ t.scene.timer = s.scene.timer ∧
    t.scene.grid = s.scene.grid

/-- The same, as a relation between states that is composed and not taken apart. -/
def keepsClock (s t : State) : Prop := sameClock s t

theorem keepsClock_refl (s : State) : keepsClock s s := ⟨rfl, rfl, rfl, rfl⟩

theorem keepsClock.trans {a b c : State} (h : keepsClock a b) (k : keepsClock b c) : keepsClock a c :=
  ⟨k.1.trans h.1, k.2.1.trans h.2.1, k.2.2.1.trans h.2.2.1, k.2.2.2.trans h.2.2.2⟩

theorem keepsClock_of_scene {s t : State} (h : t.scene = s.scene) : keepsClock s t := by
  simp [keepsClock, sameClock, h]

theorem keepsClock_foldl {α : Type} (f : State → α → State) (hf : ∀ s a, keepsClock s (f s a)) (l : List α)
    (s : State) : keepsClock s (l.foldl f s) := by
  induction l generalizing s with
  | nil => exact keepsClock_refl s
  | cons a l ih => exact (hf s a).trans (ih _)

/-! ### The stage: what the zones and the gates leave (R15, R96) -/

/-- An entry without its pins. -/
def Page.plan (p : Page) : Page := { p with pins := 0 }

/-- The directory without its pins. -/
def Directory.plan (d : Directory) : Directory := { d with pages := d.pages.map (·.map Page.plan) }

theorem setPage_plan (s : State) (pg : Handle) {f : Page → Page} (hf : ∀ p, (f p).plan = p.plan) :
    (s.setPage pg f).dir.plan = s.dir.plan := by
  unfold State.setPage Directory.plan
  simp only [modDir_dir, Directory.mk.injEq, and_true]
  refine Vector.ext fun i hi => ?_
  have hat := upd_at s.dir.pages (handleIndex pg) ⟨i, hi⟩ (·.map f)
  simp only [Fin.getElem_fin] at hat
  rw [Vector.getElem_map, Vector.getElem_map, hat]
  split
  · rw [Option.map_map]
    exact Option.map_congr fun p _ => hf p
  · rfl

@[simp] theorem pin_plan (s : State) (pg : Handle) : (s.pin pg).dir.plan = s.dir.plan := by
  unfold State.pin
  split
  · rfl
  · exact setPage_plan s pg fun p => rfl

@[simp] theorem unpin_plan (s : State) (pg : Handle) : (s.unpin pg).dir.plan = s.dir.plan := by
  unfold State.unpin
  split
  · rfl
  · exact setPage_plan s pg fun p => rfl

@[simp] theorem pinScene_plan (s : State) (sc : Scene) : (s.pinScene sc).dir.plan = s.dir.plan :=
  foldl_keeps (·.dir.plan) _ (fun b x => pin_plan b x.page) sc s

@[simp] theorem unpinScene_plan (s : State) (sc : Scene) : (s.unpinScene sc).dir.plan = s.dir.plan :=
  foldl_keeps (·.dir.plan) _ (fun b x => unpin_plan b x.page) sc s

/-- The clock, the window and the directory but for its pins are as before. -/
abbrev sameStage (s t : State) : Prop :=
  sameClock s t ∧ t.scene.window = s.scene.window ∧ t.dir.plan = s.dir.plan

/-- The same, as a relation between states that is composed and not taken apart. -/
def keepsStage (s t : State) : Prop := sameStage s t

theorem keepsStage.clock {s t : State} (h : keepsStage s t) : keepsClock s t := h.1

theorem keepsStage_refl (s : State) : keepsStage s s := ⟨keepsClock_refl s, rfl, rfl⟩

theorem keepsStage.trans {a b c : State} (h : keepsStage a b) (k : keepsStage b c) : keepsStage a c :=
  ⟨keepsClock.trans h.1 k.1, k.2.1.trans h.2.1, k.2.2.trans h.2.2⟩

theorem keepsStage_of_scene {s t : State} (h : t.scene = s.scene ∧ t.dir = s.dir) : keepsStage s t := by
  simp [keepsStage, sameStage, sameClock, h]

theorem keepsStage_foldl {α : Type} (f : State → α → State) (hf : ∀ s a, keepsStage s (f s a)) (l : List α)
    (s : State) : keepsStage s (l.foldl f s) := by
  induction l generalizing s with
  | nil => exact keepsStage_refl s
  | cons a l ih => exact (hf s a).trans (ih _)

@[simp] theorem setWindow_clock (s : State) (w : WindowState) : sameClock s (s.setWindow w) := by
  simp [sameClock, State.setWindow]

@[simp] theorem takeEnds_clock (s : State) (f : EndReports → EndReports) : sameClock s (s.takeEnds f) := by
  unfold State.takeEnds
  (repeat' split) <;> simp [*, sameClock]

@[simp] theorem reportEditsEnded_clock (s : State) : sameClock s (s.reportEditsEnded) := by
  unfold State.reportEditsEnded
  (repeat' split) <;> simp [*, sameClock]

@[simp] theorem endEdits_clock (s : State) : sameClock s (s.endEdits) := by
  have h : keepsClock s s.endEdits := by
    unfold State.endEdits
    refine keepsClock.trans (b := s.modEdit fun u => { u with endAsked := true }) (keepsClock_refl s) ?_
    refine keepsClock.trans (keepsClock_foldl _ (fun s e => ?_) _ _) (reportEditsEnded_clock _)
    split <;> simp [keepsClock, sameClock]
  exact h

@[simp] theorem patchDone_clock (s : State) (n : Nat) : sameClock s (s.patchDone n) := by
  unfold State.patchDone
  (repeat' split) <;> simp [*, sameClock]

@[simp] theorem copyMoved_clock (s : State) : sameClock s (s.copyMoved) := by
  unfold State.copyMoved
  split
  · dsimp only
    split <;> simp [sameClock]
  · exact keepsClock_refl s

@[simp] theorem copyStopped_clock (s : State) : sameClock s (s.copyStopped) := by
  unfold State.copyStopped
  (repeat' split) <;> simp [*, sameClock]

@[simp] theorem logCut_stage (s : State) (z : ZoneId) (c : Cut) (o : CutOutcome) : sameStage s (s.logCut z c o) := by
  simp [sameStage, sameClock, State.logCut]

@[simp] theorem takeCut_stage (s : State) (z : ZoneId) (c : Cut) : sameStage s (s.takeCut z c) := by
  simp [sameStage, sameClock, State.takeCut]

@[simp] theorem loseCut_stage (s : State) (z : ZoneId) (o : CutOutcome) (c : Cut) : sameStage s (s.loseCut z o c) := by
  simp [sameStage, sameClock, State.loseCut]

@[simp] theorem disarm_stage (s : State) (z : ZoneId) : sameStage s (s.disarm z) := by
  simp [sameStage, sameClock, State.disarm]

@[simp] theorem moveTile_stage (s : State) (z : ZoneId) (into : Bool) (t : Tile) : sameStage s (s.moveTile z into t) := by
  unfold State.moveTile
  dsimp only
  (repeat' split) <;> simp [*, sameStage, sameClock]

@[simp] theorem reshape_stage (s : State) (z : ZoneId) (r : Option Rect) : sameStage s (s.reshape z r) := by
  have h : keepsStage s (s.reshape z r) := by
    unfold State.reshape
    refine keepsStage.trans (b := s.setZone z fun zn => { zn with rect := r }) (by simp [keepsStage, sameStage, sameClock])
      (keepsStage_foldl _ (fun s t => ?_) _ _)
    split
    · dsimp only
      split
      · exact keepsStage_refl s
      · exact moveTile_stage s z _ t
    · exact keepsStage_refl s
  exact h

@[simp] theorem passZone_stage (s : State) (z : ZoneId) (p : Port) : sameStage s (s.passZone z p) := by
  simp [sameStage, sameClock, State.passZone]

@[simp] theorem releaseZone_stage (s : State) (z : ZoneId) : sameStage s (s.releaseZone z) := by
  have h : keepsStage s (s.releaseZone z) := by
    unfold State.releaseZone
    exact keepsStage.trans (b := s.setZone z _) (by simp [keepsStage, sameStage, sameClock])
      (keepsStage_foldl _ (fun s c => loseCut_stage s z .discarded c) _ _)
  exact h

@[simp] theorem takeDelivery_stage (s : State) (t : Tile) (n : Nat) : sameStage s (s.takeDelivery t n) := by
  unfold State.takeDelivery
  (repeat' split) <;> simp [*, sameStage, sameClock]

@[simp] theorem leaveStep_stage (s : State) (t : Tile) : sameStage s (s.leaveStep t) := by
  unfold State.leaveStep
  (repeat' split) <;> simp [*, sameStage, sameClock]

@[simp] theorem takeStateReport_stage (s : State) (t : Tile) (st : TileState) : sameStage s (s.takeStateReport t st) := by
  unfold State.takeStateReport
  dsimp only
  (repeat' split) <;> simp [*, sameStage, sameClock]

@[simp] theorem useGate_stage (s : State) (g : GateId) (u : GateUse) : sameStage s (s.useGate g u) := by
  simp [sameStage, sameClock, State.useGate]

@[simp] theorem freeGate_stage (s : State) (g : GateId) (p : Port) (e : Event) : sameStage s (s.freeGate g p e) := by
  simp [sameStage, sameClock, State.freeGate]

@[simp] theorem loseInvoker_stage (s : State) (p : Port) (z : ZoneId) : sameStage s (s.loseInvoker p z) := by
  unfold State.loseInvoker
  dsimp only
  (repeat' split) <;> simp [*, sameStage, sameClock]

@[simp] theorem setChange_stage (s : State) (k : ChangeKind) (p : Byte) (f : BitVec 48) : sameStage s (s.setChange k p f) := by
  simp [sameStage, sameClock, State.setChange]

@[simp] theorem showCut_stage (s : State) (z : ZoneId) : sameStage s (s.showCut z) := by
  unfold State.showCut
  (repeat' split) <;> simp [*, sameStage, sameClock]

@[simp] theorem showGate_stage (s : State) (z : ZoneId) (g : GateId) (p : Port) : sameStage s (s.showGate z g p) := by
  unfold State.showGate
  (repeat' split) <;> simp [*, sameStage, sameClock]

@[simp] theorem dropContext_stage (s : State) (x : Context) : sameStage s (s.dropContext x) := by
  unfold State.dropContext
  dsimp only
  (repeat' split) <;> simp [*, sameStage, sameClock]

@[simp] theorem showReturn_stage (s : State) (z : ZoneId) : sameStage s (s.showReturn z) := by
  unfold State.showReturn
  (repeat' split) <;> simp [*, sameStage, sameClock]

@[simp] theorem showArmed_stage (s : State) (z : ZoneId) : sameStage s (s.showArmed z) := by
  unfold State.showArmed
  (repeat' split) <;> simp [*, sameStage, sameClock]

@[simp] theorem countDown_stage (s : State) (z : ZoneId) : sameStage s (s.countDown z) := by
  simp [sameStage, sameClock, State.countDown]

@[simp] theorem dropReleased_stage (s : State) (z : ZoneId) : sameStage s (s.dropReleased z) := by
  unfold State.dropReleased
  (repeat' split) <;> simp [*, sameStage, sameClock]

@[simp] theorem zoneVerdict_stage (s : State) (z : ZoneId) : sameStage s (s.zoneVerdict z) := by
  unfold State.zoneVerdict
  dsimp only
  (repeat' split) <;> simp [*, sameStage, sameClock]

@[simp] theorem unarmEarly_stage (s : State) (z : ZoneId) : sameStage s (s.unarmEarly z) := by
  unfold State.unarmEarly
  (repeat' split) <;> simp [*, sameStage, sameClock]

@[simp] theorem abandonCut_stage (s : State) (z : ZoneId) (c : Cut) : sameStage s (s.abandonCut z c) := by
  simp [sameStage, sameClock, State.abandonCut]

@[simp] theorem skipCut_stage (s : State) (z : ZoneId) (c : Cut) : sameStage s (s.skipCut z c) := by
  simp [sameStage, sameClock, State.skipCut]

@[simp] theorem clearArmed_stage (s : State) (z : ZoneId) : sameStage s (s.clearArmed z) := by
  unfold State.clearArmed
  (repeat' split) <;> simp [*, sameStage, sameClock]

@[simp] theorem armPending_stage (s : State) (z : ZoneId) : sameStage s (s.armPending z) := by
  unfold State.armPending
  (repeat' split) <;> simp [*, sameStage, sameClock]

@[simp] theorem armExpired_stage (s : State) (z : ZoneId) : sameStage s (s.armExpired z) := by
  unfold State.armExpired
  dsimp only
  (repeat' split) <;> simp [*, sameStage, sameClock]

@[simp] theorem takeUnseen_stage (s : State) (z : ZoneId) (c : Cut) : sameStage s (s.takeUnseen z c) := by
  unfold State.takeUnseen
  dsimp only
  (repeat' split) <;> simp [*, sameStage, sameClock]

@[simp] theorem skipDue_stage (s : State) (z : ZoneId) : sameStage s (s.skipDue z).1 :=
  (keepsStage_foldl _ (fun s c => skipCut_stage s z c) _ s : keepsStage _ _)

theorem skipDue_keepsStage {s u : State} {z : ZoneId} {c : Option Cut} (h : s.skipDue z = (u, c)) :
    keepsStage s u := by
  have hd := skipDue_stage s z
  rw [h] at hd
  exact hd

@[simp] theorem settleDue_stage (s : State) (z : ZoneId) : sameStage s (s.settleDue z) := by
  have h : keepsStage s (s.settleDue z) := by
    unfold State.settleDue
    split
    · exact keepsStage_refl s
    · split
      · next h => exact skipDue_keepsStage h
      · next h =>
        refine (skipDue_keepsStage h).trans ?_
        repeat' split
        all_goals simp [keepsStage, sameStage, sameClock]
  exact h

@[simp] theorem checkArmed_stage (s : State) (z : ZoneId) : sameStage s (s.checkArmed z).1 := by
  unfold State.checkArmed
  dsimp only
  (repeat' split) <;> simp [sameStage, sameClock]

theorem sendOrders_keepsStage (s : State) (c : Ctx) (n : Nat) (src : Tile → Source) (enter : State → Tile → State)
    (he : ∀ s t, keepsStage s (enter s t)) : keepsStage s (s.sendOrders c n src enter) := by
  refine keepsStage_foldl _ (fun s t => ?_) _ s
  split
  · split
    · exact keepsStage_of_scene ⟨rfl, rfl⟩
    · exact keepsStage_of_scene ⟨rfl, rfl⟩
    · refine keepsStage.trans (b := s.modScene fun e => { e with reported := upd e.reported t fun _ => some .inStep })
        (by simp [keepsStage, sameStage, sameClock]) ((he _ t).trans (keepsStage_of_scene ⟨rfl, rfl⟩))
    · exact keepsStage_refl s
  · exact keepsStage_refl s

theorem orderFetch_keepsStage (s : State) (z : ZoneId) (a : Bool) (sc : Scene) (n : Nat) :
    keepsStage s (s.orderFetch z a sc n) := by
  unfold State.orderFetch
  exact keepsStage.trans (b := s.setZone z _) (by simp [keepsStage, sameStage, sameClock])
    (sendOrders_keepsStage _ _ _ _ _ fun s t => by simp [keepsStage, sameStage, sameClock])

@[simp] theorem orderFetch_stage (s : State) (z : ZoneId) (a : Bool) (sc : Scene) (n : Nat) :
    sameStage s (s.orderFetch z a sc n) := orderFetch_keepsStage s z a sc n

@[simp] theorem zoneChoice_stage (s : State) (z : ZoneId) : sameStage s (s.zoneChoice z) := by
  have hs : keepsStage s ((((s.clearArmed z).armPending z).armExpired z).settleDue z) := by
    simp [keepsStage, sameStage, sameClock]
  have h : keepsStage s (s.zoneChoice z) := by
    unfold State.zoneChoice
    dsimp only
    generalize (((s.clearArmed z).armPending z).armExpired z).settleDue z = t at hs ⊢
    have hc : keepsStage t (t.checkArmed z).1 := checkArmed_stage t z
    rcases hk : t.checkArmed z with ⟨u, r⟩
    rw [hk] at hc
    rcases r with _ | ⟨sc, origin⟩
    · exact (hs.trans hc).trans (orderFetch_keepsStage u z false _ _)
    · exact (hs.trans hc).trans (orderFetch_keepsStage u z true sc origin)
  exact h

theorem judged_stage (s : State) (e : Bool) (z : ZoneId) : keepsStage s (s.judged e z) := by
  unfold State.judged
  split <;> simp [keepsStage, sameStage, sameClock]

@[simp] theorem zoneLit_stage (s : State) (e : Bool) (z : ZoneId) : sameStage s (s.zoneLit e z) := by
  have h : keepsStage s (s.zoneLit e z) := by
    have h := judged_stage s e z
    rw [zoneLit_eq]
    generalize s.judged e z = t at h ⊢
    split
    · exact h.trans (by simp [keepsStage, sameStage, sameClock])
    · exact h.trans (zoneChoice_stage _ _)
  exact h

@[simp] theorem zoneDark_stage (s : State) (z : ZoneId) : sameStage s (s.zoneDark z) := by
  have h : keepsStage s (s.zoneDark z) := by
    have h0 : keepsStage s (s.setZone z fun zn => { zn with fetch := none, delivered := 0 }) := by
      simp [keepsStage, sameStage, sameClock]
    unfold State.zoneDark
    dsimp only
    generalize s.setZone z _ = t at h0 ⊢
    split
    · exact h0
    · split
      · next h => exact h0.trans (skipDue_keepsStage h)
      · next h => exact (h0.trans (skipDue_keepsStage h)).trans (takeUnseen_stage _ _ _)
  exact h

/-- The verdicts of the background on its fetch in progress (R85). -/
def State.tellBackground (s : State) : State :=
  match s.scene.background.fetch with
  | some n =>
    s.sendVerdicts .background s.scene.background.inStep s.scene.background.delivered fun d =>
      if d then .showFrame n else .repeatFrame
  | none => s

theorem backgroundLit_eq (s : State) :
    s.backgroundLit =
      if s.tellBackground.scene.frame = maxFrame then
        s.tellBackground.modBackground fun b => { b with fetch := none }
      else
        (s.tellBackground.modBackground fun b =>
          { b with fetch := some (s.tellBackground.scene.frame + 1), delivered := 0 }).sendOrders .background
          (s.tellBackground.scene.frame + 1) (fun _ => .pattern 0) fun s t =>
          s.modBackground fun b => { b with inStep := insertBit b.inStep t.val } := rfl

@[simp] theorem tellBackground_scene (s : State) :
    s.tellBackground.scene = s.scene ∧ s.tellBackground.dir = s.dir := by
  unfold State.tellBackground
  split <;> simp

theorem modBackground_keepsStage (s : State) (f : Background → Background) : keepsStage s (s.modBackground f) := by
  simp [keepsStage, sameStage, sameClock, State.modBackground]

@[simp] theorem backgroundLit_stage (s : State) : sameStage s s.backgroundLit := by
  have h : keepsStage s s.backgroundLit := by
    rw [backgroundLit_eq]
    have hs : keepsStage s s.tellBackground := keepsStage_of_scene (tellBackground_scene s)
    generalize s.tellBackground = t at hs ⊢
    split
    · exact hs.trans (modBackground_keepsStage _ _)
    · exact hs.trans ((modBackground_keepsStage _ _).trans
        (sendOrders_keepsStage _ _ _ _ _ fun s i => modBackground_keepsStage _ _))
  exact h

@[simp] theorem unwind_stage (s : State) (z : ZoneId) : sameStage s (s.unwind z) := by
  have h : keepsStage s (s.unwind z) := by
    unfold State.unwind
    dsimp only
    split
    · exact keepsStage_refl s
    · next bottom above _ =>
      exact keepsStage.trans (keepsStage_foldl _ dropContext_stage ((s.zone z).current :: above.reverse) s)
        (by simp [keepsStage, sameStage, sameClock])
  exact h

@[simp] theorem dropArmed_stage (s : State) (z : ZoneId) : sameStage s (s.dropArmed z) := by
  unfold State.dropArmed
  (repeat' split) <;> simp [sameStage, sameClock]

@[simp] theorem dropPending_stage (s : State) (z : ZoneId) : sameStage s (s.dropPending z) := by
  unfold State.dropPending
  dsimp only
  (repeat' split) <;> simp [sameStage, sameClock]

@[simp] theorem windBack_stage (s : State) (z : ZoneId) : sameStage s (s.windBack z) := by
  simp [sameStage, sameClock, State.windBack]

@[simp] theorem darkEntry_clock (s : State) : sameClock s s.darkEntry := by
  have hz : keepsClock s (allZones.foldl State.windBack ((s.modScene fun e => { e with change := none }).setWindow
      .darkening)) :=
    keepsClock.trans (b := (s.modScene fun e => { e with change := none }).setWindow .darkening)
      (by simp [keepsClock, sameClock]) (keepsClock_foldl _ (fun s z => (windBack_stage s z).1) _ _)
  have h : keepsClock s s.darkEntry := by
    unfold State.darkEntry
    dsimp only
    generalize allZones.foldl State.windBack _ = t at hz ⊢
    refine keepsClock.trans ?_ (keepsClock_foldl (fun (s : State) i => s.toUnit i .powerOff)
      (fun s i => keepsClock_of_scene rfl) allTiles _)
    refine hz.trans (keepsClock.trans ?_ (endEdits_clock _))
    simp [keepsClock, sameClock, State.modBackground]
  exact h

@[simp] theorem wakeEntry_clock (s : State) : sameClock s s.wakeEntry := by
  simp [sameClock, State.wakeEntry]

@[simp] theorem takeChange_clock (s : State) : sameClock s s.takeChange := by
  unfold State.takeChange
  dsimp only
  (repeat' split) <;> simp [sameClock]

end Sys2Proof.Machine
end

