-- ==== Sys2Proof/Proofs/Counters.lean ====
section
/-! The small laws of the state that every step keeps: the power lines of the units, the bounds of the frame numbers, and
the edit queue with one edit of each port (R68, R97, R98, R141). -/

set_option linter.unusedTactic false
set_option linter.unusedSimpArgs false
set_option linter.unreachableTactic false
set_option linter.unnecessarySeqFocus false

namespace Sys2Proof.Machine

/-! ### The frame numbers (R97, R98) -/

/-- The commands that set the frame number, the pending epoch, the timer or the grid. -/
def setsClock : Instr → Bool
  | .powerOnReset _ | .configure _ _ _ _ _ _ _ _ | .resetWindow _ | .setEpoch _ _ | .frameBoundary => true
  | _ => false

theorem portLoss_keepsClock (p : Port) (s : State) : keepsClock s (portLoss p s) := by
  unfold portLoss
  split
  · dsimp only
    have hz : keepsClock s ((s.setPort p fun r =>
        { r with up := false, events := 0, mask := 0, transit := none, waiting := [] }).releaseZonesOf p) := by
      refine keepsClock.trans (keepsClock_of_scene (setPort_scene s p _)) (keepsClock_foldl _ (fun s z => ?_) _ _)
      split
      · exact (releaseZone_stage s z).1
      · exact keepsClock_refl s
    generalize State.releaseZonesOf _ p = t at hz ⊢
    refine hz.trans (keepsClock.trans ?_ (keepsClock_foldl _ (fun s z => (loseInvoker_stage s p z).1) _ _))
    unfold State.removeEditOf
    split <;> simp [keepsClock, sameClock]
  · exact keepsClock_refl s

theorem patchEditComplete_keepsClock (errors : BitErrors) (s : State) :
    keepsClock s (patchEditComplete errors s) := by
  unfold patchEditComplete
  dsimp only
  (repeat' split) <;> simp [keepsClock, sameClock]

theorem copyLineComplete_keepsClock (errors : BitErrors) (s : State) :
    keepsClock s (copyLineComplete errors s) := by
  unfold copyLineComplete
  split
  · split
    · simp [keepsClock, sameClock]
    · split
      · generalize patternLine _ _ = ws
        dsimp only
        split <;> simp [keepsClock, sameClock]
      · dsimp only
        (repeat' split) <;> simp [keepsClock, sameClock]
  · exact keepsClock_refl s

theorem atBlock_keepsClock (i : Instr) (hi : setsClock i = false) (c : Caller) (s : State) :
    keepsClock s (atBlock i c s) := by
  have hchecked : ∀ (ts : List Test) (act : State → State) (b : Body), keepsClock s (act s) →
      keepsClock s (s.checked c ts act b) := fun ts act b h => by
    unfold State.checked
    split
    · simp [keepsClock, sameClock]
    · exact h
  cases i with
  | powerOnReset | configure | resetWindow | setEpoch | frameBoundary => cases hi
  | portLoss p => exact portLoss_keepsClock p s
  | patchEditComplete errors => exact patchEditComplete_keepsClock errors s
  | copyLineComplete errors => exact copyLineComplete_keepsClock errors s
  | darken => exact hchecked _ _ _ (by simp [keepsClock, sameClock])
  | wake => exact hchecked _ _ _ (by simp [keepsClock, sameClock])
  | setZone | seizeZone | queueCut | defineGate =>
    refine hchecked _ _ _ ?_
    dsimp only
    (repeat' split) <;> simp [keepsClock, sameClock]
  | claimZone | releaseZone | handOver | withdrawCut | clearGate | invokeGate | returnGate =>
    refine hchecked _ _ _ ?_
    (repeat' split) <;> simp [keepsClock, sameClock]
  | entryCompletion =>
    simp only [atBlock, entryCompletion]
    split <;> simp [keepsClock, sameClock]
  | exitCompletion =>
    simp only [atBlock, exitCompletion]
    (repeat' split) <;> simp [keepsClock, sameClock]
  | deliveryReport t =>
    simp only [atBlock, deliveryReport]
    split <;> simp [keepsClock, sameClock]
  | stateReport t =>
    simp only [atBlock, stateReport]
    split <;> simp [keepsClock, sameClock]
  | _ => exact keepsClock_of_scene (by simp [atBlock])

theorem frameOk_of_clock {s t : State} (h : keepsClock s t) (hs : s.frameOk) : t.frameOk := by
  obtain ⟨hf, he, -⟩ := h
  unfold State.frameOk
  rw [hf, he]
  exact hs

theorem frameOk_initial {s : State} (h : s.scene = .initial) : s.frameOk := by
  unfold State.frameOk
  rw [h]
  exact ⟨by decide, fun n hn => by cases hn⟩

theorem setEpoch_frameOk (frame : BitVec 48) (c : Caller) {s : State} (hs : s.frameOk) :
    (setEpoch frame c s).frameOk := by
  unfold setEpoch State.checked
  split
  · exact frameOk_of_clock (keepsClock_of_scene (by simp)) hs
  · refine frameOk_of_clock (keepsClock_of_scene (reply_scene _ _ _ _)) ⟨hs.1, fun n hn => ?_⟩
    obtain rfl := Option.some.inj hn
    exact frame.isLt

theorem optionalFrame_lt (presence : Byte) (frame : BitVec 48) : (optionalFrame presence frame).getD 0 < 2 ^ 48 := by
  unfold optionalFrame
  split
  · exact frame.isLt
  · decide

theorem configure_frameOk (rate : Byte) (slots : BitVec 16) (cols rows : Byte) (positions : Vector Byte 16)
    (presence : Byte) (start : BitVec 48) (c : Caller) {s : State} (hs : s.frameOk) :
    (configure rate slots cols rows positions presence start c s).frameOk := by
  unfold configure State.checked
  split
  · exact frameOk_of_clock (keepsClock_of_scene (by simp)) hs
  · dsimp only
    refine frameOk_of_clock (keepsClock_of_scene (reply_scene _ _ _ _)) (frameOk_of_clock
      (keepsClock_of_scene (powerOnBound_frame _).2.2.2.2.2.1) (frameOk_of_clock (setWindow_clock _ .lit) ⟨?_, ?_⟩))
    · exact optionalFrame_lt presence start
    · intro n hn; cases hn

theorem resetWindow_frameOk (c : Caller) {s : State} (hs : s.frameOk) : (resetWindow c s).frameOk := by
  unfold resetWindow State.checked
  split
  · exact frameOk_of_clock (keepsClock_of_scene (by simp)) hs
  · dsimp only
    generalize allPorts.foldl State.cancelTransit _ = u
    refine frameOk_of_clock (s := u.resetBlocks) (keepsClock.trans (keepsClock.trans (keepsClock_of_scene
      (grant_frame _).2.2.2.2.1) (setWindow_clock _ .unconfigured)) (keepsClock_of_scene (by simp)))
      (frameOk_initial rfl)

theorem nextFrame_lt {s : State} (hs : s.frameOk) : s.scene.nextFrame < 2 ^ 48 := by
  unfold SceneEngine.nextFrame
  cases he : s.scene.epoch with
  | some n => exact hs.2 n he
  | none => exact (Nat.min_le_right _ _).trans_lt (by decide)

theorem frameBoundary_frameOk {s : State} (hs : s.frameOk) : (frameBoundary s).frameOk := by
  unfold frameBoundary
  dsimp only
  split
  · have h0 : ((s.send .sync).modScene fun e => { e with frame := e.nextFrame, epoch := none }).frameOk :=
      ⟨nextFrame_lt hs, fun n hn => by cases hn⟩
    generalize (s.send .sync).modScene _ = u at h0 ⊢
    have hv : u.takeChange.frameOk := frameOk_of_clock (takeChange_clock u) h0
    generalize u.takeChange = v at hv ⊢
    refine frameOk_of_clock (keepsClock_of_scene (modMail_scene _ _)) ?_
    split
    · exact frameOk_of_clock (backgroundLit_stage _).1
        (frameOk_of_clock (keepsClock_foldl _ (fun s z => (zoneLit_stage s _ z).1) allZones v) hv)
    · exact frameOk_of_clock (modBackground_keepsStage _ _).1
        (frameOk_of_clock (keepsClock_foldl _ (fun s z => (zoneDark_stage s z).1) allZones v) hv)
  · exact hs

theorem atBlock_frameOk (i : Instr) (c : Caller) {s : State} (hs : s.frameOk) : (atBlock i c s).frameOk := by
  by_cases hi : setsClock i = false
  · exact frameOk_of_clock (atBlock_keepsClock i hi c s) hs
  · cases i with
    | powerOnReset => exact frameOk_initial rfl
    | configure => exact configure_frameOk _ _ _ _ _ _ _ c hs
    | resetWindow => exact resetWindow_frameOk c hs
    | setEpoch => exact setEpoch_frameOk _ c hs
    | frameBoundary => exact frameBoundary_frameOk hs
    | _ => exact absurd rfl hi

/-! ### The power lines (R141) -/

/-- The power-enable line of a unit follows its state. -/
def TileUnit.powerLine (u : TileUnit) : Prop := u.power = decide (u.state ≠ .off ∧ u.state ≠ .lost)

theorem powerOk_of_units {s t : State} (h : t.units = s.units) (hs : s.powerOk) : t.powerOk := by
  unfold State.powerOk
  rw [h]
  exact hs

theorem powerOk_upd {s t : State} {i : Tile} {f : TileUnit → TileUnit} (hs : s.powerOk)
    (h : t.units = upd s.units i f) (hf : s.units[i].powerLine → (f s.units[i]).powerLine := by exact fun h => h) :
    t.powerOk := by
  intro j
  rw [h, upd_at]
  split
  · next hij => subst hij; exact hf (hs i)
  · exact hs j

theorem powered_line (u : TileUnit) (st : TileState) (h : u.state = st) (hp : u.power = st.powered) :
    u.powerLine := by
  rw [TileUnit.powerLine, hp, h]
  cases st <;> rfl

theorem become_powerOk (t : Tile) (st : TileState) {s : State} (hs : s.powerOk) : (s.become t st).powerOk :=
  powerOk_upd hs (by rw [become_eq]) (by exact fun _ => powered_line _ st rfl rfl)

theorem setUnit_powerOk (t : Tile) {f : TileUnit → TileUnit} {s : State} (hs : s.powerOk)
    (hf : ∀ u, (f u).power = u.power ∧ (f u).state = u.state := by exact fun _ => ⟨rfl, rfl⟩) :
    (s.setUnit t f).powerOk :=
  powerOk_upd hs (setUnit_units s t f) fun h => by
    rw [TileUnit.powerLine, (hf _).1, (hf _).2]
    exact h

theorem abandonFetch_powerOk (t : Tile) {s : State} (hs : s.powerOk) : (s.abandonFetch t).powerOk :=
  powerOk_upd hs (by rw [abandonFetch_eq])

theorem beginAttempt_powerOk (t : Tile) {s : State} (hs : s.powerOk) : (s.beginAttempt t).powerOk :=
  powerOk_upd hs (by rw [beginAttempt_eq])

theorem stopTraining_powerOk (t : Tile) {s : State} (hs : s.powerOk) : (s.stopTraining t).powerOk :=
  powerOk_upd hs (by rw [stopTraining_eq])

theorem startTraining_powerOk (t : Tile) {s : State} (hs : s.powerOk) : (s.startTraining t).powerOk :=
  powerOk_upd hs (by rw [startTraining_eq]) (by exact fun _ => powered_line _ .training rfl rfl)

theorem failAttempt_powerOk (t : Tile) {s : State} (hs : s.powerOk) : (s.failAttempt t).powerOk := by
  by_cases h : s.units[t].attempts < 2
  · exact powerOk_upd hs (by rw [failAttempt_next h])
  · exact powerOk_upd hs (by rw [failAttempt_last (by omega)]) (by exact fun _ => powered_line _ .lost rfl rfl)

theorem sendLine_powerOk (t : Tile) (f : UnitFetch) (ws : List Word) {s : State} (hs : s.powerOk) :
    (s.sendLine t f ws).powerOk :=
  powerOk_upd hs (by rw [sendLine_eq])

theorem requestScan_powerOk (t : Tile) {s : State} (hs : s.powerOk) : (s.requestScan t).powerOk :=
  powerOk_upd hs (by simp [State.requestScan]; rfl)

theorem linesSent_powerOk (t : Tile) (frame : Nat) (src : Source) (lines : Nat → List Word) (k : Nat) {s : State}
    (hs : s.powerOk) : (linesSent s t frame src lines k).powerOk :=
  powerOk_upd hs (by rw [linesSent])

theorem beginFetch_powerOk (t : Tile) (frame : Nat) (src : Source) {s : State} (hs : s.powerOk) :
    (s.beginFetch t frame src).powerOk := by
  cases src with
  | pattern p =>
    rw [beginFetch_pattern]
    exact linesSent_powerOk _ _ _ _ _ (powerOk_of_units rfl hs)
  | slot pg n =>
    have hb : (fetchBegun s t frame (.slot pg n)).powerOk := linesSent_powerOk _ _ _ _ _ (powerOk_of_units rfl hs)
    rw [beginFetch_slot]
    split
    · exact hb
    · exact requestScan_powerOk t hb

theorem takeOrder_powerOk (t : Tile) (n : Nat) (src : Source) (adm : Bool) {s : State} (hs : s.powerOk) :
    (s.takeOrder t n src adm).powerOk := by
  by_cases h : judging s.units[t]
  · rw [takeOrder_judging h]
    refine beginFetch_powerOk _ _ _ ?_
    unfold stepAdmitted
    split
    · exact become_powerOk t _ (setUnit_powerOk t hs)
    · exact hs
  · rw [takeOrder_discarded h]
    exact hs

theorem takeVerdict_powerOk (t : Tile) (v : VerdictKind) (d : Bool) {s : State} (hs : s.powerOk) :
    (s.takeVerdict t v d).powerOk := by
  unfold State.takeVerdict
  cases hst : s.units[t].state with
  | off | training | lost => exact hs
  | joining => exact powerOk_of_units rfl hs
  | inStep =>
    dsimp only
    rw [countVerdict_eq]
    split
    · exact powerOk_upd (i := t) hs (by dsimp only)
    · exact powerOk_upd (i := t) hs (by dsimp only) (by exact fun _ => powered_line _ .lagging rfl rfl)
  | lagging =>
    dsimp only
    rw [countRejoin_eq]
    split
    · exact powerOk_upd (i := t) hs (by dsimp only) (by exact fun _ => powered_line _ .joining rfl rfl)
    · exact powerOk_upd (i := t) hs (by dsimp only)

/-- The commands that change a unit. -/
def changesUnits : Instr → Bool
  | .powerOnReset _ | .configure _ _ _ _ _ _ _ _ | .resetWindow _ | .setZone _ _ _ _ _ _ _ | .retrainTile _ _
  | .tileLinkUp _ | .tileLinkDown _ | .frameAck _ _ | .frameNak _ _ | .trainEcho _ _ _ _ | .attemptTimerExpiry _
  | .scanComplete _ | .fetchOrder _ | .verdict _ | .powerOnOrder _ | .powerOffOrder _ => true
  | _ => false

theorem atBlock_units (i : Instr) (hi : changesUnits i = false) (c : Caller) (s : State) :
    (atBlock i c s).units = s.units := by
  cases i with
  | powerOnReset | configure | resetWindow | setZone | retrainTile | tileLinkUp | tileLinkDown | frameAck | frameNak
  | trainEcho | attemptTimerExpiry | scanComplete | fetchOrder | verdict | powerOnOrder | powerOffOrder => cases hi
  | _ => simp [atBlock]

theorem powerOk_foldl {α : Type} (f : State → α → State) (hf : ∀ s a, s.powerOk → (f s a).powerOk) (l : List α)
    {s : State} (hs : s.powerOk) : (l.foldl f s).powerOk := by
  induction l generalizing s with
  | nil => exact hs
  | cons a l ih => exact ih (hf s a hs)

theorem configure_powerOk (rate : Byte) (slots : BitVec 16) (cols rows : Byte) (positions : Vector Byte 16)
    (presence : Byte) (start : BitVec 48) (c : Caller) {s : State} (hs : s.powerOk) :
    (configure rate slots cols rows positions presence start c s).powerOk := by
  unfold configure State.checked
  split
  · exact powerOk_of_units (reply_units _ _ _ _) hs
  · dsimp only
    refine powerOk_of_units (reply_units _ _ _ _) (powerOk_of_units (powerOnBound_frame _).2.2.2.2.2.2.1
      (powerOk_of_units (setWindow_frame _ _).2.2.2.2.1 (powerOk_of_units (modScene_units _ _) ?_)))
    refine powerOk_foldl _ (fun s t h => ?_) _ (powerOk_of_units (s := s) rfl hs)
    split
    · exact setUnit_powerOk t h
    · exact h

theorem initial_powerOk {s : State} (h : ∀ t : Tile, ∃ l, s.units[t] = .initial l) : s.powerOk := by
  intro t
  obtain ⟨l, hl⟩ := h t
  rw [hl]
  rfl

theorem resetWindow_powerOk (c : Caller) {s : State} (hs : s.powerOk) : (resetWindow c s).powerOk := by
  unfold resetWindow State.checked
  split
  · exact powerOk_of_units (reply_units _ _ _ _) hs
  · dsimp only
    generalize allPorts.foldl State.cancelTransit _ = u
    exact powerOk_of_units (s := u.resetBlocks) (by simp) (initial_powerOk fun t => ⟨u.units[t].link, by
      simp [State.resetBlocks]⟩)

theorem setZone_powerOk (zone presence col row cols rows : Byte) (c : Caller) {s : State} (hs : s.powerOk) :
    (setZone zone presence col row cols rows c s).powerOk := by
  have hmove : ∀ (s : State) (z : ZoneId) (into : Bool) (t : Tile), s.powerOk → (s.moveTile z into t).powerOk := by
    intro s z into t h
    have hu : (s.moveTile z into t).units =
        (s.setUnit t fun u => { u with ctx := some (if into then .zone z else .background) }).units := by
      unfold State.moveTile
      dsimp only
      split <;> rfl
    exact powerOk_of_units hu (setUnit_powerOk t h)
  have hshape : ∀ (z : ZoneId) (r : Option Rect), (s.reshape z r).powerOk := by
    intro z r
    unfold State.reshape
    refine powerOk_foldl _ (fun s t h => ?_) _ (powerOk_of_units (s := s) rfl hs)
    split
    · dsimp only
      split
      · exact h
      · exact hmove _ _ _ _ h
    · exact h
  unfold setZone State.checked
  dsimp only
  split
  · exact powerOk_of_units (reply_units _ _ _ _) hs
  · split
    · split
      · exact powerOk_of_units (reply_units _ _ _ _) (hshape _ _)
      · next z _ _ =>
        have hz := hshape z none
        generalize s.reshape z none = t at hz ⊢
        refine powerOk_of_units (s := t) ?_ hz
        rw [reply_units]
        (repeat' split) <;> simp
    · exact hs

theorem retrainTile_powerOk (tile : Byte) (c : Caller) {s : State} (hs : s.powerOk) :
    (retrainTile tile c s).powerOk := by
  unfold retrainTile State.checked
  dsimp only
  split
  · exact powerOk_of_units (reply_units _ _ _ _) hs
  · split
    · exact powerOk_of_units (reply_units _ _ _ _) (startTraining_powerOk _ (abandonFetch_powerOk _ hs))
    · exact hs

theorem tileLinkUp_powerOk (t : Tile) {s : State} (hs : s.powerOk) : (tileLinkUp t s).powerOk := by
  have h := setUnit_powerOk t (f := fun u => { u with link := true }) hs
  unfold tileLinkUp
  dsimp only
  split
  · exact powerOk_upd h (by rw [sendTrain_eq])
  · exact h

theorem tileLinkDown_powerOk (t : Tile) {s : State} (hs : s.powerOk) : (tileLinkDown t s).powerOk := by
  have h := setUnit_powerOk t (f := fun u => { u with link := false }) hs
  unfold tileLinkDown
  dsimp only
  split
  · exact become_powerOk _ _ (stopTraining_powerOk _ (abandonFetch_powerOk _ h))
  · exact h

theorem trainEcho_powerOk (t : Tile) (attempt pattern : Byte) (check : Check) {s : State} (hs : s.powerOk) :
    (trainEcho t attempt pattern check s).powerOk := by
  have hm : ∀ p : PatternId, (s.setUnit t fun u => { u with matched := insertBit u.matched p.val }).powerOk := fun p =>
    setUnit_powerOk t hs
  unfold trainEcho
  dsimp only
  split
  · split
    · split
      · split
        · exact powerOk_of_units rfl (become_powerOk t .joining (stopTraining_powerOk t (hm _)))
        · exact hm _
      · exact failAttempt_powerOk _ hs
    · exact hs
  · exact hs

theorem scanComplete_powerOk (errors : BitErrors) {s : State} (hs : s.powerOk) : (scanComplete errors s).powerOk := by
  unfold scanComplete
  split
  · split
    · exact powerOk_of_units (by simp) hs
    · dsimp only
      have hf : ∀ st k o slot line ws,
          (((s.modStore fun _ => st).lineEffects k o slot line ws).freeBus).powerOk := fun st k o slot line ws =>
        powerOk_of_units (by simp) hs
      split
      · unfold State.scanDiscarded
        split
        · exact requestScan_powerOk _ (hf _ _ _ _ _ _)
        · exact hf _ _ _ _ _ _
      · unfold State.lineScanned
        split
        · dsimp only
          split
          · exact sendLine_powerOk _ _ _ (hf _ _ _ _ _ _)
          · exact requestScan_powerOk _ (sendLine_powerOk _ _ _ (hf _ _ _ _ _ _))
        · exact hf _ _ _ _ _ _
  · exact hs

theorem powerOrders_powerOk (t : Tile) {s : State} (hs : s.powerOk) :
    (powerOnOrder t s).powerOk ∧ (powerOffOrder t s).powerOk := by
  have hp : (s.popUnitMsg t).powerOk := powerOk_of_units rfl hs
  constructor
  · unfold powerOnOrder
    dsimp only
    split
    · split
      · exact startTraining_powerOk t hp
      · exact hp
    · exact hs
  · unfold powerOffOrder
    dsimp only
    split
    · split
      · refine become_powerOk t .off ?_
        have h := stopTraining_powerOk t (abandonFetch_powerOk t hp)
        split
        · exact powerOk_of_units rfl h
        · exact h
      · exact hp
    · exact hs

theorem atBlock_powerOk (i : Instr) (c : Caller) {s : State} (hs : s.powerOk) : (atBlock i c s).powerOk := by
  by_cases hi : changesUnits i = false
  · exact powerOk_of_units (atBlock_units i hi c s) hs
  · cases i with
    | powerOnReset => exact initial_powerOk fun t => ⟨false, by simp [atBlock, State.reset]⟩
    | configure => exact configure_powerOk _ _ _ _ _ _ _ c hs
    | resetWindow => exact resetWindow_powerOk c hs
    | setZone => exact setZone_powerOk _ _ _ _ _ _ c hs
    | retrainTile => exact retrainTile_powerOk _ c hs
    | tileLinkUp t => exact tileLinkUp_powerOk t hs
    | tileLinkDown t => exact tileLinkDown_powerOk t hs
    | frameAck t n =>
      simp only [atBlock, frameAck]
      split
      · exact powerOk_of_units (toScene_units _ _ _) (setUnit_powerOk t hs)
      · exact hs
    | frameNak t n =>
      simp only [atBlock, frameNak]
      split
      · exact setUnit_powerOk t hs
      · exact hs
    | trainEcho => exact trainEcho_powerOk _ _ _ _ hs
    | attemptTimerExpiry t =>
      simp only [atBlock, attemptTimerExpiry]
      split
      · exact failAttempt_powerOk t hs
      · exact hs
    | scanComplete => exact scanComplete_powerOk _ hs
    | fetchOrder t =>
      simp only [atBlock, fetchOrder]
      split
      · exact takeOrder_powerOk _ _ _ _ (powerOk_of_units (popUnitMsg_units s t) hs)
      · exact hs
    | verdict t =>
      simp only [atBlock, verdict]
      split
      · exact takeVerdict_powerOk _ _ _ (powerOk_of_units (popUnitMsg_units s t) hs)
      · exact hs
    | powerOnOrder t => exact (powerOrders_powerOk t hs).1
    | powerOffOrder t => exact (powerOrders_powerOk t hs).2
    | _ => exact absurd rfl hi

/-! ### The edit queue (R68) -/

/-- The ports of the edits, in the order of the queue. -/
def State.editPorts (s : State) : List Port := s.edit.queue.map (·.port)

theorem editsOk_iff (s : State) : s.editsOk ↔ s.editPorts.Nodup := Iff.rfl

theorem editsOk_of_sublist {s t : State} (h : t.editPorts.Sublist s.editPorts) (hs : s.editsOk) : t.editsOk :=
  List.Nodup.sublist h hs

theorem editPorts_of_edit {s t : State} (h : t.edit = s.edit) : t.editPorts = s.editPorts := by
  unfold State.editPorts
  rw [h]

theorem editsOk_of_edit {s t : State} (h : t.edit = s.edit) (hs : s.editsOk) : t.editsOk := by
  unfold State.editsOk
  rw [h]
  exact hs

theorem reportEditsEnded_queue (s : State) : s.reportEditsEnded.edit.queue = s.edit.queue := by
  unfold State.reportEditsEnded
  split <;> simp

theorem removeEdit_queue (s : State) (e : Edit) : (s.removeEdit e).edit.queue = s.edit.queue.erase e := by
  unfold State.removeEdit
  dsimp only
  split <;> simp

theorem removeEdit_sublist (s : State) (e : Edit) : (s.removeEdit e).editPorts.Sublist s.editPorts := by
  unfold State.editPorts
  rw [removeEdit_queue]
  exact (List.erase_sublist ..).map _

theorem reportEditsEnded_editPorts (s : State) : s.reportEditsEnded.editPorts = s.editPorts := by
  unfold State.editPorts
  rw [reportEditsEnded_queue]

theorem nextEdit_editPorts (s : State) : s.nextEdit.editPorts = s.editPorts := editPorts_of_edit (nextEdit_frame s).2.2.2.1

/-- What is told to the edit unit takes the running edit out of the queue, or leaves its port there. -/
theorem patchDone_sublist (s : State) (n : Nat) : (s.patchDone n).editPorts.Sublist s.editPorts := by
  unfold State.patchDone
  split
  · next e rest h =>
    rw [reportEditsEnded_editPorts, nextEdit_editPorts]
    have hq : s.editPorts = e.port :: rest.map (·.port) := by rw [State.editPorts, h]; rfl
    rw [hq]
    split <;> simp [State.editPorts]
  · exact List.Sublist.refl _

theorem copyStopped_sublist (s : State) : s.copyStopped.editPorts.Sublist s.editPorts := by
  unfold State.copyStopped
  split
  · next e rest h =>
    rw [reportEditsEnded_editPorts, nextEdit_editPorts]
    have hq : s.editPorts = e.port :: rest.map (·.port) := by rw [State.editPorts, h]; rfl
    rw [hq]
    simp [State.editPorts]
  · exact List.Sublist.refl _

theorem copyMoved_sublist (s : State) : s.copyMoved.editPorts.Sublist s.editPorts := by
  unfold State.copyMoved
  split
  · next p _ _ _ _ _ _ rest h =>
    have hq : s.editPorts = p :: rest.map (·.port) := by rw [State.editPorts, h]; rfl
    dsimp only
    split
    · rw [reportEditsEnded_editPorts, nextEdit_editPorts, hq]
      simp [State.editPorts]
    · rw [hq]
      simp [State.editPorts]
  · exact List.Sublist.refl _

theorem endEdits_sublist (s : State) : s.endEdits.editPorts.Sublist s.editPorts := by
  have h : ∀ (l : List Edit) (s : State), (l.foldl (fun s e =>
      if s.runsPatch e then s else (s.removeEdit e).reply e.caller .cancelled) s).editPorts.Sublist s.editPorts := by
    intro l
    induction l with
    | nil => exact fun s => List.Sublist.refl _
    | cons e l ih =>
      intro s
      refine (ih _).trans ?_
      dsimp only
      split
      · exact List.Sublist.refl _
      · rw [editPorts_of_edit (reply_edit _ _ _ _)]
        exact removeEdit_sublist s e
  unfold State.endEdits
  rw [reportEditsEnded_editPorts]
  exact h _ _

theorem darkEntry_sublist (s : State) : s.darkEntry.editPorts.Sublist s.editPorts := by
  unfold State.darkEntry
  dsimp only
  have hz : (((allZones.foldl State.windBack ((s.modScene fun e => { e with change := none }).setWindow
      .darkening)).modBackground fun _ => .initial).abortAll.modScene fun e =>
        { e with waitEnds := some { loads := true, edits := false } }).edit = s.edit := by
    rw [modScene_edit, (abortAll_frame _).1, (modBackground_frame _ _).2.2.2.2.1,
      foldl_keeps (fun s : State => s.edit) State.windBack (by simp)]
    simp
  generalize State.modScene _ _ = t at hz ⊢
  rw [editPorts_of_edit (foldl_keeps (fun s : State => s.edit) _ (by simp) allTiles t.endEdits),
    ← editPorts_of_edit hz]
  exact endEdits_sublist t

theorem takeChange_sublist (s : State) : s.takeChange.editPorts.Sublist s.editPorts := by
  unfold State.takeChange
  dsimp only
  split
  · split
    · exact darkEntry_sublist s
    · exact List.Sublist.refl _
  · split
    · rw [editPorts_of_edit (wakeEntry_frame s).2.2.1]
    · exact List.Sublist.refl _
  · exact List.Sublist.refl _

theorem frameBoundary_sublist (s : State) : (frameBoundary s).editPorts.Sublist s.editPorts := by
  unfold frameBoundary
  dsimp only
  split
  · have h := takeChange_sublist ((s.send .sync).modScene fun e => { e with frame := e.nextFrame, epoch := none })
    rw [editPorts_of_edit (t := (s.send .sync).modScene _) (s := s) rfl] at h
    generalize State.takeChange _ = v at h ⊢
    rw [editPorts_of_edit (modMail_edit _ _)]
    split
    · rw [editPorts_of_edit (backgroundLit_frame _).2.2.2.2.1,
        editPorts_of_edit (zonesLit_frame _ allZones v).2.2.1]
      exact h
    · rw [editPorts_of_edit (modBackground_frame _ _).2.2.2.2.1, editPorts_of_edit (zonesDark_frame allZones v).2.2.1]
      exact h
  · exact List.Sublist.refl _

/-- The commands that put an edit into the queue. -/
def addsEdit : Instr → Bool
  | .patch _ _ _ _ _ _ _ _ _ _ | .copy _ _ _ _ _ => true
  | _ => false

theorem editComplete_sublist (errors : BitErrors) (s : State) :
    (patchEditComplete errors s).editPorts.Sublist s.editPorts ∧
      (copyLineComplete errors s).editPorts.Sublist s.editPorts := by
  constructor
  · unfold patchEditComplete
    split
    · split
      · rw [editPorts_of_edit (freeBus_frame _).2.2.2.1]
      · dsimp only
        split
        · rw [editPorts_of_edit (s := s) (by simp)]
        · refine (patchDone_sublist _ _).trans ?_
          rw [editPorts_of_edit (s := s) (by simp)]
    · exact List.Sublist.refl _
  · unfold copyLineComplete
    split
    · split
      · rw [editPorts_of_edit (freeBus_frame _).2.2.2.1]
      · split
        · generalize patternLine _ _ = ws
          dsimp only
          split
          · rw [editPorts_of_edit (s := s) (by simp)]
          · refine (copyMoved_sublist _).trans ?_
            rw [editPorts_of_edit (s := s) (by simp)]
        · dsimp only
          have hf : ∀ st k o slot line ws,
              (((s.modStore fun _ => st).lineEffects k o slot line ws).freeBus).editPorts = s.editPorts :=
            fun st k o slot line ws => editPorts_of_edit (by simp)
          split
          · rw [hf]
          split
          · exact (copyStopped_sublist _).trans (by rw [hf])
          · exact (copyMoved_sublist _).trans (by rw [hf])
    · exact List.Sublist.refl _

theorem cancelEdit_sublist (c : Caller) (s : State) : (cancelEdit c s).editPorts.Sublist s.editPorts := by
  unfold cancelEdit
  split
  · rw [editPorts_of_edit (reply_edit _ _ _ _)]
  · split
    · rw [editPorts_of_edit (reply_edit _ _ _ _)]
    · refine (removeEdit_sublist _ _).trans ?_
      rw [editPorts_of_edit (reply_edit _ _ _ _), editPorts_of_edit (reply_edit _ _ _ _)]

theorem portLoss_sublist (p : Port) (s : State) : (portLoss p s).editPorts.Sublist s.editPorts := by
  unfold portLoss
  split
  · dsimp only
    rw [editPorts_of_edit (loseInvoker_fold_frame _ _ _).2.2.2.2.1]
    have h : ((s.setPort p fun r =>
        { r with up := false, events := 0, mask := 0, transit := none, waiting := [] }).releaseZonesOf p
        |>.abortLoadsOf p).edit = s.edit := by simp
    generalize State.abortLoadsOf _ p = t at h ⊢
    rw [← editPorts_of_edit h]
    unfold State.removeEditOf
    split
    · rw [reportEditsEnded_editPorts]
      exact removeEdit_sublist _ _
    · exact List.Sublist.refl _
  · exact List.Sublist.refl _

theorem resetWindow_sublist (c : Caller) (s : State) : (resetWindow c s).editPorts.Sublist s.editPorts := by
  unfold resetWindow State.checked
  split
  · rw [editPorts_of_edit (reply_edit _ _ _ _)]
  · dsimp only
    generalize allPorts.foldl State.cancelTransit _ = u
    rw [editPorts_of_edit (s := u.resetBlocks) (by simp)]
    exact List.nil_sublist _

theorem atBlock_editPorts (i : Instr) (hi : addsEdit i = false) (c : Caller) (s : State) :
    (atBlock i c s).editPorts.Sublist s.editPorts := by
  cases i with
  | patch | copy => cases hi
  | powerOnReset => exact List.nil_sublist _
  | resetWindow => exact resetWindow_sublist c s
  | cancelEdit => exact cancelEdit_sublist c s
  | portLoss p => exact portLoss_sublist p s
  | frameBoundary => exact frameBoundary_sublist s
  | patchEditComplete errors => exact (editComplete_sublist errors s).1
  | copyLineComplete errors => exact (editComplete_sublist errors s).2
  | _ => rw [editPorts_of_edit (s := s) (by simp [atBlock])]

theorem enqueueEdit_queue (s : State) (e : Edit) : (s.enqueueEdit e).edit.queue = s.edit.queue ++ [e] := by
  unfold State.enqueueEdit
  dsimp only
  split <;> simp

/-- An edit joins the queue where its port has none. -/
theorem enqueueEdit_editsOk {s t : State} {e : Edit} (h : t.edit = s.edit) (hn : s.hasEdit e.port = false)
    (hs : s.editsOk) : (t.enqueueEdit e).editsOk := by
  have hno : ∀ x ∈ s.edit.queue, x.port ≠ e.port := by simpa [State.hasEdit] using hn
  unfold State.editsOk
  rw [enqueueEdit_queue, h, List.map_append]
  refine List.nodup_append.2 ⟨hs, by simp, ?_⟩
  simpa using hno

theorem patch_editsOk (pg : Handle) (cell col row line first : Byte) (plane stipple : BitVec 32) (ws : List Word)
    (c : Caller) {s : State} (hs : s.editsOk) : (patch pg cell col row line first plane stipple ws c s).editsOk := by
  unfold patch State.checked
  split
  · exact editsOk_of_edit (reply_edit _ _ _ _) hs
  · next hf =>
    have hn := (firstFailure_none_iff _).1 hf (!s.hasEdit c.port, .busy) (by simp [patchTests])
    exact enqueueEdit_editsOk (by simp) (by simpa using hn) hs

theorem copy_editsOk (src : Handle) (sc : Byte) (dst : Handle) (dc : Byte) (c : Caller) {s : State} (hs : s.editsOk) :
    (copy src sc dst dc c s).editsOk := by
  unfold copy State.checked
  split
  · exact editsOk_of_edit (reply_edit _ _ _ _) hs
  · next hf =>
    have hn := (firstFailure_none_iff _).1 hf (!s.hasEdit c.port, .busy) (by simp [copyTests])
    exact enqueueEdit_editsOk (by split <;> simp) (by simpa using hn) hs

theorem atBlock_editsOk (i : Instr) (c : Caller) {s : State} (hs : s.editsOk) : (atBlock i c s).editsOk := by
  by_cases hi : addsEdit i = false
  · exact editsOk_of_sublist (atBlock_editPorts i hi c s) hs
  · cases i with
    | patch => exact patch_editsOk _ _ _ _ _ _ _ _ _ c hs
    | copy => exact copy_editsOk _ _ _ _ c hs
    | _ => exact absurd rfl hi

/-- Settles O57: each law is kept at the block of every command, and that of the ports along a request's course. -/
theorem countersLinksAndLinesStayLegal : Obligations.CountersLinksAndLinesStayLegal := by
  intro s t h
  refine ⟨debtOk_law.step h, scrubOk_law.step h, step_portsOk h, ?power, ?frame, ?edits⟩
  case power => exact step_keeps (P := State.powerOk) (fun _ _ _ _ h => h) (fun i c _ => atBlock_powerOk i c) h
  case frame => exact step_keeps (P := State.frameOk) (fun _ _ _ _ h => h) (fun i c _ => atBlock_frameOk i c) h
  case edits => exact step_keeps (P := State.editsOk) (fun _ _ _ _ h => h) (fun i c _ => atBlock_editsOk i c) h

end Sys2Proof.Machine
end

