-- ==== Sys2Proof/Proofs/ZoneLaws.lean ====
section
/-! The law of the zones (R104, R105, R128, R130, R135): each operation of the scene engine keeps every zone's cut queue,
log, link stack, and items armed and pending as they should be. -/

set_option linter.unusedTactic false
set_option linter.unusedSimpArgs false
set_option linter.unreachableTactic false
set_option linter.unnecessarySeqFocus false

namespace Sys2Proof.Machine

/-! ### One zone -/

namespace Zone

/-- A zone whose cuts are some of those queued before. -/
theorem ok_cuts {zn : Zone} (h : zn.ok) {cs : List Cut} (hc : cs.Sublist zn.cuts) : Zone.ok { zn with cuts := cs } := by
  obtain ⟨h1, h2, h3⟩ := h
  exact ⟨hc.length_le.trans h1, h2.sublist hc, h3⟩

/-- A zone whose cuts are as before but for the ports and marks of them. -/
theorem ok_cuts_map {zn : Zone} (h : zn.ok) {f : Cut → Cut} (hf : ∀ c, (f c).target = c.target) :
    Zone.ok { zn with cuts := zn.cuts.map f } := by
  obtain ⟨h1, h2, h3⟩ := h
  refine ⟨by simpa using h1, ?_, h3⟩
  rw [List.pairwise_map]
  exact h2.imp fun {a b} hab => by rw [hf, hf]; exact hab

theorem ok_log {zn : Zone} (h : zn.ok) (e : LogEntry) : Zone.ok { zn with log := appendLog zn.log e } := by
  obtain ⟨h1, h2, h3, h4⟩ := h
  refine ⟨h1, h2, ?_, h4⟩
  simp only [appendLog, List.length_drop, List.length_append, List.length_singleton]
  omega

theorem ok_disarm {zn : Zone} (h : zn.ok) : Zone.ok { zn with armed := none } := by
  obtain ⟨h1, h2, h3, h4, h5, h6⟩ := h
  refine ⟨h1, h2, h3, h4, fun hg => h5 ?_, fun _ => .inl rfl⟩
  rcases hg with hg | ⟨_, _, _, hg⟩
  · exact .inl hg
  · cases hg

theorem ok_unpend {zn : Zone} (h : zn.ok) : Zone.ok { zn with pend := none } := by
  obtain ⟨h1, h2, h3, h4, h5, h6⟩ := h
  refine ⟨h1, h2, h3, h4, fun hg => h5 ?_, fun h => absurd rfl h⟩
  rcases hg with ⟨_, _, hg⟩ | hg
  · cases hg
  · exact .inr hg

/-- A cut is armed on a zone with nothing armed. -/
theorem ok_armCut {zn : Zone} (h : zn.ok) : Zone.ok { zn with armed := some .cut } := by
  obtain ⟨h1, h2, h3, h4, h5, h6⟩ := h
  refine ⟨h1, h2, h3, h4, fun hg => h5 ?_, fun _ => .inr rfl⟩
  rcases hg with hg | ⟨_, _, _, hg⟩
  · exact .inl hg
  · cases hg

/-- A return is armed on a zone with nothing pending. -/
theorem ok_armRet {zn : Zone} (h : zn.ok) (hp : zn.pend = none) : Zone.ok { zn with armed := some .ret } := by
  obtain ⟨h1, h2, h3, h4, h5, h6⟩ := h
  refine ⟨h1, h2, h3, h4, fun hg => h5 ?_, fun hn => absurd hp hn⟩
  rcases hg with hg | ⟨_, _, _, hg⟩
  · exact .inl hg
  · cases hg

/-- What is armed counts its attempts, or is armed from what was pending. -/
theorem ok_armGate {zn : Zone} (h : zn.ok) (g : GateId) (p : Port) (k : Nat) (hg : zn.gateComing) :
    Zone.ok { zn with armed := some (.gate g p k), pend := none } := by
  obtain ⟨h1, h2, h3, h4, h5, h6⟩ := h
  exact ⟨h1, h2, h3, h4, fun _ => h5 hg, fun hn => absurd rfl hn⟩

/-- A context is saved or taken off, and another is current, once nothing is armed or pending. -/
theorem ok_stack {zn : Zone} (h : zn.ok) (x : Context) {st : List Context} (hl : st.length ≤ 3)
    (hp : zn.pend = none) : Zone.ok { zn with armed := none, stack := st, current := x } := by
  obtain ⟨h1, h2, h3, h4, h5, h6⟩ := h
  refine ⟨h1, h2, h3, hl, fun hg => ?_, fun _ => .inl rfl⟩
  rcases hg with ⟨_, _, hg⟩ | ⟨_, _, _, hg⟩
  · exact absurd (hp.symm.trans hg) (by simp)
  · cases hg

/-- The saved contexts are replaced, no more of them than before. -/
theorem ok_restack {zn : Zone} (h : zn.ok) (x : Context) {st : List Context} (hl : st.length ≤ zn.stack.length) :
    Zone.ok { zn with stack := st, current := x } := by
  obtain ⟨h1, h2, h3, h4, h5, h6⟩ := h
  exact ⟨h1, h2, h3, hl.trans h4, fun hg => hl.trans (h5 hg), h6⟩

/-- With a gate or a return armed nothing is pending. -/
theorem pend_none {zn : Zone} (h : zn.ok) (hn : zn.armed ≠ none) (hc : zn.armed ≠ some .cut) : zn.pend = none := by
  obtain ⟨-, -, -, -, -, h6⟩ := h
  by_contra hp
  rcases h6 hp with h | h
  · exact hn h
  · exact hc h

end Zone

theorem ok_initial : Zone.initial.ok := by
  refine ⟨by decide, List.Pairwise.nil, by decide, by decide, fun hg => by decide, fun hn => absurd rfl hn⟩

/-! ### Every zone -/

theorem zonesOk_of_scene {s t : State} (h : t.scene = s.scene) (hs : s.zonesOk) : t.zonesOk := by
  unfold State.zonesOk State.zone
  rw [h]
  exact hs

theorem zonesOk_of_zones {s t : State} (h : t.scene.zones = s.scene.zones) (hs : s.zonesOk) : t.zonesOk := by
  unfold State.zonesOk State.zone
  rw [h]
  exact hs

theorem setZone_zone (s : State) (z y : ZoneId) (f : Zone → Zone) :
    (s.setZone z f).zone y = if z = y then f (s.zone y) else s.zone y := by
  unfold State.zone
  rw [setZone_scene]
  exact upd_at _ _ _ _

theorem setZone_zonesOk {s : State} (z : ZoneId) {f : Zone → Zone} (hs : s.zonesOk)
    (hf : (s.zone z).ok → (f (s.zone z)).ok) : (s.setZone z f).zonesOk := by
  intro y
  rw [setZone_zone]
  split
  · next h => subst h; exact hf (hs z)
  · exact hs y

/-- A change of a zone that leaves its queue, log, stack and items alone. -/
theorem setZone_zonesOk_same {s : State} (z : ZoneId) {f : Zone → Zone} (hs : s.zonesOk)
    (hf : ∀ zn, (f zn).cuts = zn.cuts ∧ (f zn).log = zn.log ∧ (f zn).stack.length = zn.stack.length ∧
      (f zn).armed = zn.armed ∧ (f zn).pend = zn.pend := by exact fun _ => ⟨rfl, rfl, rfl, rfl, rfl⟩) :
    (s.setZone z f).zonesOk := by
  refine setZone_zonesOk z hs fun h => ?_
  obtain ⟨h1, h2, h3, h4, h5⟩ := hf (s.zone z)
  unfold Zone.ok Zone.gateComing
  rw [h1, h2, h3, h4, h5]
  exact h

theorem zonesOk_foldl {α : Type} (f : State → α → State) (hf : ∀ s a, s.zonesOk → (f s a).zonesOk) (l : List α)
    {s : State} (hs : s.zonesOk) : (l.foldl f s).zonesOk := by
  induction l generalizing s with
  | nil => exact hs
  | cons a l ih => exact ih (hf s a hs)

theorem initial_zonesOk {s : State} (h : s.scene.zones = SceneEngine.initial.zones) : s.zonesOk := by
  intro z
  have hz : s.zone z = Zone.initial := by
    unfold State.zone
    rw [h]
    simp [SceneEngine.initial]
  rw [hz]
  exact ok_initial

/-! ### What leaves the zones and the gate table alone -/

/-- The zones and the gate table are as before. -/
abbrev sameZones (s t : State) : Prop := t.scene.zones = s.scene.zones ∧ t.scene.gates = s.scene.gates

/-- The same, as a relation between states that is composed and not taken apart. -/
def keepsZones (s t : State) : Prop := sameZones s t

theorem keepsZones_refl (s : State) : keepsZones s s := ⟨rfl, rfl⟩

theorem keepsZones.trans {a b c : State} (h : keepsZones a b) (k : keepsZones b c) : keepsZones a c :=
  ⟨k.1.trans h.1, k.2.trans h.2⟩

theorem keepsZones_of_scene {s t : State} (h : t.scene = s.scene) : keepsZones s t := by
  simp [keepsZones, sameZones, h]

theorem keepsZones_foldl {α : Type} (f : State → α → State) (hf : ∀ s a, keepsZones s (f s a)) (l : List α)
    (s : State) : keepsZones s (l.foldl f s) := by
  induction l generalizing s with
  | nil => exact keepsZones_refl s
  | cons a l ih => exact (hf s a).trans (ih _)

theorem keepsZones.zonesOk {s t : State} (h : keepsZones s t) (hs : s.zonesOk) : t.zonesOk := zonesOk_of_zones h.1 hs

@[simp] theorem setWindow_zones (s : State) (w : WindowState) : sameZones s (s.setWindow w) := by
  simp [sameZones, State.setWindow]

@[simp] theorem takeEnds_zones (s : State) (f : EndReports → EndReports) : sameZones s (s.takeEnds f) := by
  unfold State.takeEnds
  (repeat' split) <;> simp [*, sameZones]

@[simp] theorem reportEditsEnded_zones (s : State) : sameZones s s.reportEditsEnded := by
  unfold State.reportEditsEnded
  (repeat' split) <;> simp [*, sameZones]

@[simp] theorem endEdits_zones (s : State) : sameZones s s.endEdits := by
  have h : keepsZones s s.endEdits := by
    unfold State.endEdits
    refine keepsZones.trans (b := s.modEdit fun u => { u with endAsked := true }) (keepsZones_refl s) ?_
    refine keepsZones.trans (keepsZones_foldl _ (fun s e => ?_) _ _) (reportEditsEnded_zones _)
    split <;> simp [keepsZones, sameZones]
  exact h

@[simp] theorem patchDone_zones (s : State) (n : Nat) : sameZones s (s.patchDone n) := by
  unfold State.patchDone
  (repeat' split) <;> simp [*, sameZones]

@[simp] theorem copyMoved_zones (s : State) : sameZones s s.copyMoved := by
  unfold State.copyMoved
  split
  · dsimp only
    split <;> simp [sameZones]
  · exact keepsZones_refl s

@[simp] theorem copyStopped_zones (s : State) : sameZones s s.copyStopped := by
  unfold State.copyStopped
  (repeat' split) <;> simp [*, sameZones]

@[simp] theorem setChange_zones (s : State) (k : ChangeKind) (p : Byte) (f : BitVec 48) :
    sameZones s (s.setChange k p f) := by
  simp [sameZones, State.setChange]

@[simp] theorem wakeEntry_zones (s : State) : sameZones s s.wakeEntry := by
  simp [sameZones, State.wakeEntry]

/-- The commands that change a zone or the gate table. -/
def changesZones : Instr → Bool
  | .powerOnReset _ | .configure _ _ _ _ _ _ _ _ | .resetWindow _ | .portLoss _ | .frameBoundary
  | .setZone _ _ _ _ _ _ _ | .claimZone _ _ | .releaseZone _ _ | .handOver _ _ _ | .seizeZone _ _
  | .queueCut _ _ _ _ _ _ | .withdrawCut _ _ _ | .defineGate _ _ _ _ _ _ _ | .clearGate _ _ | .invokeGate _ _
  | .returnGate _ _ | .deliveryReport _ | .stateReport _ => true
  | _ => false

theorem patchEditComplete_zones (errors : BitErrors) (s : State) : keepsZones s (patchEditComplete errors s) := by
  unfold patchEditComplete
  dsimp only
  (repeat' split) <;> simp [keepsZones, sameZones]

theorem copyLineComplete_zones (errors : BitErrors) (s : State) : keepsZones s (copyLineComplete errors s) := by
  unfold copyLineComplete
  split
  · split
    · simp [keepsZones, sameZones]
    · split
      · generalize patternLine _ _ = ws
        dsimp only
        split <;> simp [keepsZones, sameZones]
      · dsimp only
        (repeat' split) <;> simp [keepsZones, sameZones]
  · exact keepsZones_refl s

theorem checked_zones {s : State} (c : Caller) (ts : List Test) {act : State → State} (b : Body)
    (ha : keepsZones s (act s)) : keepsZones s (s.checked c ts act b) := by
  unfold State.checked
  split
  · exact keepsZones_of_scene (reply_scene _ _ _ _)
  · exact ha

theorem atBlock_zones (i : Instr) (hi : changesZones i = false) (c : Caller) (s : State) :
    keepsZones s (atBlock i c s) := by
  cases i with
  | powerOnReset | configure | resetWindow | portLoss | frameBoundary | setZone | claimZone | releaseZone | handOver
  | seizeZone | queueCut | withdrawCut | defineGate | clearGate | invokeGate | returnGate | deliveryReport
  | stateReport => cases hi
  | patchEditComplete errors => exact patchEditComplete_zones errors s
  | copyLineComplete errors => exact copyLineComplete_zones errors s
  | darken => exact checked_zones _ _ _ (by simp [keepsZones, sameZones])
  | wake => exact checked_zones _ _ _ (by simp [keepsZones, sameZones])
  | setEpoch => exact checked_zones _ _ _ (by simp [keepsZones, sameZones])
  | entryCompletion =>
    simp only [atBlock, entryCompletion]
    split <;> simp [keepsZones, sameZones]
  | exitCompletion =>
    simp only [atBlock, exitCompletion]
    (repeat' split) <;> simp [keepsZones, sameZones]
  | _ => exact keepsZones_of_scene (by simp [atBlock])

/-! ### The operations of the scene engine -/

theorem logCut_zonesOk (z : ZoneId) (c : Cut) (o : CutOutcome) {s : State} (hs : s.zonesOk) :
    (s.logCut z c o).zonesOk :=
  setZone_zonesOk z hs fun h => Zone.ok_log h _

theorem takeCut_zonesOk (z : ZoneId) (c : Cut) {s : State} (hs : s.zonesOk) : (s.takeCut z c).zonesOk :=
  setZone_zonesOk z hs fun h => Zone.ok_cuts h (List.erase_sublist ..)

theorem unpinScene_zonesOk (sc : Scene) {s : State} (hs : s.zonesOk) : (s.unpinScene sc).zonesOk :=
  zonesOk_of_scene (by simp) hs

theorem raise_zonesOk (p : Port) (e : Event) {s : State} (hs : s.zonesOk) : (s.raise p e).zonesOk := hs

theorem reply_zonesOk (c : Caller) (st : Status) (b : Body) {s : State} (hs : s.zonesOk) :
    (s.reply c st b).zonesOk :=
  zonesOk_of_scene (reply_scene _ _ _ _) hs

theorem loseCut_zonesOk (z : ZoneId) (o : CutOutcome) (c : Cut) {s : State} (hs : s.zonesOk) :
    (s.loseCut z o c).zonesOk :=
  logCut_zonesOk z c o (unpinScene_zonesOk _ (takeCut_zonesOk z c hs))

theorem disarm_zonesOk (z : ZoneId) {s : State} (hs : s.zonesOk) : (s.disarm z).zonesOk :=
  setZone_zonesOk z hs Zone.ok_disarm

theorem useGate_zonesOk (g : GateId) (u : GateUse) {s : State} (hs : s.zonesOk) : (s.useGate g u).zonesOk := hs

theorem freeGate_zonesOk (g : GateId) (p : Port) (e : Event) {s : State} (hs : s.zonesOk) :
    (s.freeGate g p e).zonesOk := hs

theorem passZone_zonesOk (z : ZoneId) (p : Port) {s : State} (hs : s.zonesOk) : (s.passZone z p).zonesOk :=
  setZone_zonesOk z hs fun h => Zone.ok_cuts_map h fun c => by split <;> rfl

theorem releaseZone_zonesOk (z : ZoneId) {s : State} (hs : s.zonesOk) : (s.releaseZone z).zonesOk := by
  unfold State.releaseZone
  refine zonesOk_foldl _ (fun s c h => loseCut_zonesOk z _ c h) _ (setZone_zonesOk z hs fun h => ?_)
  have hm : Zone.ok { s.zone z with
      cuts := if (decide ((s.zone z).armed = some .cut) && (s.zone z).fetched) = true then
        ((s.zone z).cuts.take 1).map (fun c => { c with released := true }) ++ (s.zone z).cuts.tail
        else (s.zone z).cuts } := by
    split
    · cases hc : (s.zone z).cuts with
      | nil => exact Zone.ok_cuts h (by simp)
      | cons c cs =>
        obtain ⟨h1, h2, h3⟩ := h
        rw [hc] at h1 h2
        refine ⟨by simpa using h1, ?_, h3⟩
        have h2' := List.pairwise_cons.1 h2
        exact List.pairwise_cons.2 ⟨fun a ha => h2'.1 a ha, h2'.2⟩
    · exact h
  by_cases ha : (decide ((s.zone z).armed = some .cut) &&
      !(decide ((s.zone z).armed = some .cut) && (s.zone z).fetched)) = true
  · rw [if_pos ha]
    exact Zone.ok_disarm hm
  · rw [if_neg ha]
    exact hm

/-- A lost port's pending invocation is dropped (R138). -/
def State.dropInvocation (s : State) (p : Port) (z : ZoneId) : State :=
  match (s.zone z).pend with
  | some (.invocation g q) =>
    if q = p then (s.useGate g .defined).setZone z fun zn => { zn with pend := none } else s
  | _ => s

/-- A lost port's armed gate has no attempt left (R138). -/
def State.spendAttempts (s : State) (p : Port) (z : ZoneId) : State :=
  match (s.zone z).armed with
  | some (.gate g q _) => if q = p then s.setZone z fun zn => { zn with armed := some (.gate g q 8) } else s
  | _ => s

theorem loseInvoker_eq (s : State) (p : Port) (z : ZoneId) :
    s.loseInvoker p z = (s.dropInvocation p z).spendAttempts p z := rfl

theorem dropInvocation_zonesOk (p : Port) (z : ZoneId) {s : State} (hs : s.zonesOk) :
    (s.dropInvocation p z).zonesOk := by
  unfold State.dropInvocation
  split
  · split
    · exact setZone_zonesOk z (useGate_zonesOk _ _ hs) Zone.ok_unpend
    · exact hs
  · exact hs

/-- An armed gate with another count of attempts. -/
theorem Zone.ok_recount {zn : Zone} (h : zn.ok) {g : GateId} {p : Port} {k : Nat} (ha : zn.armed = some (.gate g p k))
    (n : Nat) : Zone.ok { zn with armed := some (.gate g p n) } := by
  have hpend := Zone.pend_none h (by simp [ha]) (by simp [ha])
  have hg := Zone.ok_armGate h g p n (.inr ⟨g, p, k, ha⟩)
  rw [← hpend] at hg
  exact hg

theorem spendAttempts_zonesOk (p : Port) (z : ZoneId) {s : State} (hs : s.zonesOk) :
    (s.spendAttempts p z).zonesOk := by
  unfold State.spendAttempts
  split
  · next g q k ha =>
    split
    · exact setZone_zonesOk z hs fun h => Zone.ok_recount h ha 8
    · exact hs
  · exact hs

theorem loseInvoker_zonesOk (p : Port) (z : ZoneId) {s : State} (hs : s.zonesOk) : (s.loseInvoker p z).zonesOk := by
  rw [loseInvoker_eq]
  exact spendAttempts_zonesOk p z (dropInvocation_zonesOk p z hs)

theorem showCut_zonesOk (z : ZoneId) {s : State} (hs : s.zonesOk) : (s.showCut z).zonesOk := by
  unfold State.showCut
  split
  · next c rest hc =>
    have h : ((((s.unpinScene (s.zone z).current.scene).setZone z fun zn =>
        { zn with armed := none
                  current := { scene := c.scene, origin := (s.unpinScene (s.zone z).current.scene).scene.frame
                               kind := .playlist, remaining := none, invoker := none } }).takeCut z c).logCut z c
                                 .shown).zonesOk :=
      logCut_zonesOk z c _ (takeCut_zonesOk z c (setZone_zonesOk z (unpinScene_zonesOk _ hs) fun h =>
        Zone.ok_restack (Zone.ok_disarm h) _ le_rfl))
    dsimp only
    split
    · exact h
    · exact raise_zonesOk _ _ h
  · exact hs

theorem showGate_zonesOk (z : ZoneId) (g : GateId) (p : Port) (k : Nat) {s : State}
    (ha : (s.zone z).armed = some (.gate g p k)) (hs : s.zonesOk) : (s.showGate z g p).zonesOk := by
  unfold State.showGate
  split
  · next e _ =>
    refine raise_zonesOk _ _ (useGate_zonesOk _ _ (setZone_zonesOk z (zonesOk_of_scene (by simp) hs) fun h => ?_))
    have hz : (s.pinScene e.scene).zone z = s.zone z := by
      unfold State.zone
      rw [(pinScene_frame _ _).2.2.2.2.1]
    rw [hz] at h ⊢
    refine Zone.ok_stack h _ ?_ (Zone.pend_none h (by rw [ha]; simp) (by rw [ha]; simp))
    obtain ⟨-, -, -, -, h5, -⟩ := h
    have := h5 (.inr ⟨g, p, k, ha⟩)
    rw [List.length_append, List.length_singleton]
    omega
  · exact hs

theorem dropContext_scene_zones (s : State) (x : Context) : (s.dropContext x).scene.zones = s.scene.zones := by
  unfold State.dropContext
  dsimp only
  split <;> simp [State.freeGate, State.useGate]

theorem dropContext_zonesOk (x : Context) {s : State} (hs : s.zonesOk) : (s.dropContext x).zonesOk :=
  zonesOk_of_zones (dropContext_scene_zones s x) hs

theorem showReturn_zonesOk (z : ZoneId) {s : State} (ha : (s.zone z).armed = some .ret) (hs : s.zonesOk) :
    (s.showReturn z).zonesOk := by
  unfold State.showReturn
  split
  · refine setZone_zonesOk z (dropContext_zonesOk _ hs) fun h => ?_
    have hz : (s.dropContext (s.zone z).current).zone z = s.zone z := by
      unfold State.zone
      rw [dropContext_scene_zones]
    rw [hz] at h ⊢
    refine Zone.ok_stack h _ ?_ (Zone.pend_none h (by rw [ha]; simp) (by rw [ha]; simp))
    obtain ⟨-, -, -, h4, -⟩ := h
    rw [List.length_dropLast]
    omega
  · exact hs

theorem showArmed_zonesOk (z : ZoneId) {s : State} (hs : s.zonesOk) : (s.showArmed z).zonesOk := by
  unfold State.showArmed
  split
  · exact showCut_zonesOk z hs
  · next ha => exact showGate_zonesOk z _ _ _ ha hs
  · next ha => exact showReturn_zonesOk z ha hs
  · exact hs

theorem dropReleased_zonesOk (z : ZoneId) {s : State} (hs : s.zonesOk) : (s.dropReleased z).zonesOk := by
  unfold State.dropReleased
  split
  · split
    · exact disarm_zonesOk z (loseCut_zonesOk z _ _ hs)
    · exact hs
  · exact hs

theorem zoneVerdict_zonesOk (z : ZoneId) {s : State} (hs : s.zonesOk) : (s.zoneVerdict z).zonesOk := by
  unfold State.zoneVerdict
  split
  · exact hs
  · dsimp only
    have hv : ∀ v, (s.sendVerdicts (.zone z) (s.zone z).inStep (s.zone z).delivered v).zonesOk := fun v =>
      zonesOk_of_scene (by simp) hs
    split
    · refine setZone_zonesOk_same z ?_
      split
      · exact showArmed_zonesOk z (hv _)
      · exact hv _
    · split
      · exact dropReleased_zonesOk z (hv _)
      · exact hv _

theorem unarmEarly_zonesOk (z : ZoneId) {s : State} (hs : s.zonesOk) : (s.unarmEarly z).zonesOk := by
  unfold State.unarmEarly
  split
  · split
    · exact disarm_zonesOk z hs
    · exact hs
  · exact hs

theorem skipCut_zonesOk (z : ZoneId) (c : Cut) {s : State} (hs : s.zonesOk) : (s.skipCut z c).zonesOk :=
  raise_zonesOk _ _ (loseCut_zonesOk z _ c hs)

theorem abandonCut_zonesOk (z : ZoneId) (c : Cut) {s : State} (hs : s.zonesOk) : (s.abandonCut z c).zonesOk :=
  raise_zonesOk _ _ (loseCut_zonesOk z _ c hs)

theorem clearArmed_zonesOk (z : ZoneId) {s : State} (hs : s.zonesOk) : (s.clearArmed z).zonesOk := by
  unfold State.clearArmed
  split
  · split
    · exact disarm_zonesOk z (abandonCut_zonesOk z _ hs)
    split
    · exact disarm_zonesOk z (skipCut_zonesOk z _ hs)
    · exact hs
  · split
    · exact disarm_zonesOk z (freeGate_zonesOk _ _ _ hs)
    · exact hs
  · exact hs

theorem armPending_zonesOk (z : ZoneId) {s : State} (hs : s.zonesOk) : (s.armPending z).zonesOk := by
  unfold State.armPending
  split
  · next g p hp => exact setZone_zonesOk z hs fun h => Zone.ok_armGate h g p 0 (.inl ⟨g, p, hp⟩)
  · next hp => exact setZone_zonesOk z hs fun h => Zone.ok_armRet (Zone.ok_unpend h) rfl
  · exact hs

theorem armExpired_zonesOk (z : ZoneId) {s : State} (hs : s.zonesOk) : (s.armExpired z).zonesOk := by
  unfold State.armExpired
  dsimp only
  split
  · next hn => exact setZone_zonesOk z hs fun h => Zone.ok_armRet h hn.2.1
  · exact hs

theorem takeUnseen_zonesOk (z : ZoneId) (c : Cut) {s : State} (hs : s.zonesOk) : (s.takeUnseen z c).zonesOk := by
  unfold State.takeUnseen
  refine raise_zonesOk _ _ (logCut_zonesOk z c _ (takeCut_zonesOk z c ?_))
  split
  · exact setZone_zonesOk z (unpinScene_zonesOk _ hs) fun h => Zone.ok_restack h _ le_rfl
  · next b above hst =>
    refine setZone_zonesOk z (unpinScene_zonesOk _ hs) fun h => Zone.ok_restack h _ ?_
    have hz : (s.unpinScene b.scene).zone z = s.zone z := by unfold State.zone; rw [(unpinScene_frame _ _).2.2.2.2.1]
    rw [hz, hst]
    exact le_rfl

theorem skipDue_zonesOk {s u : State} {z : ZoneId} {c : Option Cut} (h : s.skipDue z = (u, c)) (hs : s.zonesOk) :
    u.zonesOk := by
  have hu : u = (s.skipDue z).1 := by rw [h]
  rw [hu]
  exact zonesOk_foldl _ (fun s c h => skipCut_zonesOk z c h) _ hs

theorem settleDue_zonesOk (z : ZoneId) {s : State} (hs : s.zonesOk) : (s.settleDue z).zonesOk := by
  unfold State.settleDue
  split
  · exact hs
  · split
    · next h => exact skipDue_zonesOk h hs
    · next ha _ _ _ h =>
      have hu := skipDue_zonesOk h hs
      split
      · exact takeUnseen_zonesOk z _ hu
      split
      · exact abandonCut_zonesOk z _ hu
      · refine setZone_zonesOk z hu fun h => Zone.ok_armCut h

theorem checkArmed_zonesOk {s u : State} {z : ZoneId} {x : Option (Scene × Nat)} (h : s.checkArmed z = (u, x))
    (hs : s.zonesOk) : u.zonesOk := by
  unfold State.checkArmed at h
  dsimp only at h
  split at h
  · cases h; exact hs
  · cases h
    split
    · next g p k ha => exact setZone_zonesOk z hs fun h => Zone.ok_recount h ha (k + 1)
    · exact hs

/-! ### The boundary -/

theorem sendOrders_zonesOk {s : State} (c : Ctx) (n : Nat) (src : Tile → Source) (enter : State → Tile → State)
    (he : ∀ s t, s.zonesOk → (enter s t).zonesOk) (hs : s.zonesOk) : (s.sendOrders c n src enter).zonesOk := by
  refine zonesOk_foldl _ (fun s t hs => ?_) _ hs
  split
  · split
    · exact hs
    · exact hs
    · exact he (s.modScene fun e => { e with reported := upd e.reported t fun _ => some .inStep }) t hs
    · exact hs
  · exact hs

theorem orderFetch_zonesOk {s : State} (z : ZoneId) (a : Bool) (sc : Scene) (n : Nat) (hs : s.zonesOk) :
    (s.orderFetch z a sc n).zonesOk := by
  unfold State.orderFetch
  exact sendOrders_zonesOk _ _ _ _ (fun _ i h => setZone_zonesOk_same z h) (setZone_zonesOk_same z hs)

theorem zoneChoice_zonesOk (z : ZoneId) {s : State} (hs : s.zonesOk) : (s.zoneChoice z).zonesOk := by
  have h := settleDue_zonesOk z (armExpired_zonesOk z (armPending_zonesOk z (clearArmed_zonesOk z hs)))
  unfold State.zoneChoice
  dsimp only
  generalize (((s.clearArmed z).armPending z).armExpired z).settleDue z = t at h ⊢
  rcases hk : t.checkArmed z with ⟨u, r⟩
  have hu := checkArmed_zonesOk hk h
  rcases r with _ | ⟨sc, origin⟩
  · exact orderFetch_zonesOk z _ _ _ hu
  · exact orderFetch_zonesOk z _ _ _ hu

theorem zoneLit_zonesOk (e : Bool) (z : ZoneId) {s : State} (hs : s.zonesOk) : (s.zoneLit e z).zonesOk := by
  have h : (s.judged e z).zonesOk := by
    unfold State.judged
    split
    · exact unarmEarly_zonesOk z (zoneVerdict_zonesOk z hs)
    · exact zoneVerdict_zonesOk z hs
  rw [zoneLit_eq]
  split
  · exact setZone_zonesOk_same z h
  · exact zoneChoice_zonesOk z h

theorem zoneDark_zonesOk (z : ZoneId) {s : State} (hs : s.zonesOk) : (s.zoneDark z).zonesOk := by
  have h0 : (s.setZone z fun zn => { zn with fetch := none, delivered := 0 }).zonesOk := setZone_zonesOk_same z hs
  unfold State.zoneDark
  dsimp only
  split
  · exact h0
  · split
    · next h => exact skipDue_zonesOk h h0
    · next h => exact takeUnseen_zonesOk z _ (skipDue_zonesOk h h0)

theorem modBackground_zonesOk (f : Background → Background) {s : State} (hs : s.zonesOk) :
    (s.modBackground f).zonesOk := hs

theorem backgroundLit_zonesOk {s : State} (hs : s.zonesOk) : s.backgroundLit.zonesOk := by
  have h : s.tellBackground.zonesOk := zonesOk_of_scene (tellBackground_scene s).1 hs
  rw [backgroundLit_eq]
  split
  · exact modBackground_zonesOk _ h
  · exact sendOrders_zonesOk _ _ _ _ (fun _ _ h => modBackground_zonesOk _ h) (modBackground_zonesOk _ h)

theorem unwind_zonesOk (z : ZoneId) {s : State} (hs : s.zonesOk) : (s.unwind z).zonesOk := by
  unfold State.unwind
  dsimp only
  split
  · exact hs
  · refine setZone_zonesOk z (zonesOk_foldl _ (fun s x h => dropContext_zonesOk x h) _ hs) fun h => ?_
    exact Zone.ok_restack h _ (Nat.zero_le _)

theorem dropArmed_zonesOk (z : ZoneId) {s : State} (hs : s.zonesOk) : (s.dropArmed z).zonesOk := by
  unfold State.dropArmed
  split
  · refine disarm_zonesOk z ?_
    split
    · exact loseCut_zonesOk z _ _ hs
    · exact hs
  · exact disarm_zonesOk z (freeGate_zonesOk _ _ _ hs)
  · exact disarm_zonesOk z hs

theorem dropPending_zonesOk (z : ZoneId) {s : State} (hs : s.zonesOk) : (s.dropPending z).zonesOk := by
  unfold State.dropPending
  refine setZone_zonesOk z ?_ Zone.ok_unpend
  split
  · exact freeGate_zonesOk _ _ _ hs
  · exact hs

theorem windBack_zonesOk (z : ZoneId) {s : State} (hs : s.zonesOk) : (s.windBack z).zonesOk :=
  setZone_zonesOk_same z (dropPending_zonesOk z (dropArmed_zonesOk z (unwind_zonesOk z hs)))

theorem darkEntry_zonesOk {s : State} (hs : s.zonesOk) : s.darkEntry.zonesOk := by
  have h : (allZones.foldl State.windBack ((s.modScene fun e => { e with change := none }).setWindow
      .darkening)).zonesOk :=
    zonesOk_foldl _ (fun _ z h => windBack_zonesOk z h) _ (zonesOk_of_zones (setWindow_zones _ _).1 hs)
  unfold State.darkEntry
  dsimp only
  generalize allZones.foldl State.windBack _ = t at h ⊢
  refine zonesOk_foldl (fun (s : State) i => s.toUnit i .powerOff) (fun _ _ h => h) _ (zonesOk_of_zones ?_ h)
  simp [State.modBackground]

theorem takeChange_zonesOk {s : State} (hs : s.zonesOk) : s.takeChange.zonesOk := by
  unfold State.takeChange
  dsimp only
  split
  · split
    · exact darkEntry_zonesOk hs
    · exact hs
  · split
    · exact zonesOk_of_zones (wakeEntry_zones s).1 hs
    · exact hs
  · exact hs

theorem frameBoundary_zonesOk {s : State} (hs : s.zonesOk) : (frameBoundary s).zonesOk := by
  unfold frameBoundary
  split
  · dsimp only
    have h := takeChange_zonesOk (s := (s.send .sync).modScene fun e =>
      { e with frame := e.nextFrame, epoch := none }) hs
    generalize State.takeChange _ = t at h ⊢
    refine zonesOk_of_scene (modMail_scene _ _) ?_
    split
    · exact backgroundLit_zonesOk (zonesOk_foldl _ (fun _ z h => zoneLit_zonesOk _ z h) _ h)
    · exact modBackground_zonesOk _ (zonesOk_foldl _ (fun _ z h => zoneDark_zonesOk z h) _ h)
  · exact hs

/-! ### The requests -/

theorem checked_zonesOk {s : State} (c : Caller) (ts : List Test) {act : State → State} (b : Body)
    (ha : firstFailure ts = none → (act s).zonesOk) (hs : s.zonesOk) : (s.checked c ts act b).zonesOk := by
  unfold State.checked
  split
  · exact reply_zonesOk _ _ _ hs
  · next hf => exact ha hf

theorem modScene_zonesOk {f : SceneEngine → SceneEngine} {s : State} (hs : s.zonesOk)
    (hf : ∀ e, (f e).zones = e.zones := by exact fun _ => rfl) : (s.modScene f).zonesOk :=
  zonesOk_of_zones (hf s.scene) hs

theorem moveTile_zonesOk (z : ZoneId) (into : Bool) (t : Tile) {s : State} (hs : s.zonesOk) :
    (s.moveTile z into t).zonesOk := by
  unfold State.moveTile
  dsimp only
  have hu : (s.setUnit t fun u => { u with ctx := some (if into then .zone z else .background) }).zonesOk := hs
  generalize s.setUnit t _ = u at hu ⊢
  split
  · exact modScene_zonesOk (setZone_zonesOk_same z hu)
  · exact modScene_zonesOk (setZone_zonesOk_same z hu)

theorem reshape_zonesOk (z : ZoneId) (r : Option Rect) {s : State} (hs : s.zonesOk) : (s.reshape z r).zonesOk := by
  unfold State.reshape
  refine zonesOk_foldl _ (fun s t h => ?_) _ (setZone_zonesOk_same z hs)
  split
  · dsimp only
    split
    · exact h
    · exact moveTile_zonesOk _ _ _ h
  · exact h

theorem setZone_request_zonesOk (zone presence col row cols rows : Byte) (c : Caller) {s : State} (hs : s.zonesOk) :
    (setZone zone presence col row cols rows c s).zonesOk := by
  unfold setZone
  refine checked_zonesOk _ _ _ (fun _ => ?_) hs
  split
  · next z _ =>
    split
    · exact reply_zonesOk _ _ _ (reshape_zonesOk _ _ hs)
    · have h : ((s.reshape z none).setZone z fun zn => { zn with holder := none }).zonesOk :=
        setZone_zonesOk_same z (reshape_zonesOk _ _ hs)
      refine reply_zonesOk _ _ _ ?_
      generalize ((s.reshape z none).setZone z fun zn => { zn with holder := none }) = t at h ⊢
      split
      · split
        · exact h
        · exact raise_zonesOk _ _ h
      · exact h
  · exact hs

theorem claimZone_zonesOk (zone : Byte) (c : Caller) {s : State} (hs : s.zonesOk) : (claimZone zone c s).zonesOk := by
  unfold claimZone
  refine checked_zonesOk _ _ _ (fun _ => ?_) hs
  split
  · exact reply_zonesOk _ _ _ (setZone_zonesOk_same _ hs)
  · exact hs

theorem releaseZone_request_zonesOk (zone : Byte) (c : Caller) {s : State} (hs : s.zonesOk) :
    (releaseZone zone c s).zonesOk := by
  unfold releaseZone
  refine checked_zonesOk _ _ _ (fun _ => ?_) hs
  split
  · exact reply_zonesOk _ _ _ (releaseZone_zonesOk _ hs)
  · exact hs

theorem handOver_zonesOk (zone port : Byte) (c : Caller) {s : State} (hs : s.zonesOk) :
    (handOver zone port c s).zonesOk := by
  unfold handOver
  refine checked_zonesOk _ _ _ (fun _ => ?_) hs
  split
  · refine reply_zonesOk _ _ _ ?_
    split
    · exact hs
    · exact passZone_zonesOk _ _ hs
  · exact hs

theorem seizeZone_zonesOk (zone : Byte) (c : Caller) {s : State} (hs : s.zonesOk) : (seizeZone zone c s).zonesOk := by
  unfold seizeZone
  refine checked_zonesOk _ _ _ (fun _ => ?_) hs
  split
  · refine reply_zonesOk _ _ _ ?_
    dsimp only
    split
    · exact hs
    · split
      · exact raise_zonesOk _ _ (passZone_zonesOk _ _ hs)
      · exact passZone_zonesOk _ _ hs
  · exact hs

theorem insertCut_length (c : Cut) (cs : List Cut) : (insertCut c cs).length = cs.length + 1 := by
  induction cs with
  | nil => rfl
  | cons d ds ih => unfold insertCut; split <;> simp [ih]

theorem mem_insertCut {c x : Cut} {cs : List Cut} : x ∈ insertCut c cs ↔ x = c ∨ x ∈ cs := by
  induction cs with
  | nil => simp [insertCut]
  | cons d ds ih =>
    unfold insertCut
    split
    · simp
    · simp only [List.mem_cons, ih]
      tauto

/-- A cut joins a queue of rising targets at its place. -/
theorem insertCut_rising {c : Cut} {cs : List Cut} (h : cs.Pairwise fun a b => a.target < b.target)
    (hc : ∀ d ∈ cs, d.target ≠ c.target) : (insertCut c cs).Pairwise fun a b => a.target < b.target := by
  induction cs with
  | nil => simp [insertCut]
  | cons d ds ih =>
    obtain ⟨hd, hds⟩ := List.pairwise_cons.1 h
    have hne := hc d (by simp)
    unfold insertCut
    split
    · next hlt =>
      refine List.pairwise_cons.2 ⟨fun x hx => ?_, h⟩
      rcases List.mem_cons.1 hx with rfl | hx
      · exact hlt
      · exact hlt.trans (hd x hx)
    · next hlt =>
      refine List.pairwise_cons.2 ⟨fun x hx => ?_, ih hds fun x hx => hc x (by simp [hx])⟩
      rcases mem_insertCut.1 hx with rfl | hx
      · omega
      · exact hd x hx

theorem queueCut_zonesOk (zone : Byte) (target : BitVec 48) (label : BitVec 16) (slip : Byte) (sc : List RawPlacement)
    (c : Caller) {s : State} (hs : s.zonesOk) : (queueCut zone target label slip sc c s).zonesOk := by
  unfold queueCut
  refine checked_zonesOk _ _ _ (fun hf => ?_) hs
  split
  · next z hz =>
    have hall := (firstFailure_none_iff _).1 hf
    have hd : ∀ d ∈ (s.zone z).cuts, d.target ≠ target.toNat := by
      simpa [hz] using hall ((((zoneField zone).map fun z => (s.zone z).cuts).getD []).all fun c =>
        c.target ≠ target.toNat, .duplicate) (by simp [queueCutTests])
    have hl : (s.zone z).cuts.length < 8 := by
      simpa [hz] using hall ((((zoneField zone).map fun z => (s.zone z).cuts).getD []).length < 8, .queueFull)
        (by simp [queueCutTests])
    refine reply_zonesOk _ _ _ (setZone_zonesOk z (zonesOk_of_scene (pinScene_frame _ _).2.2.2.2.1 hs) fun h => ?_)
    have hzone : (s.pinScene (sc.map placementOf)).zone z = s.zone z := by
      unfold State.zone
      rw [(pinScene_frame _ _).2.2.2.2.1]
    rw [hzone] at h ⊢
    obtain ⟨-, h2, h3⟩ := h
    exact ⟨by rw [insertCut_length]; omega, insertCut_rising h2 hd, h3⟩
  · exact hs

theorem withdrawCut_zonesOk (zone : Byte) (target : BitVec 48) (c : Caller) {s : State} (hs : s.zonesOk) :
    (withdrawCut zone target c s).zonesOk := by
  unfold withdrawCut
  refine checked_zonesOk _ _ _ (fun _ => ?_) hs
  split
  · exact reply_zonesOk _ _ _ (loseCut_zonesOk _ _ _ hs)
  · exact hs

/-- An invocation is pending on a zone that takes it. -/
theorem Zone.ok_invoked {zn : Zone} (h : zn.ok) (g : GateId) (p : Port) (ht : zn.takesInvocation = true)
    (hl : zn.stack.length < 3) : Zone.ok { zn with pend := some (.invocation g p) } := by
  obtain ⟨h1, h2, h3, h4, -, -⟩ := h
  refine ⟨h1, h2, h3, h4, fun _ => Nat.le_of_lt_succ hl, fun _ => ?_⟩
  unfold Zone.takesInvocation at ht
  rcases ha : zn.armed with _ | _ | _ | _ <;> simp_all

/-- A return is pending on a zone with nothing armed. -/
theorem Zone.ok_returning {zn : Zone} (h : zn.ok) (ha : zn.armed = none) : Zone.ok { zn with pend := some .ret } := by
  obtain ⟨h1, h2, h3, h4, -, -⟩ := h
  refine ⟨h1, h2, h3, h4, fun hg => ?_, fun _ => .inl ha⟩
  rcases hg with ⟨_, _, hg⟩ | ⟨_, _, _, hg⟩
  · cases hg
  · exact absurd (ha.symm.trans hg) (by simp)

theorem invokeGate_zonesOk (gate : Byte) (c : Caller) {s : State} (hs : s.zonesOk) :
    (invokeGate gate c s).zonesOk := by
  unfold invokeGate
  refine checked_zonesOk _ _ _ (fun hf => ?_) hs
  split
  · next g e _ he =>
    have hall := (firstFailure_none_iff _).1 hf
    have ht : (s.zone e.zone).takesInvocation = true := by
      simpa [he] using hall ((s.gateAt gate).any fun e => (s.zone e.zone).takesInvocation, .busy)
        (by simp [invokeGateTests])
    have hl : (s.zone e.zone).stack.length < 3 := by
      simpa [he] using hall ((s.gateAt gate).any fun e => decide ((s.zone e.zone).stack.length < 3), .nestFull)
        (by simp [invokeGateTests])
    exact reply_zonesOk _ _ _ (setZone_zonesOk (s := s.useGate g (.invoked c.port)) _ hs fun h =>
      Zone.ok_invoked h g c.port ht hl)
  · exact hs

theorem returnGate_zonesOk (zone : Byte) (c : Caller) {s : State} (hs : s.zonesOk) :
    (returnGate zone c s).zonesOk := by
  unfold returnGate
  dsimp only
  refine checked_zonesOk _ _ _ (fun hf => ?_) hs
  split
  · next z hz =>
    have ha : (s.zone z).armed = none ∧ (s.zone z).pend = none := by
      simpa [hz] using (firstFailure_none_iff _).1 hf (((zoneField zone).map s.zone).any fun zn =>
        decide (zn.armed = none ∧ zn.pend = none), .state) (by simp)
    exact reply_zonesOk _ _ _ (setZone_zonesOk z hs fun h => Zone.ok_returning h ha.1)
  · exact hs

theorem takeDelivery_zonesOk (t : Tile) (n : Nat) {s : State} (hs : s.zonesOk) : (s.takeDelivery t n).zonesOk := by
  unfold State.takeDelivery
  split
  · split
    · exact setZone_zonesOk_same _ hs
    · exact hs
  · split <;> exact hs
  · exact hs

theorem takeStateReport_zonesOk (t : Tile) (st : TileState) {s : State} (hs : s.zonesOk) :
    (s.takeStateReport t st).zonesOk := by
  unfold State.takeStateReport State.leaveStep
  split
  · exact hs
  · dsimp only
    split
    · exact hs
    · split
      · exact setZone_zonesOk_same (s := s.modScene _) _ hs
      · exact hs
      · exact hs

theorem portLoss_zonesOk (p : Port) {s : State} (hs : s.zonesOk) : (portLoss p s).zonesOk := by
  unfold portLoss
  split
  · dsimp only
    have hz : ((s.setPort p fun r =>
        { r with up := false, events := 0, mask := 0, transit := none, waiting := [] }).releaseZonesOf p).zonesOk := by
      refine zonesOk_foldl _ (fun s z h => ?_) _ (zonesOk_of_scene (setPort_scene s p _) hs)
      split
      · exact releaseZone_zonesOk z h
      · exact h
    generalize State.releaseZonesOf _ p = t at hz ⊢
    refine zonesOk_foldl _ (fun s z h => loseInvoker_zonesOk p z h) _ (zonesOk_of_zones ?_ hz)
    unfold State.removeEditOf
    split <;> simp
  · exact hs

theorem configure_zonesOk (rate : Byte) (slots : BitVec 16) (cols rows : Byte) (positions : Vector Byte 16)
    (presence : Byte) (start : BitVec 48) (c : Caller) {s : State} (hs : s.zonesOk) :
    (configure rate slots cols rows positions presence start c s).zonesOk := by
  unfold configure
  refine checked_zonesOk _ _ _ (fun _ => ?_) hs
  exact reply_zonesOk _ _ _ (initial_zonesOk (by simp))

theorem resetWindow_zonesOk (c : Caller) {s : State} (hs : s.zonesOk) : (resetWindow c s).zonesOk := by
  unfold resetWindow
  refine checked_zonesOk _ _ _ (fun _ => ?_) hs
  dsimp only
  generalize allPorts.foldl State.cancelTransit _ = u
  exact initial_zonesOk (by simp [State.resetBlocks])

/-- The commands of the scene engine that change a zone's cuts, log, stack or items. -/
theorem atBlock_zonesOk (i : Instr) (c : Caller) {s : State} (hs : s.zonesOk) : (atBlock i c s).zonesOk := by
  cases i with
  | powerOnReset => exact initial_zonesOk (by simp [atBlock, State.reset])
  | configure => exact configure_zonesOk _ _ _ _ _ _ _ c hs
  | resetWindow => exact resetWindow_zonesOk c hs
  | portLoss p => exact portLoss_zonesOk p hs
  | frameBoundary => exact frameBoundary_zonesOk hs
  | setZone => exact setZone_request_zonesOk _ _ _ _ _ _ c hs
  | claimZone => exact claimZone_zonesOk _ c hs
  | releaseZone => exact releaseZone_request_zonesOk _ c hs
  | handOver => exact handOver_zonesOk _ _ c hs
  | seizeZone => exact seizeZone_zonesOk _ c hs
  | queueCut => exact queueCut_zonesOk _ _ _ _ _ c hs
  | withdrawCut => exact withdrawCut_zonesOk _ _ c hs
  | invokeGate => exact invokeGate_zonesOk _ c hs
  | returnGate => exact returnGate_zonesOk _ c hs
  | defineGate =>
    refine checked_zonesOk _ _ _ (fun _ => ?_) hs
    dsimp only
    split
    · exact reply_zonesOk _ _ _ (zonesOk_of_zones (by simp) hs)
    · exact hs
  | clearGate =>
    refine checked_zonesOk _ _ _ (fun _ => ?_) hs
    split
    · exact reply_zonesOk _ _ _ (zonesOk_of_zones (by simp) hs)
    · exact hs
  | deliveryReport t =>
    simp only [atBlock, deliveryReport]
    split
    · exact takeDelivery_zonesOk t _ (zonesOk_of_scene (s := s) rfl hs)
    · exact hs
  | stateReport t =>
    simp only [atBlock, stateReport]
    split
    · exact takeStateReport_zonesOk t _ (zonesOk_of_scene (s := s) rfl hs)
    · exact hs
  | _ => exact (atBlock_zones _ rfl c s).zonesOk hs

/-- Settles O58: each command keeps the zones legal at its block, and the course of a request leaves them alone. -/
theorem zonesStayLegal : Obligations.ZonesStayLegal := fun _ _ hs h =>
  step_keeps (P := State.zonesOk) (fun _ _ _ _ h => h) (fun i c _ => atBlock_zonesOk i c) h hs

end Sys2Proof.Machine
end

