-- ==== Sys2Proof/Proofs/Reset.lean ====
section
/-! A step and the queue, and the state after power-on reset (R24, R45, R48, R82, R84, R103, R122, R140, R159, R186). -/

namespace Sys2Proof.Machine

/-- Settles O1: by the two cases of the queue. -/
theorem stepTakesTheFrontCommand : Obligations.StepTakesTheFrontCommand := by
  refine ⟨fun c rest s hp => ?_, fun s hp => ?_⟩ <;> unfold step <;> rw [hp]

/-- At its block no command touches the queue. -/
theorem atBlock_pending (i : Instr) (c : Caller) (s : State) : (atBlock i c s).pending = s.pending := by
  cases i <;> simp [atBlock]

theorem serve_pending {act : Caller → State → State} (ha : ∀ c s, (act c s).pending = s.pending) (h : Hdr)
    (code : Byte) (self : Hdr → Instr) (any : Bool) (s : State) : (serve h code self any act s).pending = s.pending := by
  unfold serve
  dsimp only
  split
  · rfl
  cases h.stage
  case take =>
    dsimp only
    split
    · rw [(goOn_frame _ _).2.2.2.2.2.2.2, ha, setPort_pending]
    · rfl
  all_goals
    dsimp only
    repeat' split
    all_goals simp [ha, State.wait]

theorem serveAtPort_pending {act : Caller → State → State} (ha : ∀ c s, (act c s).pending = s.pending) (h : Hdr)
    (code : Byte) (self : Hdr → Instr) (s : State) : (serveAtPort h code self act s).pending = s.pending := by
  unfold serveAtPort
  dsimp only
  repeat' split
  all_goals simp [ha, State.wait]

/-- Settles O2: by the course of the command, with what every block does to the queue. -/
theorem everyCommandIsCarriedOut : Obligations.EveryCommandIsCarriedOut := by
  intro c s
  rcases exec_course c s with ⟨h, code, self, any, -, he⟩ | ⟨h, code, self, he⟩ | he
  · exact ⟨_, he, serve_pending (atBlock_pending c) h code self any s⟩
  · exact ⟨_, he, serveAtPort_pending (atBlock_pending c) h code self s⟩
  · exact ⟨_, he ⟨0, 0, 0⟩, atBlock_pending c _ s⟩

/-! ### Power-on reset -/

theorem reset_page (pg : Handle) : State.reset.page pg = none := by
  simp [State.page, State.reset, Directory.initial]

theorem reset_port (p : Port) : State.reset.ports[p] = .initial .monitor := by simp [State.reset]

theorem reset_zone (z : ZoneId) : State.reset.zone z = .initial := by
  simp [State.zone, State.reset, SceneEngine.initial]

theorem reset_gate (g : GateId) : State.reset.gate g = none := by
  simp [State.gate, State.reset, SceneEngine.initial]

theorem reset_chan (c : ChanId) : State.reset.load.chans[c] = none := by simp [State.reset, LoadEngine.initial]

theorem reset_unit (t : Tile) : State.reset.units[t] = .initial false := by simp [State.reset]

theorem reset_reported (t : Tile) : State.reset.scene.reported[t] = none := by simp [State.reset, SceneEngine.initial]

/-- Settles O3: each block's entries by its own value after reset. -/
theorem resetHoldsThePowerOnValues : Obligations.ResetHoldsThePowerOnValues := by
  unfold Obligations.ResetHoldsThePowerOnValues
  dsimp only
  refine ⟨fun p => ?ports, reset_page, rfl, rfl, rfl, rfl, rfl, rfl, rfl, rfl, rfl, rfl, rfl, rfl, rfl, rfl, rfl,
    reset_chan, rfl, rfl, rfl, rfl, rfl, rfl, rfl, reset_reported, fun z => ?zones, rfl, reset_gate, fun t => ?units⟩
  case ports => rw [reset_port]; exact ⟨rfl, rfl, rfl, by decide, rfl, rfl⟩
  case zones => rw [reset_zone]; exact ⟨rfl, rfl, rfl, rfl, rfl, rfl, rfl, rfl, rfl, rfl, rfl, rfl, rfl⟩
  case units => rw [reset_unit]; exact ⟨rfl, rfl, rfl, rfl, rfl, rfl, rfl, rfl, rfl⟩

/-- The class that straps give is the one that the spec's table gives (R170). -/
theorem classOfStraps_eq (b : BitVec 2) : classOfStraps b = strapClass b := by
  revert b
  decide

/-- Settles O4: every block is that of power-on reset, and the ports have the classes of their straps. -/
theorem powerOnResetRestoresEveryBlock : Obligations.PowerOnResetRestoresEveryBlock := by
  intro straps s
  have hp : straps.map (fun b => PortRec.initial (classOfStraps b)) = Vector.ofFn fun p : Fin 4 =>
      { up := false, cls := strapClass straps[p], events := 0, mask := 0, transit := none, waiting := [] } := by
    ext i hi : 1
    simp [classOfStraps_eq, PortRec.initial]
  simp only [exec, execPowerOnReset, hp]

/-- Settles O55: each law speaks of blocks that are empty after reset. -/
theorem theInvariantsHoldAtReset : Obligations.TheInvariantsHoldAtReset := by
  have hfree (n : Nat) : ¬ State.reset.slotFree n := by
    rintro ⟨r, hr, -⟩
    cases hr
  have hholds (h : Handle) (n : Nat) : ¬ State.reset.pageHolds h n := by
    rintro ⟨p, hp, -⟩
    cases (reset_page h).symm.trans hp
  refine ⟨⟨rfl, rfl⟩, ⟨by decide, by decide, fun _ => by decide, fun _ => by decide⟩,
    ⟨by decide, List.nodup_nil, by decide⟩, fun p => ?ports, fun t => ?power, ⟨by decide, fun n hn => by cases hn⟩,
    fun z => ?zones, ⟨⟨nofun, List.Pairwise.nil⟩, fun h p hp => ?_, fun h n hn => absurd hn (hholds h n),
      fun h k n hn => absurd hn (hholds h n), fun n hn => absurd hn (hfree n), fun n hn => absurd hn (Nat.not_lt_zero n)⟩,
    fun _ => ⟨rfl, fun p i hi => ?transit⟩, ⟨fun h p hp => ?_, fun h => ?writers, fun c l n k hl => ?_⟩,
    fun pg _ => ?pins, List.nodup_nil⟩
  case ports => rw [reset_port]; exact ⟨fun _ => ⟨rfl, rfl, rfl⟩, fun _ => rfl⟩
  case power => rw [reset_unit]; rfl
  case zones => rw [reset_zone]; exact ok_initial
  case transit => rw [reset_port] at hi; cases hi
  case writers =>
    have hc : (allChans.countP fun c => (State.reset.load.chans[c]).any (·.blockOf h)) = 0 :=
      List.countP_eq_zero.2 fun c _ => by rw [reset_chan]; simp
    unfold State.writers
    rw [hc, reset_page]
    rfl
  case pins =>
    have hz : ∀ z : ZoneId, (State.reset.zone z).references pg = 0 := fun z => by rw [reset_zone]; rfl
    unfold State.references
    rw [reset_page]
    simp only [hz, reset_gate]
    simp [State.reset, EditUnit.initial]
  · cases (reset_page h).symm.trans hp
  · cases (reset_page h).symm.trans hp
  · cases (reset_chan c).symm.trans hl

end Sys2Proof.Machine
end

