-- ==== Sys2Proof/Proofs/Requests.lean ====
section
/-! The course of a request, and of those that wait (R171 to R175, R188, log entry 28); the events (R180 to R183); and
the requests that only record or report (R98, R160, R161, R185). -/

namespace Sys2Proof.Machine

/-! ### The course of a request -/

theorem serveAtPort_down {h : Hdr} {code : Byte} {self : Hdr → Instr} {act : Caller → State → State} {s : State}
    (hd : s.ports[h.port].up = false ∨ h.stage = .take) : serveAtPort h code self act s = s := by
  unfold serveAtPort
  dsimp only
  rw [if_pos hd]

theorem exec_request_down {i : Instr} {h : Hdr} {code : Byte} {f : List Byte} {s : State}
    (hr : i.request = some (h, code, f)) (hd : s.ports[h.port].up = false) : exec i s = .next s := by
  rcases request_shape i h code f hr with ⟨-, self, act, -, he, -⟩ | ⟨-, -, self, any, act, -, he, -⟩
  · rw [he, serveAtPort_down (.inl hd)]
  · rw [he, serve_down hd]

theorem exec_request_absent {i : Instr} {h : Hdr} {code : Byte} {f : List Byte} {s : State}
    (hr : i.request = some (h, code, f)) (hk : h.stage = .take) (ht : s.ports[h.port].transit ≠ some i) :
    exec i s = .next s := by
  rcases request_shape i h code f hr with ⟨-, self, act, -, he, -⟩ | ⟨-, -, self, any, act, hs, he, -⟩
  · rw [he, serveAtPort_down (.inr hk)]
  · rw [he, serve_absent hk (by rwa [hs])]

theorem exec_request_behind {i : Instr} {h : Hdr} {code : Byte} {f : List Byte} {s : State}
    (hr : i.request = some (h, code, f)) (hn : h.stage ≠ .take) (hu : s.ports[h.port].up = true)
    (ht : s.ports[h.port].transit ≠ none) :
    ∃ j : Instr, j.request = some ({ h with stage := .take }, code, f) ∧ exec i s = .next (s.wait h.port j) := by
  have hb : s.ports[h.port].transit.isSome := Option.isSome_iff_ne_none.2 ht
  rcases request_shape i h code f hr with ⟨-, self, act, -, he, hq⟩ | ⟨-, -, self, any, act, -, he, -, hq⟩
  · exact ⟨_, hq { h with stage := .take }, by rw [he, serveAtPort_behind hn hu hb]⟩
  · exact ⟨_, hq { h with stage := .take }, by rw [he, serve_behind hn hu hb]⟩

theorem exec_request_pass {i : Instr} {h : Hdr} {code : Byte} {f : List Byte} {s : State}
    (hr : i.request = some (h, code, f)) (hs : h.stage = .pass) (h120 : code ≠ 120) (h121 : code ≠ 121)
    (hu : s.ports[h.port].up = true) (ht : s.ports[h.port].transit = none)
    (hw : s.window ≠ .unconfigured ∨ code = 1 ∨ code = 2 ∨ code = 6 ∨ code = 113) :
    ∃ j : Instr, j.request = some ({ h with stage := .take }, code, f) ∧
      exec i s = .next (s.setPort h.port fun p => { p with transit := some j }) := by
  rcases request_shape i h code f hr with ⟨hc, -⟩ | ⟨-, -, self, any, act, -, he, ha, hq⟩
  · exact absurd hc (not_or.2 ⟨h120, h121⟩)
  · exact ⟨_, hq { h with stage := .take }, by rw [he, serve_pass hs hu ht (by rw [ha, decide_eq_true_iff]; tauto)]⟩

theorem exec_request_unconfigured {i : Instr} {h : Hdr} {code : Byte} {f : List Byte} {s : State}
    (hr : i.request = some (h, code, f)) (hn : h.stage ≠ .take) (hu : s.ports[h.port].up = true)
    (ht : s.ports[h.port].transit = none) (hw : s.window = .unconfigured)
    (hc : ¬ (code = 1 ∨ code = 2 ∨ code = 6 ∨ code = 113)) (h120 : code ≠ 120) (h121 : code ≠ 121) :
    exec i s = .next (s.answered h code .notConfigured (unreachedBody code)) := by
  rcases request_shape i h code f hr with ⟨hc', -⟩ | ⟨-, -, self, any, act, -, he, ha, -⟩
  · exact absurd hc' (not_or.2 ⟨h120, h121⟩)
  · have ha' : any = false := ha.trans (decide_eq_false hc)
    subst ha'
    rw [he, serve_unconfigured hn hu ht hw]
    rfl

theorem badRequest_dropped {p : Port} {frame : List Byte} {s : State}
    (h : hasForm frame = true ∨ s.ports[p].up = false) : badRequest p frame s = s := by
  unfold badRequest
  rw [if_pos h]

theorem badRequest_behind {p : Port} {frame : List Byte} {s : State} (hf : hasForm frame = false)
    (hu : s.ports[p].up = true) (ht : s.ports[p].transit ≠ none) :
    badRequest p frame s = s.wait p (.badRequest p frame) := by
  unfold badRequest
  rw [if_neg (not_or.2 ⟨by simp [hf], by rw [hu]; simp⟩), if_pos (Option.isSome_iff_ne_none.2 ht)]

theorem badRequest_examined {p : Port} {frame : List Byte} {s : State} (hf : hasForm frame = false)
    (hu : s.ports[p].up = true) (ht : s.ports[p].transit = none) :
    badRequest p frame s = answerBadRequest p frame s := by
  unfold badRequest
  rw [if_neg (not_or.2 ⟨by simp [hf], by rw [hu]; simp⟩), if_neg (by rw [ht]; simp)]

theorem reply_sends {s : State} {c : Caller} {st : Status} {b : Body} (hu : s.ports[c.port].up = true) :
    s.reply c st b =
      { s with out := s.out ++ [.reply c.port { code := c.code, tag := c.tag, status := st, body := b }] } :=
  reply_up s c st b hu

theorem answerBadRequest_whole {p : Port} {code tag : Byte} {rest : List Byte} {s : State} :
    answerBadRequest p (code :: tag :: rest) s =
      s.reply { port := p, tag := tag, code := code } .badRequest (unreachedBody code) := rfl

theorem answerBadRequest_short {p : Port} {frame : List Byte} {s : State} (hl : frame.length < 2) :
    answerBadRequest p frame s = s.reply { port := p, tag := 0, code := 0 } .badRequest := by
  match frame, hl with
  | [], _ => rfl
  | [_], _ => rfl

/-- Settles O5: each stage of a request by the lemma of its course. -/
theorem requestsTakeTheirCourse : Obligations.RequestsTakeTheirCourse := by
  refine ⟨fun i h code f s hr => ⟨fun hd => exec_request_down hr hd, fun hk ht => exec_request_absent hr hk ht,
    fun hn hu ht => exec_request_behind hr hn hu ht,
    fun hs h120 h121 hu ht hw => exec_request_pass hr hs h120 h121 hu ht hw,
    fun hn hu ht hw h1 h2 h6 h113 h120 h121 =>
      exec_request_unconfigured hr hn hu ht hw (not_or.2 ⟨h1, not_or.2 ⟨h2, not_or.2 ⟨h6, h113⟩⟩⟩) h120 h121⟩, fun p frame s h => ?dropped,
    fun p frame s hf hu => ⟨fun ht => ⟨fun code tag rest he => ?whole, fun hl => ?short⟩, fun ht => ?behind⟩⟩
  case dropped => exact congrArg Host.Outcome.next (badRequest_dropped h)
  case whole =>
    subst he
    exact congrArg Host.Outcome.next ((badRequest_examined hf hu ht).trans (answerBadRequest_whole.trans (reply_sends hu)))
  case short =>
    exact congrArg Host.Outcome.next ((badRequest_examined hf hu ht).trans
      ((answerBadRequest_short hl).trans (reply_sends hu)))
  case behind => exact congrArg Host.Outcome.next (badRequest_behind hf hu ht)

/-! ### The requests that wait -/

/-- The requests that wait at a port are replaced. -/
def State.restWith (s : State) (p : Port) (w : List Instr) : State := s.setPort p fun r => { r with waiting := w }

theorem restWith_port (s : State) (p : Port) (w : List Instr) :
    (s.restWith p w).ports[p] = { s.ports[p] with waiting := w } := by
  simp [State.restWith]

theorem setPort_comm (s : State) (p : Port) {f g : PortRec → PortRec} (h : ∀ r, f (g r) = g (f r)) :
    (s.setPort p f).setPort p g = (s.setPort p g).setPort p f := by
  simp [State.setPort, upd, h]

theorem restWith_restWith (s : State) (p : Port) (v w : List Instr) : (s.restWith p v).restWith p w = s.restWith p w := by
  simp [State.restWith, State.setPort, upd]

theorem reply_restWith (s : State) (p : Port) (w : List Instr) (c : Caller) (st : Status) (b : Body) :
    (s.restWith p w).reply c st b = (s.reply c st b).restWith p w := by
  have hu : (s.restWith p w).ports[c.port].up = s.ports[c.port].up := by
    unfold State.restWith State.setPort
    simp only [upd_at]
    split <;> rfl
  unfold State.reply
  rw [hu]
  split <;> rfl

/-- What a port examines does not depend on those that wait behind. -/
theorem examine_restWith (s : State) (p : Port) (w : List Instr) (i : Instr) :
    (s.restWith p w).examine p i = (s.examine p i).restWith p w := by
  unfold State.examine
  split
  · exact reply_restWith s p w _ _ _
  · unfold getEvents
    dsimp only
    rw [show (s.restWith p w).setPort p (fun r => { r with events := 0 }) =
      (s.setPort p fun r => { r with events := 0 }).restWith p w from setPort_comm s p fun _ => rfl, reply_restWith,
      restWith_port]
  · unfold setEventMask State.checked
    split
    · exact reply_restWith s p w _ _ _
    · dsimp only
      rw [show ∀ m : EventSet, (s.restWith p w).setPort p (fun r => { r with mask := m }) =
        (s.setPort p fun r => { r with mask := m }).restWith p w from fun m => setPort_comm s p fun _ => rfl,
        reply_restWith, restWith_port]
  · split
    · split
      · next h => rw [if_pos (show s.window = .unconfigured ∧ Instr.servedUnconfigured i = false from h)]; exact reply_restWith s p w _ _ _
      · next h => rw [if_neg (show ¬ (s.window = .unconfigured ∧ Instr.servedUnconfigured i = false) from h)]; exact setPort_comm s p fun _ => rfl
    · rfl

theorem examineAll_restWith (p : Port) (l : List Instr) (s : State) (w : List Instr) :
    State.examineAll p l (s.restWith p w) = State.examineAll p l s := by
  induction l generalizing s with
  | nil => exact restWith_restWith s p w []
  | cons i rest ih =>
    unfold State.examineAll
    dsimp only
    rw [examine_restWith, restWith_port]
    split
    · exact restWith_restWith _ p w rest
    · exact ih _

/-- A port passes on the first request that waits. -/
theorem goOn_passed {s : State} {p : Port} {i : Instr} {rest : List Instr} (ht : s.ports[p].transit = none)
    (hw : s.ports[p].waiting = i :: rest) (hp : (s.examine p i).ports[p].transit.isSome) :
    s.goOn p = (s.restWith p rest).examine p i := by
  rw [goOn_free ht, hw, examine_restWith]
  unfold State.examineAll
  dsimp only
  rw [if_pos hp]
  rfl

/-- A port answers the first request that waits, and goes on. -/
theorem goOn_answered {s : State} {p : Port} {i : Instr} {rest : List Instr} (ht : s.ports[p].transit = none)
    (hw : s.ports[p].waiting = i :: rest) (hp : (s.examine p i).ports[p].transit = none) :
    s.goOn p = ((s.restWith p rest).examine p i).goOn p := by
  have hf : ((s.restWith p rest).examine p i).ports[p].transit = none := by
    rw [examine_restWith, restWith_port]
    exact hp
  rw [goOn_free hf, goOn_free ht, hw, examine_restWith, restWith_port, examineAll_restWith]
  conv_lhs => unfold State.examineAll
  dsimp only
  rw [if_neg (by rw [hp]; simp)]

theorem servedUnconfigured_iff {i : Instr} {h : Hdr} {code : Byte} {f : List Byte} (hr : i.request = some (h, code, f)) :
    Instr.servedUnconfigured i = decide (code = 1 ∨ code = 2 ∨ code = 6 ∨ code = 113) := by
  cases i <;> simp only [Instr.request, Option.some.injEq, Prod.mk.injEq, reduceCtorEq] at hr
  all_goals (obtain ⟨rfl, rfl, rfl⟩ := hr; rfl)

/-- A request that its port does not own is refused or passed on. -/
theorem examine_request {i : Instr} {h : Hdr} {code : Byte} {f : List Byte} (hr : i.request = some (h, code, f))
    (h120 : code ≠ 120) (h121 : code ≠ 121) (s : State) (p : Port) : s.examine p i =
      if s.window = .unconfigured ∧ ¬ (code = 1 ∨ code = 2 ∨ code = 6 ∨ code = 113) then
        s.reply { port := p, tag := h.tag, code := code } .notConfigured (unservedBody code)
      else s.setPort p fun r => { r with transit := some i } := by
  have hs : Instr.servedUnconfigured i = false ↔ ¬ (code = 1 ∨ code = 2 ∨ code = 6 ∨ code = 113) := by
    rw [servedUnconfigured_iff hr, decide_eq_false_iff_not]
  unfold State.examine
  split
  · cases hr
  · cases hr; exact absurd rfl h120
  · cases hr; exact absurd rfl h121
  · rw [hr]
    simp only [hs]

/-- The state with a reply sent at a port. -/
abbrev State.toldAt (s : State) (p : Port) (code tag : Byte) (st : Status) (b : Body) : State :=
  { s with out := s.out ++ [.reply p { code := code, tag := tag, status := st, body := b }] }

theorem getEvents_up {p : Port} {tag code : Byte} {s : State} (hu : s.ports[p].up = true) :
    getEvents { port := p, tag := tag, code := code } s =
      (s.setPort p fun r => { r with events := 0 }).toldAt p code tag .ok (.kinds s.ports[p].events) :=
  reply_sends (s := s.setPort p fun r => { r with events := 0 }) (c := { port := p, tag := tag, code := code })
    (by simpa using hu)

theorem setEventMask_up {p : Port} {tag code : Byte} {m : BitVec 16} {s : State} (hu : s.ports[p].up = true)
    (hm : m.getLsbD 15 = false) : setEventMask m { port := p, tag := tag, code := code } s =
      (s.setPort p fun r => { r with mask := m.setWidth 15 }).toldAt p code tag .ok (.mask s.ports[p].mask) := by
  have hf : maskField m = some (m.setWidth 15) := by unfold maskField; rw [hm]; rfl
  unfold setEventMask
  rw [checked_pass (by simp [hf]), hf]
  exact reply_sends (s := s.setPort p fun r => { r with mask := m.setWidth 15 })
    (c := { port := p, tag := tag, code := code }) (by simpa using hu)

theorem setEventMask_refused {p : Port} {tag code : Byte} {m : BitVec 16} {s : State} (hu : s.ports[p].up = true)
    (hm : m.getLsbD 15 = true) : setEventMask m { port := p, tag := tag, code := code } s =
      s.toldAt p code tag .badField .none := by
  have hf : maskField m = none := by unfold maskField; rw [hm]; rfl
  unfold setEventMask
  rw [checked_fail (st := .badField) (by simp [hf])]
  exact reply_sends (c := { port := p, tag := tag, code := code }) hu

/-- Settles O6: a port goes on by examining the first request that waits, whatever waits behind it. -/
theorem waitingRequestsAreExamined : Obligations.WaitingRequestsAreExamined := by
  intro p s hu
  refine ⟨fun h => ?none, fun i rest ht hw => ?some⟩
  case none =>
    rcases h with h | h
    · exact goOn_behind (Option.isSome_iff_ne_none.2 h)
    · exact goOn_none h
  have hur : (s.restWith p rest).ports[p].up = true := by rw [restWith_port]; exact hu
  have htr : (s.restWith p rest).ports[p].transit = none := by rw [restWith_port]; exact ht
  have hfree {u : State} (he : (s.restWith p rest).examine p i = u) (hn : u.ports[p].transit = none) :
      s.goOn p = u.goOn p := by
    rw [← he]
    refine goOn_answered ht hw ?_
    have : ((s.examine p i).restWith p rest).ports[p].transit = none := by rw [← examine_restWith, he]; exact hn
    rwa [restWith_port] at this
  refine ⟨fun h code f hr h120 h121 => ⟨fun hc => ?passed, fun hwin h1 h2 h6 h113 => ?refused⟩, fun h hi => ?events,
    fun h m hi => ⟨fun hm => ?mask, fun hm => ?badMask⟩, fun q code tag frame hi => ?bad, fun q frame hi hl => ?short⟩
  case passed =>
    have hex : ∀ u : State, u.window = s.window → u.examine p i = u.setPort p fun r => { r with transit := some i } :=
      fun u hwin => by
        rw [examine_request hr h120 h121, if_neg]
        rw [hwin]
        tauto
    rw [goOn_passed ht hw (by rw [hex s rfl]; simp)]
    exact hex (s.restWith p rest) rfl
  case refused =>
    have hex := examine_request hr h120 h121 (s.restWith p rest) p
    rw [if_pos ⟨hwin, not_or.2 ⟨h1, not_or.2 ⟨h2, not_or.2 ⟨h6, h113⟩⟩⟩⟩, reply_sends (by exact hur)] at hex
    exact hfree hex htr
  case events =>
    subst hi
    have hex : (s.restWith p rest).examine p (.getEvents h) = _ := getEvents_up (tag := h.tag) (code := 120) hur
    rw [hfree hex (by simpa using htr)]
    rw [restWith_port]
    rfl
  case mask =>
    subst hi
    have hex : (s.restWith p rest).examine p (.setEventMask h m) = _ :=
      setEventMask_up (tag := h.tag) (code := 121) hur hm
    rw [hfree hex (by simpa using htr)]
    rw [restWith_port]
    rfl
  case badMask =>
    subst hi
    have hex : (s.restWith p rest).examine p (.setEventMask h m) = _ :=
      setEventMask_refused (tag := h.tag) (code := 121) hur hm
    exact hfree hex htr
  case bad =>
    subst hi
    have hex : (s.restWith p rest).examine p (.badRequest q (code :: tag :: frame)) = _ :=
      answerBadRequest_whole.trans (reply_sends hur)
    exact hfree hex htr
  case short =>
    subst hi
    have hex : (s.restWith p rest).examine p (.badRequest q frame) = _ :=
      (answerBadRequest_short hl).trans (reply_sends hur)
    exact hfree hex htr

/-! ### Requests of operators -/

theorem checked_denied {s : State} {c : Caller} (hc : s.cls c.port ≠ .operator) {ts : List Test}
    {act : State → State} {b : Body} :
    s.checked c ((decide (s.cls c.port = .operator), .denied) :: ts) act b = s.reply c .denied b :=
  checked_fail (by simp [hc])

theorem serve_denied {h : Hdr} {code : Byte} {self : Hdr → Instr} {any : Bool} {act : Caller → State → State}
    {s : State} {ts : List Test} {f : State → State} {b : Body} (r : s.reaches (self h) h any)
    (hc : s.cls h.port ≠ .operator)
    (ha : act { port := h.port, tag := h.tag, code := code } (s.taking h) =
      (s.taking h).checked { port := h.port, tag := h.tag, code := code }
        ((decide ((s.taking h).cls h.port = .operator), .denied) :: ts) f b) :
    serve h code self any act s = (s.taking h).answered h code .denied b :=
  serve_answers r (ha.trans (checked_denied (by rwa [taking_cls])))

/-- Settles O7: the first check of each of the eleven requests is that of the class. -/
theorem operatorRequestsAreDeniedToOthers : Obligations.OperatorRequestsAreDeniedToOthers := by
  intro i h code f s hr hmem r hc
  cases i <;> simp only [Instr.request, Option.some.injEq, Prod.mk.injEq, reduceCtorEq] at hr
  all_goals obtain ⟨rfl, rfl, rfl⟩ := hr
  case configure _ rate slots cols rows pos pres start =>
    exact ⟨.none, fun _ => rfl, congrArg Host.Outcome.next
      (serve_denied (self := (.configure · rate slots cols rows pos pres start)) r hc rfl)⟩
  case resetWindow => exact ⟨.none, fun _ => rfl, congrArg Host.Outcome.next (serve_denied (self := .resetWindow) r hc rfl)⟩
  case setEpoch _ n => exact ⟨.none, fun _ => rfl, congrArg Host.Outcome.next (serve_denied (self := (.setEpoch · n)) r hc rfl)⟩
  case darken _ pres n =>
    exact ⟨.none, fun _ => rfl, congrArg Host.Outcome.next (serve_denied (self := (.darken · pres n)) r hc rfl)⟩
  case wake _ pres n =>
    exact ⟨.none, fun _ => rfl, congrArg Host.Outcome.next (serve_denied (self := (.wake · pres n)) r hc rfl)⟩
  case purgePages _ o u =>
    exact ⟨.none, fun _ => rfl, congrArg Host.Outcome.next (serve_denied (self := (.purgePages · o u)) r hc rfl)⟩
  case setZone _ z pres c ro cs rs =>
    exact ⟨.none, fun _ => rfl, congrArg Host.Outcome.next
      (serve_denied (self := (.setZone · z pres c ro cs rs)) r hc (by unfold setZone setZoneTests; dsimp only))⟩
  case seizeZone _ z =>
    exact ⟨_, fun h => absurd rfl h, congrArg Host.Outcome.next (serve_denied (self := (.seizeZone · z)) r hc (by unfold seizeZone; dsimp only))⟩
  case defineGate _ g z l m d sc =>
    exact ⟨.none, fun _ => rfl, congrArg Host.Outcome.next
      (serve_denied (self := (.defineGate · g z l m d sc)) r hc rfl)⟩
  case clearGate _ g =>
    exact ⟨.none, fun _ => rfl, congrArg Host.Outcome.next (serve_denied (self := (.clearGate · g)) r hc rfl)⟩
  case retrainTile _ t =>
    exact ⟨.none, fun _ => rfl, congrArg Host.Outcome.next (serve_denied (self := (.retrainTile · t)) r hc (by unfold retrainTile; dsimp only))⟩
  all_goals exact absurd hmem (by decide)

/-! ### Events -/

theorem event_bit_lt (e : Event) : e.bit < 15 := by cases e <;> decide

theorem event_bit_inj {e k : Event} : k.bit = e.bit ↔ k = e := by cases e <;> cases k <;> decide

theorem take_events (p : PortRec) (e k : Event) :
    (p.take e).events.getLsbD k.bit = (p.events.getLsbD k.bit || (p.up && decide (k = e))) := by
  have hk := event_bit_lt k
  unfold PortRec.take
  cases hu : p.up
  · simp
  · simp [insertBit, hk, event_bit_inj, eq_comm]

theorem take_eq (p : PortRec) (e : Event) : p.take e = { p with events := (p.take e).events } := by
  unfold PortRec.take
  split <;> rfl

theorem event_of_bit {n : Nat} (h : n < 15) : ∃ e : Event, e.bit = n := by
  interval_cases n
  exacts [⟨.loadDone, rfl⟩, ⟨.loadFailed, rfl⟩, ⟨.cellFailed, rfl⟩, ⟨.cutShown, rfl⟩, ⟨.cutSkipped, rfl⟩,
    ⟨.cutAbandoned, rfl⟩, ⟨.cutUnseen, rfl⟩, ⟨.gateShown, rfl⟩, ⟨.gateEnded, rfl⟩, ⟨.gateAbandoned, rfl⟩,
    ⟨.zoneLost, rfl⟩, ⟨.pageDamaged, rfl⟩, ⟨.fault, rfl⟩, ⟨.tileChange, rfl⟩, ⟨.windowChange, rfl⟩]

theorem attention_iff (p : PortRec) :
    p.attention = true ↔ ∃ k : Event, p.events.getLsbD k.bit = true ∧ p.mask.getLsbD k.bit = true := by
  unfold PortRec.attention
  rw [bne_iff_ne, Ne, ← not_iff_not, not_not, not_exists]
  constructor
  · intro h k hk
    have := congrArg (·.getLsbD k.bit) h
    simp [hk] at this
  · intro h
    refine BitVec.eq_of_getLsbD_eq fun n hn => ?_
    obtain ⟨e, rfl⟩ := event_of_bit hn
    have := h e
    simpa using this

theorem raiseAll_at (s : State) (e : Event) (q : Port) : (s.raiseAll e).ports[q] = s.ports[q].take e := by
  simp [State.raiseAll]

theorem raiseOperators_at (s : State) (e : Event) (q : Port) :
    (s.raiseOperators e).ports[q] = if s.cls q = .operator then s.ports[q].take e else s.ports[q] := by
  simp [State.raiseOperators, State.cls]

/-- Settles O9: the event requests at the port, and where an event is heard. -/
theorem eventsAreReportedAndMasked : Obligations.EventsAreReportedAndMasked := by
  refine ⟨fun h s hn hu ht => ⟨?get, fun m hm => ?set, fun m hm => ?refused⟩, take_events, take_eq, attention_iff,
    fun s e p q => raise_at s p q e, raiseAll_at, raiseOperators_at⟩
  case get =>
    refine congrArg Host.Outcome.next ((serveAtPort_runs hn hu ht).trans ?_)
    rw [getEvents_up hu]
    exact (onward_of_not_take hn).symm
  case set =>
    refine congrArg Host.Outcome.next ((serveAtPort_runs hn hu ht).trans ?_)
    rw [setEventMask_up hu hm]
    exact (onward_of_not_take hn).symm
  case refused =>
    refine congrArg Host.Outcome.next ((serveAtPort_runs hn hu ht).trans ?_)
    rw [setEventMask_refused hu hm]
    exact (onward_of_not_take hn).symm

/-! ### Epochs and window changes -/

theorem checked_operator {s : State} {c : Caller} (hc : s.cls c.port = .operator) {ts : List Test}
    {act : State → State} {b : Body} :
    s.checked c ((decide (s.cls c.port = .operator), .denied) :: ts) act b = s.checked c ts act b := by
  unfold State.checked
  rw [firstFailure_cons, hc]
  rfl

theorem boolField_isSome {b : Byte} (h : b = 0 ∨ b = 1) : (boolField b).isSome = true := by
  rcases h with rfl | rfl <;> rfl

/-- Settles O12: each request by its checks. -/
theorem epochsAndWindowChangesArePending : Obligations.EpochsAndWindowChangesArePending := by
  refine ⟨fun h n s r hc => ⟨fun hn => ?epoch, fun hn => ?sameEpoch⟩,
    fun h presence n s r hc hp => ⟨fun hw => ?darken, fun hw => ?notLit⟩,
    fun h presence n s r hc hp => ⟨fun hw => ?wake, fun h1 h2 => ?notDark⟩⟩
  case epoch =>
    refine congrArg Host.Outcome.next (serve_effects (self := (.setEpoch · n))
      (t := { s.taking h with scene := { s.scene with epoch := some n.toNat } }) r ?_ rfl)
    exact (checked_operator (by rwa [taking_cls])).trans (checked_pass (by simp [hn]))
  case sameEpoch =>
    refine congrArg Host.Outcome.next (serve_answers (self := (.setEpoch · n)) r ?_)
    exact (checked_operator (by rwa [taking_cls])).trans (checked_fail (by simp [hn]))
  case darken =>
    refine congrArg Host.Outcome.next (serve_effects (self := (.darken · presence n)) (t := { s.taking h with scene :=
      { s.scene with change := some (.darken, if presence = 1 then some n.toNat else none) } }) r ?_ rfl)
    exact (checked_operator (by rwa [taking_cls])).trans (checked_pass (by simp [boolField_isSome hp, hw]))
  case notLit =>
    refine congrArg Host.Outcome.next (serve_answers (self := (.darken · presence n)) r ?_)
    exact (checked_operator (by rwa [taking_cls])).trans (checked_fail (by simp [boolField_isSome hp, hw]))
  case wake =>
    refine congrArg Host.Outcome.next (serve_effects (self := (.wake · presence n)) (t := { s.taking h with scene :=
      { s.scene with change := some (.wake, if presence = 1 then some n.toNat else none) } }) r ?_ rfl)
    exact (checked_operator (by rwa [taking_cls])).trans (checked_pass (by simp [boolField_isSome hp, hw]))
  case notDark =>
    refine congrArg Host.Outcome.next (serve_answers (self := (.wake · presence n)) r ?_)
    exact (checked_operator (by rwa [taking_cls])).trans (checked_fail (by simp [boolField_isSome hp, h1, h2]))

/-! ### The queries -/

theorem taking_ports_map {α : Type} (s : State) (h : Hdr) (f : PortRec → α)
    (hf : ∀ r, f { r with transit := none } = f r) : (s.taking h).ports.toList.map f = s.ports.toList.map f := by
  have hv : (s.taking h).ports.map f = s.ports.map f := by
    ext i hi
    have := upd_at s.ports h.port ⟨i, hi⟩ fun p => { p with transit := none }
    simp only [Vector.getElem_map]
    change f ((upd s.ports h.port fun p => { p with transit := none })[(⟨i, hi⟩ : Fin 4)]) = _
    rw [this]
    split
    · exact hf _
    · rfl
  have := congrArg Vector.toList hv
  simpa [Vector.toList_map] using this

theorem checked_field {n : Nat} {s : State} {c : Caller} {b : Byte} {x : Fin n} (hb : b.toNat = x.val)
    {act : State → State} :
    s.checked c [((fieldBelow n b).isSome, .badField)] act = act s :=
  checked_pass (by simp [fieldBelow_some hb])

theorem checked_noField {n : Nat} {s : State} {c : Caller} {b : Byte} (hb : n ≤ b.toNat) {act : State → State} :
    s.checked c [((fieldBelow n b).isSome, .badField)] act = s.reply c .badField :=
  checked_fail (by simp [fieldBelow_none hb])

/-- The place of a gate's context among those numbered from `n` on. -/
theorem savedPlace_from (g : GateId) {pre post : List Context} {x : Context} (hpre : ∀ y ∈ pre, y.kind ≠ .gate g)
    (hx : x.kind = .gate g) (n : Nat) :
    ((List.range' n (pre ++ x :: post).length).zip (pre ++ x :: post)).findSome? (fun y =>
      if y.2.kind = .gate g then some (GatePlace.saved y.1 y.2.remaining) else none) =
      some (.saved (n + pre.length) x.remaining) := by
  induction pre generalizing n with
  | nil => simp [List.range'_succ, hx]
  | cons y pre ih =>
    have hy := hpre y (by simp)
    have := ih (fun z hz => hpre z (by simp [hz])) (n + 1)
    simp only [List.cons_append, List.length_cons, List.range'_succ, List.zip_cons_cons, List.findSome?_cons, hy,
      if_false] at this ⊢
    rw [this, Nat.add_right_comm, Nat.add_assoc]

theorem savedPlace_app {g : GateId} {pre post : List Context} {x : Context} (hpre : ∀ y ∈ pre, y.kind ≠ .gate g)
    (hx : x.kind = .gate g) : savedPlace g (pre ++ x :: post) = some (.saved pre.length x.remaining) := by
  have := savedPlace_from g (post := post) hpre hx 0
  rw [← List.range_eq_range', Nat.zero_add] at this
  exact this

theorem exec_queryGate_defined {h : Hdr} {b : Byte} {g : GateId} {s : State} (r : s.reaches (.queryGate h b) h)
    (hb : b.toNat = g.val) : exec (.queryGate h b) s = .next
      ((s.taking h).answered h 84 .ok (.gate ((s.gate g).map fun e => (e, s.gatePlace g e)))) := by
  refine congrArg Host.Outcome.next (serve_answers (self := (.queryGate · b)) r ?_)
  unfold queryGate
  rw [show gateField b = fieldBelow 8 b from rfl, checked_field hb, fieldBelow_some hb]
  rfl

theorem gatePlace_defined {s : State} {g : GateId} {e : Gate} (hu : e.use = .defined) : s.gatePlace g e = none := by
  unfold State.gatePlace
  rw [hu]

theorem gatePlace_armed {s : State} {g : GateId} {e : Gate} {p q : Port} {k : Nat} (hu : e.use = .invoked p)
    (ha : (s.zone e.zone).armed = some (.gate g q k)) :
    s.gatePlace g e = some (.armed k ((s.zone e.zone).fetch.any (·.armed))) := by
  unfold State.gatePlace
  rw [hu]
  dsimp only
  rw [ha]
  dsimp only
  rw [if_pos rfl]
  rfl

theorem gatePlace_pending {s : State} {g : GateId} {e : Gate} {p : Port} (hu : e.use = .invoked p)
    (ha : ∀ q k, (s.zone e.zone).armed ≠ some (.gate g q k)) : s.gatePlace g e = some .pending := by
  unfold State.gatePlace
  rw [hu]
  dsimp only
  split
  · next h q k hk => rw [if_neg (fun hh => ha q k (by rw [hk, hh]))]
  · rfl

theorem gatePlace_current {s : State} {g : GateId} {e : Gate} {p : Port} (hu : e.use = .active p)
    (hk : (s.zone e.zone).current.kind = .gate g) :
    s.gatePlace g e = some (.current (s.zone e.zone).current.remaining) := by
  unfold State.gatePlace
  rw [hu]
  dsimp only
  rw [if_pos hk]

theorem gatePlace_saved {s : State} {g : GateId} {e : Gate} {p : Port} (hu : e.use = .active p)
    (hk : (s.zone e.zone).current.kind ≠ .gate g) :
    s.gatePlace g e = savedPlace g (s.zone e.zone).stack := by
  unfold State.gatePlace
  rw [hu]
  dsimp only
  rw [if_neg hk]

/-- Settles O13: each query's answer is the record in the state in which it is taken. -/
theorem queriesReportAndChangeNothing : Obligations.QueriesReportAndChangeNothing := by
  refine ⟨fun h s r => ?window, fun h b s r => ⟨fun c hb => ?chan, fun hb => ?noChan⟩,
    fun h b s r => ⟨fun z hb => ?zone, fun hb => ?noZone⟩,
    fun h b s r => ⟨fun g hb hg => ?undefined, fun g e hb hg => ?gate, fun hb => ?noGate⟩⟩
  case window =>
    refine congrArg Host.Outcome.next (serve_answers (self := .queryWindow) r ?_)
    unfold queryWindow State.windowInfo
    rw [taking_ports_map s h _ fun _ => rfl]
    rfl
  case chan =>
    refine congrArg Host.Outcome.next (serve_answers (self := (.queryChannel · b)) r ?_)
    unfold queryChannel
    rw [show chanField b = fieldBelow 4 b from rfl, checked_field hb, fieldBelow_some hb]
    rfl
  case noChan =>
    exact congrArg Host.Outcome.next (serve_answers (self := (.queryChannel · b)) r (checked_noField hb))
  case zone =>
    refine congrArg Host.Outcome.next (serve_answers (self := (.queryZone · b)) r ?_)
    unfold queryZone
    rw [show zoneField b = fieldBelow 4 b from rfl, checked_field hb, fieldBelow_some hb]
    rfl
  case noZone =>
    exact congrArg Host.Outcome.next (serve_answers (self := (.queryZone · b)) r (checked_noField hb))
  case undefined =>
    rw [exec_queryGate_defined r hb, hg]
    rfl
  case gate =>
    have he {place : Option GatePlace} (hp : s.gatePlace g e = place) : exec (.queryGate h b) s = .next
        ((s.taking h).answered h 84 .ok (.gate (some (e, place)))) := by
      rw [exec_queryGate_defined r hb, hg, ← hp]
      rfl
    refine ⟨fun hu => he (gatePlace_defined hu), fun p hu => ⟨fun q k ha => he (gatePlace_armed hu ha), fun ha =>
      he (gatePlace_pending hu ha)⟩, fun p hu => ⟨fun hk => he (gatePlace_current hu hk), fun pre post x hk hst hpre hx =>
      he ?_⟩⟩
    rw [gatePlace_saved hu hk, hst, savedPlace_app hpre hx]
  case noGate =>
    exact congrArg Host.Outcome.next (serve_answers (self := (.queryGate · b)) r (checked_noField hb))

end Sys2Proof.Machine
end

