-- ==== Sys2Proof/Proofs/Folds.lean ====
section
/-! What a fold over the tiles, the zones, the ports or the channels does to each of them, where every step changes one
alone; and CONFIGURE, which gives each tile its position and powers on the bound ones (R176, R177). -/

namespace Sys2Proof.Machine

/-- A request whose effect ends in its reply, where the effect leaves its port UP. -/
theorem serve_done {h : Hdr} {code : Byte} {self : Hdr → Instr} {any : Bool} {act : Caller → State → State}
    {s t : State} {st : Status} {b : Body} (r : s.reaches (self h) h any)
    (ha : act { port := h.port, tag := h.tag, code := code } (s.taking h) =
      t.reply { port := h.port, tag := h.tag, code := code } st b)
    (hu : t.ports[h.port].up = true) : serve h code self any act s = t.answered h code st b := by
  rw [serve_reaches r, ha, reply_answered hu]

theorem take_up (p : PortRec) (e : Event) : (p.take e).up = p.up := by
  unfold PortRec.take
  split <;> rfl

theorem up_map_take (ports : Vector PortRec 4) (e : Event) (p : Port) :
    (ports.map fun (r : PortRec) => r.take e)[p].up = ports[p].up := by
  simp [take_up]

/-! ### Folds that change one entry at a time -/

theorem foldl_inv {σ ι : Type} {f : σ → ι → σ} {inv : σ → Prop} (hinv : ∀ s i, inv s → inv (f s i)) (l : List ι) {s : σ}
    (hs : inv s) : inv (l.foldl f s) := by
  induction l generalizing s with
  | nil => exact hs
  | cons i l ih => exact ih (hinv s i hs)

theorem foldl_other {σ ι α : Type} {f : σ → ι → σ} {inv : σ → Prop} (hinv : ∀ s i, inv s → inv (f s i)) {π : σ → α}
    {l : List ι} (hother : ∀ s, ∀ i ∈ l, inv s → π (f s i) = π s) {s : σ} (hs : inv s) : π (l.foldl f s) = π s := by
  induction l generalizing s with
  | nil => rfl
  | cons i l ih =>
    exact (ih (fun s j hj => hother s j (by simp [hj])) (hinv s i hs)).trans (hother s i (by simp) hs)

/-- The entry of an index is changed once, where the index is met. -/
theorem foldl_at {σ ι α : Type} {f : σ → ι → σ} {inv : σ → Prop} (hinv : ∀ s i, inv s → inv (f s i))
    {π : σ → ι → α} {g : ι → α → α} (hself : ∀ s i, inv s → π (f s i) i = g i (π s i))
    (hother : ∀ s i j, inv s → i ≠ j → π (f s i) j = π s j) {l : List ι} (hl : l.Nodup) {s : σ} (hs : inv s) {i : ι}
    (hi : i ∈ l) : π (l.foldl f s) i = g i (π s i) := by
  induction l generalizing s with
  | nil => cases hi
  | cons j l ih =>
    obtain ⟨hj, hl⟩ := List.nodup_cons.1 hl
    rw [List.foldl_cons]
    rcases List.mem_cons.1 hi with rfl | hi
    · rw [foldl_other hinv (π := (π · i)) (fun s k hk h => hother s k i h fun e => hj (e ▸ hk)) (hinv s i hs)]
      exact hself s i hs
    · rw [ih hl (hinv s j hs) hi, hother s j i hs fun e => hj (e ▸ hi)]

theorem mem_allTiles (t : Tile) : t ∈ allTiles := by fin_cases t <;> decide
theorem mem_allZones (z : ZoneId) : z ∈ allZones := by fin_cases z <;> decide
theorem mem_allChans (c : ChanId) : c ∈ allChans := by fin_cases c <;> decide
theorem mem_allGates (g : GateId) : g ∈ allGates := by fin_cases g <;> decide
theorem nodup_allTiles : allTiles.Nodup := by decide
theorem nodup_allZones : allZones.Nodup := by decide
theorem nodup_allChans : allChans.Nodup := by decide
theorem nodup_allPorts : allPorts.Nodup := by decide

/-! ### Messages to the units -/

theorem toUnit_at (s : State) (t i : Tile) (m : UnitMsg) :
    (s.toUnit t m).mail.toUnit[i] = if t = i then s.mail.toUnit[i] ++ [m] else s.mail.toUnit[i] :=
  upd_at _ _ _ _

/-- Two states that differ in the messages on their way to the units alone. -/
def onlyToUnit (s t : State) : Prop := t = { s with mail := { s.mail with toUnit := t.mail.toUnit } }

theorem onlyToUnit_refl (s : State) : onlyToUnit s s := rfl

theorem onlyToUnit.toUnit {s t : State} (h : onlyToUnit s t) (i : Tile) (m : UnitMsg) : onlyToUnit s (t.toUnit i m) := by
  unfold onlyToUnit at *
  rw [h]
  rfl

theorem onlyToUnit.units {s t : State} (h : onlyToUnit s t) : t.units = s.units := by rw [h]

theorem onlyToUnit.scene {s t : State} (h : onlyToUnit s t) : t.scene = s.scene := by rw [h]

theorem onlyToUnit.trans {a b c : State} (h : onlyToUnit a b) (k : onlyToUnit b c) : onlyToUnit a c := by
  unfold onlyToUnit at *
  rw [k, h]

/-! ### Powering on the bound units -/

/-- The power-on order goes to a unit that is bound to a position. -/
def State.powerOnOne (s : State) (t : Tile) : State :=
  if s.units[t].position.isSome then s.toUnit t .powerOn else s

theorem powerOnBound_eq (s : State) : s.powerOnBound = allTiles.foldl State.powerOnOne s := rfl

theorem powerOnOne_only {s u : State} (h : onlyToUnit s u) (t : Tile) : onlyToUnit s (u.powerOnOne t) := by
  unfold State.powerOnOne
  split
  · exact h.toUnit t _
  · exact h

theorem powerOnOne_at (s : State) (t i : Tile) : (s.powerOnOne t).mail.toUnit[i] =
    if t = i then s.mail.toUnit[i] ++ (if s.units[i].position = none then [] else [.powerOn])
    else s.mail.toUnit[i] := by
  unfold State.powerOnOne
  by_cases h : t = i
  · subst h
    rw [if_pos rfl]
    cases hp : s.units[t].position with
    | none => simp
    | some p => simp only [Option.isSome_some, if_true]; rw [toUnit_at, if_pos rfl]; simp
  · rw [if_neg h]
    split
    · rw [toUnit_at, if_neg h]
    · rfl

theorem powerOnBound_only (s : State) : onlyToUnit s s.powerOnBound := by
  rw [powerOnBound_eq]
  exact foldl_inv (inv := onlyToUnit s) (fun _ t h => powerOnOne_only h t) allTiles (onlyToUnit_refl s)

theorem powerOnBound_toUnit (s : State) (i : Tile) : s.powerOnBound.mail.toUnit[i] =
    s.mail.toUnit[i] ++ if s.units[i].position = none then [] else [.powerOn] := by
  rw [powerOnBound_eq]
  exact foldl_at (f := State.powerOnOne) (inv := onlyToUnit s) (π := fun (s : State) i => s.mail.toUnit[i])
    (g := fun i w => w ++ if s.units[i].position = none then [] else [.powerOn]) (fun _ t h => powerOnOne_only h t)
    (fun u t hu => by rw [powerOnOne_at, if_pos rfl, hu.units]) (fun u t j _ hne => by rw [powerOnOne_at, if_neg hne])
    nodup_allTiles (onlyToUnit_refl s) (mem_allTiles i)

/-! ### CONFIGURE -/

/-- A tile is bound to its position, where it is given one (R177). -/
def State.bindTile (b : Vector (Option (Option (Nat × Nat))) 16) (s : State) (t : Tile) : State :=
  match b[t] with
  | some (some p) => s.setUnit t fun u => { u with position := some p, ctx := some .background }
  | _ => s

/-- A unit that is given a position, or none. -/
def boundUnit (p : Option (Option (Nat × Nat))) (u : TileUnit) : TileUnit :=
  match p with
  | some (some p) => { u with position := some p, ctx := some .background }
  | _ => u

/-- Two states that differ in the units alone. -/
def onlyUnits (s t : State) : Prop := t = { s with units := t.units }

theorem bindTile_only (b : Vector (Option (Option (Nat × Nat))) 16) {s t : State} (h : onlyUnits s t) (i : Tile) :
    onlyUnits s (t.bindTile b i) := by
  unfold State.bindTile
  split
  · unfold onlyUnits at *
    rw [h]
    rfl
  · exact h

theorem bindTile_at (b : Vector (Option (Option (Nat × Nat))) 16) (s : State) (t i : Tile) :
    (s.bindTile b t).units[i] = if t = i then boundUnit b[t] s.units[i] else s.units[i] := by
  unfold State.bindTile boundUnit
  rcases b[t] with _ | _ | p
  · simp
  · simp
  · exact upd_at _ _ _ _

theorem bindTiles_only (b : Vector (Option (Option (Nat × Nat))) 16) (s : State) :
    onlyUnits s (allTiles.foldl (State.bindTile b) s) :=
  foldl_inv (inv := onlyUnits s) (fun _ i h => bindTile_only b h i) allTiles rfl

theorem bindTiles_at (b : Vector (Option (Option (Nat × Nat))) 16) (s : State) (i : Tile) :
    (allTiles.foldl (State.bindTile b) s).units[i] = boundUnit b[i] s.units[i] :=
  foldl_at (f := State.bindTile b) (inv := fun _ => True) (π := fun (s : State) i => s.units[i])
    (g := fun i u => boundUnit b[i] u) (fun _ _ h => h) (fun s i _ => by rw [bindTile_at, if_pos rfl])
    (fun s i j _ hne => by rw [bindTile_at, if_neg hne]) nodup_allTiles trivial (mem_allTiles i)

/-- The slot map is filled, and each tile is bound to its position (R177). -/
def State.laidOut (s : State) (slots : BitVec 16) (b : Vector (Option (Option (Nat × Nat))) 16) : State :=
  allTiles.foldl (State.bindTile b) (s.modDir fun d => { d with populated := slots.toNat, free := [(0, slots.toNat)] })

/-- The scene engine that CONFIGURE begins with (R177). -/
def startedScene (rate cols rows presence : Byte) (start : BitVec 48) : SceneEngine :=
  { SceneEngine.initial with
    frame := (optionalFrame presence start).getD 0, timer := true
    grid := some { rate := rate.toNat, cols := cols.toNat, rows := rows.toNat } }

/-- The state that CONFIGURE makes, before its reply (R177). -/
def State.configured (s : State) (rate : Byte) (slots : BitVec 16) (cols rows : Byte) (positions : Vector Byte 16)
    (presence : Byte) (start : BitVec 48) : State :=
  (((s.laidOut slots (bindings cols.toNat rows.toNat positions)).modScene fun _ =>
    startedScene rate cols rows presence start).setWindow .lit).powerOnBound

theorem configure_eq (rate : Byte) (slots : BitVec 16) (cols rows : Byte) (positions : Vector Byte 16)
    (presence : Byte) (start : BitVec 48) (c : Caller) (s : State) :
    configure rate slots cols rows positions presence start c s =
      s.checked c (configureTests rate slots cols rows positions presence c.port s) fun s =>
        (s.configured rate slots cols rows positions presence start).reply c .ok := rfl

theorem laidOut_only (s : State) (slots : BitVec 16) (b : Vector (Option (Option (Nat × Nat))) 16) :
    onlyUnits (s.modDir fun d => { d with populated := slots.toNat, free := [(0, slots.toNat)] }) (s.laidOut slots b) :=
  bindTiles_only b _

theorem laidOut_unit (s : State) (slots : BitVec 16) (b : Vector (Option (Option (Nat × Nat))) 16) (i : Tile) :
    (s.laidOut slots b).units[i] = boundUnit b[i] s.units[i] :=
  bindTiles_at b _ i

theorem configured_blocks (s : State) (rate : Byte) (slots : BitVec 16) (cols rows : Byte)
    (positions : Vector Byte 16) (presence : Byte) (start : BitVec 48) :
    s.configured rate slots cols rows positions presence start =
      { s with
        ports := s.ports.map (·.take .windowChange)
        dir := { s.dir with populated := slots.toNat, free := [(0, slots.toNat)] }
        scene := { startedScene rate cols rows presence start with window := .lit }
        units := (s.laidOut slots (bindings cols.toNat rows.toNat positions)).units
        mail := { s.mail with
          toUnit := (s.configured rate slots cols rows positions presence start).mail.toUnit } } := by
  have h := laidOut_only s slots (bindings cols.toNat rows.toNat positions)
  have hp := powerOnBound_only (((s.laidOut slots (bindings cols.toNat rows.toNat positions)).modScene fun _ =>
    startedScene rate cols rows presence start).setWindow .lit)
  unfold State.configured
  generalize s.laidOut slots (bindings cols.toNat rows.toNat positions) = u at h hp ⊢
  generalize hm : (State.powerOnBound _).mail.toUnit = m at hp ⊢
  unfold onlyToUnit at hp
  rw [hp, hm, h]
  rfl

theorem configured_toUnit (s : State) (rate : Byte) (slots : BitVec 16) (cols rows : Byte)
    (positions : Vector Byte 16) (presence : Byte) (start : BitVec 48) (i : Tile) :
    (s.configured rate slots cols rows positions presence start).mail.toUnit[i] = s.mail.toUnit[i] ++
      if (boundUnit (bindings cols.toNat rows.toNat positions)[i] s.units[i]).position = none then []
      else [.powerOn] := by
  have h := laidOut_only s slots (bindings cols.toNat rows.toNat positions)
  have hu := laidOut_unit s slots (bindings cols.toNat rows.toNat positions) i
  unfold State.configured
  rw [powerOnBound_toUnit]
  generalize s.laidOut slots (bindings cols.toNat rows.toNat positions) = u at h hu ⊢
  rw [← hu]
  have hm : u.mail = s.mail := by rw [h]; rfl
  rw [← hm]
  rfl

theorem positionField_bound {cols rows : Nat} {b : Byte} (hb : b ≠ 255) (hin : b.toNat % 16 < cols ∧ b.toNat / 16 < rows) :
    positionField cols rows b = some (some (b.toNat % 16, b.toNat / 16)) := by
  unfold positionField
  rw [if_neg hb]
  dsimp only
  rw [if_pos hin]

theorem positionField_some {cols rows : Nat} {b : Byte} {p : Nat × Nat} (h : positionField cols rows b = some (some p)) :
    b ≠ 255 ∧ p = (b.toNat % 16, b.toNat / 16) := by
  unfold positionField at h
  split at h
  · cases h
  · next hb =>
    dsimp only at h
    split at h
    · cases h; exact ⟨hb, rfl⟩
    · cases h

/-- No two links are bound to one position where their bytes differ. -/
theorem boundPositions_nodup {cols rows : Nat} {positions : Vector Byte 16}
    (h : ∀ i j : Fin 16, i ≠ j → positions[i] ≠ 255 → positions[i] ≠ positions[j]) :
    (boundPositions (bindings cols rows positions)).Nodup := by
  unfold boundPositions bindings
  rw [Vector.toList_map, List.filterMap_map]
  unfold List.Nodup
  rw [List.pairwise_filterMap, List.pairwise_iff_getElem]
  intro i j hi hj hij p hp q hq hpq
  subst hpq
  rw [Vector.length_toList] at hi hj
  simp only [Vector.getElem_toList, Function.comp_apply] at hp hq
  have hbind : ∀ {x : Option (Option (Nat × Nat))} {p : Nat × Nat}, x.bind id = some p → x = some (some p) := by
    intro x p hx
    cases x with
    | none => cases hx
    | some x => exact congrArg some hx
  obtain ⟨hne, h1⟩ := positionField_some (hbind hp)
  obtain ⟨-, h2⟩ := positionField_some (hbind hq)
  refine h ⟨i, hi⟩ ⟨j, hj⟩ (by simp; omega) hne (BitVec.eq_of_toNat_eq ?_)
  have h12 := h1.symm.trans h2
  simp only [Prod.mk.injEq] at h12
  change positions[i].toNat = positions[j].toNat
  omega

theorem configureTests_pass {rate : Byte} {slots : BitVec 16} {cols rows : Byte} {positions : Vector Byte 16}
    {presence : Byte} {p : Port} {s : State} (hc : s.cls p = .operator) (hw : s.window = .unconfigured)
    (ha : configureAdmitted rate slots cols rows positions presence) :
    firstFailure (configureTests rate slots cols rows positions presence p s) = none := by
  obtain ⟨hp, hr, hs, hc1, hc2, hr1, hr2, hpos, hdiff⟩ := ha
  have hall : (bindings cols.toNat rows.toNat positions).toList.all (·.isSome) = true := by
    unfold bindings
    rw [Vector.toList_map, List.all_map, List.all_eq_true]
    intro b hb
    obtain ⟨i, hi, rfl⟩ := List.getElem_of_mem hb
    rw [Vector.length_toList] at hi
    simp only [Vector.getElem_toList, Function.comp_apply]
    rcases hpos ⟨i, hi⟩ with h | h
    · rw [show positions[i] = 255 from h]; rfl
    · by_cases hb : positions[i] = 255
      · rw [hb]; rfl
      · rw [positionField_bound hb h]; rfl
  have hnodup := boundPositions_nodup (cols := cols.toNat) (rows := rows.toNat) hdiff
  rw [firstFailure_none_iff]
  unfold configureTests
  intro t ht
  rcases List.mem_cons.1 ht with rfl | ht
  · simpa using hc
  rcases List.mem_cons.1 ht with rfl | ht
  · exact boolField_isSome hp
  rcases List.mem_cons.1 ht with rfl | ht
  · simpa using hw
  rcases List.mem_cons.1 ht with rfl | ht
  · rw [hall, Bool.and_true]
    exact decide_eq_true ⟨hr, hs, hc1, hc2, hr1, hr2⟩
  obtain rfl := List.mem_singleton.1 ht
  simpa using hnodup

/-- The unit of a tile that is given a position byte. -/
theorem boundUnit_position {cols rows : Nat} {b : Byte} (u : TileUnit)
    (hb : b = 255 ∨ (b.toNat % 16 < cols ∧ b.toNat / 16 < rows)) :
    boundUnit (positionField cols rows b) u = if b = 255 then u else
      { u with position := some (b.toNat % 16, b.toNat / 16), ctx := some .background } := by
  by_cases h : b = 255
  · subst h
    rw [if_pos rfl]
    rfl
  · rw [if_neg h, positionField_bound h (hb.resolve_left h)]
    rfl

/-- Settles O10: the checks pass, and each block of the state that CONFIGURE makes is read off. -/
theorem configureLightsTheWindow : Obligations.ConfigureLightsTheWindow := by
  intro h rate slots cols rows positions presence start s r hc hw ha
  have hb : ∀ i : Tile, boundUnit (bindings cols.toNat rows.toNat positions)[i] s.units[i] =
      if positions[i] = 255 then s.units[i] else
        { s.units[i] with
          position := some (positions[i].toNat % 16, positions[i].toNat / 16), ctx := some .background } := fun i => by
    have hi : (bindings cols.toNat rows.toNat positions)[i] = positionField cols.toNat rows.toNat positions[i] := by
      simp [bindings]
    obtain ⟨-, -, -, -, -, -, -, hpos, -⟩ := ha
    rw [hi, boundUnit_position _ (hpos i)]
  have hblocks := configured_blocks (s.taking h) rate slots cols rows positions presence start
  have hmail := configured_toUnit (s.taking h) rate slots cols rows positions presence start
  have hunit := laidOut_unit (s.taking h) slots (bindings cols.toNat rows.toNat positions)
  refine ⟨(s.taking h).configured rate slots cols rows positions presence start, ?exec, ?_⟩
  case exec =>
    refine congrArg Host.Outcome.next ?_
    refine serve_done (self := (.configure · rate slots cols rows positions presence start)) r
      (checked_pass (configureTests_pass (s := s.taking h) (p := h.port) ((taking_cls s h h.port).trans hc) hw ha)) ?_
    rw [hblocks]
    exact (up_map_take _ _ _).trans (up_taking r)
  generalize (s.taking h).configured rate slots cols rows positions presence start = t at hblocks hmail
  generalize (s.taking h).laidOut slots (bindings cols.toNat rows.toNat positions) = u at hblocks hunit
  have hscene : t.scene = { startedScene rate cols rows presence start with window := .lit } := by rw [hblocks]
  have hdir : t.dir = { s.dir with populated := slots.toNat, free := [(0, slots.toNat)] } := by rw [hblocks]; rfl
  have hports : t.ports = (s.taking h).ports.map (·.take .windowChange) := by rw [hblocks]
  have hunits : t.units = u.units := by rw [hblocks]
  refine ⟨by rw [hscene], ?frame, by rw [hscene]; rfl, by rw [hscene]; rfl, by rw [hscene]; rfl, by rw [hscene]; rfl,
    fun z => ?zone, by rw [hscene]; rfl, fun g => ?gate, by rw [hdir], by rw [hdir], by rw [hdir], fun i => ?unit,
    fun i hi => ?sent, fun i hi hp => ?unsent, fun p => ?port, by rw [hblocks]; rfl, by rw [hblocks]; rfl,
    by rw [hblocks]; rfl, by rw [hblocks]; rfl⟩
  case frame =>
    rw [hscene]
    change (optionalFrame presence start).getD 0 = _
    unfold optionalFrame
    split <;> rfl
  case zone =>
    unfold State.zone
    rw [hscene]
    simp [startedScene, SceneEngine.initial]
  case gate =>
    unfold State.gate
    rw [hscene]
    simp [startedScene, SceneEngine.initial]
  case unit => rw [hunits, hunit, ← hb]; rfl
  case sent =>
    rw [hmail, taking_units, hb, if_neg hi]
    rfl
  case unsent =>
    rw [hmail, taking_units, hb, if_pos hi, if_pos hp, List.append_nil]
    rfl
  case port =>
    rw [hports]
    simp

end Sys2Proof.Machine
end

