-- ==== Sys2Proof/Proofs/WindowReset.lean ====
section
/-! RESET_WINDOW (R46, R82, R178, R179): the edits and the requests in transit are answered CANCELLED, and every block
takes its values. -/

namespace Sys2Proof.Machine

/-! ### The replies -/

/-- The CANCELLED reply of an edit, where its port is UP. -/
def editCancelled (ports : Vector PortRec 4) (e : Edit) : Option Output :=
  if ports[e.port].up then
    some (.reply e.port { code := e.caller.code, tag := e.tag, status := .cancelled, body := .none })
  else none

/-- The CANCELLED reply of a port's request in transit, where it has one and is UP. -/
def transitCancelled (ports : Vector PortRec 4) (p : Port) : Option Output :=
  if ports[p].up then
    (ports[p].transit.bind Instr.request).map fun r =>
      .reply p { code := r.2.1, tag := r.1.tag, status := .cancelled, body := unservedBody r.2.1 }
  else none

/-- Two states that differ in what has been sent alone. -/
def onlySent (s t : State) (more : List Output) : Prop := t = { s with out := s.out ++ more }

theorem onlySent_refl (s : State) : onlySent s s [] := by
  unfold onlySent
  rw [List.append_nil]

theorem onlySent.trans {a b c : State} {x y : List Output} (h : onlySent a b x) (k : onlySent b c y) :
    onlySent a c (x ++ y) := by
  unfold onlySent at *
  rw [k, h]
  simp

theorem reply_onlySent (s : State) (c : Caller) (st : Status) (b : Body) :
    onlySent s (s.reply c st b) (if s.ports[c.port].up then
      [.reply c.port { code := c.code, tag := c.tag, status := st, body := b }] else []) := by
  unfold State.reply
  split
  · rfl
  · exact onlySent_refl s

theorem editReplies_sent (l : List Edit) (s : State) :
    onlySent s (l.foldl (fun s e => s.reply e.caller .cancelled) s) (l.filterMap (editCancelled s.ports)) := by
  induction l generalizing s with
  | nil => exact onlySent_refl s
  | cons e l ih =>
    have h := reply_onlySent s e.caller .cancelled .none
    have hrest := ih (s.reply e.caller .cancelled)
    rw [reply_ports] at hrest
    have h2 := h.trans hrest
    rw [List.foldl_cons]
    refine Eq.trans h2 ?_
    rw [List.filterMap_cons]
    unfold editCancelled
    change { s with out := s.out ++ ((if s.ports[e.port].up = true then _ else _) ++ _) } = _
    cases hu : s.ports[e.port].up <;> simp [Edit.caller]

theorem cancelTransit_sent (s : State) (p : Port) :
    onlySent s (s.cancelTransit p) (transitCancelled s.ports p).toList := by
  unfold State.cancelTransit transitCancelled
  cases ht : s.ports[p].transit.bind Instr.request with
  | none => simpa using onlySent_refl s
  | some r =>
    obtain ⟨h, code, f⟩ := r
    have hr := reply_onlySent s { port := p, tag := h.tag, code := code } .cancelled (unservedBody code)
    dsimp only at hr ⊢
    cases hu : s.ports[p].up <;> rw [hu] at hr <;> simpa using hr

theorem transitReplies_sent (l : List Port) (s : State) :
    onlySent s (l.foldl State.cancelTransit s) (l.filterMap (transitCancelled s.ports)) := by
  induction l generalizing s with
  | nil => exact onlySent_refl s
  | cons p l ih =>
    have h := cancelTransit_sent s p
    have hp : (s.cancelTransit p).ports = s.ports := by rw [h]
    have hrest := ih (s.cancelTransit p)
    rw [hp] at hrest
    rw [List.foldl_cons]
    refine Eq.trans (h.trans hrest) ?_
    rw [List.filterMap_cons]
    cases transitCancelled s.ports p <;> rfl

/-! ### The blocks -/

/-- The frame store takes a REFRESH, where its bus is free and it is AWAKE (R29, log entry 10). -/
def Store.refreshedBus (st : Store) : Store :=
  if st.running = none ∧ st.power = .awake then
    { st with running := some { job := .refresh, discard := false, dropped := false } }
  else st

theorem resetWindow_power (st : Store) : st.resetWindow.power =
    if st.power = .selfRefresh ∨ st.power = .exiting then .exiting else .awake := by
  unfold Store.resetWindow
  cases h : st.power <;> rfl

theorem scanChoice_zero (pointer : Tile) : scanChoice pointer 0 = none := by simp [scanChoice]

theorem loadChoice_zero (pointer : ChanId) : loadChoice pointer 0 = none := by simp [loadChoice]

theorem grantAwake_idle {s : State} (hd : s.store.debt = 0) (hs : s.store.scanWaiting = 0)
    (hl : s.store.loadWaiting = 0) (hc : s.store.scrubWaiting = false) (he : s.store.editWaiting = false) :
    s.grantAwake = s.grantRefresh := by
  have hscan : scanChoice s.store.scanPointer s.store.scanWaiting = none := by rw [hs]; exact scanChoice_zero _
  have hload : loadChoice s.store.loadPointer s.store.loadWaiting = none := by rw [hl]; exact loadChoice_zero _
  unfold State.grantAwake
  simp [hd, hscan, hload, hc, he]

/-- A store that RESET_WINDOW has reset has no request, so that a free bus goes to a REFRESH. -/
theorem resetBlocks_grant (s : State) :
    s.resetBlocks.grant = { s.resetBlocks with store := s.store.resetWindow.refreshedBus } := by
  have hp := resetWindow_power s.store
  have hst : s.resetBlocks.store = s.store.resetWindow := rfl
  have hsame : s.resetBlocks = { s.resetBlocks with store := s.store.resetWindow } := rfl
  by_cases hfree : s.store.resetWindow.running = none ∧ s.store.resetWindow.power = .awake
  · have hawake : s.resetBlocks.grant = s.resetBlocks.grantAwake := by
      unfold State.grant
      rw [hst, hfree.1, hfree.2]
      rfl
    unfold Store.refreshedBus
    rw [hawake, if_pos hfree, grantAwake_idle rfl rfl rfl rfl rfl]
    rfl
  · unfold Store.refreshedBus
    rw [if_neg hfree, ← hsame]
    unfold State.grant
    rw [hst]
    cases hr : s.store.resetWindow.running with
    | some r => rfl
    | none =>
      split at hp
      · rw [hp]; rfl
      · exact absurd ⟨hr, hp⟩ hfree

/-- The state that RESET_WINDOW makes once the CANCELLED replies are sent, before its own. -/
theorem resetBlocks_window (s : State) : s.resetBlocks.grant.setWindow .unconfigured =
    { s.resetBlocks with
      ports := s.resetBlocks.ports.map (PortRec.take · .windowChange)
      store := s.store.resetWindow.refreshedBus } := by
  rw [resetBlocks_grant]
  rfl

theorem windowReset_port (s : State) (p : Port) :
    (s.resetBlocks.ports.map (PortRec.take · .windowChange))[p] =
      { s.ports[p] with
        events := if s.ports[p].up then BitVec.twoPow 15 Event.windowChange.bit else 0, transit := none } := by
  have : (s.resetBlocks.ports.map (PortRec.take · .windowChange))[p] =
      PortRec.take { s.ports[p] with events := 0, transit := none } .windowChange := by simp [State.resetBlocks]
  rw [this]
  unfold PortRec.take insertBit
  split <;> simp [*]

theorem resetStore_eq (st : Store) : st.resetWindow.refreshedBus =
    { st with
      power := if st.power = .selfRefresh ∨ st.power = .exiting then .exiting else .awake
      entryKept := false, debt := 0, refreshed := false, scanPointer := 15, loadPointer := 3, scanWaiting := 0
      loadWaiting := 0, editWaiting := false, scrubWaiting := false, scrub := [], corrected := 0
      record := { fault := none, locked := false, multiple := false }
      running := match st.running with
        | some r => some { r with dropped := true }
        | none =>
          if st.power = .selfRefresh ∨ st.power = .exiting then none
          else some { job := .refresh, discard := false, dropped := false } } := by
  have hr : st.resetWindow.running = st.running.map fun t => { t with dropped := true } := rfl
  unfold Store.refreshedBus
  rw [resetWindow_power, hr]
  cases h : st.running with
  | some r =>
    rw [if_neg (by simp)]
    unfold Store.resetWindow
    rw [h]
    cases st.power <;> rfl
  | none =>
    by_cases hp : st.power = .selfRefresh ∨ st.power = .exiting
    · rw [if_neg (by simp [hp])]
      unfold Store.resetWindow
      rw [h]
      rcases hp with hp | hp <;> rw [hp] <;> rfl
    · rw [if_pos (by simp [hp])]
      unfold Store.resetWindow
      rw [h]
      cases hq : st.power
      case selfRefresh => exact absurd (.inl hq) hp
      case exiting => exact absurd (.inr hq) hp
      all_goals rfl

/-- A request in transit is cancelled but for the one that is taken. -/
theorem transitCancelled_taking (s : State) (h : Hdr) (q : Port) : transitCancelled (s.taking h).ports q =
    if q ≠ h.port ∧ s.ports[q].up = true then
      (s.ports[q].transit.bind Instr.request).map fun r =>
        .reply q { code := r.2.1, tag := r.1.tag, status := .cancelled, body := unservedBody r.2.1 }
    else none := by
  unfold transitCancelled
  rw [taking_up]
  by_cases hq : q = h.port
  · subst hq
    have ht : (s.taking h).ports[h.port].transit = none := by simp [taking_port]
    rw [ht]
    simp
  · rw [taking_other s h q (Ne.symm hq)]
    simp [hq]

/-- Settles O11: the replies that are sent first, then each block's reset value. -/
theorem resetWindowClearsThePart : Obligations.ResetWindowClearsThePart := by
  intro h s r hc hw edits others leaving
  have hedits := editReplies_sent s.edit.queue (s.taking h)
  have hothers := transitReplies_sent allPorts (s.edit.queue.foldl (fun s e => s.reply e.caller .cancelled) (s.taking h))
  have hsent := hedits.trans hothers
  have hports : (s.edit.queue.foldl (fun s e => s.reply e.caller .cancelled) (s.taking h)).ports = (s.taking h).ports := by
    rw [hedits]
  rw [hports] at hsent
  generalize hv : allPorts.foldl State.cancelTransit
    (s.edit.queue.foldl (fun s e => s.reply e.caller .cancelled) (s.taking h)) = v at hsent
  have hup : (v.resetBlocks.grant.setWindow .unconfigured).ports[h.port].up = true := by
    rw [resetBlocks_window, windowReset_port, hsent]
    exact up_taking r
  refine ⟨(v.resetBlocks.grant.setWindow .unconfigured).reply { port := h.port, tag := h.tag, code := 2 } .ok, ?exec, ?_⟩
  case exec =>
    refine congrArg Host.Outcome.next ((serve_reaches (self := .resetWindow) r).trans ?_)
    refine congrArg (State.onward · h) ?_
    unfold resetWindow
    rw [checked_pass (by
      have h1 : (s.taking h).cls h.port = .operator := (taking_cls s h h.port).trans hc
      rw [firstFailure_cons, firstFailure_cons, firstFailure_nil, h1]
      simp [hw])]
    rw [← hv]
    rfl
  rw [reply_sends hup, resetBlocks_window]
  refine ⟨rfl, rfl, rfl, rfl, rfl, fun i => ?unit, fun p => ?port, ?store, ?out⟩
  case unit => rw [hsent]; simp [State.resetBlocks, State.reset, TileUnit.initial]
  case port =>
    refine (windowReset_port v p).trans ?_
    have hp : v.ports[p].up = s.ports[p].up := by rw [hsent]; exact taking_up s h p
    have hrest : { v.ports[p] with transit := none } = { s.ports[p] with transit := none } := by
      rw [hsent]
      by_cases hq : h.port = p
      · subst hq; simp [taking_port]
      · exact congrArg (fun r : PortRec => { r with transit := none }) (taking_other s h p hq)
    rw [hp]
    exact congrArg (fun r : PortRec =>
      { r with events := if s.ports[p].up then BitVec.twoPow 15 Event.windowChange.bit else 0 }) hrest
  case store =>
    have hst : v.store = s.store := by rw [hsent]; rfl
    change v.store.resetWindow.refreshedBus = _
    rw [hst, resetStore_eq]
    simp only [leaving, decide_eq_true_eq] <;> rfl
  case out =>
    have ho : v.out = s.out ++ edits ++ others := by
      rw [hsent, List.append_assoc]
      have he : s.edit.queue.filterMap (editCancelled (s.taking h).ports) = edits := by
        refine List.filterMap_congr fun e _ => ?_
        unfold editCancelled
        rw [taking_up]
      have ht : allPorts.filterMap (transitCancelled (s.taking h).ports) = others :=
        List.filterMap_congr fun q _ => transitCancelled_taking s h q
      rw [he, ht]
      rfl
    change v.out ++ _ = _
    rw [ho]

end Sys2Proof.Machine
end

