-- ==== Sys2Proof/Proofs/Arbiter.lean ====
section
/-! The arbiter's grants and their order (R28 to R30), refresh (R31, R32), the store's way into and out of self-refresh
(R33, R34, R165, R167), and transfers whose outcome a RESET_WINDOW dropped (R46). -/

namespace Sys2Proof.Machine

/-! ### Who is next in turn (R30) -/

/-- The numbers after a pointer are found in the order of their distance from it. -/
theorem roundRobin_first {n p t : Nat} (hp : p < n) (ht : t < n) {w : Nat → Bool} (hw : w t = true)
    (hmin : ∀ u, u < n → w u = true → (t + (n - 1) - p) % n ≤ (u + (n - 1) - p) % n) :
    (roundRobin n p).find? w = some t := by
  have hn : 0 < n := by omega
  have hat : (p + 1 + (t + (n - 1) - p) % n) % n = t := by
    rw [Nat.add_mod_mod, show p + 1 + (t + (n - 1) - p) = t + n by omega, Nat.add_mod_right, Nat.mod_eq_of_lt ht]
  have hdist : ∀ j, j < n → ((p + 1 + j) % n + (n - 1) - p) % n = j := fun j hj => by
    rw [Nat.add_sub_assoc (by omega), Nat.mod_add_mod, show p + 1 + j + (n - 1 - p) = j + n by omega,
      Nat.add_mod_right, Nat.mod_eq_of_lt hj]
  unfold roundRobin
  rw [find_first w _ n ((t + (n - 1) - p) % n) (Nat.mod_lt _ hn) (by rw [hat]; exact hw) fun j hj => ?_, hat]
  by_contra hc
  have hle := hmin _ (Nat.mod_lt _ hn) (by simpa using hc)
  rw [hdist j (hj.trans (Nat.mod_lt _ hn))] at hle
  omega

theorem scanChoice_first {pointer t : Tile} {waiting : BitVec 16} (hw : waiting.getLsbD t.val = true)
    (hmin : ∀ u : Tile, waiting.getLsbD u.val = true →
      (t.val + 15 - pointer.val) % 16 ≤ (u.val + 15 - pointer.val) % 16) :
    scanChoice pointer waiting = some t := by
  unfold scanChoice
  rw [roundRobin_first pointer.isLt t.isLt hw fun u hu h => hmin ⟨u, hu⟩ h]
  simp

theorem loadChoice_first {pointer c : ChanId} {waiting : BitVec 4} (hw : waiting.getLsbD c.val = true)
    (hmin : ∀ d : ChanId, waiting.getLsbD d.val = true →
      (c.val + 3 - pointer.val) % 4 ≤ (d.val + 3 - pointer.val) % 4) :
    loadChoice pointer waiting = some c := by
  unfold loadChoice
  rw [roundRobin_first pointer.isLt c.isLt hw fun u hu h => hmin ⟨u, hu⟩ h]
  simp

/-! ### The grant order (R29, R33) -/

theorem grant_still {s : State}
    (h : s.store.running ≠ none ∨ s.store.power = .selfRefresh ∨ s.store.power = .exiting) : s.grant = s := by
  rcases h with h | h | h
  · exact grant_busy h
  all_goals
    unfold State.grant
    rw [h]
    split <;> rfl

theorem grant_entering {s : State} (hr : s.store.running = none) (hp : s.store.power = .entering) : s.grant =
    if 0 < s.store.debt ∨ s.store.refreshed = false then s.grantRefresh else s.enterSelfRefresh := by
  unfold State.grant
  rw [hr, hp]
  rfl

theorem grant_awake {s : State} (hr : s.store.running = none) (hp : s.store.power = .awake) :
    s.grant = s.grantAwake := by
  unfold State.grant
  rw [hr, hp]
  rfl

section
variable {s : State}

theorem grantAwake_owed (hd : s.store.debt = 8) : s.grantAwake = s.grantRefresh := by
  unfold State.grantAwake
  rw [if_pos hd]

theorem grantAwake_scan {t : Tile} (hd : s.store.debt ≠ 8)
    (hc : scanChoice s.store.scanPointer s.store.scanWaiting = some t) : s.grantAwake = s.grantScan t := by
  unfold State.grantAwake
  rw [if_neg hd, hc]

/-- With no SCAN waiting the order goes on. -/
theorem grantAwake_noScan (hd : s.store.debt ≠ 8) (hs : s.store.scanWaiting = 0) : s.grantAwake =
    if 1 ≤ s.store.debt then s.grantRefresh
    else
      match loadChoice s.store.loadPointer s.store.loadWaiting with
      | some c => s.grantLoad c
      | none =>
        if s.store.scrubWaiting then s.grantScrub
        else if s.store.editWaiting then s.grantEdit
        else if -8 < s.store.debt then s.grantRefresh
        else s := by
  have hc : scanChoice s.store.scanPointer s.store.scanWaiting = none := by rw [hs]; exact scanChoice_zero _
  unfold State.grantAwake
  rw [if_neg hd, hc] <;> rfl

theorem grantAwake_load {c : ChanId} (hd : s.store.debt < 1) (hs : s.store.scanWaiting = 0)
    (hc : loadChoice s.store.loadPointer s.store.loadWaiting = some c) : s.grantAwake = s.grantLoad c := by
  rw [grantAwake_noScan (by omega) hs, if_neg (by omega), hc]

/-- With no LOAD waiting either, it goes on to its last steps. -/
theorem grantAwake_last (hd : s.store.debt < 1) (hs : s.store.scanWaiting = 0) (hl : s.store.loadWaiting = 0) :
    s.grantAwake = if s.store.scrubWaiting then s.grantScrub
      else if s.store.editWaiting then s.grantEdit
      else if -8 < s.store.debt then s.grantRefresh
      else s := by
  have hc : loadChoice s.store.loadPointer s.store.loadWaiting = none := by rw [hl]; exact loadChoice_zero _
  rw [grantAwake_noScan (by omega) hs, if_neg (by omega), hc]

end

/-! ### What a grant fixes -/

theorem grantScan_slot {s : State} {t : Tile} {f : UnitFetch} {pg : Handle} {n : Nat} (hf : s.units[t].fetch = some f)
    (hs : f.source = .slot pg n) : s.grantScan t =
      (s.modStore fun st => { st with scanWaiting := eraseBit st.scanWaiting t.val, scanPointer := t }).run
        (.scan t n (f.requested - 1)) := by
  obtain ⟨frame, source, sent, sum, requested, endSent⟩ := f
  cases hs
  unfold State.grantScan
  dsimp only
  rw [modStore_units, hf]

/-- The tile column and row of an image, counted across the rows, give its number back. -/
theorem slotOf_place (p : Page) (cell k : Nat) :
    p.slotOf cell (k % p.width) (k / p.width) = p.baseSlot + cell * (p.width * p.height) + k := by
  unfold Page.slotOf
  have := Nat.div_add_mod' k p.width
  omega

theorem grantLoad_place {s : State} {c : ChanId} {l : Load} {p : Page} (hl : s.load.chans[c] = some l)
    (hp : s.page l.page = some p) : s.grantLoad c =
      (s.modStore fun st => { st with loadWaiting := eraseBit st.loadWaiting c.val, loadPointer := c }).run
        (.load c (loadPlace p l.mode l.linesWritten).1 (loadPlace p l.mode l.linesWritten).2 (l.buffer.take 256)) := by
  have hp' : (s.modStore fun st =>
      { st with loadWaiting := eraseBit st.loadWaiting c.val, loadPointer := c }).page l.page = some p := hp
  unfold State.grantLoad
  dsimp only
  rw [modStore_load, hl]
  dsimp only
  rw [hp']
  rfl

theorem grantScrub_head {s : State} {e : ScrubEntry} {rest : List ScrubEntry} (hq : s.store.scrub = e :: rest) :
    s.grantScrub = (s.modStore fun st => { st with scrubWaiting := false }).run (.scrub e) := by
  unfold State.grantScrub
  dsimp only
  rw [modStore_store]
  dsimp only
  rw [hq]

theorem grantEdit_patch {s : State} {p : Port} {tag : Byte} {pg : Handle} {cell x y line first : Nat}
    {plane stipple : BitVec 32} {ws : List Word} {rest : List Edit} {e : Page}
    (hq : s.edit.queue = { port := p, tag := tag, job := .patch pg cell x y line first plane stipple ws } :: rest)
    (he : s.page pg = some e) : s.grantEdit = (s.modStore fun st => { st with editWaiting := false }).run
      (.patch p (e.slotOf cell x y) line first plane stipple ws) := by
  have he' : (s.modStore fun st => { st with editWaiting := false }).page pg = some e := he
  unfold State.grantEdit State.editTransfer
  dsimp only
  rw [modStore_edit, hq]
  dsimp only
  rw [he']
  rfl

theorem grantEdit_copyPattern {s : State} {p : Port} {tag : Byte} {src dst : Handle} {sc dc k : Nat}
    {rest : List Edit} {d : Page}
    (hq : s.edit.queue = { port := p, tag := tag, job := .copy src sc dst dc k } :: rest)
    (hd : s.page dst = some d) (hs : src.toNat < 4) :
    s.grantEdit = (s.modStore fun st => { st with editWaiting := false }).run
      (.copy p (.pattern (patternOf src)) (d.slotOf dc (k / 256 % d.width) (k / 256 / d.width)) (k % 256)) := by
  have hd' : (s.modStore fun st => { st with editWaiting := false }).page dst = some d := hd
  unfold State.grantEdit State.editTransfer
  dsimp only
  rw [modStore_edit, hq]
  dsimp only
  rw [hd', isPattern_true hs]
  rfl

theorem grantEdit_copySlot {s : State} {p : Port} {tag : Byte} {src dst : Handle} {sc dc k : Nat}
    {rest : List Edit} {d a : Page}
    (hq : s.edit.queue = { port := p, tag := tag, job := .copy src sc dst dc k } :: rest)
    (hd : s.page dst = some d) (hs : 4 ≤ src.toNat) (ha : s.page src = some a) :
    s.grantEdit = (s.modStore fun st => { st with editWaiting := false }).run
      (.copy p (.slot (a.slotOf sc (k / 256 % d.width) (k / 256 / d.width)))
        (d.slotOf dc (k / 256 % d.width) (k / 256 / d.width)) (k % 256)) := by
  have hd' : (s.modStore fun st => { st with editWaiting := false }).page dst = some d := hd
  have ha' : (s.modStore fun st => { st with editWaiting := false }).page src = some a := ha
  unfold State.grantEdit State.editTransfer
  dsimp only
  rw [modStore_edit, hq]
  dsimp only
  rw [hd', isPattern_false hs]
  dsimp only [Option.bind]
  rw [ha']
  rfl

/-- Settles O52: the order by the lemmas on each of its steps, and what each grant fixes. -/
theorem theGrantOrderIsKept : Obligations.TheGrantOrderIsKept := by
  intro s run
  refine ⟨grant_still, fun hr hp => ⟨fun h => ?owed, fun hd hf => ?enter⟩, fun hr hp => ⟨fun hd => ?debt8, fun hd =>
    ⟨fun t hw hmin => ?scan, fun hs => ⟨fun h1 => ?pay, fun h1 => ⟨fun c hw hmin => ?load, fun hl => ⟨fun hc => ?scrub,
    fun hc he => ?edit, fun hc he => ⟨fun h8 => ?ahead, fun h8 => ?nothing⟩⟩⟩⟩⟩⟩,
    fun t f pg n hf hs => ?scanLine, fun c l p hl hp => ?loadLine, fun e rest hq => ?scrubHead,
    fun p tag pg cell x y line first plane stipple ws rest e hq he => ?patchLine,
    fun p tag src dst sc dc k rest d hq hd => ⟨fun hs => ?copyPattern, fun a hs ha hw hh => ?copySlot⟩⟩
  case owed => rw [grant_entering hr hp, if_pos h]; rfl
  case enter => rw [grant_entering hr hp, if_neg (by rw [hf]; simp; omega)]; rfl
  case debt8 => rw [grant_awake hr hp, grantAwake_owed hd]; rfl
  case scan => rw [grant_awake hr hp, grantAwake_scan hd (scanChoice_first hw hmin)]
  case pay => rw [grant_awake hr hp, grantAwake_noScan hd hs, if_pos h1]; rfl
  case load => rw [grant_awake hr hp, grantAwake_load h1 hs (loadChoice_first hw hmin)]
  case scrub => rw [grant_awake hr hp, grantAwake_last h1 hs hl, if_pos hc]
  case edit => rw [grant_awake hr hp, grantAwake_last h1 hs hl, hc, he]; rfl
  case ahead => rw [grant_awake hr hp, grantAwake_last h1 hs hl, hc, he, if_pos h8]; rfl
  case nothing => rw [grant_awake hr hp, grantAwake_last h1 hs hl, hc, he, if_neg Bool.false_ne_true, if_neg Bool.false_ne_true,
    if_neg (by omega)]
  case scanLine => rw [grantScan_slot hf hs]; rfl
  case loadLine =>
    rw [grantLoad_place hl hp]
    unfold loadPlace
    dsimp only
    rw [slotOf_place]
    rfl
  case scrubHead => rw [grantScrub_head hq]; rfl
  case patchLine => rw [grantEdit_patch hq he]; rfl
  case copyPattern =>
    rw [grantEdit_copyPattern hq hd hs, slotOf_place]
    rfl
  case copySlot =>
    have hplace := slotOf_place a sc (k / 256)
    rw [hw, hh] at hplace
    rw [grantEdit_copySlot hq hd hs ha, slotOf_place, hplace]
    rfl

/-! ### Refresh -/

/-- Settles O47: the timer by the store's power and debt, and the refresh that is paid. -/
theorem refreshesAreOwedAndPaid : Obligations.RefreshesAreOwedAndPaid := by
  refine ⟨fun s h => ?stopped, fun s h => ⟨fun hd => ?owed, fun hd hl => ?locked, fun hd hl => ?missed⟩,
    fun discard s hr => ?paid⟩
  case stopped =>
    refine congrArg Host.Outcome.next ?_
    unfold refreshIntervalExpiry
    rcases h with h | h <;> rw [h] <;> rfl
  case owed =>
    refine congrArg Host.Outcome.next ?_
    unfold refreshIntervalExpiry
    rw [if_pos h, if_neg hd]
    rfl
  case locked =>
    refine congrArg Host.Outcome.next ?_
    unfold refreshIntervalExpiry State.offerFault
    rw [if_pos h, if_pos hd, if_pos hl]
    rfl
  case missed =>
    refine ⟨_, rfl, ?_⟩
    unfold refreshIntervalExpiry State.offerFault
    rw [if_pos h, if_pos hd, if_neg (by rw [hl]; simp)]
    exact ⟨rfl, fun q => raiseOperators_at _ _ q⟩
  case paid =>
    refine congrArg Host.Outcome.next ?_
    unfold refreshComplete
    rw [hr]
    rfl

/-! ### Self-refresh -/

/-- Settles O48: the entry request and the exit by the store's power, and the completions by their reports. -/
theorem selfRefreshIsEnteredAndLeft : Obligations.SelfRefreshIsEnteredAndLeft := by
  refine ⟨fun s => ⟨fun hp h => ?entering, fun hp hr hd hf => ?entered, fun hp => ?kept, fun hp => ?nothing⟩,
    fun s hp => ?exit, fun rest s hm => ?dark, fun rest s hm => ⟨fun hw => ?still, fun hw => ?lit⟩⟩
  case entering =>
    unfold State.entryRequest
    rw [hp]
    dsimp only
    rw [modStore_store]
    dsimp only
    rw [if_neg]
    · rfl
    · rintro ⟨h1, h2, h3⟩
      rcases h with h | h | h
      · exact h (Option.isNone_iff_eq_none.1 h1)
      · omega
      · rw [h] at h3; cases h3
  case entered =>
    unfold State.entryRequest
    rw [hp]
    dsimp only
    rw [modStore_store]
    dsimp only
    rw [if_pos ⟨by rw [hr]; rfl, hd, hf⟩]
    rfl
  case kept => unfold State.entryRequest; rw [hp]; rfl
  case nothing => unfold State.entryRequest; rcases hp with hp | hp <;> rw [hp]
  case exit =>
    refine congrArg Host.Outcome.next ?_
    unfold selfRefreshExit
    rw [if_pos hp]
    rfl
  case dark =>
    refine congrArg Host.Outcome.next ?_
    unfold entryCompletion State.popStore
    rw [hm]
    dsimp only [State.modMail]
    rw [hm]
    rfl
  case still =>
    refine congrArg Host.Outcome.next ?_
    unfold exitCompletion State.popStore
    rw [hm]
    dsimp only [State.modMail]
    rw [hm, if_neg hw]
    rfl
  case lit =>
    have he : exitCompletion s = (s.popStore.setWindow .lit).powerOnBound := by
      unfold exitCompletion
      rw [hm]
      exact if_pos hw
    have hpop : s.popStore = { s with mail := { s.mail with fromStore := rest } } := by
      unfold State.popStore State.modMail
      dsimp only
      rw [hm]
      rfl
    have ho := powerOnBound_only (s.popStore.setWindow .lit)
    have ht := powerOnBound_toUnit (s.popStore.setWindow .lit)
    refine ⟨exitCompletion s, rfl, ?_⟩
    rw [he]
    generalize (s.popStore.setWindow .lit).powerOnBound = t at ho ht ⊢
    rw [hpop] at ho ht
    exact ⟨ho, ht⟩

/-! ### Dropped transfers -/

/-- Settles O51: each completion looks at the mark of the running transfer first. -/
theorem droppedTransfersHaveNoOutcome : Obligations.DroppedTransfersHaveNoOutcome := by
  intro r i s hr hd hc
  obtain ⟨job, discard, dropped⟩ := r
  cases hd
  cases job <;> unfold completes at hc
  case load =>
    subst hc
    refine congrArg Host.Outcome.next ?_
    unfold loadComplete
    rw [hr]
    rfl
  case refresh =>
    subst hc
    refine congrArg Host.Outcome.next ?_
    unfold refreshComplete
    rw [hr]
    rfl
  all_goals
    obtain ⟨e, rfl⟩ := hc
    refine congrArg Host.Outcome.next ?_
  case scan => unfold scanComplete; rw [hr]; rfl
  case patch => unfold patchEditComplete; rw [hr]; rfl
  case copy => unfold copyLineComplete; rw [hr]; rfl
  case scrub => unfold scrubComplete; rw [hr]; rfl

end Sys2Proof.Machine
end

