-- ==== Sys2Proof/Proofs/Words.lean ====
section
/-! How a stored word reads by its bits in error (R35, log entry 4), and what writes and new bit errors change (R25, R26,
log entry 2). -/

namespace Sys2Proof.Machine

/-! ### The number of bits in error -/

theorem length_filter_range (n : Nat) (p : Nat → Bool) :
    ((List.range n).filter p).length = ((Finset.range n).filter fun i => p i = true).card := by
  have h : ((Finset.range n).filter fun i => p i = true) = ((List.range n).filter p).toFinset := by
    ext i
    simp
  rw [h, List.toFinset_card_of_nodup (List.nodup_range.filter _)]

theorem errorWeight_card (e : ErrorMask) :
    errorWeight e = ((Finset.range 72).filter fun i => e.getLsbD i = true).card := by
  unfold errorWeight
  rw [List.countP_eq_length_filter, length_filter_range]

theorem errorWeight_of_members {e : ErrorMask} {S : Finset Nat} (hS : ∀ i, i ∈ S ↔ i < 72 ∧ e.getLsbD i = true) :
    errorWeight e = S.card := by
  rw [errorWeight_card]
  congr 1
  ext i
  rw [hS, Finset.mem_filter, Finset.mem_range]

theorem errorWeight_single {i : Nat} (hi : i < 72) : errorWeight (BitVec.twoPow 72 i) = 1 := by
  rw [errorWeight_of_members (S := {i}) fun j => ?_, Finset.card_singleton]
  rw [Finset.mem_singleton, BitVec.getLsbD_twoPow]
  simp only [hi, decide_true, Bool.true_and, decide_eq_true_eq]
  omega

theorem errorWeight_pair {i j : Nat} (hij : i < j) (hj : j < 72) :
    errorWeight (BitVec.twoPow 72 i ||| BitVec.twoPow 72 j) = 2 := by
  have hi : i < 72 := hij.trans hj
  rw [errorWeight_of_members (S := {i, j}) fun k => ?_, Finset.card_pair (by omega)]
  rw [Finset.mem_insert, Finset.mem_singleton, BitVec.getLsbD_or, BitVec.getLsbD_twoPow, BitVec.getLsbD_twoPow]
  simp only [hi, hj, decide_true, Bool.true_and, Bool.or_eq_true, decide_eq_true_eq]
  omega

theorem errorWeight_zero : errorWeight 0 = 0 := by
  rw [errorWeight_of_members (S := ∅) fun k => ?_, Finset.card_empty]
  simp

theorem ne_zero_of_weight {e : ErrorMask} (h : errorWeight e ≠ 0) : e ≠ 0 := by
  rintro rfl
  exact h errorWeight_zero

/-! ### One group of 4 bits -/

theorem group_bit (m : BitVec 4) {g : Nat} (hg : g < 18) (i : Nat) :
    (m.setWidth 72 <<< (4 * g)).getLsbD i = (decide (4 * g ≤ i ∧ i < 4 * g + 4) && m.getLsbD (i - 4 * g)) := by
  rw [BitVec.getLsbD_shiftLeft, BitVec.getLsbD_setWidth]
  by_cases h1 : 4 * g ≤ i
  · by_cases h2 : i < 4 * g + 4
    · have h3 : i < 72 := by omega
      have h4 : i - 4 * g < 72 := by omega
      simp [h1, h2, h3, h4]
    · have : m.getLsbD (i - 4 * g) = false := BitVec.getLsbD_of_ge _ _ (by omega)
      simp [this]
  · simp [h1, Nat.lt_of_not_le h1]

theorem errorWeight_group (m : BitVec 4) {g : Nat} (hg : g < 18) :
    errorWeight (m.setWidth 72 <<< (4 * g)) = ((List.range 4).filter m.getLsbD).length := by
  rw [length_filter_range, ← Finset.card_image_of_injective _ (add_right_injective (4 * g))]
  refine errorWeight_of_members fun i => ?_
  rw [group_bit m hg]
  simp only [Finset.mem_image, Finset.mem_filter, Finset.mem_range, Bool.and_eq_true, decide_eq_true_eq]
  constructor
  · rintro ⟨k, ⟨hk, hm⟩, rfl⟩
    refine ⟨by omega, by omega, ?_⟩
    rwa [Nat.add_sub_cancel_left]
  · rintro ⟨-, h, hm⟩
    exact ⟨i - 4 * g, ⟨by omega, hm⟩, by omega⟩

theorem inOneGroup_group (m : BitVec 4) {g : Nat} (hg : g < 18) : inOneGroup (m.setWidth 72 <<< (4 * g)) = true := by
  unfold inOneGroup
  rw [List.any_eq_true]
  refine ⟨g, List.mem_range.2 hg, beq_iff_eq.2 (BitVec.eq_of_getLsbD_eq fun i _ => ?_)⟩
  have hmask : BitVec.ofNat 72 15 = (15 : BitVec 4).setWidth 72 := rfl
  rw [BitVec.getLsbD_and, hmask, group_bit m hg, group_bit 15 hg]
  by_cases h : 4 * g ≤ i ∧ i < 4 * g + 4
  · have hbit : ∀ k, k < 4 → (15 : BitVec 4).getLsbD k = true := by decide
    rw [hbit (i - 4 * g) (by omega)]
    simp [h]
  · simp [h]

/-! ### The classes -/

theorem classify_single (w : Word) {i : Nat} (hi : i < 72) :
    classify (w ^^^ (BitVec.twoPow 72 i).setWidth 64) (BitVec.twoPow 72 i) = { cls := .corrected, data := w } := by
  have hw := errorWeight_single hi
  unfold classify
  rw [if_neg (ne_zero_of_weight (by rw [hw]; decide)), if_pos hw, BitVec.xor_assoc, BitVec.xor_self, BitVec.xor_zero]

theorem classify_several (w : Word) {e : ErrorMask} (h : 2 ≤ errorWeight e)
    (hu : errorWeight e = 2 ∨ (errorWeight e ≤ 4 ∧ inOneGroup e = true)) : (classify w e).cls = .uncorrectable := by
  unfold classify
  rw [if_neg (ne_zero_of_weight (by omega)), if_neg (by omega), if_pos hu]

/-! ### A word that bit errors come into -/

theorem rawWord_disturbWord {st : Store} (w : st.wf) (a l n : Nat) (e : ErrorMask) :
    (st.disturbWord a l n e).rawWord a l n = st.rawWord a l n ^^^ e.setWidth 64 :=
  rawWord_writeWord w a l n (st.rawWord a l n ^^^ e.setWidth 64)

theorem errors_disturbWord {st : Store} (w : st.wf) (a l n k : Nat) (e : ErrorMask) :
    sparseGet (0 : ErrorMask) (st.disturbWord a l n e).errors k =
      if k = wordNumber a l n then st.errorOf a l n ^^^ e else sparseGet 0 st.errors k :=
  sparseGet_putFrom (lo := 0) w.2

theorem readWord_disturbWord {st : Store} (w : st.wf) (a l n : Nat) (e : ErrorMask) :
    (st.disturbWord a l n e).readWord a l n =
      classify (st.rawWord a l n ^^^ e.setWidth 64) (st.errorOf a l n ^^^ e) := by
  have he : (st.disturbWord a l n e).errorOf a l n = st.errorOf a l n ^^^ e :=
    (errors_disturbWord w a l n (wordNumber a l n) e).trans (if_pos rfl)
  unfold Store.readWord
  rw [rawWord_disturbWord w, he]

theorem readWord_disturbWord_other {st : Store} (w : st.wf) {a l n b m v : Nat} (e : ErrorMask)
    (h : wordNumber b m v ≠ wordNumber a l n) : (st.disturbWord a l n e).readWord b m v = st.readWord b m v := by
  have e1 := byteAddr_eq a l n
  have e2 := byteAddr_eq b m v
  refine readWord_congr b m v (fun x h1 h2 => ?_) ((errors_disturbWord w a l n (wordNumber b m v) e).trans (if_neg h))
  exact writeWord_read_outside w a l n x (st.rawWord a l n ^^^ e.setWidth 64) (by omega)

/-- Settles O53: the classes by the number of bits in error, and the memory by what a write leaves alone. -/
theorem storedWordsAreClassified : Obligations.StoredWordsAreClassified := by
  refine ⟨fun w => rfl, fun w i hi => classify_single w hi, fun w i j hij hj => ?pair, fun w g m hg hm => ?group,
    fun slot line word w s hs => ⟨readWord_writeWord hs slot line word w, fun b m v h1 h2 h3 h4 h5 h6 hne => ?written⟩,
    fun a l w b m v ha hl hw hb hm hv h => ?inj,
    fun a l w e s hs => ⟨readWord_disturbWord hs a l w e, fun b m v ha hl hw hb hm hv hne => ?disturbed⟩,
    fun a l w e es s => ⟨rfl, rfl⟩⟩
  case pair =>
    have h := errorWeight_pair hij hj
    exact classify_several w (by omega) (.inl h)
  case group =>
    have h := errorWeight_group m hg
    have h4 : ((List.range 4).filter m.getLsbD).length ≤ 4 := (List.length_filter_le _ _).trans (by simp)
    exact classify_several w (by omega) (.inr ⟨by omega, inOneGroup_group m hg⟩)
  case written =>
    refine readWord_writeWord_other hs slot line word b m v w fun h => hne ?_
    obtain ⟨h7, h8, h9⟩ := wordNumber_inj h5 h6 h2 h3 h4 h1 h
    exact ⟨h7.symm, h8.symm, h9.symm⟩
  case inj => exact wordNumber_inj hl hw hm hv ha hb (by unfold wordNumber; rw [h])
  case disturbed =>
    refine readWord_disturbWord_other hs e fun h => hne ?_
    obtain ⟨h7, h8, h9⟩ := wordNumber_inj hm hv hl hw hb ha h
    exact ⟨h7.symm, h8.symm, h9.symm⟩

end Sys2Proof.Machine
end

