-- ==== Sys2Proof/Proofs/WordEffects.lean ====
section
/-! What the words read by a SCAN, an EDIT or a SCRUB do beside the transfer (R7, R36, R37, R39, R42): the fault capture
record, the events, the damaged pages, the count and the scrub queue, for all the words of a line at once; and the
completions of SCAN and SCRUB. -/

namespace Sys2Proof.Machine

/-! ### One damaged page -/

theorem damage_eq (p : Page) : p.damage = damagedPage p := by
  unfold Page.damage damagedPage
  cases p.kind
  · dsimp only
    split <;> simp [Page.settle, *]
  · rfl

theorem damagedPage_damagedPage (p : Page) : damagedPage (damagedPage p) = damagedPage p := by
  obtain ⟨state, kind, width, height, cells, rate, baseSlot, slotCount, owner, shared, showC, writeC, valid, latest, pins,
    busy, damaged⟩ := p
  cases kind <;> cases state <;> rfl

theorem damagedPage_run (p : Page) :
    (damagedPage p).baseSlot = p.baseSlot ∧ (damagedPage p).slotCount = p.slotCount ∧
      (damagedPage p).owner = p.owner := by
  unfold damagedPage
  cases p.kind <;> exact ⟨rfl, rfl, rfl⟩

/-- A page that has been damaged does not turn again, unless it is one without a flag. -/
theorem damagedPage_damaged (p : Page) : (damagedPage p).damaged = some true ∨ damagedPage p = p := by
  unfold damagedPage
  cases p.kind
  · exact .inl rfl
  · exact .inr rfl

/-- Who holds a slot depends on the runs of the pages alone. -/
theorem slotOwner_congr {s t : State}
    (h : ∀ k : Handle, (t.page k).map (fun p => (p.baseSlot, p.slotCount)) =
      (s.page k).map fun p => (p.baseSlot, p.slotCount)) (slot : Nat) : t.slotOwner slot = s.slotOwner slot := by
  unfold State.slotOwner
  refine congrArg (allHandles.find? ·) (funext fun k => ?_)
  have hany : ∀ x : Option Page, x.any (fun p => decide (p.baseSlot ≤ slot ∧ slot < p.baseSlot + p.slotCount)) =
      (x.map fun p => (p.baseSlot, p.slotCount)).any fun r => decide (r.1 ≤ slot ∧ slot < r.1 + r.2) := fun x => by
    cases x <;> rfl
  rw [hany, hany, h]

/-! ### One uncorrectable word -/

theorem offerFault_record (s : State) (f : CapturedFault) : (s.offerFault f).store =
    { s.store with
      record := if s.store.record.locked then { s.store.record with multiple := true }
        else { fault := some f, locked := true, multiple := false } } := by
  unfold State.offerFault
  split <;> rfl

theorem offerFault_port (s : State) (f : CapturedFault) (q : Port) : (s.offerFault f).ports[q] =
    if s.store.record.locked = false ∧ s.cls q = .operator then s.ports[q].take .fault else s.ports[q] := by
  unfold State.offerFault
  cases hl : s.store.record.locked
  · simp only [Bool.false_eq_true, if_false, true_and]
    exact raiseOperators_at _ _ q
  · simp

theorem offerFault_rest (s : State) (f : CapturedFault) :
    s.offerFault f = { s with store := (s.offerFault f).store, ports := (s.offerFault f).ports } := by
  unfold State.offerFault
  split <;> rfl

/-- The page that holds a slot is damaged. -/
def State.damageAt (s : State) (slot : Nat) : State :=
  match s.slotOwner slot with
  | some h => s.setPage h Page.damage
  | none => s

theorem damageAt_page (s : State) (slot : Nat) (k : Handle) :
    (s.damageAt slot).page k = (s.page k).map fun p => if s.slotOwner slot = some k then damagedPage p else p := by
  unfold State.damageAt
  cases ho : s.slotOwner slot with
  | none => simp
  | some h =>
    dsimp only
    rw [page_setPage]
    by_cases hk : k = h
    · subst hk
      rw [if_pos rfl]
      simp [funext damage_eq]
    · have hne : ¬ h = k := fun e => hk e.symm
      rw [if_neg hk]
      simp [hne]

theorem damageAt_rest (s : State) (slot : Nat) :
    s.damageAt slot = { s with dir := { s.dir with pages := (s.damageAt slot).dir.pages } } := by
  unfold State.damageAt
  split <;> rfl

/-- The owner of the page at a slot is told where its flag turns (R37). -/
def State.tellTurned (s t : State) (slot : Nat) : State :=
  match ((s.slotOwner slot).bind s.page).any (fun p => decide (p.damaged = some false)),
      ((s.slotOwner slot).bind s.page).map (·.owner) with
  | true, some p => t.raise p .pageDamaged
  | _, _ => t

theorem uncorrectable_eq (s : State) (kind : FaultKind) (o : Origin) (a : WordAddr) :
    s.uncorrectable kind o a = s.tellTurned ((s.damageAt a.slot).offerFault
      { kind := kind, addr := some a, page := s.slotOwner a.slot, source := some o, frame := s.scene.frame }) a.slot := by
  have hf : ((s.damageAt a.slot)).scene.frame = s.scene.frame := by rw [damageAt_rest]
  unfold State.uncorrectable State.tellTurned
  dsimp only
  rw [← hf]
  rfl

theorem tellTurned_rest (s t : State) (slot : Nat) : s.tellTurned t slot = { t with ports := (s.tellTurned t slot).ports } := by
  unfold State.tellTurned
  split <;> rfl

theorem tellTurned_port (s t : State) (slot : Nat) (q : Port) : (s.tellTurned t slot).ports[q] =
    if ((s.slotOwner slot).bind s.page).any (fun p => decide (p.owner = q ∧ p.damaged = some false)) = true
    then t.ports[q].take .pageDamaged else t.ports[q] := by
  unfold State.tellTurned
  cases hp : (s.slotOwner slot).bind s.page with
  | none => rfl
  | some p =>
    by_cases hd : p.damaged = some false
    · simp only [Option.any_some, Option.map_some, hd, decide_true, and_true, decide_eq_true_eq]
      rw [raise_at]
      by_cases hq : p.owner = q
      · rw [if_pos hq.symm, if_pos hq]
      · rw [if_neg (fun e => hq e.symm), if_neg hq]
    · simp [hd]

/-! ### The words of a line -/

/-- What the words read call for has been done: the store but for its bytes and its bus, the events and the pages. -/
def wordsDone (s v : State) (kind : FaultKind) (o : Origin) (slot line : Nat) (bad fixed : List Nat) : Prop :=
  v = { s with store := v.store, dir := v.dir, ports := v.ports } ∧
    v.store = { s.store with
      record := recordAfter s kind o slot line bad
      corrected := min 65535 (s.store.corrected + fixed.length), scrub := offered s.store.scrub o slot line fixed
      scrubWaiting := s.store.scrubWaiting || decide (s.store.scrub = [] ∧ fixed ≠ []) } ∧
    (∀ q : Port, v.ports[q] = portAfter s slot bad q) ∧
    (∀ k : Handle, v.page k = (s.page k).map (reportedPage s slot bad k)) ∧ v.dir.free = s.dir.free ∧
    v.dir.populated = s.dir.populated

theorem portAfter_nil (s : State) (slot : Nat) (q : Port) : portAfter s slot [] q = s.ports[q] := by
  unfold portAfter
  simp

theorem reportedPage_nil (s : State) (slot : Nat) (k : Handle) (p : Page) : reportedPage s slot [] k p = p := by
  unfold reportedPage
  simp

/-- An uncorrectable word: a damage report, an offered fault, and PAGE_DAMAGED where the flag turned (R37). -/
theorem uncorrectable_fields {s v : State} {kind : FaultKind} {o : Origin} {slot line w : Nat}
    (hv : s.uncorrectable kind o { slot := slot, line := line, word := w } = v) :
    v = { s with store := v.store, dir := v.dir, ports := v.ports } ∧
      v.store = { s.store with record := recordAfter s kind o slot line [w] } ∧
      (∀ q : Port, v.ports[q] = portAfter s slot [w] q) ∧
      (∀ k : Handle, v.page k = (s.page k).map (reportedPage s slot [w] k)) ∧ v.dir.free = s.dir.free ∧
      v.dir.populated = s.dir.populated := by
  rw [uncorrectable_eq] at hv
  subst hv
  dsimp only
  generalize hf : ({ kind := kind, addr := some { slot := slot, line := line, word := w }, page := s.slotOwner slot
                     source := some o, frame := s.scene.frame } : CapturedFault) = f
  have h1 := damageAt_rest s slot
  have hp := damageAt_page s slot
  generalize s.damageAt slot = u at h1 hp
  have h2 := offerFault_rest u f
  have h3 := offerFault_record u f
  have h4 := offerFault_port u f
  generalize u.offerFault f = t at h2 h3 h4
  have h5 := tellTurned_rest s t slot
  have h6 := tellTurned_port s t slot
  generalize s.tellTurned t slot = v at h5 h6
  have hstore : u.store = s.store := by rw [h1]
  have hports : u.ports = s.ports := by rw [h1]
  refine ⟨?rest, ?store, fun q => ?port, fun k => ?page, ?free, ?populated⟩
  case rest => rw [h5, h2, h1]
  case store =>
    rw [h5]
    change t.store = _
    rw [h3, hstore]
    have hr : recordAfter s kind o slot line [w] =
        if s.store.record.locked then { s.store.record with multiple := true }
        else { fault := some f, locked := true, multiple := false } := by
      rw [← hf]
      rfl
    rw [hr]
  case port =>
    rw [h6, h4, hstore, show u.cls q = s.cls q by unfold State.cls; rw [hports], hports]
    unfold portAfter
    simp
  case page =>
    rw [h5]
    change t.page k = _
    rw [h2]
    change u.page k = _
    rw [hp]
    unfold reportedPage
    simp
  case free => rw [h5, h2, h1]
  case populated => rw [h5, h2, h1]

theorem uncorrectable_done (s : State) (kind : FaultKind) (o : Origin) (slot line w : Nat)
    (hc : s.store.corrected ≤ 65535) :
    wordsDone s (s.uncorrectable kind o { slot := slot, line := line, word := w }) kind o slot line [w] [] := by
  obtain ⟨h1, h2, h3⟩ := uncorrectable_fields (s := s) (kind := kind) (o := o) (slot := slot) (line := line) (w := w) rfl
  refine ⟨h1, ?_, h3⟩
  rw [h2]
  simp [offered, hc]

theorem clean_done (s : State) (kind : FaultKind) (o : Origin) (slot line : Nat) (hc : s.store.corrected ≤ 65535) :
    wordsDone s s kind o slot line [] [] := by
  refine ⟨rfl, ?_, fun q => (portAfter_nil s slot q).symm, fun k => ?_, rfl, rfl⟩
  · simp [recordAfter, offered, hc]
  · rw [show reportedPage s slot [] k = id from funext fun p => reportedPage_nil s slot k p]
    simp

theorem offered_one (q : List ScrubEntry) (o : Origin) (slot line w : Nat) : offered q o slot line [w] =
    if q.length < 4 ∧ ∀ e ∈ q, e.addr ≠ { slot := slot, line := line, word := w } then
      q ++ [{ addr := { slot := slot, line := line, word := w }, origin := o }] else q := rfl

/-- The store after an offer to the scrub queue: an empty queue takes it, and makes its request (R39, R40). -/
theorem offerScrub_store (s : State) (o : Origin) (slot line w : Nat) :
    (s.offerScrub { slot := slot, line := line, word := w } o).store =
      { s.store with
        scrub := offered s.store.scrub o slot line [w]
        scrubWaiting := s.store.scrubWaiting || decide (s.store.scrub = [] ∧ [w] ≠ []) } := by
  rw [offered_one]
  unfold State.offerScrub
  simp only [List.all_eq_true, decide_eq_true_eq]
  by_cases h : s.store.scrub.length < 4 ∧ ∀ e ∈ s.store.scrub, e.addr ≠ { slot := slot, line := line, word := w }
  · rw [if_pos h, if_pos h, modStore_store]
    by_cases hq : s.store.scrub = []
    · simp [hq]
    · simp [hq]
  · rw [if_neg h, if_neg h]
    have hq : s.store.scrub ≠ [] := fun hq => h (by rw [hq]; exact ⟨by decide, nofun⟩)
    simp [hq]

theorem corrected_done (s : State) (kind : FaultKind) (o : Origin) (slot line w : Nat) :
    wordsDone s (s.countCorrected.offerScrub { slot := slot, line := line, word := w } o) kind o slot line [] [w] := by
  have hrest : ∀ u : State, (∃ st, u = { s with store := st }) →
      u = { s with store := u.store, dir := u.dir, ports := u.ports } ∧ u.ports = s.ports ∧ u.dir = s.dir := by
    rintro u ⟨st, rfl⟩
    exact ⟨rfl, rfl, rfl⟩
  have hu : ∃ st, s.countCorrected.offerScrub { slot := slot, line := line, word := w } o = { s with store := st } := by
    unfold State.offerScrub
    split <;> exact ⟨_, rfl⟩
  obtain ⟨h1, h2, h3⟩ := hrest _ hu
  refine ⟨h1, ?_, fun q => by rw [h2, portAfter_nil], fun k => ?_, by rw [h3], by rw [h3]⟩
  · rw [offerScrub_store]
    unfold State.countCorrected
    rfl
  · have : (s.countCorrected.offerScrub { slot := slot, line := line, word := w } o).page k = s.page k := by
      unfold State.page
      rw [h3]
    rw [this, show reportedPage s slot [] k = id from funext fun p => reportedPage_nil s slot k p]
    simp

/-! ### The effects of words add up -/

theorem take_take (r : PortRec) (e : Event) : (r.take e).take e = r.take e := by
  obtain ⟨up, cls, events, mask, transit, waiting⟩ := r
  cases up
  · rfl
  · simp [PortRec.take, insertBit, BitVec.or_assoc]

theorem take_comm (r : PortRec) (e f : Event) : (r.take e).take f = (r.take f).take e := by
  obtain ⟨up, cls, events, mask, transit, waiting⟩ := r
  cases up
  · rfl
  · simp only [PortRec.take, insertBit, if_true, BitVec.or_assoc]
    rw [BitVec.or_comm (BitVec.twoPow 15 e.bit)]

theorem take_cls (p : PortRec) (e : Event) : (p.take e).cls = p.cls := by
  unfold PortRec.take
  split <;> rfl

theorem portAfter_cls (s : State) (slot : Nat) (bad : List Nat) (q : Port) : (portAfter s slot bad q).cls = s.cls q := by
  unfold portAfter
  dsimp only
  repeat' split
  all_goals simp [take_cls, State.cls]

theorem offered_append (q : List ScrubEntry) (o : Origin) (slot line : Nat) (f g : List Nat) :
    offered q o slot line (f ++ g) = offered (offered q o slot line f) o slot line g :=
  List.foldl_append

theorem offered_ne_nil {q : List ScrubEntry} (o : Origin) (slot line : Nat) (f : List Nat) (h : q ≠ []) :
    offered q o slot line f ≠ [] := by
  refine foldl_inv (inv := (· ≠ [])) (fun q w hq => ?_) f h
  dsimp only
  split
  · simp
  · exact hq

theorem reportedPage_run (s : State) (slot : Nat) (bad : List Nat) (k : Handle) (p : Page) :
    ((reportedPage s slot bad k p).baseSlot, (reportedPage s slot bad k p).slotCount) = (p.baseSlot, p.slotCount) := by
  unfold reportedPage
  split
  · rw [(damagedPage_run p).1, (damagedPage_run p).2.1]
  · rfl

section
variable {s u v : State} {kind : FaultKind} {o : Origin} {slot line : Nat} {bad fixed bad' fixed' : List Nat}

theorem wordsDone.owner (h : wordsDone s u kind o slot line bad fixed) : u.slotOwner slot = s.slotOwner slot := by
  obtain ⟨-, -, -, hp, -⟩ := h
  refine slotOwner_congr (fun k => ?_) slot
  rw [hp, Option.map_map]
  exact congrArg (Option.map · (s.page k)) (funext fun p => reportedPage_run s slot bad k p)

theorem wordsDone.record (h : wordsDone s u kind o slot line bad fixed) :
    recordAfter u kind o slot line bad' = recordAfter s kind o slot line (bad ++ bad') := by
  have ho := h.owner
  obtain ⟨hrest, hst, -⟩ := h
  have hr : u.store.record = recordAfter s kind o slot line bad := by rw [hst]
  have hf : u.scene.frame = s.scene.frame := by rw [hrest]
  cases bad with
  | nil =>
    unfold recordAfter at hr ⊢
    rw [hr, ho, hf]
    rfl
  | cons w m =>
    cases bad' with
    | nil => rw [List.append_nil, ← hr]; rfl
    | cons x m' =>
      have hlocked : u.store.record.locked = true := by
        rw [hr]
        unfold recordAfter
        dsimp only
        cases hl : s.store.record.locked
        · rfl
        · simp
      unfold recordAfter at hr ⊢
      dsimp only [List.cons_append] at hr ⊢
      rw [if_pos hlocked, hr]
      cases hl : s.store.record.locked <;> simp

theorem wordsDone.page_owner (h : wordsDone s u kind o slot line bad fixed) (hb : bad ≠ []) :
    (u.slotOwner slot).bind u.page = ((s.slotOwner slot).bind s.page).map damagedPage := by
  have ho := h.owner
  obtain ⟨-, -, -, hp, -⟩ := h
  rw [ho]
  cases hs : s.slotOwner slot with
  | none => rfl
  | some k =>
    change u.page k = (s.page k).map damagedPage
    rw [hp]
    congr 1
    funext p
    unfold reportedPage
    rw [if_pos ⟨hb, hs⟩]

theorem wordsDone.port (h : wordsDone s u kind o slot line bad fixed) (q : Port) :
    portAfter u slot bad' q = portAfter s slot (bad ++ bad') q := by
  have ho := h.owner
  have hpo := h.page_owner
  obtain ⟨hrest, hst, hq, hp, -⟩ := h
  have hr : u.store.record = recordAfter s kind o slot line bad := by rw [hst]
  have hcls : u.cls q = s.cls q := by
    unfold State.cls
    rw [hq, portAfter_cls]
  cases bad with
  | nil =>
    have hpage : u.page = s.page := funext fun k => by
      rw [hp, show reportedPage s slot [] k = id from funext fun p => reportedPage_nil s slot k p, Option.map_id, id]
    have hl : u.store.record.locked = s.store.record.locked := by rw [hr]; rfl
    unfold portAfter
    rw [hl, hcls, hq, portAfter_nil, ho, hpage]
    rfl
  | cons w m =>
    have hlocked : u.store.record.locked = true := by
      rw [hr]
      unfold recordAfter
      dsimp only
      cases hl : s.store.record.locked
      · rfl
      · simp
    have hsame : portAfter s slot (w :: m ++ bad') q = portAfter s slot (w :: m) q := by
      unfold portAfter
      simp
    rw [hsame]
    conv_lhs => unfold portAfter
    rw [hlocked, hpo (by simp), hq]
    simp only [Bool.true_eq_false, false_and, and_false, if_false]
    split
    · next hc =>
      unfold portAfter
      dsimp only
      cases hsp : (s.slotOwner slot).bind s.page with
      | none => rw [hsp] at hc; simp at hc
      | some p =>
        rw [hsp] at hc
        simp only [Option.map_some, Option.any_some, decide_eq_true_eq] at hc
        rcases damagedPage_damaged p with hd | hd
        · rw [hd] at hc; simp at hc
        · rw [hd] at hc
          rw [if_pos ⟨by simp, by simpa using hc.2⟩, take_take]
    · rfl

theorem wordsDone.page (h : wordsDone s u kind o slot line bad fixed) (k : Handle) (p : Page) :
    reportedPage u slot bad' k (reportedPage s slot bad k p) = reportedPage s slot (bad ++ bad') k p := by
  have ho := h.owner
  unfold reportedPage
  rw [ho]
  by_cases hk : s.slotOwner slot = some k
  · cases bad <;> cases bad' <;> simp [hk, damagedPage_damagedPage]
  · simp [hk]

theorem wordsDone.trans (h : wordsDone s u kind o slot line bad fixed) (k : wordsDone u v kind o slot line bad' fixed') :
    wordsDone s v kind o slot line (bad ++ bad') (fixed ++ fixed') := by
  have hrecord := h.record (bad' := bad')
  have hport := h.port (bad' := bad')
  have hpage := h.page (bad' := bad')
  obtain ⟨h1, h2, h3, h4, h5, h6⟩ := h
  obtain ⟨k1, k2, k3, k4, k5, k6⟩ := k
  refine ⟨?rest, ?store, fun q => (k3 q).trans (hport q), fun j => ?page, k5.trans h5, k6.trans h6⟩
  case rest => rw [k1, h1]
  case store =>
    rw [k2, hrecord, h2]
    have hc : min 65535 (min 65535 (s.store.corrected + fixed.length) + fixed'.length) =
        min 65535 (s.store.corrected + (fixed ++ fixed').length) := by
      rw [List.length_append]
      omega
    have hw : (s.store.scrubWaiting || decide (s.store.scrub = [] ∧ fixed ≠ []) ||
        decide (offered s.store.scrub o slot line fixed = [] ∧ fixed' ≠ [])) =
        (s.store.scrubWaiting || decide (s.store.scrub = [] ∧ fixed ++ fixed' ≠ [])) := by
      by_cases hq : s.store.scrub = []
      · cases fixed with
        | nil => simp [hq, offered]
        | cons => simp [hq]
      · simp [hq, offered_ne_nil o slot line fixed hq]
    simp only [hc, hw, offered_append]
  case page =>
    rw [k4, h4, Option.map_map]
    exact congrArg (Option.map · (s.page j)) (funext fun p => hpage j p)

end

theorem wordEffect_done (s : State) (kind : FaultKind) (o : Origin) (slot line w : Nat) (c : ReadClass)
    (hc : s.store.corrected ≤ 65535) :
    wordsDone s (s.wordEffect kind o { slot := slot, line := line, word := w } c) kind o slot line
      (readingOf [(w, c)] .uncorrectable) (readingOf [(w, c)] .corrected) := by
  cases c
  · exact clean_done s kind o slot line hc
  · exact corrected_done s kind o slot line w
  · exact uncorrectable_done s kind o slot line w hc

theorem readingOf_cons (r : Nat × ReadClass) (rs : List (Nat × ReadClass)) (c : ReadClass) :
    readingOf (r :: rs) c = readingOf [r] c ++ readingOf rs c := by
  unfold readingOf
  rw [← List.map_append, ← List.filter_append]
  rfl

/-- The effects of the words of a line, in their order, come to what all of them call for. -/
theorem lineEffects_done (kind : FaultKind) (o : Origin) (slot line : Nat) (reads : List (Nat × ReadClass)) (s : State)
    (hc : s.store.corrected ≤ 65535) : wordsDone s (s.lineEffects kind o slot line reads) kind o slot line
      (readingOf reads .uncorrectable) (readingOf reads .corrected) := by
  induction reads generalizing s with
  | nil => exact clean_done s kind o slot line hc
  | cons r rs ih =>
    obtain ⟨w, c⟩ := r
    have h := wordEffect_done s kind o slot line w c hc
    have hc' : (s.wordEffect kind o { slot := slot, line := line, word := w } c).store.corrected ≤ 65535 := by
      obtain ⟨-, hst, -⟩ := h
      rw [hst]
      exact Nat.min_le_left _ _
    rw [readingOf_cons, readingOf_cons _ _ .corrected]
    exact h.trans (ih _ hc')

/-- The bus falls free once the words of a line have had their effects, and a grant is still to be made. -/
theorem wordsDone.transferDone {s u : State} {kind : FaultKind} {o : Origin} {slot line : Nat}
    {reads : List (Nat × ReadClass)}
    (h : wordsDone s u kind o slot line (readingOf reads .uncorrectable) (readingOf reads .corrected)) :
    transferDone s (u.modStore fun st => { st with running := none }) kind o slot line reads := by
  obtain ⟨h1, h2, h3, h4, h5, h6⟩ := h
  refine ⟨?_, ?_, h3, fun k _ => h4 k, h5, h6⟩
  · rw [h1]; rfl
  · rw [modStore_store, h2]

/-! ### SCAN_COMPLETE -/

theorem numbered_readLine (s : State) (slot line : Nat) :
    numbered (s.store.readLine slot line) = lineReadings s slot line := by
  unfold numbered lineReadings Store.readLine
  refine List.ext_getElem (by simp [wordsPerLine]) fun i h1 h2 => ?_
  simp

theorem deliveredLine_readLine (s : State) (slot line : Nat) : deliveredLine (s.store.readLine slot line) =
    (List.range 256).map fun w =>
      if (s.store.readWord slot line w).cls = .uncorrectable then 0 else (s.store.readWord slot line w).data := by
  unfold deliveredLine Store.readLine
  rw [List.map_map]
  rfl

theorem disturb_corrected (st : Store) (slot line : Nat) (es : BitErrors) :
    (st.disturb slot line es).corrected = st.corrected := by
  rw [disturb_frame]

/-- The state before the grant that a SCAN_COMPLETE leaves. -/
def State.lineRead (s : State) (kind : FaultKind) (o : Origin) (slot line : Nat) : State :=
  (s.lineEffects kind o slot line (lineReadings s slot line)).modStore fun st => { st with running := none }

theorem lineRead_done {s : State} (kind : FaultKind) (o : Origin) (slot line : Nat) (hc : s.store.corrected ≤ 65535) :
    transferDone s (s.lineRead kind o slot line) kind o slot line (lineReadings s slot line) :=
  (lineEffects_done kind o slot line (lineReadings s slot line) s hc).transferDone

theorem lineRead_sameMemory {s : State} (kind : FaultKind) (o : Origin) (slot line : Nat)
    (hc : s.store.corrected ≤ 65535) : sameMemory s (s.lineRead kind o slot line) := by
  obtain ⟨-, hst, -⟩ := lineEffects_done kind o slot line (lineReadings s slot line) s hc
  have hm : (s.lineRead kind o slot line).store.mem = s.store.mem ∧
      (s.lineRead kind o slot line).store.errors = s.store.errors := by
    unfold State.lineRead
    rw [modStore_store, hst]
    exact ⟨rfl, rfl⟩
  exact ⟨fun a => by rw [hm.1], hm.2⟩

theorem scanComplete_runs {s : State} {t : Tile} {slot line : Nat} {discard : Bool} (errors : BitErrors)
    (hr : runs s (.scan t slot line) discard) :
    let d : State := { s with store := s.store.disturb slot line errors }
    let g : State := (d.lineRead .scanUncorrectable (.unit t) slot line).grant
    scanComplete errors s =
      if discard then g.scanDiscarded t else g.lineScanned t (deliveredLine (d.store.readLine slot line)) := by
  intro d g
  unfold scanComplete
  rw [hr]
  dsimp only
  rw [if_neg Bool.false_ne_true, show numbered ((s.store.disturb slot line errors).readLine slot line) =
    lineReadings d slot line from numbered_readLine d slot line]
  rfl

theorem lineScanned_eq {s : State} {t : Tile} {f : UnitFetch} (hf : s.units[t].fetch = some f) (ws : List Word) :
    s.lineScanned t ws =
      if decide (f.sent = 255) = true then s.sendLine t f ws else scanRequested (s.sendLine t f ws) t := by
  unfold State.lineScanned
  rw [hf]
  simp only [decide_eq_true_eq]
  rfl

/-- A fetch that has waited for the discarded line asks for its first one, and no other (R148). -/
theorem scanDiscarded_waited {s : State} {t : Tile}
    (h : ∃ f pg n, s.units[t].fetch = some f ∧ f.source = .slot pg n ∧ f.requested = 0) :
    s.scanDiscarded t = scanRequested s t := by
  obtain ⟨⟨frame, source, requested, sent, endSent, sum⟩, pg, n, hf, hs, hr⟩ := h
  cases hs
  cases hr
  unfold State.scanDiscarded
  rw [hf]
  rfl

theorem scanDiscarded_idle {s : State} {t : Tile}
    (h : ¬ ∃ f pg n, s.units[t].fetch = some f ∧ f.source = .slot pg n ∧ f.requested = 0) :
    s.scanDiscarded t = s := by
  unfold State.scanDiscarded
  split
  · next hf => exact absurd ⟨_, _, _, hf, rfl, rfl⟩ h
  · rfl

/-- Settles O49: the line's words have their effects, and the unit is told or discards the line. -/
theorem scanCompleteSendsTheLine : Obligations.ScanCompleteSendsTheLine := by
  intro t slot line discard errors s hscrub hr d ws
  have hc : d.store.corrected ≤ 65535 := by
    rw [show d.store.corrected = s.store.corrected from disturb_corrected _ _ _ _]
    exact hscrub.2.2
  have hrun := scanComplete_runs errors hr
  have hdone := lineRead_done .scanUncorrectable (.unit t) slot line hc
  refine ⟨d.lineRead .scanUncorrectable (.unit t) slot line, hdone,
    lineRead_sameMemory .scanUncorrectable (.unit t) slot line hc, fun f hd hf => ?sent, fun hd => ?discarded⟩
  all_goals
    dsimp only at hrun
    rw [show ({ s with store := s.store.disturb slot line errors } : State) = d from rfl] at hrun
    subst hd
    obtain ⟨hrest, -⟩ := hdone
    generalize d.lineRead .scanUncorrectable (.unit t) slot line = v at hrun hrest
    have hunits : v.grant.units = s.units := by rw [(grant_frame v).2.2.2.2.2.1, hrest]
    have hout : v.grant.out = s.out := by rw [(grant_frame v).2.2.2.2.2.2.1, hrest]
  case sent =>
    refine congrArg Host.Outcome.next (hrun.trans ?_)
    rw [if_neg Bool.false_ne_true, lineScanned_eq (by rw [hunits]; exact hf), sendLine_eq, hunits, hout,
      show deliveredLine ((s.store.disturb slot line errors).readLine slot line) = ws from
        deliveredLine_readLine d slot line]
    simp only [decide_eq_true_eq] <;> rfl
  case discarded =>
    rw [if_pos rfl] at hrun
    have hu : v.grant.units[t] = s.units[t] := by rw [hunits]
    refine ⟨fun h => congrArg Host.Outcome.next (hrun.trans (scanDiscarded_waited ?_)),
      fun h => congrArg Host.Outcome.next (hrun.trans (scanDiscarded_idle ?_))⟩
    · rwa [hu]
    · rwa [hu]

/-! ### SCRUB_COMPLETE -/

theorem recordAfter_disturbed {s d : State} (hr : d.store.record = s.store.record) (hd : d.dir = s.dir)
    (hsc : d.scene = s.scene) : recordAfter d = recordAfter s := by
  have ho : d.slotOwner = s.slotOwner := by unfold State.slotOwner State.page; rw [hd]
  funext kind o slot line bad
  unfold recordAfter
  rw [hr, ho, hsc]

theorem portAfter_disturbed {s d : State} (hr : d.store.record = s.store.record) (hd : d.dir = s.dir)
    (hp : d.ports = s.ports) : portAfter d = portAfter s := by
  have hpage : d.page = s.page := by unfold State.page; rw [hd]
  have ho : d.slotOwner = s.slotOwner := by unfold State.slotOwner; rw [hpage]
  funext slot bad q
  unfold portAfter State.cls
  rw [hr, ho, hp, hpage]

theorem reportedPage_disturbed {s d : State} (hd : d.dir = s.dir) : reportedPage d = reportedPage s := by
  have hpage : d.page = s.page := by unfold State.page; rw [hd]
  have ho : d.slotOwner = s.slotOwner := by unfold State.slotOwner; rw [hpage]
  funext slot bad k p
  unfold reportedPage
  rw [ho]

/-- The state once the head entry's word has been read, before the bus falls free. -/
def State.scrubRead (s : State) (e : ScrubEntry) (errors : ErrorMask) : State :=
  ({ s with store := s.store.disturbWord e.addr.slot e.addr.line e.addr.word errors } : State).scrubWord e

theorem scrubComplete_runs {s : State} {e : ScrubEntry} (errors : ErrorMask) (hr : runs s (.scrub e)) :
    scrubComplete errors s =
      ((((s.scrubRead e errors).modStore fun st => { st with running := none }).grant.modStore fun st =>
        { st with scrub := st.scrub.tail })).requestScrub := by
  unfold scrubComplete
  rw [hr]
  rfl

/-- The words of a scrubbed line that came out uncorrectable: the word itself, or none. -/
def State.scrubBad (d : State) (e : ScrubEntry) : List Nat :=
  if (d.store.readWord e.addr.slot e.addr.line e.addr.word).cls = .uncorrectable then [e.addr.word] else []

/-- What SCRUB does to the scene: the events and the pages by the class of the word (R36, R37, R40). -/
structure Scrubbed (d : State) (e : ScrubEntry) (v : State) : Prop where
  rest : v = { d with store := v.store, dir := v.dir, ports := v.ports }
  store : v.store = { d.store with
    mem := v.store.mem, errors := v.store.errors
    record := recordAfter d .scrubUncorrectable e.origin e.addr.slot e.addr.line (d.scrubBad e)
    corrected := if (d.store.readWord e.addr.slot e.addr.line e.addr.word).cls = .corrected then
      min 65535 (d.store.corrected + 1) else d.store.corrected }
  ports : ∀ q : Port, v.ports[q] = portAfter d e.addr.slot (d.scrubBad e) q
  pages : pagesBecome d v (reportedPage d e.addr.slot (d.scrubBad e))
  corrected : (d.store.readWord e.addr.slot e.addr.line e.addr.word).cls = .corrected →
    v.store.mem = (d.store.writeWord e.addr.slot e.addr.line e.addr.word
      (d.store.readWord e.addr.slot e.addr.line e.addr.word).data).mem ∧
    v.store.errors = (d.store.writeWord e.addr.slot e.addr.line e.addr.word
      (d.store.readWord e.addr.slot e.addr.line e.addr.word).data).errors
  other : (d.store.readWord e.addr.slot e.addr.line e.addr.word).cls ≠ .corrected →
    v.store.mem = d.store.mem ∧ v.store.errors = d.store.errors

/-- A word that is read without a report leaves every page as it is. -/
theorem pagesBecome_unreported {d v : State} {slot : Nat} (hv : v.dir = d.dir) :
    pagesBecome d v (reportedPage d slot []) := by
  unfold pagesBecome State.page
  rw [hv]
  refine ⟨fun k _ => ?_, rfl, rfl⟩
  rw [show reportedPage d slot [] k = id from funext fun p => reportedPage_nil d slot k p, Option.map_id, id]

theorem countCorrected_ports (d : State) (f : Store → Store) : (d.modStore f).countCorrected.ports = d.ports := rfl

theorem countCorrected_dir (d : State) (f : Store → Store) : (d.modStore f).countCorrected.dir = d.dir := rfl

theorem scrubWord_scrubbed (d : State) (e : ScrubEntry) : Scrubbed d e (d.scrubWord e) := by
  have hsplit : d.scrubWord e = match (d.store.readWord e.addr.slot e.addr.line e.addr.word).cls with
    | .clean => d
    | .corrected =>
      (d.modStore fun st => st.writeWord e.addr.slot e.addr.line e.addr.word
        (d.store.readWord e.addr.slot e.addr.line e.addr.word).data).countCorrected
    | .uncorrectable => d.uncorrectable .scrubUncorrectable e.origin e.addr := rfl
  generalize d.scrubWord e = v at hsplit
  cases hc : (d.store.readWord e.addr.slot e.addr.line e.addr.word).cls
  case clean =>
    have hb : d.scrubBad e = [] := by unfold State.scrubBad; rw [hc]; rfl
    rw [hc] at hsplit
    subst hsplit
    refine ⟨rfl, ?_, fun q => ?_, ?_, fun h => ?_, fun _ => ⟨rfl, rfl⟩⟩
    · rw [hb, hc]; simp [recordAfter]
    · rw [hb]; exact (portAfter_nil v e.addr.slot q).symm
    · rw [hb]; exact pagesBecome_unreported rfl
    · rw [hc] at h; cases h
  case corrected =>
    have hb : d.scrubBad e = [] := by unfold State.scrubBad; rw [hc]; rfl
    rw [hc] at hsplit
    subst hsplit
    refine ⟨rfl, ?_, fun q => ?_, ?_, fun _ => ⟨rfl, rfl⟩, fun h => absurd hc h⟩
    · rw [hb, hc]; simp [recordAfter, State.countCorrected, State.modStore, Store.writeWord, Store.putRaw]
    · rw [hb, countCorrected_ports]; exact (portAfter_nil d e.addr.slot q).symm
    · rw [hb]; exact pagesBecome_unreported (countCorrected_dir d _)
  case uncorrectable =>
    have hb : d.scrubBad e = [e.addr.word] := by unfold State.scrubBad; rw [hc]; rfl
    rw [hc] at hsplit
    obtain ⟨h1, h2, h3, h4, h5, h6⟩ := uncorrectable_fields (s := d) (kind := .scrubUncorrectable) (o := e.origin)
      (slot := e.addr.slot) (line := e.addr.line) (w := e.addr.word) hsplit.symm
    refine ⟨h1, ?_, fun q => ?_, ?_, fun h => ?_, fun _ => ?_⟩
    · rw [hb, hc, h2]; simp
    · rw [hb]; exact h3 q
    · rw [hb]; exact ⟨fun k _ => h4 k, h5, h6⟩
    · rw [hc] at h; cases h
    · rw [h2]; exact ⟨rfl, rfl⟩

/-- Settles O50: the word by its class, then the bus and the queue. -/
theorem scrubCompleteWritesBack : Obligations.ScrubCompleteWritesBack := by
  intro e errors s hm hr d r bad
  have hwf : d.store.wf := disturbWord_wf hm e.addr.slot e.addr.line e.addr.word errors
  obtain ⟨h1, h2, h3, h4, h5, h6⟩ := scrubWord_scrubbed d e
  have hrun := scrubComplete_runs errors hr
  rw [show s.scrubRead e errors = d.scrubWord e from rfl] at hrun
  generalize hw : d.scrubWord e = w at h1 h2 h3 h4 h5 h6 hrun
  have hd : d.store.record = s.store.record := rfl
  have hscrub : (w.modStore fun st => { st with running := none }).grant.store.scrub = s.store.scrub := by
    rw [(grant_kept _).contents.2.2.2.2.1, modStore_store, h2]
    rfl
  refine ⟨w.modStore fun st => { st with running := none }, ?rest, ?store, fun q => ?port, ?pages, ?outside, fun hc => ?back,
    fun hc => ?same, fun ht => ?last, fun ht => ?next⟩
  case rest => rw [h1]; rfl
  case store =>
    rw [modStore_store, h2, recordAfter_disturbed (s := s) (d := d) hd rfl rfl]
    rfl
  case port => exact (h3 q).trans (by rw [portAfter_disturbed (s := s) (d := d) hd rfl rfl]; rfl)
  case pages =>
    rw [reportedPage_disturbed (s := s) (d := d) rfl] at h4
    exact h4
  case outside =>
    by_cases hc : r.cls = .corrected
    · obtain ⟨h7, h8⟩ := h5 hc
      refine ⟨fun a ha => ?_, fun k hk => ?_⟩
      · change w.store.mem.read a = _
        rw [h7]
        exact writeWord_read_outside hwf _ _ _ _ _ (by omega)
      · change sparseGet 0 w.store.errors k = _
        rw [h8]
        exact writeWord_errors_outside hwf _ _ _ _ _ (by omega)
    · obtain ⟨h7, h8⟩ := h6 hc
      refine ⟨fun a _ => ?_, fun k _ => ?_⟩
      · change w.store.mem.read a = _
        rw [h7]
      · change sparseGet 0 w.store.errors k = _
        rw [h8]
  case back =>
    obtain ⟨h7, h8⟩ := h5 hc
    rw [← readWord_writeWord hwf e.addr.slot e.addr.line e.addr.word r.data]
    unfold Store.readWord Store.rawWord Store.errorOf
    rw [modStore_store]
    dsimp only
    rw [h7, h8]
  case same =>
    obtain ⟨h7, h8⟩ := h6 hc
    exact ⟨fun a => congrArg (fun m : Memory => m.read a) h7, h8⟩
  case last =>
    refine congrArg Host.Outcome.next (hrun.trans ?_)
    generalize (w.modStore fun st => { st with running := none }).grant = g at hscrub
    unfold State.requestScrub
    rw [modStore_store, hscrub, ht]
    simp only [List.isEmpty_nil, if_true]
    unfold State.modStore
    dsimp only
    rw [hscrub, ht]
  case next =>
    refine congrArg Host.Outcome.next (hrun.trans ?_)
    generalize (w.modStore fun st => { st with running := none }).grant = g at hscrub
    unfold State.requestScrub
    rw [modStore_store, hscrub, if_neg (by simpa using ht)]
    unfold State.modStore
    dsimp only
    rw [hscrub]

end Sys2Proof.Machine
end

