-- ==== Sys2Proof/Proofs/PageRequests.lean ====
section
/-! PROOFS. The page requests: CREATE_PAGE, DELETE_PAGE, PURGE_PAGES and SET_PAGE_RIGHTS (R18 to R22). -/

namespace Sys2Proof.Machine

/-! ### CREATE_PAGE -/

/-- The directory with an entry filled and the free runs replaced. -/
def State.putPage (s : State) (pg : Handle) (e : Page) (free : List (Nat × Nat)) : State :=
  s.modDir fun d => { d with pages := upd d.pages (handleIndex pg) fun _ => some e, free := free }

theorem putPage_page (s : State) (pg k : Handle) (e : Page) (free : List (Nat × Nat)) :
    (s.putPage pg e free).page k = if k = pg then some e else s.page k := by
  unfold State.putPage State.page
  simp only [modDir_dir]
  rw [upd_at]
  by_cases h : k = pg
  · rw [if_pos (handleIndex_inj.2 h.symm), if_pos h]
  · rw [if_neg (fun e => h (handleIndex_inj.1 e).symm), if_neg h]

theorem createFieldsOk_iff {kind width height cells rate : Byte} (h : createAdmitted kind width height cells rate) :
    createFieldsOk kind width height cells rate = true := by
  obtain ⟨hw, hw', hh, hh', hc, ⟨hk, h1, h2⟩ | ⟨hk, h1⟩⟩ := h <;> subst hk <;>
    simp [createFieldsOk, kindField, *]

/-- What CREATE_PAGE does once its checks have passed, by what it finds free (R19). -/
theorem createPage_admitted {kind width height cells rate : Byte} {c : Caller} {s : State} (hc : s.cls c.port ≠ .monitor)
    (ha : createAdmitted kind width height cells rate) :
    let n := width.toNat * height.toNat * cells.toNat
    (s.lowestFree = none → createPage kind width height cells rate c s =
      s.reply c .noRoom (.noRoom false (longestRun s.dir.free) (freeSlots s.dir.free))) ∧
    (∀ k, s.lowestFree = some k → allocRun n s.dir.free = none → createPage kind width height cells rate c s =
      s.reply c .noRoom (.noRoom true (longestRun s.dir.free) (freeSlots s.dir.free))) ∧
    (∀ pg base free, s.lowestFree = some pg → allocRun n s.dir.free = some (base, free) →
      createPage kind width height cells rate c s =
        (s.putPage pg (newPage c.port (s.cls c.port) ((kindField kind).getD .still) width.toNat height.toNat cells.toNat
          rate.toNat base) free).reply c .ok (.created pg base)) := by
  have hpass : ∀ act, s.checked c
      [(s.cls c.port ≠ .monitor, .denied), (createFieldsOk kind width height cells rate, .badField)] act = act s :=
    fun act => checked_pass (by simp [hc, createFieldsOk_iff ha])
  unfold createPage
  refine ⟨fun hl => ?_, fun k hl hr => ?_, fun pg base free hl hr => ?_⟩
  · rw [hpass]; simp only [hl]
  · rw [hpass]; simp only [hl, hr]
  · rw [hpass]; simp only [hl, hr]; rfl

theorem newPage_admitted {kind width height cells rate : Byte} (ha : createAdmitted kind width height cells rate)
    (p : Port) (c : Cls) (base : Nat) :
    newPage p c ((kindField kind).getD .still) width.toNat height.toNat cells.toNat rate.toNat base =
      { state := if kind = 0 then .incomplete else .live, kind := if kind = 0 then .still else .live
        width := width.toNat, height := height.toNat, cells := cells.toNat
        rate := if kind = 0 then some rate.toNat else none
        baseSlot := base, slotCount := width.toNat * height.toNat * cells.toNat, owner := p, shared := false
        showClasses := classesFrom c, writeClasses := classesFrom c, valid := 0
        latest := none, pins := 0, busy := none, damaged := if kind = 0 then some false else none } := by
  obtain ⟨-, -, -, -, -, ⟨hk, -⟩ | ⟨hk, -⟩⟩ := ha <;> subst hk <;> rfl

/-- Settles O16: the lowest handle and the first run long enough, or NO_ROOM. -/
theorem createPageAllocatesFirstFit : Obligations.CreatePageAllocatesFirstFit := by
  intro h kind width height cells rate s r hc ha n
  have hcls : (s.taking h).cls h.port ≠ .monitor := by rwa [taking_cls]
  obtain ⟨hfull, hlong, hfits⟩ := createPage_admitted (c := { port := h.port, tag := h.tag, code := 16 })
    (s := s.taking h) hcls ha
  refine ⟨fun pg pre post base len h4 hnone hlow hfree hpre hn => ?fits, fun hall => ?full, fun hone hshort => ?long⟩
  case fits =>
    have hrun : allocRun n (s.taking h).dir.free = some (base, pre ++ (if len = n then post else (base + n, len - n) :: post)) := by
      rw [show (s.taking h).dir.free = s.dir.free from rfl, hfree]
      exact alloc_app n base len pre post hpre hn
    have hact := hfits pg base _ (lowest_some (s.taking h) pg h4 hnone hlow) hrun
    refine ⟨_, congrArg Host.Outcome.next (serve_effects (self := (.createPage · kind width height cells rate)) r hact rfl),
      rfl, rfl, rfl, fun k hk => ?_, ?_⟩
    · rw [putPage_page, if_neg hk]
      rfl
    · rw [putPage_page, if_pos rfl, newPage_admitted ha, taking_cls]
  case full =>
    exact congrArg Host.Outcome.next (serve_answers (self := (.createPage · kind width height cells rate)) r
      (hfull (lowest_none (s.taking h) hall)))
  case long =>
    obtain ⟨k, hk⟩ := lowest_isSome (s.taking h) hone
    exact congrArg Host.Outcome.next (serve_answers (self := (.createPage · kind width height cells rate)) r
      (hlong k hk (alloc_none n s.dir.free hshort)))

/-! ### DELETE_PAGE, PURGE_PAGES and SET_PAGE_RIGHTS -/

theorem ringBound_iff {s : State} {pg : Handle} : s.ringBound pg = true ↔ ringOn s pg := by
  unfold State.ringBound ringOn
  rw [List.any_eq_true]
  refine ⟨fun ⟨c, _, hc⟩ => ?_, fun ⟨c, l, hl, hp, hr⟩ => ⟨c, mem_allChans c, ?_⟩⟩
  · rw [Option.any_eq_true] at hc
    obtain ⟨l, hl, ht⟩ := hc
    simp only [Bool.and_eq_true, decide_eq_true_eq] at ht
    refine ⟨c, l, hl, ht.1, ?_⟩
    have := ht.2
    unfold isRing
    cases hm : l.mode <;> simp_all
  · rw [Option.any_eq_true]
    refine ⟨l, hl, ?_⟩
    unfold isRing at hr
    cases hm : l.mode <;> simp_all

theorem ringBound_false {s : State} {pg : Handle} (h : ¬ ringOn s pg) : s.ringBound pg = false := by
  rw [← Bool.not_eq_true, ringBound_iff]
  exact h

theorem freePage_dirOnly (s : State) (pg : Handle) :
    s.freePage pg = { s with dir := (s.freePage pg).dir } ∧ (s.freePage pg).dir.populated = s.dir.populated := by
  unfold State.freePage
  split <;> exact ⟨rfl, rfl⟩

theorem purgeable_iff {s : State} {o : Port} {u : Bool} {k : Handle} :
    s.purgeable o u k = true ↔ ∃ e, purged s o u k e := by
  unfold State.purgeable
  simp only [Bool.and_eq_true, Bool.not_eq_true', Option.any_eq_true, decide_eq_true_eq, Bool.and_eq_false_iff]
  refine ⟨fun ⟨⟨hp, hr⟩, e, he, ⟨ho, hpins, hst⟩, hs⟩ => ⟨e, ?_, he, ho, hpins, hst, ?_, ?_⟩,
    fun ⟨e, h4, he, ho, hpins, hst, hr, hs⟩ => ⟨⟨isPattern_false h4, ringBound_false hr⟩, e, he, ⟨ho, hpins, hst⟩, ?_⟩⟩
  · by_contra h
    rw [isPattern_true (by omega)] at hp
    cases hp
  · rw [← ringBound_iff, hr]
    exact Bool.false_ne_true
  · rintro ⟨h1, h2⟩
    rw [h1, h2] at hs
    simp at hs
  · cases u <;> cases hsh : e.shared <;> simp_all

theorem foldFree_ports (l : List Handle) (s : State) : (l.foldl State.freePage s).ports = s.ports := by
  rw [(foldFree_keep l s).1]

theorem classSetField_some {b : Byte} (h : b &&& 0xF1 = 0) : classSetField b = some (b.setWidth 4) := by
  unfold classSetField
  rw [if_pos h]

theorem ownsOrOperates_of {s : State} {p : Port} {pg : Handle} {e : Page} (he : s.page pg = some e)
    (h : e.owner = p ∨ s.cls p = .operator) : s.ownsOrOperates p pg = true := by
  unfold State.ownsOrOperates
  rw [he]
  simpa using h

/-- Settles O17: the entries and the free slots after each request. -/
theorem pagesAreDeletedAndShared : Obligations.PagesAreDeletedAndShared := by
  refine ⟨fun h pg e s r hd => ?delete, fun h o u owner s r hc hu ho => ?purge,
    fun h pg shared showC writeC e s r h4 he how hs hsc hwc => ?rights⟩
  case delete =>
    obtain ⟨h4, he, how, hpins, hst, hring⟩ := hd
    have he' : (s.taking h).page pg = some e := he
    have hown : (s.taking h).ownsOrOperates h.port pg = true := ownsOrOperates_of he' (by rwa [taking_cls])
    have hring' : (s.taking h).ringBound pg = false := ringBound_false hring
    obtain ⟨hdir, hpop⟩ := freePage_dirOnly (s.taking h) pg
    refine ⟨(s.taking h).freePage pg, congrArg Host.Outcome.next (serve_effects (self := (.deletePage · pg)) r ?_ ?_), hdir,
      hpop, ?_, fun k hk => ?_, fun n => ?_⟩
    · exact checked_pass (by simp [isPattern_false h4, he, hown, hpins, hst, hring'])
    · rw [hdir]
    · rw [freePage_page, if_pos rfl]
    · rw [freePage_page, if_neg hk, taking_page]
    · rw [freePage_free, he']
      simp only [Option.some.injEq, exists_eq_left']
      rfl
  case purge =>
    have hfield : portField o = some owner := fieldBelow_some ho
    set gone := allHandles.filter ((s.taking h).purgeable owner (decide (u = 1))) with hg
    have hmem : ∀ k, k ∈ gone ↔ ∃ e, purged s owner (decide (u = 1)) k e := fun k => by
      rw [hg, List.mem_filter, purgeable_iff]
      exact ⟨fun hk => hk.2, fun hk => ⟨mem_allHandles k, hk⟩⟩
    obtain ⟨hdir, hpop⟩ := foldFree_keep gone (s.taking h)
    refine ⟨gone.foldl State.freePage (s.taking h), gone.length,
      congrArg Host.Outcome.next (serve_effects (self := (.purgePages · o u)) r ?_ (foldFree_ports _ _)), hdir, hpop,
      fun k e hk => ?_, fun k hk => ?_, fun n => ?_, ?_⟩
    · refine (checked_operator (by rwa [taking_cls])).trans ((checked_pass (by simp [boolField_isSome hu, hfield])).trans ?_)
      simp only [hfield]
      rfl
    · rw [foldFree_page, if_pos ((hmem k).2 ⟨e, hk⟩)]
    · rw [foldFree_page, if_neg (fun h' => hk ((hmem k).1 h')), taking_page]
    · rw [foldFree_free _ (nodup_allHandles.filter _)]
      refine or_congr Iff.rfl ⟨fun ⟨k, hk, p, hp, hr⟩ => ?_, fun ⟨k, e, hk, hr⟩ => ⟨k, (hmem k).2 ⟨e, hk⟩, e, hk.2.1, hr⟩⟩
      obtain ⟨e, he⟩ := (hmem k).1 hk
      have : e = p := Option.some.inj (he.2.1.symm.trans hp)
      subst this
      exact ⟨k, e, he, hr⟩
    · congr 1
      rw [hg]
      refine List.filter_congr fun k _ => ?_
      rw [← hg, foldFree_page]
      by_cases hk : k ∈ gone
      · obtain ⟨e, he⟩ := (hmem k).1 hk
        rw [if_pos hk, show (s.taking h).purgeable owner (decide (u = 1)) k = true from purgeable_iff.2 ⟨e, he⟩, he.2.1]
        rfl
      · have hkept : (s.taking h).purgeable owner (decide (u = 1)) k = false :=
          Bool.eq_false_iff.2 fun h' => hk ((hmem k).2 (purgeable_iff.1 h'))
        rw [if_neg hk, taking_page, hkept]
        cases s.page k <;> rfl
  case rights =>
    have he' : (s.taking h).page pg = some e := he
    have hown : (s.taking h).ownsOrOperates h.port pg = true := ownsOrOperates_of he' (by rwa [taking_cls])
    refine ⟨_, congrArg Host.Outcome.next (serve_effects (self := (.setPageRights · pg shared showC writeC)) r
      (checked_pass (by simp [isPattern_false h4, he, hown, boolField_isSome hs, classSetField_some hsc,
        classSetField_some hwc])) rfl), rfl, ⟨fun k hk => ?_, rfl, rfl⟩, ?_⟩
    · rw [page_setPage, if_neg hk, taking_page]
    · rw [page_setPage, if_pos rfl, taking_page, he, classSetField_some hsc, classSetField_some hwc]
      rfl

end Sys2Proof.Machine
end

