-- ==== Sys2Proof/Proofs/LoadLaws.lean ====
section
/-! SUPPORT. The load engine: its requests to the arbiter, the target cells of a ring, the sets of valid cells, and the
end of a load (chapter 3). -/

namespace Sys2Proof.Machine

/-! ### Requests to the arbiter -/

theorem requestLoad_eq (s : State) (c : ChanId) : s.requestLoad c = lineRequested s c := rfl

theorem grantEdit_send (s : State) (o : Output) : (s.send o).grantEdit = s.grantEdit.send o := by
  unfold State.grantEdit
  dsimp only [modStore_edit, send_edit]
  cases s.edit.queue with
  | nil => rfl
  | cons e q =>
    dsimp only
    change (match (s.modStore fun st => { st with editWaiting := false }).editTransfer e with
      | some j => _ | none => _) = _
    cases (s.modStore fun st => { st with editWaiting := false }).editTransfer e <;> rfl

theorem grantLoad_send (s : State) (o : Output) (c : ChanId) : (s.send o).grantLoad c = (s.grantLoad c).send o := by
  unfold State.grantLoad
  dsimp only [modStore_load, send_load]
  cases s.load.chans[c] with
  | none => rfl
  | some l =>
    dsimp only
    change (match s.page l.page with | some p => _ | none => _) = State.send (match s.page l.page with | some p => _ | none => _) o
    cases s.page l.page <;> rfl

theorem grantScan_send (s : State) (o : Output) (t : Tile) : (s.send o).grantScan t = (s.grantScan t).send o := by
  unfold State.grantScan
  dsimp only [modStore_units, send_units]
  split
  · next h => rfl
  · next h => rfl

theorem grantScrub_send (s : State) (o : Output) : (s.send o).grantScrub = s.grantScrub.send o := by
  unfold State.grantScrub
  dsimp only [modStore_store, send_store]
  cases s.store.scrub <;> rfl

theorem grantAwake_send (s : State) (o : Output) : (s.send o).grantAwake = s.grantAwake.send o := by
  unfold State.grantAwake
  rw [grantEdit_send, grantScrub_send, send_store]
  simp only [grantLoad_send, grantScan_send]
  split
  · rfl
  · split
    · rfl
    · split
      · rfl
      · split
        · rfl
        · split
          · rfl
          · split
            · rfl
            · split <;> rfl

/-- What is sent does not bear on a grant. -/
theorem grant_send (s : State) (o : Output) : (s.send o).grant = s.grant.send o := by
  unfold State.grant
  rw [grantAwake_send, send_store]
  split
  · rfl
  · split
    · rfl
    · split <;> rfl
    · rfl
    · rfl

theorem requestLoad_send (s : State) (o : Output) (c : ChanId) : (s.send o).requestLoad c = (s.requestLoad c).send o := by
  unfold State.requestLoad
  rw [send_load]
  cases s.load.chans[c] with
  | none => rfl
  | some l =>
    dsimp only
    split
    · next h =>
      exact (grant_send (s.modStore fun st => { st with loadWaiting := insertBit st.loadWaiting c.val }) o).trans
        (congrArg (State.send · o) (if_pos h)).symm
    · next h => exact (congrArg (State.send · o) (if_neg h)).symm

/-! ### Sets of cells -/

theorem mem_cellRange {first count i : Nat} : i ∈ cellRange first count ↔ first ≤ i ∧ i < first + count := by
  unfold cellRange
  simp only [List.mem_map, List.mem_range]
  exact ⟨fun ⟨k, hk, he⟩ => by omega, fun h => ⟨i - first, by omega, by omega⟩⟩

theorem getLsbD_addCells (v : CellSet) (cs : List Nat) {i : Nat} (hi : i < 16) :
    (addCells v cs).getLsbD i = (v.getLsbD i || decide (i ∈ cs)) := by
  unfold addCells
  induction cs generalizing v with
  | nil => simp
  | cons c cs ih =>
    rw [List.foldl_cons, ih, getLsbD_insertBit _ _ _ hi]
    simp [Bool.or_assoc, eq_comm]

theorem getLsbD_dropCells (v : CellSet) (cs : List Nat) {i : Nat} (hi : i < 16) :
    (dropCells v cs).getLsbD i = (v.getLsbD i && !decide (i ∈ cs)) := by
  unfold dropCells
  induction cs generalizing v with
  | nil => simp
  | cons c cs ih =>
    rw [List.foldl_cons, ih, getLsbD_eraseBit _ _ _ hi]
    simp [Bool.and_assoc, eq_comm]

theorem allValid_iff (p : Page) : p.allValid = true ↔ ∀ i, i < p.cells → p.valid.getLsbD i = true := by
  unfold Page.allValid
  rw [List.all_eq_true]
  exact ⟨fun h i hi => h i (List.mem_range.2 hi), fun h i hi => h i (List.mem_range.1 hi)⟩

theorem settle_eq (p : Page) : p.settle = { p with state := settledState p.damaged p.valid p.cells } := by
  unfold Page.settle settledState
  simp only [allValid_iff]

/-! ### The target cell of a ring (R53, R59) -/

/-- A ring load that begins its target cell. -/
def Load.begun (l : Load) (n : Nat) : Load :=
  { l with waiting := false, mode := .ring n none, wordsReceived := 0, linesWritten := 0, check := 0, buffer := [] }

section
variable {s : State} {c : ChanId} {l : Load} {n : Nat} {k : Option Check}

theorem beginTarget_waits (hl : s.load.chans[c] = some l) (hm : l.mode = .ring n k) (hn : (l.page, n) ∈ s.load.latched) :
    s.beginTarget c = s.setChan c fun _ => some { l with waiting := true } := by
  unfold State.beginTarget
  rw [hl]
  dsimp only
  rw [hm]
  dsimp only
  rw [if_pos hn, ← hm]

theorem beginTarget_begins (hl : s.load.chans[c] = some l) (hm : l.mode = .ring n k)
    (hn : (l.page, n) ∉ s.load.latched) :
    s.beginTarget c = (s.setChan c fun _ => some (l.begun n)).setPage l.page fun p =>
      { p with valid := eraseBit p.valid n } := by
  unfold State.beginTarget
  rw [hl]
  dsimp only
  rw [hm]
  dsimp only
  rw [if_neg hn]
  rfl

end

theorem nextTarget_eq (p : Page) : p.nextTarget = cellAfterLatest p := rfl

theorem rightOver_iff {s : State} {p : Port} {e : Page} : rightOver s p e e.writeClasses = true ↔ mayWrite s p e := by
  simp [rightOver, mayWrite]

theorem writeRight_of {s : State} {p : Port} {pg : Handle} {e : Page} (he : s.page pg = some e) (h : mayWrite s p e) :
    s.writeRight p pg = true := by
  unfold State.writeRight
  rw [he]
  exact rightOver_iff.2 h

theorem idleChan_lowest {s : State} {c : ChanId} (h : lowestIdle s c) : s.idleChan = some c := by
  obtain ⟨hc, hlow⟩ := h
  have hn : ∀ d : ChanId, d < c → (s.load.chans[d]).isSome = true := fun d hd => by
    cases hx : s.load.chans[d] with
    | none => exact absurd hx (hlow d hd)
    | some l => rfl
  unfold State.idleChan
  rw [List.find?_eq_some_iff_append]
  refine ⟨by rw [hc]; rfl, ?_⟩
  fin_cases c
  · exact ⟨[], [1, 2, 3], rfl, by simp⟩
  · exact ⟨[0], [2, 3], rfl, by simpa using hn 0 (by decide)⟩
  · exact ⟨[0, 1], [3], rfl, by simpa using ⟨hn 0 (by decide), hn 1 (by decide)⟩⟩
  · exact ⟨[0, 1, 2], [], rfl, by simpa using ⟨hn 0 (by decide), hn 1 (by decide), hn 2 (by decide)⟩⟩

theorem chanBound_false {s : State} {pg : Handle} (h : ∀ d : ChanId, ∀ l ∈ s.load.chans[d], l.page ≠ pg) :
    s.chanBound pg = false := by
  unfold State.chanBound
  rw [List.any_eq_false]
  intro d _
  rw [Bool.not_eq_true]
  cases hd : s.load.chans[d] with
  | none => rfl
  | some l => exact decide_eq_false (h d l hd)

end Sys2Proof.Machine
end

