-- ==== Sys2Proof/Proofs/Loads.lean ====
section
/-! PROOFS. The load engine: LOAD_BEGIN, DATA, LOAD_ABORT, the completion of LOAD transfers, and the announcement of
latched cells (R51 to R66). -/

namespace Sys2Proof.Machine

/-! ### LOAD_BEGIN -/

theorem loadBeginTests_block {s : State} {p : Port} {pg : Handle} {e : Page} {first count : Byte} {c : ChanId}
    (h : blockLoadAdmitted s p pg e first count c) : firstFailure (loadBeginTests pg 0 first count p s) = none := by
  obtain ⟨h4, he, hw, hst, hp, hc, hr, hidle, hlit⟩ := h
  simp [loadBeginTests, isPattern_false h4, he, writeRight_of he hw, modeField, boolField, hst, hp, hc, hr,
    idleChan_lowest hidle, hlit, or_assoc]

theorem loadBeginTests_ring {s : State} {p : Port} {pg : Handle} {e : Page} {first count : Byte} {c : ChanId}
    (h : ringLoadAdmitted s p pg e c) : firstFailure (loadBeginTests pg 1 first count p s) = none := by
  obtain ⟨h4, he, hw, hk, hb, hidle, hlit⟩ := h
  simp [loadBeginTests, isPattern_false h4, he, writeRight_of he hw, modeField, boolField, hk, chanBound_false hb,
    idleChan_lowest hidle, hlit]

theorem mayWrite_taking {s : State} {h : Hdr} {p : Port} {e : Page} : mayWrite (s.taking h) p e ↔ mayWrite s p e := by
  unfold mayWrite
  rw [taking_cls]

/-- The load that a BLOCK LOAD_BEGIN begins (R52). -/
def blockLoad (p : Port) (pg : Handle) (e : Page) (first count : Byte) (check : Check) : Load :=
  { waiting := false, mode := .block first.toNat count.toNat check, port := p, page := pg
    wordsExpected := count.toNat * (e.width * e.height * 65536), wordsReceived := 0, linesWritten := 0, check := 0
    buffer := [] }

/-- The load that a RING LOAD_BEGIN begins (R53). -/
def ringLoad (p : Port) (pg : Handle) (e : Page) : Load :=
  { waiting := false, mode := .ring (cellAfterLatest e) none, port := p, page := pg
    wordsExpected := e.width * e.height * 65536, wordsReceived := 0, linesWritten := 0, check := 0, buffer := [] }

theorem loadBegin_block {s : State} {c : Caller} {pg : Handle} {e : Page} {first count : Byte} {check : Check} {ch : ChanId}
    (h : blockLoadAdmitted s c.port pg e first count ch) : loadBegin pg 0 first count check c s =
      ((s.setChan ch fun _ => some (blockLoad c.port pg e first count check)).setPage pg fun p =>
        { p with state := .loading, valid := dropCells p.valid (cellRange first.toNat count.toNat) }).reply c .ok
        (.channel ch) := by
  refine (checked_pass (loadBeginTests_block h)).trans ?_
  obtain ⟨h4, he, -, -, -, -, -, hidle, -⟩ := h
  simp only [idleChan_lowest hidle, he]
  rfl

theorem loadBegin_ring {s : State} {c : Caller} {pg : Handle} {e : Page} {first count : Byte} {check : Check} {ch : ChanId}
    (h : ringLoadAdmitted s c.port pg e ch) : loadBegin pg 1 first count check c s =
      ((s.setChan ch fun _ => some (ringLoad c.port pg e)).beginTarget ch).reply c .ok (.channel ch) := by
  refine (checked_pass (loadBeginTests_ring h)).trans ?_
  obtain ⟨h4, he, -, -, -, hidle, -⟩ := h
  simp only [idleChan_lowest hidle, he]
  rfl

theorem setChan_same (s : State) (c : ChanId) (f : Option Load → Option Load) :
    (s.setChan c f).load.chans[c] = f s.load.chans[c] := by rw [setChan_at, if_pos rfl]

theorem setChan_other {s : State} {c d : ChanId} (h : d ≠ c) (f : Option Load → Option Load) :
    (s.setChan c f).load.chans[d] = s.load.chans[d] := by rw [setChan_at, if_neg (Ne.symm h)]

theorem setChan_const (s : State) (c : ChanId) (a : Option Load) (f : Option Load → Option Load) :
    (s.setChan c f).setChan c (fun _ => a) = s.setChan c fun _ => a := by
  unfold State.setChan State.modLoad
  dsimp only
  rw [upd_upd]

theorem dropCells_range (v : CellSet) (first count i : Nat) (hi : i < 16) :
    (dropCells v (cellRange first count)).getLsbD i = (v.getLsbD i && !decide (first ≤ i ∧ i < first + count)) := by
  rw [getLsbD_dropCells _ _ hi]
  simp only [mem_cellRange]

/-- Settles O18: the channel and the page of each mode. -/
theorem loadBeginBindsAChannel : Obligations.LoadBeginBindsAChannel := by
  refine ⟨fun h pg first count check e c s r ha => ?block, fun h pg first count check e c s r ha => ?ring⟩
  case block =>
    have ha' : blockLoadAdmitted (s.taking h) h.port pg e first count c :=
      ⟨ha.1, ha.2.1, mayWrite_taking.2 ha.2.2.1, ha.2.2.2⟩
    refine ⟨_, congrArg Host.Outcome.next (serve_effects (self := (.loadBegin · pg 0 first count check)) r
      (loadBegin_block (c := { port := h.port, tag := h.tag, code := 32 }) ha') rfl), rfl, ⟨fun k hk => ?_, rfl, rfl⟩,
      rfl, fun d hd => ?_, ?_, _, ?_, fun i hi => dropCells_range e.valid _ _ i hi⟩
    · exact (page_setPage _ _ _ _).trans (if_neg hk)
    · exact setChan_other hd _
    · exact setChan_same _ _ _
    · refine (page_setPage _ _ _ _).trans ((if_pos rfl).trans ?_)
      rw [show ((s.taking h).setChan c _).page pg = some e from ha.2.1]
      rfl
  case ring =>
    have ha' : ringLoadAdmitted (s.taking h) h.port pg e c := ⟨ha.1, ha.2.1, mayWrite_taking.2 ha.2.2.1, ha.2.2.2⟩
    have hact := loadBegin_ring (c := { port := h.port, tag := h.tag, code := 32 }) (first := first) (count := count)
      (check := check) ha'
    have hl := setChan_same (s.taking h) c fun _ => some (ringLoad h.port pg e)
    have he : (s.taking h).page pg = some e := ha.2.1
    by_cases hn : (pg, cellAfterLatest e) ∈ s.load.latched
    · rw [beginTarget_waits hl rfl hn, setChan_const] at hact
      refine ⟨_, congrArg Host.Outcome.next (serve_effects (self := (.loadBegin · pg 1 first count check)) r hact rfl),
        rfl, ⟨fun k _ => rfl, rfl, rfl⟩, rfl, fun d hd => setChan_other hd _, (setChan_same _ _ _).trans ?_, ?_⟩
      · rw [decide_eq_true hn]; rfl
      · rw [if_pos hn]; exact he
    · rw [beginTarget_begins hl rfl hn, setChan_const] at hact
      refine ⟨_, congrArg Host.Outcome.next (serve_effects (self := (.loadBegin · pg 1 first count check)) r hact rfl),
        rfl, ⟨fun k hk => (page_setPage _ _ _ _).trans (if_neg hk), rfl, rfl⟩, rfl, fun d hd => setChan_other hd _,
        (setChan_same _ _ _).trans ?_, (page_setPage _ _ _ _).trans ((if_pos rfl).trans ?_)⟩
      · rw [decide_eq_false hn]; rfl
      · rw [if_neg hn, show ((s.taking h).setChan c _).page pg = some e from he]; rfl

/-! ### DATA -/

theorem boundLoad_of {s : State} {b : Byte} {p : Port} {c : ChanId} {l : Load} (hb : b.toNat = c.val)
    (hl : s.load.chans[c] = some l) (hp : l.port = p) : s.boundLoad b p = some l := by
  unfold State.boundLoad chanField
  rw [fieldBelow_some hb]
  simp only [Option.bind_some]
  rw [hl]
  simp [hp]

theorem dataTests_pass {s : State} {p : Port} {chan presence : Byte} {ws : List Word} {c : ChanId} {l : Load}
    (h : dataAdmitted s p chan presence ws c l) : firstFailure (dataTests chan presence ws p s) = none := by
  obtain ⟨hb, h1, h256, hlit, hl, hp, hw, hexp, hbuf, hpres⟩ := h
  have hf : chanField chan = some c := fieldBelow_some hb
  have htakes : l.takesData = true := by
    unfold Load.takesData
    split
    · simp [hw]; omega
    · rfl
  have hcheck : l.cellCheckOk presence ws.length = true := by
    unfold Load.cellCheckOk
    unfold isRing at hpres
    cases hm : l.mode <;> rw [hm] at hpres <;> subst hpres
    · rfl
    · by_cases he : l.wordsReceived + ws.length = l.wordsExpected <;> simp [he, boolField]
  simp [dataTests, hf, h1, h256, hlit, boundLoad_of hb hl hp, htakes, hexp, hcheck, hbuf]

theorem data_admitted {s : State} {c : Caller} {chan presence : Byte} {check : Check} {ws : List Word} {k : ChanId}
    {l : Load} (h : dataAdmitted s c.port chan presence ws k l) (hu : s.ports[c.port].up = true) :
    data chan presence check ws c s =
      (lineRequested (s.setChan k (·.map fun l => l.accept presence check ws)) k).reply c .ok := by
  refine (checked_pass (dataTests_pass h)).trans ?_
  have hf : chanField chan = some k := fieldBelow_some h.1
  simp only [hf]
  have hu' : (s.setChan k (·.map fun l => l.accept presence check ws)).ports[c.port].up = true := hu
  have hr : ((s.setChan k (·.map fun l => l.accept presence check ws)).requestLoad k).ports[c.port].up = true := by
    rwa [(requestLoad_frame _ k).1]
  rw [reply_up _ _ _ _ hu', requestLoad_send, ← requestLoad_eq, reply_up _ _ _ _ hr]

theorem checkSum_eq (ws : List Word) :
    checkSum ws = (ws.map fun w => w.extractLsb' 0 32 + w.extractLsb' 32 32).sum := by
  have hgen : ∀ c : Check, ws.foldl (fun c w => c + Word.lowPixel w + Word.highPixel w) c =
      c + (ws.map fun w => w.extractLsb' 0 32 + w.extractLsb' 32 32).sum := by
    induction ws with
    | nil => intro c; simp
    | cons w ws ih =>
      intro c
      rw [List.foldl_cons, ih, List.map_cons, List.sum_cons]
      unfold Word.lowPixel Word.highPixel
      rw [BitVec.add_assoc, BitVec.add_assoc, BitVec.add_assoc]
  unfold checkSum
  rw [hgen]
  simp

/-- Settles O19: the buffer, the check, and the request for a LOAD. -/
theorem dataJoinsTheBuffer : Obligations.DataJoinsTheBuffer := by
  intro h chan presence check ws c l s r ha
  have ha' : dataAdmitted (s.taking h) h.port chan presence ws c l := ha
  have hl : (s.taking h).load.chans[c] = some l := ha.2.2.2.2.1
  have hact : exec (.data h chan presence check ws) s = .next (State.answered
      (lineRequested ((s.taking h).setChan c (·.map fun l => l.accept presence check ws)) c) h 33 .ok) :=
    congrArg Host.Outcome.next (serve_effects (self := (.data · chan presence check ws)) r
      (data_admitted ha' (up_taking r)) (requestLoad_frame _ c).1)
  refine ⟨(s.taking h).setChan c (·.map fun l => l.accept presence check ws), ?_, rfl, fun d hd => setChan_other hd _,
    (setChan_same _ _ _).trans ?_⟩
  · exact hact
  · rw [hl, Option.map_some, Load.accept, checkSum_eq] <;> rfl

/-! ### LOAD_ABORT -/

/-- The frame store once a load has been aborted: its waiting LOAD is withdrawn, and a running one is discarded. -/
def loadWithdrawn (s : State) (c : ChanId) : Store :=
  { s.store with
    loadWaiting := eraseBit s.store.loadWaiting c.val
    running := s.store.running.map fun r =>
      if r.job.isLoadOf c = true ∧ r.dropped = false then { r with discard := true } else r }

/-- The state without the load of a channel, its page not yet settled. -/
def State.unloaded (s : State) (c : ChanId) : State :=
  State.setChan { s with store := loadWithdrawn s c } c fun _ => none

theorem abortLoad_block {s : State} {c : ChanId} {l : Load} {f n : Nat} {k : Check} (hl : s.load.chans[c] = some l)
    (hm : l.mode = .block f n k) : s.abortLoad c = (s.unloaded c).setPage l.page Page.settle := by
  unfold State.abortLoad
  rw [hl]
  dsimp only
  rw [hm, discardRunning_eq]
  rfl

theorem abortLoad_ring {s : State} {c : ChanId} {l : Load} {n : Nat} {k : Option Check} (hl : s.load.chans[c] = some l)
    (hm : l.mode = .ring n k) : s.abortLoad c = s.unloaded c := by
  unfold State.abortLoad
  rw [hl]
  dsimp only
  rw [hm, discardRunning_eq]
  rfl

theorem abortLoad_none {s : State} {c : ChanId} (hl : s.load.chans[c] = none) : s.abortLoad c = s := by
  unfold State.abortLoad
  rw [hl]

/-- What LOAD_ABORT leaves, by the mode of the load: the page of a BLOCK load is settled (R65). -/
theorem abortLoad_effect {s : State} {c : ChanId} {l : Load} (hl : s.load.chans[c] = some l) :
    s.abortLoad c = { s.unloaded c with dir := (s.abortLoad c).dir } ∧ samePagesBut s (s.abortLoad c) l.page ∧
      (∀ n k, l.mode = .ring n k → (s.abortLoad c).page l.page = s.page l.page) ∧
      (∀ f n k, l.mode = .block f n k → (s.abortLoad c).page l.page = (s.page l.page).map fun p =>
        { p with state := settledState p.damaged p.valid p.cells }) := by
  cases hm : l.mode with
  | block f n k =>
    rw [abortLoad_block hl hm]
    refine ⟨rfl, ⟨fun q hq => (page_setPage _ _ _ _).trans (if_neg hq), rfl, rfl⟩, fun _ _ h => (nomatch h), fun _ _ _ _ => ?_⟩
    rw [page_setPage, if_pos rfl, show Page.settle = _ from funext settle_eq]
    rfl
  | ring n k =>
    rw [abortLoad_ring hl hm]
    exact ⟨rfl, ⟨fun q _ => rfl, rfl, rfl⟩, fun _ _ _ => rfl, fun _ _ _ h => nomatch h⟩

theorem loadAbort_passes {s : State} {c : Caller} {chan : Byte} {k : ChanId} {l : Load} (hc : chan.toNat = k.val)
    (hl : s.load.chans[k] = some l) (hp : l.port = c.port ∨ s.cls c.port = .operator) :
    loadAbort chan c s =
      (if l.port = c.port then s.abortLoad k else (s.abortLoad k).raise l.port .loadFailed).reply c .ok := by
  have hf : chanField chan = some k := fieldBelow_some hc
  unfold loadAbort
  dsimp only
  rw [hf, Option.bind_some, hl]
  exact checked_pass (by simp [hp])

theorem raise_frame (s : State) (p : Port) (e : Event) : s.raise p e = { s with ports := (s.raise p e).ports } := rfl

/-- Settles O20: the channel, its page, its transfer, and who hears of it. -/
theorem loadAbortEndsTheLoad : Obligations.LoadAbortEndsTheLoad := by
  intro h chan c l s r hc hl hp
  have hl' : (s.taking h).load.chans[c] = some l := hl
  have hact := loadAbort_passes (c := { port := h.port, tag := h.tag, code := 34 }) hc hl'
    (hp.imp_right fun ho => (taking_cls s h h.port).trans ho)
  obtain ⟨hframe, hpages, hring, hblock⟩ := abortLoad_effect hl'
  have hports : ((s.taking h).abortLoad c).ports = (s.taking h).ports := by rw [hframe]; rfl
  have hload : ((s.taking h).abortLoad c).load = ((s.taking h).unloaded c).load := by rw [hframe]
  have hstore : ((s.taking h).abortLoad c).store = loadWithdrawn (s.taking h) c := by rw [hframe]; rfl
  generalize (s.taking h).abortLoad c = a at hact hframe hpages hring hblock hports hload hstore
  set t := if l.port = h.port then a else a.raise l.port .loadFailed with ht
  have hstay : t = { a with ports := t.ports } := by rw [ht]; split <;> rfl
  have htold : ∀ q : Port, t.ports[q] =
      if q = l.port ∧ l.port ≠ h.port then ((s.taking h).ports[q]).take .loadFailed else (s.taking h).ports[q] := by
    intro q
    rw [ht]
    by_cases hs : l.port = h.port
    · rw [if_pos hs, if_neg (fun hq => hq.2 hs), hports]
    · rw [if_neg hs, raise_at, hports]
      by_cases hq : q = l.port
      · rw [if_pos hq, if_pos ⟨hq, hs⟩]
      · rw [if_neg hq, if_neg fun hq' => hq hq'.1]
  have hu : t.ports[h.port].up = true := by
    rw [htold]
    split
    · rw [take_up]; exact up_taking r
    · exact up_taking r
  clear_value t
  refine ⟨t, ?_, ?_, ?_, ?_, ?_, ?_, ?_, ?_, ?_, ?_, htold⟩
  · exact congrArg Host.Outcome.next (serve_done (self := (.loadAbort · chan)) r (hact.trans (by rw [ht])) hu)
  · rw [hstay, hframe]; rfl
  · rw [hstay]; dsimp only; rw [hload]; exact setChan_same _ _ _
  · intro d hd; rw [hstay]; dsimp only; rw [hload]; exact setChan_other hd _
  · rw [hstay]; dsimp only; rw [hstore]; rfl
  · rw [hstay]; dsimp only; rw [hstore]; rfl
  · rw [hstay]; dsimp only; rw [hstore]; rfl
  · rw [hstay]; exact hpages
  · intro n k hm; rw [hstay]; exact hring n k hm
  · intro f n k hm; rw [hstay]; exact hblock f n k hm

end Sys2Proof.Machine
end

