-- ==== Sys2Proof/Proofs/LoadCompletions.lean ====
section
/-! PROOFS. The completion of a LOAD transfer, and the announcement of latched cells (R49, R56 to R63). -/

namespace Sys2Proof.Machine

/-! ### The line in memory -/

theorem readWord_writeWords {ws : List Word} : ∀ {st : Store}, st.wf → ∀ (slot line word i : Nat) {x : Word},
    ws[i]? = some x → (st.writeWords slot line word ws).readWord slot line (word + i) = { cls := .clean, data := x } := by
  induction ws with
  | nil => intro st _ slot line word i x h; simp at h
  | cons v ws ih =>
    intro st hw slot line word i x h
    rw [Store.writeWords]
    cases i with
    | zero =>
      obtain rfl : v = x := by simpa using h
      have hnext := wordNumber_succ slot line word
      have hbyte := byteAddr_eq slot line word
      have hbyte' := byteAddr_eq slot line (word + 1)
      rw [Nat.add_zero, ← readWord_writeWord hw slot line word v]
      exact readWord_congr slot line word
        (fun b _ hb => writeWords_read_outside (writeWord_wf hw _ _ _ _) slot line (word + 1) b ws (by omega))
        (writeWords_errors_outside (writeWord_wf hw _ _ _ _) slot line (word + 1) _ ws (by omega))
    | succ i =>
      have := ih (writeWord_wf hw slot line word v) slot line (word + 1) i (by simpa using h)
      rwa [show word + 1 + i = word + (i + 1) by omega] at this

/-- A grant changes the frame store, and what the store reports, alone. -/
theorem grant_only (s : State) : s.grant = { s with store := s.grant.store, mail := s.grant.mail } := by
  obtain ⟨hports, hdir, hload, hedit, hscene, hunits, hout, hpending⟩ := grant_frame s
  generalize s.grant = g at *
  obtain ⟨ports, dir, store, load, edit, scene, units, mail, out, pending⟩ := g
  subst hports hdir hload hedit hscene hunits hout hpending
  rfl

/-- The state with a line of words in memory and the bus free. -/
def State.lineIn (s : State) (slot line : Nat) (ws : List Word) : State :=
  { s with store := { s.store.writeWords slot line 0 ws with running := none } }

theorem lineIn_eq (s : State) (slot line : Nat) (ws : List Word) :
    s.lineIn slot line ws = { s with store := { s.store with
      running := none, mem := (s.lineIn slot line ws).store.mem, errors := (s.lineIn slot line ws).store.errors } } := by
  unfold State.lineIn
  rw [writeWords_frame]

theorem lineIn_outside {s : State} (hm : s.memoryOk) (slot line : Nat) (ws : List Word) :
    sameMemoryOutside s (s.lineIn slot line ws) slot line 0 ws.length :=
  ⟨fun a ha => writeWords_read_outside hm slot line 0 a ws ha,
    fun k hk => writeWords_errors_outside hm slot line 0 k ws hk⟩

theorem loadComplete_runs {s : State} {c : ChanId} {slot line : Nat} {ws : List Word} {discard : Bool}
    (hr : runs s (.load c slot line ws) discard) : loadComplete s =
      if discard then lineRequested (s.lineIn slot line ws).grant c else (s.lineIn slot line ws).grant.lineLoaded c := by
  unfold loadComplete
  rw [hr]
  rfl

/-- A load with a line more in memory. -/
def Load.written (l : Load) : Load := { l with buffer := l.buffer.drop 256, linesWritten := l.linesWritten + 1 }

theorem upd_const {α : Type} {n : Nat} {v : Vector α n} {i : Fin n} {f : α → α} {a : α} (h : f v[i] = a) :
    upd v i f = upd v i fun _ => a := by
  unfold upd
  rw [h]

theorem setChan_map {s : State} {c : ChanId} {l : Load} (hl : s.load.chans[c] = some l) (f : Load → Load) :
    s.setChan c (·.map f) = s.setChan c fun _ => some (f l) := by
  unfold State.setChan State.modLoad
  dsimp only
  rw [upd_const (f := (·.map f)) (a := some (f l)) (by rw [hl]; rfl)]

section
variable {s : State} {c : ChanId} {l : Load} (hl : s.load.chans[c] = some l)
include hl

theorem lineLoaded_more (hn : (l.linesWritten + 1) * 256 ≠ l.wordsExpected) :
    s.lineLoaded c = lineRequested (s.setChan c fun _ => some l.written) c := by
  unfold State.lineLoaded
  rw [setChan_map hl]
  dsimp only
  rw [setChan_same]
  exact if_neg hn

theorem lineLoaded_block {first count : Nat} {k : Check} (hn : (l.linesWritten + 1) * 256 = l.wordsExpected)
    (hm : l.mode = .block first count k) :
    s.lineLoaded c = (s.setChan c fun _ => some l.written).endBlock c l.written first count k := by
  obtain ⟨waiting, mode, port, page, expected, received, lines, check, buffer⟩ := l
  cases hm
  unfold State.lineLoaded
  rw [setChan_map hl]
  dsimp only
  rw [setChan_same]
  exact if_pos hn

theorem lineLoaded_ring {n : Nat} {k : Option Check} (hn : (l.linesWritten + 1) * 256 = l.wordsExpected)
    (hm : l.mode = .ring n k) :
    s.lineLoaded c = (s.setChan c fun _ => some l.written).endCell c l.written n k := by
  obtain ⟨waiting, mode, port, page, expected, received, lines, check, buffer⟩ := l
  cases hm
  unfold State.lineLoaded
  rw [setChan_map hl]
  dsimp only
  rw [setChan_same]
  exact if_pos hn

end

/-! ### The end of a load and of a cell -/

theorem endBlock_agrees {s : State} {c : ChanId} {l : Load} {first count : Nat} :
    s.endBlock c l first count l.check =
      ((s.setChan c fun _ => none).setPage l.page fun p =>
        Page.settle
          { p with valid := addCells p.valid (cellRange first count)
                   damaged := if first = 0 ∧ count = p.cells then some false else p.damaged }).raise l.port .loadDone :=
  if_pos rfl

theorem endBlock_differs {s : State} {c : ChanId} {l : Load} {first count : Nat} {k : Check} (h : l.check ≠ k) :
    s.endBlock c l first count k =
      ((s.setChan c fun _ => none).setPage l.page Page.settle).raise l.port .loadFailed :=
  if_neg h

/-- A page with a cell of a ring more, which is its latest (R60). -/
def Page.cellDone (n : Nat) (p : Page) : Page := { p with valid := insertBit p.valid n, latest := some n }

theorem endCell_agrees {s : State} {c : ChanId} {l : Load} {n : Nat} {e : Page} (hl : s.load.chans[c] = some l)
    (he : s.page l.page = some e) :
    s.endCell c l n (some l.check) =
      ((s.setPage l.page (Page.cellDone n)).setChan c fun _ =>
        some { l with mode := .ring ((n + 1) % e.cells) none }).beginTarget c := by
  unfold State.endCell
  rw [if_pos rfl]
  dsimp only
  rw [show (s.setPage l.page fun p => { p with valid := insertBit p.valid n, latest := some n }) =
      s.setPage l.page (Page.cellDone n) from rfl, page_setPage, if_pos rfl, he,
    setChan_map (s := s.setPage l.page (Page.cellDone n)) hl]
  rfl

theorem endCell_differs {s : State} {c : ChanId} {l : Load} {n : Nat} {k : Option Check} (h : k ≠ some l.check) :
    s.endCell c l n k = (s.beginTarget c).raise l.port .cellFailed := by
  unfold State.endCell
  rw [if_neg h]

/-- The end of a load's line leaves the store and the messages under way. -/
theorem beginTarget_store (s : State) (c : ChanId) :
    (s.beginTarget c).store = s.store ∧ (s.beginTarget c).mail = s.mail := by
  unfold State.beginTarget
  split
  · split
    · split <;> exact ⟨rfl, rfl⟩
    · exact ⟨rfl, rfl⟩
  · exact ⟨rfl, rfl⟩

theorem endCell_store (s : State) (c : ChanId) (l : Load) (n : Nat) (k : Option Check) :
    (s.endCell c l n k).store = s.store ∧ (s.endCell c l n k).mail = s.mail := by
  unfold State.endCell
  dsimp only
  split
  · obtain ⟨h1, h2⟩ := beginTarget_store ((s.setPage l.page (Page.cellDone n)).setChan c (·.map fun m =>
      { m with mode := .ring ((((s.setPage l.page (Page.cellDone n)).page l.page).map Page.nextTarget).getD n) none })) c
    exact ⟨h1.trans rfl, h2.trans rfl⟩
  · exact beginTarget_store s c

theorem endBlock_store (s : State) (c : ChanId) (l : Load) (first count : Nat) (k : Check) :
    (s.endBlock c l first count k).store = s.store ∧ (s.endBlock c l first count k).mail = s.mail := by
  unfold State.endBlock
  dsimp only
  split <;> exact ⟨rfl, rfl⟩

/-- Settles O21: the line is written, the bus is granted anew, and the channel goes on. -/
theorem loadCompleteWritesTheLine : Obligations.LoadCompleteWritesTheLine := by
  intro c slot line ws discard s hm hr _ _
  have hrun := loadComplete_runs hr
  have hload : (s.lineIn slot line ws).grant.load = s.load := (grant_frame _).2.2.1
  refine ⟨s.lineIn slot line ws, lineIn_eq s slot line ws, fun w x hx => ?clean, lineIn_outside hm slot line ws,
    fun hd => ?discarded, fun l hd hl => ⟨fun hn => ?more, fun hn => ?last⟩⟩
  case clean =>
    have := readWord_writeWords hm slot line 0 w hx
    rwa [Nat.zero_add] at this
  case discarded =>
    rw [hd, if_pos rfl] at hrun
    exact congrArg Host.Outcome.next hrun
  all_goals
    rw [hd, if_neg Bool.false_ne_true] at hrun
    generalize (s.lineIn slot line ws).grant = g at hrun hload
    have hg : g.load.chans[c] = some l := by rw [hload]; exact hl
  case more =>
    refine congrArg Host.Outcome.next (hrun.trans ((lineLoaded_more hg hn).trans ?_))
    unfold State.setChan State.modLoad
    rw [hload]
    rfl
  case last =>
    refine ⟨_, congrArg Host.Outcome.next hrun, ?_⟩
    cases hmode : l.mode with
    | block first count k =>
      rw [lineLoaded_block hg hn hmode]
      exact endBlock_store _ _ _ _ _ _
    | ring n k =>
      rw [lineLoaded_ring hg hn hmode]
      exact endCell_store _ _ _ _ _

/-! ### The last line of a load or a cell -/

/-- Nothing has changed but one page, one channel, the ports, the frame store and what the store reports. -/
structure LoadOnly (s t : State) (c : ChanId) (pg : Handle) : Prop where
  pages : samePagesBut s t pg
  rest : t = { s with ports := t.ports, dir := t.dir, load := t.load, store := t.store, mail := t.mail }
  latched : t.load.latched = s.load.latched
  others : ∀ d : ChanId, d ≠ c → t.load.chans[d] = s.load.chans[d]

section
variable {s t : State} {c : ChanId} {pg : Handle}

theorem LoadOnly.of_load_dir (hload : t.load = s.load) (hdir : t.dir = s.dir)
    (hrest : t = { s with ports := t.ports, dir := t.dir, load := t.load, store := t.store, mail := t.mail }) :
    LoadOnly s t c pg := by
  refine ⟨⟨fun k _ => ?_, ?_, ?_⟩, hrest, by rw [hload], fun d _ => by rw [hload]⟩
  · unfold State.page; rw [hdir]
  · rw [hdir]
  · rw [hdir]

theorem LoadOnly.setChan (h : LoadOnly s t c pg) (f : Option Load → Option Load) : LoadOnly s (t.setChan c f) c pg := by
  refine ⟨h.pages, ?_, h.latched, fun d hd => (setChan_other hd f).trans (h.others d hd)⟩
  rw [h.rest]
  rfl

theorem LoadOnly.setPage (h : LoadOnly s t c pg) (f : Page → Page) : LoadOnly s (t.setPage pg f) c pg := by
  refine ⟨⟨fun k hk => ?_, h.pages.2.1, h.pages.2.2⟩, ?_, h.latched, h.others⟩
  · rw [page_setPage, if_neg hk]
    exact h.pages.1 k hk
  · rw [h.rest]
    rfl

theorem LoadOnly.raise (h : LoadOnly s t c pg) (p : Port) (e : Event) : LoadOnly s (t.raise p e) c pg := by
  refine ⟨h.pages, ?_, h.latched, h.others⟩
  rw [h.rest]
  rfl

theorem LoadOnly.beginTarget (h : LoadOnly s t c pg) {l : Load} (hl : t.load.chans[c] = some l) (hp : l.page = pg) :
    LoadOnly s (t.beginTarget c) c pg := by
  subst hp
  cases hm : l.mode with
  | block first count k =>
    rwa [show t.beginTarget c = t by unfold State.beginTarget; rw [hl]; dsimp only; rw [hm]]
  | ring n k =>
    by_cases hn : (l.page, n) ∈ t.load.latched
    · rw [beginTarget_waits hl hm hn]; exact h.setChan _
    · rw [beginTarget_begins hl hm hn]; exact (h.setChan _).setPage _

end

/-- The state in which a channel has counted a line that is in memory. -/
def State.lineCounted (s : State) (slot line : Nat) (ws : List Word) (c : ChanId) (l : Load) : State :=
  (s.lineIn slot line ws).grant.setChan c fun _ => some l.written

section
variable (s : State) (slot line : Nat) (ws : List Word) (c : ChanId) (l : Load)

theorem lineCounted_loadOnly (pg : Handle) : LoadOnly s (s.lineCounted slot line ws c l) c pg := by
  have h : LoadOnly s (s.lineIn slot line ws).grant c pg := by
    refine LoadOnly.of_load_dir (grant_frame _).2.2.1 (grant_frame _).2.1 ?_
    rw [grant_only]
    rfl
  exact h.setChan _

theorem lineCounted_chan : (s.lineCounted slot line ws c l).load.chans[c] = some l.written := setChan_same _ _ _

theorem lineCounted_ports : (s.lineCounted slot line ws c l).ports = s.ports := (grant_frame _).1

theorem lineCounted_page (pg : Handle) : (s.lineCounted slot line ws c l).page pg = s.page pg := by
  unfold State.page
  rw [show (s.lineCounted slot line ws c l).dir = s.dir from (grant_frame _).2.1]

end

theorem addCells_range (v : CellSet) (first count i : Nat) (hi : i < 16) :
    (addCells v (cellRange first count)).getLsbD i = (v.getLsbD i || decide (first ≤ i ∧ i < first + count)) := by
  rw [getLsbD_addCells _ _ hi]
  simp only [mem_cellRange]

section
variable {u : State} {c : ChanId} {l : Load} {e : Page} (he : u.page l.page = some e)
include he

/-- A BLOCK load whose check agrees: its cells are valid, and its port hears of it (R56). -/
theorem endBlock_agrees_effect {s : State} (first count : Nat) (h : LoadOnly s u c l.page) :
    ∃ t : State, u.endBlock c l first count l.check = t ∧ LoadOnly s t c l.page ∧ t.load.chans[c] = none ∧
      (∃ v : CellSet,
        (∀ i, i < 16 → v.getLsbD i = (e.valid.getLsbD i || decide (first ≤ i ∧ i < first + count))) ∧
        ∃ d : Option Bool, d = (if first = 0 ∧ count = e.cells then some false else e.damaged) ∧
          t.page l.page = some { e with valid := v, damaged := d, state := settledState d v e.cells }) ∧
      (∀ q : Port, t.ports[q] = if q = l.port then u.ports[q].take .loadDone else u.ports[q]) := by
  refine ⟨_, endBlock_agrees, ((h.setChan _).setPage _).raise _ _, setChan_same _ _ _,
    ⟨addCells e.valid (cellRange first count), addCells_range e.valid first count, _, rfl, ?_⟩, fun q => raise_at _ _ _ _⟩
  refine (page_setPage _ _ _ _).trans ((if_pos rfl).trans ?_)
  rw [show (u.setChan c _).page l.page = some e from he, Option.map_some, settle_eq]

/-- A BLOCK load whose check differs: its page is settled, and its port hears of it (R57). -/
theorem endBlock_differs_effect {s : State} {first count : Nat} {k : Check} (hk : l.check ≠ k)
    (h : LoadOnly s u c l.page) :
    ∃ t : State, u.endBlock c l first count k = t ∧ LoadOnly s t c l.page ∧ t.load.chans[c] = none ∧
      t.page l.page = some { e with state := settledState e.damaged e.valid e.cells } ∧
      (∀ q : Port, t.ports[q] = if q = l.port then u.ports[q].take .loadFailed else u.ports[q]) := by
  refine ⟨_, endBlock_differs hk, ((h.setChan _).setPage _).raise _ _, setChan_same _ _ _, ?_, fun q => raise_at _ _ _ _⟩
  refine (page_setPage _ _ _ _).trans ((if_pos rfl).trans ?_)
  rw [show (u.setChan c _).page l.page = some e from he, Option.map_some, settle_eq]

/-- A ring that begins its target cell: it begins it, or waits for it (R59). -/
theorem beginTarget_effect {s : State} (hl : u.load.chans[c] = some l) {n : Nat} {k : Option Check}
    (hm : l.mode = .ring n k) (h : LoadOnly s u c l.page) :
    ∃ t : State, u.beginTarget c = t ∧ LoadOnly s t c l.page ∧ t.ports = u.ports ∧
      ((l.page, n) ∉ s.load.latched → t.load.chans[c] = some (l.begun n) ∧
        t.page l.page = some { e with valid := eraseBit e.valid n }) ∧
      ((l.page, n) ∈ s.load.latched → t.load.chans[c] = some { l with waiting := true } ∧ t.page l.page = some e) := by
  rw [← h.latched]
  by_cases hn : (l.page, n) ∈ u.load.latched
  · refine ⟨_, beginTarget_waits hl hm hn, h.setChan _, rfl, fun h' => absurd hn h', fun _ => ⟨setChan_same _ _ _, he⟩⟩
  · refine ⟨_, beginTarget_begins hl hm hn, (h.setChan _).setPage _, rfl, fun _ => ⟨setChan_same _ _ _, ?_⟩,
      fun h' => absurd h' hn⟩
    refine (page_setPage _ _ _ _).trans ((if_pos rfl).trans ?_)
    rw [show (u.setChan c _).page l.page = some e from he, Option.map_some]

end

/-- Settles O22: the last line of a BLOCK load and of a ring cell, by the check. -/
theorem lastLineEndsTheLoadOrTheCell : Obligations.LastLineEndsTheLoadOrTheCell := by
  intro c slot line ws l e s hr hl hn he
  have hrun := loadComplete_runs hr
  rw [if_neg Bool.false_ne_true] at hrun
  have hg : (s.lineIn slot line ws).grant.load.chans[c] = some l := by rw [(grant_frame _).2.2.1]; exact hl
  have honly := lineCounted_loadOnly s slot line ws c l l.page
  have hchan := lineCounted_chan s slot line ws c l
  have hports := lineCounted_ports s slot line ws c l
  have hpage : (s.lineCounted slot line ws c l).page l.written.page = some e := (lineCounted_page s slot line ws c l l.page).trans he
  cases hm : l.mode with
  | block first count k =>
    rw [lineLoaded_block hg hn hm] at hrun
    change loadComplete s = (s.lineCounted slot line ws c l).endBlock c l.written first count k at hrun
    generalize s.lineCounted slot line ws c l = u at hrun honly hchan hports hpage
    by_cases hk : l.check = k
    · subst hk
      obtain ⟨t, ht, hone, hnone, hvalid, htold⟩ := endBlock_agrees_effect hpage first count honly
      rw [hports] at htold
      refine ⟨t, congrArg Host.Outcome.next (hrun.trans ht), hone.pages, hone.rest, hone.latched, hone.others,
        fun f n k' h _ => ?_, fun f n k' h hk' => ?_, fun n k h => (nomatch h), fun n k h => (nomatch h)⟩
      · cases h
        exact ⟨hnone, hvalid, htold⟩
      · cases h
        exact absurd rfl hk'
    · obtain ⟨t, ht, hone, hnone, hsettled, htold⟩ := endBlock_differs_effect (first := first) (count := count) hpage hk honly
      rw [hports] at htold
      refine ⟨t, congrArg Host.Outcome.next (hrun.trans ht), hone.pages, hone.rest, hone.latched, hone.others,
        fun f n k' h hk' => ?_, fun f n k' h _ => ?_, fun n k h => (nomatch h), fun n k h => (nomatch h)⟩
      · cases h
        exact absurd hk' hk
      · cases h
        exact ⟨hnone, hsettled, htold⟩
  | ring n k =>
    rw [lineLoaded_ring hg hn hm] at hrun
    change loadComplete s = (s.lineCounted slot line ws c l).endCell c l.written n k at hrun
    generalize s.lineCounted slot line ws c l = u at hrun honly hchan hports hpage
    by_cases hk : k = some l.check
    · subst hk
      rw [show u.endCell c l.written n (some l.check) = _ from endCell_agrees hchan hpage] at hrun
      have hdone : ((u.setPage l.page (Page.cellDone n)).setChan c fun _ =>
          some { l.written with mode := .ring ((n + 1) % e.cells) none }).page l.page = some (e.cellDone n) := by
        refine (page_setPage _ _ _ _).trans ((if_pos rfl).trans ?_)
        rw [show u.page l.page = some e from hpage]
        rfl
      obtain ⟨t, ht, hone, hp, hbegins, hwaits⟩ := beginTarget_effect
        (l := { l.written with mode := .ring ((n + 1) % e.cells) none }) hdone (setChan_same _ _ _) rfl
        ((honly.setPage (Page.cellDone n)).setChan _)
      refine ⟨t, congrArg Host.Outcome.next (hrun.trans ht), hone.pages, hone.rest, hone.latched, hone.others,
        fun f n k h => (nomatch h), fun f n k h => (nomatch h), fun n' k' h _ => ?_, fun n' k' h hk' => ?_⟩
      · cases h
        exact ⟨hp.trans hports, hbegins, fun hin => ⟨⟨_, (hwaits hin).1, rfl, rfl, rfl, rfl, rfl⟩, (hwaits hin).2⟩⟩
      · cases h
        exact absurd rfl hk'
    · rw [endCell_differs (l := l.written) hk] at hrun
      obtain ⟨t, ht, hone, hp, hbegins, hwaits⟩ := beginTarget_effect hpage hchan hm honly
      rw [ht] at hrun
      have hone' := hone.raise l.port .cellFailed
      refine ⟨_, congrArg Host.Outcome.next hrun, hone'.pages, hone'.rest, hone'.latched, hone'.others,
        fun f n k h => (nomatch h), fun f n k h => (nomatch h), fun n' k' h hk' => ?_, fun n' k' h _ => ?_⟩
      · cases h
        exact absurd hk' hk
      · cases h
        refine ⟨fun q => ?_, hbegins, fun hin => ⟨⟨_, (hwaits hin).1, rfl, rfl, rfl⟩, (hwaits hin).2⟩⟩
        rw [raise_at, hp, hports]
        rfl

/-! ### The announcement of latched cells -/

theorem eraseBit_member {n : Nat} (b : BitVec n) (i j : Nat) :
    (eraseBit b i).getLsbD j = true ↔ b.getLsbD j = true ∧ i ≠ j := by
  by_cases hj : j < n
  · rw [getLsbD_eraseBit _ _ _ hj]
    simp
  · rw [BitVec.getLsbD_of_ge _ _ (by omega), BitVec.getLsbD_of_ge _ _ (by omega)]
    simp

/-- A load that waits for a cell which is not latched, of a page: an announcement lets it begin (R63). -/
def beginsOn (a : List Latch) (o : Option Load) (pg : Handle) (n : Nat) : Prop :=
  ∃ l k, o = some l ∧ l.waiting = true ∧ l.mode = .ring n k ∧ l.page = pg ∧ (pg, n) ∉ a

/-- What becomes of some channels, and of their pages, when they compare their targets with the latched set. -/
structure Rechecked (cs : List ChanId) (u t : State) : Prop where
  rest : t = { u with load := t.load, dir := t.dir }
  latched : t.load.latched = u.load.latched
  slots : t.dir.free = u.dir.free ∧ t.dir.populated = u.dir.populated
  others : ∀ d : ChanId, d ∉ cs → t.load.chans[d] = u.load.chans[d]
  stays : ∀ d : ChanId, (∀ pg n, ¬ beginsOn u.load.latched u.load.chans[d] pg n) → t.load.chans[d] = u.load.chans[d]
  begun : ∀ (d : ChanId) (l : Load) (n : Nat), d ∈ cs → u.load.chans[d] = some l →
    beginsOn u.load.latched u.load.chans[d] l.page n → t.load.chans[d] = some (l.begun n)
  free : ∀ pg : Handle, u.page pg = none → t.page pg = none
  pages : ∀ (pg : Handle) (e : Page), u.page pg = some e → ∃ v : CellSet, t.page pg = some { e with valid := v } ∧
    ∀ i, v.getLsbD i = true ↔
      e.valid.getLsbD i = true ∧ ∀ c ∈ cs, ¬ beginsOn u.load.latched u.load.chans[c] pg i

theorem Rechecked.nothing (u : State) : Rechecked [] u u where
  rest := rfl
  latched := rfl
  slots := ⟨rfl, rfl⟩
  others _ _ := rfl
  stays _ _ := rfl
  begun _ _ _ h := absurd h List.not_mem_nil
  free _ h := h
  pages _ e h := ⟨e.valid, h, fun i => by simp⟩

/-- A channel that looks again begins its target, or stays as it is. -/
theorem recheckWaiting_cases (u : State) (c : ChanId) :
    ((∀ pg n, ¬ beginsOn u.load.latched u.load.chans[c] pg n) ∧ u.recheckWaiting c = u) ∨
    ∃ l n, u.load.chans[c] = some l ∧ beginsOn u.load.latched u.load.chans[c] l.page n ∧ u.recheckWaiting c =
      (u.setChan c fun _ => some (l.begun n)).setPage l.page fun p => { p with valid := eraseBit p.valid n } := by
  unfold State.recheckWaiting
  cases hl : u.load.chans[c] with
  | none => exact .inl ⟨fun pg n ⟨l, k, h, _⟩ => (nomatch h), rfl⟩
  | some l =>
    dsimp only
    by_cases hw : l.waiting = true
    · rw [if_pos hw]
      cases hm : l.mode with
      | block first count k =>
        refine .inl ⟨fun pg n ⟨m, k, h, _, hr, _⟩ => ?_, ?_⟩
        · cases h
          rw [hm] at hr
          cases hr
        · unfold State.beginTarget
          rw [hl]
          dsimp only
          rw [hm]
      | ring n k =>
        by_cases hn : (l.page, n) ∈ u.load.latched
        · refine .inl ⟨fun pg n' ⟨m, k, h, _, hr, hp, hout⟩ => ?_, ?_⟩
          · cases h
            rw [hm] at hr
            cases hr
            subst hp
            exact hout hn
          · rw [beginTarget_waits hl hm hn, ← hw]
            unfold State.setChan State.modLoad
            dsimp only
            rw [upd_of_fixed _ _ _ hl.symm]
        · exact .inr ⟨l, n, rfl, ⟨l, k, rfl, hw, hm, rfl, hn⟩, beginTarget_begins hl hm hn⟩
    · rw [if_neg hw]
      refine .inl ⟨fun pg n ⟨m, k, h, hw', _⟩ => ?_, rfl⟩
      cases h
      exact hw hw'

theorem beginsOn_cell {a : List Latch} {l : Load} {pg pg' : Handle} {n n' : Nat} (h : beginsOn a (some l) pg n)
    (h' : beginsOn a (some l) pg' n') : pg = pg' ∧ n = n' := by
  obtain ⟨m, k, hm, -, hr, hp, -⟩ := h
  obtain ⟨m', k', hm', -, hr', hp', -⟩ := h'
  cases hm
  cases hm'
  rw [hr] at hr'
  cases hr'
  exact ⟨hp.symm.trans hp', rfl⟩

theorem recheckWaiting_one (u : State) (c : ChanId) : Rechecked [c] u (u.recheckWaiting c) := by
  obtain ⟨hnot, he⟩ | ⟨l, n, hl, hb, he⟩ := recheckWaiting_cases u c
  · rw [he]
    refine ⟨rfl, rfl, ⟨rfl, rfl⟩, fun _ _ => rfl, fun _ _ => rfl, fun d l n hd _ hb => ?_, fun _ h => h,
      fun pg e h => ⟨e.valid, h, fun i => ?_⟩⟩
    · obtain rfl := List.mem_singleton.1 hd
      exact absurd hb (hnot _ _)
    · simpa using fun _ => hnot pg i
  · rw [he]
    refine ⟨rfl, rfl, ⟨rfl, rfl⟩, fun d hd => setChan_other (by simpa using hd) _, fun d hd => ?_, fun d l' n' hd hl' hb' => ?_,
      fun pg h => ?_, fun pg e h => ?_⟩
    · by_cases hdc : d = c
      · subst hdc
        exact absurd hb (hd _ _)
      · exact setChan_other hdc _
    · obtain rfl := List.mem_singleton.1 hd
      rw [hl] at hl' hb hb'
      cases hl'
      obtain ⟨-, rfl⟩ := beginsOn_cell hb hb'
      exact setChan_same _ _ _
    · rw [page_setPage]
      split
      · rw [show (u.setChan c _).page pg = none from h]; rfl
      · exact h
    · rw [page_setPage, show (u.setChan c _).page pg = some e from h]
      by_cases hpg : pg = l.page
      · refine ⟨eraseBit e.valid n, if_pos hpg, fun i => ?_⟩
        rw [eraseBit_member]
        refine and_congr_right fun _ => ⟨fun hni => ?_, fun hn => ?_⟩
        · intro d hd hb'
          obtain rfl := List.mem_singleton.1 hd
          rw [hl] at hb hb'
          exact hni (beginsOn_cell hb hb').2
        · rintro rfl
          subst hpg
          exact hn c (List.mem_singleton.2 rfl) hb
      · refine ⟨e.valid, if_neg hpg, fun i => ⟨fun hv => ⟨hv, fun d hd hb' => ?_⟩, fun hv => hv.1⟩⟩
        obtain rfl := List.mem_singleton.1 hd
        rw [hl] at hb hb'
        exact hpg (beginsOn_cell hb' hb).1

/-- Each channel looks at its own load alone, so the order does not matter. -/
theorem Rechecked.cons {c : ChanId} {cs : List ChanId} {u v t : State} (hc : c ∉ cs) (h : Rechecked [c] u v)
    (k : Rechecked cs v t) : Rechecked (c :: cs) u t := by
  have hsame : ∀ d : ChanId, d ≠ c → v.load.chans[d] = u.load.chans[d] := fun d hd => h.others d (by simpa using hd)
  refine ⟨?_, k.latched.trans h.latched, ⟨k.slots.1.trans h.slots.1, k.slots.2.trans h.slots.2⟩, fun d hd => ?_,
    fun d hd => ?_, fun d l n hd hl hb => ?_, fun pg hp => k.free pg (h.free pg hp), fun pg e he => ?_⟩
  · rw [k.rest, h.rest]
  · obtain ⟨h1, h2⟩ := not_or.1 (mt List.mem_cons.2 hd)
    exact (k.others d h2).trans (hsame d h1)
  · have hv := h.stays d hd
    refine (k.stays d ?_).trans hv
    rwa [hv, h.latched]
  · obtain rfl | hd' := List.mem_cons.1 hd
    · exact (k.others d hc).trans (h.begun d l n (List.mem_singleton.2 rfl) hl hb)
    · have hdc : d ≠ c := fun e => hc (e ▸ hd')
      exact k.begun d l n hd' ((hsame d hdc).trans hl) (by rwa [hsame d hdc, h.latched])
  · obtain ⟨v₁, hv₁, hm₁⟩ := h.pages pg e he
    obtain ⟨v₂, hv₂, hm₂⟩ := k.pages pg _ hv₁
    refine ⟨v₂, hv₂, fun i => (hm₂ i).trans ?_⟩
    rw [hm₁ i, h.latched]
    constructor
    · rintro ⟨⟨hv, hone⟩, hmore⟩
      refine ⟨hv, fun d hd => ?_⟩
      obtain rfl | hd' := List.mem_cons.1 hd
      · exact hone d (List.mem_singleton.2 rfl)
      · rw [← hsame d fun e => hc (e ▸ hd')]
        exact hmore d hd'
    · rintro ⟨hv, hall⟩
      refine ⟨⟨hv, fun d hd => hall d (by simp_all)⟩, fun d hd => ?_⟩
      rw [hsame d fun e => hc (e ▸ hd)]
      exact hall d (List.mem_cons_of_mem _ hd)

theorem recheckAll (cs : List ChanId) (hn : cs.Nodup) (u : State) : Rechecked cs u (cs.foldl State.recheckWaiting u) := by
  induction cs generalizing u with
  | nil => exact .nothing u
  | cons c cs ih =>
    obtain ⟨hc, hcs⟩ := List.nodup_cons.1 hn
    exact (recheckWaiting_one u c).cons hc (ih hcs _)

/-- Settles O23: every channel looks again at the new latched set. -/
theorem announcementsReplaceTheLatchedSet : Obligations.AnnouncementsReplaceTheLatchedSet := by
  intro a rest s hmail
  set u : State := { s with load := { s.load with latched := a }, mail := { s.mail with toLoad := rest } } with hu
  have hrun : latchedCellAnnouncement s = allChans.foldl State.recheckWaiting u := by
    unfold latchedCellAnnouncement
    rw [hmail]
    rfl
  have hall := recheckAll allChans nodup_allChans u
  rw [← hrun] at hall
  have hwaits : ∀ {c : ChanId} {l : Load} {pg : Handle} {n : Nat}, s.load.chans[c] = some l →
      (beginsOn u.load.latched u.load.chans[c] pg n ↔
        ∃ k, l.waiting = true ∧ l.mode = .ring n k ∧ l.page = pg ∧ (pg, n) ∉ a) := fun {c l pg n} hl => by
    rw [show u.load.chans[c] = some l from hl]
    exact ⟨fun ⟨m, k, hm, hw, hr⟩ => by cases hm; exact ⟨k, hw, hr⟩, fun ⟨k, hr⟩ => ⟨l, k, rfl, hr⟩⟩
  refine ⟨latchedCellAnnouncement s, rfl, hall.rest, hall.latched, fun c l hl hw => ?running,
    fun c l n k hl hw hm => ⟨fun hin => ?waits, fun hout => ?begins⟩, fun c hl => ?idle, hall.free,
    fun pg e he => ?pages, hall.slots.1, hall.slots.2⟩
  case running =>
    refine (hall.stays c fun pg n hb => ?_).trans hl
    obtain ⟨k, hw', -⟩ := (hwaits hl).1 hb
    rw [hw] at hw'
    cases hw'
  case waits =>
    refine (hall.stays c fun pg n' hb => ?_).trans hl
    obtain ⟨k', -, hm', hp, hout⟩ := (hwaits hl).1 hb
    rw [hm] at hm'
    cases hm'
    subst hp
    exact hout hin
  case begins => exact hall.begun c l n (mem_allChans c) hl ((hwaits hl).2 ⟨k, hw, hm, rfl, hout⟩)
  case idle =>
    refine (hall.stays c fun pg n ⟨m, k, hm, _⟩ => ?_).trans hl
    rw [show u.load.chans[c] = none from hl] at hm
    cases hm
  case pages =>
    obtain ⟨v, hv, hmem⟩ := hall.pages pg e he
    refine ⟨v, hv, fun i => (hmem i).trans (and_congr_right fun _ => ⟨fun h c l k hl hw hm hp => ?_, fun h c _ hb => ?_⟩)⟩
    · by_contra hout
      exact h c (mem_allChans c) ((hwaits hl).2 ⟨k, hw, hm, hp, hout⟩)
    · obtain ⟨l, k, hl, hw, hm, hp, hout⟩ := hb
      exact hout (h c l k hl hw hm hp)

end Sys2Proof.Machine
end

