-- ==== Sys2Proof/Proofs/EditLaws.lean ====
section
/-! SUPPORT. What becomes of the pages when pins come and go, and of the edit queue and its pages when an edit joins and
leaves it (R15, R68, R69, R74, R78). -/

namespace Sys2Proof.Machine

/-! ### What becomes of every page -/

theorem pagesBecome_of_dir {s t : State} (h : t.dir = s.dir) : pagesBecome s t fun _ p => p := by
  unfold pagesBecome State.page
  rw [h]
  exact ⟨fun k _ => Option.map_id'.symm, rfl, rfl⟩

section
variable {s t u : State} {f g : Handle → Page → Page}

theorem pagesBecome.trans (h : pagesBecome s t f) (k : pagesBecome t u g) :
    pagesBecome s u fun pg p => g pg (f pg p) := by
  obtain ⟨hp, hf, hn⟩ := h
  obtain ⟨kp, kf, kn⟩ := k
  refine ⟨fun pg h4 => ?_, kf.trans hf, kn.trans hn⟩
  rw [kp pg h4, hp pg h4, Option.map_map]
  rfl

theorem pagesBecome.congr (h : pagesBecome s t f) (he : ∀ pg p, 4 ≤ pg.toNat → f pg p = g pg p) : pagesBecome s t g := by
  obtain ⟨hp, hf, hn⟩ := h
  refine ⟨fun pg h4 => ?_, hf, hn⟩
  rw [hp pg h4]
  exact congrArg (Option.map · (s.page pg)) (funext fun p => he pg p h4)

/-- The directory alone decides what becomes of the pages. -/
theorem pagesBecome.dirs {s' t' : State} (h : pagesBecome s t f) (hs : s'.dir = s.dir) (ht : t'.dir = t.dir) :
    pagesBecome s' t' f := by
  unfold pagesBecome State.page at h ⊢
  rw [hs, ht]
  exact h

end

/-- A page with a number of pins more. -/
def Page.pinned (n : Nat) (p : Page) : Page := { p with pins := p.pins + n }

/-- A page with a number of pins fewer. -/
def Page.unpinned (n : Nat) (p : Page) : Page := { p with pins := p.pins - n }

theorem setPage_becomes (s : State) (pg : Handle) (f : Page → Page) :
    pagesBecome s (s.setPage pg f) fun k p => if k = pg then f p else p := by
  refine ⟨fun k _ => ?_, rfl, rfl⟩
  rw [page_setPage]
  by_cases h : k = pg
  · simp only [h, if_true]
  · simp only [h, if_false]
    exact Option.map_id'.symm

theorem unpin_becomes (s : State) (pg : Handle) :
    pagesBecome s (s.unpin pg) fun k p => p.unpinned (if k = pg then 1 else 0) := by
  unfold State.unpin
  by_cases hp : pg.toNat < 4
  · rw [if_pos (isPattern_true hp)]
    refine (pagesBecome_of_dir rfl).congr fun k p h4 => ?_
    rw [if_neg (by rintro rfl; omega)]
    rfl
  · rw [isPattern_false (by omega)]
    refine (setPage_becomes s pg _).congr fun k p _ => ?_
    split <;> rfl

theorem pin_becomes (s : State) (pg : Handle) :
    pagesBecome s (s.pin pg) fun k p => p.pinned (if k = pg then 1 else 0) := by
  unfold State.pin
  by_cases hp : pg.toNat < 4
  · rw [if_pos (isPattern_true hp)]
    refine (pagesBecome_of_dir rfl).congr fun k p h4 => ?_
    rw [if_neg (by rintro rfl; omega)]
    rfl
  · rw [isPattern_false (by omega)]
    refine (setPage_becomes s pg _).congr fun k p _ => ?_
    split <;> rfl

theorem unpin_dirOnly (s : State) (pg : Handle) : s.unpin pg = { s with dir := (s.unpin pg).dir } := by
  unfold State.unpin
  split <;> rfl

theorem pin_dirOnly (s : State) (pg : Handle) : s.pin pg = { s with dir := (s.pin pg).dir } := by
  unfold State.pin
  split <;> rfl

/-! ### An edit leaves the queue -/

theorem releaseEdit_dirOnly (s : State) (e : Edit) (done : Bool) :
    s.releaseEdit e done = { s with dir := (s.releaseEdit e done).dir } := by
  unfold State.releaseEdit
  split
  · next pg _ _ _ _ _ _ _ _ _ =>
    rw [unpin_dirOnly s pg]
    rfl
  · next src _ dst _ _ _ =>
    dsimp only
    have h := unpin_dirOnly s dst
    split
    · rw [h]; rfl
    · rw [unpin_dirOnly _ src, h]; rfl

theorem releaseEdit_patch {s : State} {e : Edit} {done : Bool} {pg : Handle} {cell x y l w : Nat} {a b : BitVec 32}
    {ws : List Word} (hj : e.job = .patch pg cell x y l w a b ws) :
    pagesBecome s (s.releaseEdit e done) (afterEdit e done) := by
  unfold State.releaseEdit
  rw [hj]
  refine ((unpin_becomes s pg).trans (setPage_becomes _ pg _)).congr fun k p _ => ?_
  unfold afterEdit Edit.references Edit.copiesTo
  rw [hj]
  by_cases hk : k = pg
  · subst hk
    simp [Page.unpinned]
  · simp [Page.unpinned, hk, Ne.symm hk]

/-- The destination of a COPY that leaves the queue. -/
def Page.copyEnded (cell : Nat) (done : Bool) (p : Page) : Page :=
  Page.settle { p with busy := none, valid := if done then insertBit p.valid cell else p.valid }

theorem afterEdit_copy {e : Edit} {done : Bool} {src dst : Handle} {sc dc k : Nat} (hj : e.job = .copy src sc dst dc k)
    (pg : Handle) (p : Page) : afterEdit e done pg p =
      let q : Page := if pg = dst then (p.unpinned 1).copyEnded dc done else p
      if pg = src then { q.unpinned 1 with busy := none } else q := by
  unfold afterEdit Edit.references Edit.copiesTo
  rw [hj]
  by_cases hd : pg = dst
  · subst hd
    by_cases hs : pg = src
    · subst hs
      simp [Page.unpinned, Page.copyEnded, settle_eq, Nat.sub_sub]
    · simp [Page.unpinned, Page.copyEnded, settle_eq, hs, Ne.symm hs]
  · by_cases hs : pg = src
    · subst hs
      simp [Page.unpinned, hd, Ne.symm hd]
    · simp [hd, Ne.symm hd, hs, Ne.symm hs]

theorem releaseEdit_copy {s : State} {e : Edit} {done : Bool} {src dst : Handle} {sc dc n : Nat}
    (hj : e.job = .copy src sc dst dc n) : pagesBecome s (s.releaseEdit e done) (afterEdit e done) := by
  have hdst := (unpin_becomes s dst).trans (setPage_becomes (s.unpin dst) dst (Page.copyEnded dc done))
  unfold State.releaseEdit
  rw [hj]
  dsimp only
  change pagesBecome s (if isPattern src then (s.unpin dst).setPage dst (Page.copyEnded dc done) else _) _
  by_cases hp : src.toNat < 4
  · rw [if_pos (isPattern_true hp)]
    refine hdst.congr fun k p h4 => ?_
    rw [afterEdit_copy hj]
    dsimp only
    rw [if_neg (show k ≠ src by rintro rfl; omega)]
    split <;> rfl
  · rw [isPattern_false (by omega)]
    refine ((hdst.trans (unpin_becomes _ src)).trans (setPage_becomes _ src _)).congr fun k p _ => ?_
    rw [afterEdit_copy hj]
    dsimp only
    by_cases hs : k = src
    · subst hs
      simp only [if_true]
      split <;> rfl
    · simp only [hs, if_false]
      split <;> rfl

/-- The pages once an edit has left the queue (R69, R74, R78, R79). -/
theorem releaseEdit_becomes (s : State) (e : Edit) (done : Bool) :
    pagesBecome s (s.releaseEdit e done) (afterEdit e done) := by
  cases hj : e.job with
  | patch pg cell x y l w a b ws => exact releaseEdit_patch hj
  | copy src sc dst dc k => exact releaseEdit_copy hj

/-! ### Requests for an EDIT -/

theorem requestEdit_eq (s : State) : s.requestEdit = headRequested s := by
  unfold State.requestEdit headRequested
  simp only [List.isEmpty_iff]
  rfl

theorem enqueueEdit_eq (s : State) (e : Edit) :
    s.enqueueEdit e =
      if s.edit.queue = [] then headRequested { s with edit := { s.edit with queue := s.edit.queue ++ [e] } }
      else { s with edit := { s.edit with queue := s.edit.queue ++ [e] } } := by
  unfold State.enqueueEdit
  dsimp only
  rw [requestEdit_eq]
  simp only [List.isEmpty_iff]
  rfl

theorem hasEdit_false {s : State} {p : Port} (h : ∀ x ∈ s.edit.queue, x.port ≠ p) : s.hasEdit p = false := by
  unfold State.hasEdit
  rw [List.any_eq_false]
  exact fun x hx => by simpa using h x hx

end Sys2Proof.Machine
end

