-- ==== Sys2Proof/Proofs/Edits.lean ====
section
/-! PROOFS. PATCH and COPY are accepted, and CANCEL_EDIT takes an edit out of the queue (R70 to R79). -/

namespace Sys2Proof.Machine

/-! ### PATCH and COPY -/

theorem patchTests_pass {s : State} {p : Port} {pg : Handle} {e : Page} {cell col row line first : Byte} {n : Nat}
    (h : patchAdmitted s p pg e cell col row first n) :
    firstFailure (patchTests pg cell col row line first n p s) = none := by
  obtain ⟨h4, he, hk, hcell, hcol, hrow, h1, hn, hw, hst, hv, hs, hb, hq, hlit⟩ := h
  have hline := line.isLt
  have hfirst := first.isLt
  have hlen : n ≤ 256 := by omega
  simp [patchTests, isPattern_false h4, he, hk, hcell, hcol, hrow, h1, hn, hlen, writeRight_of he hw, hst, hv, hs, hb,
    hasEdit_false hq, hlit, or_assoc]
  omega

theorem pin_stored {s : State} {pg : Handle} (h4 : 4 ≤ pg.toNat) : s.pin pg = s.setPage pg (Page.pinned 1) := by
  unfold State.pin
  rw [isPattern_false h4]
  rfl

/-- The entry of a page that is pinned and changed, and every other one. -/
theorem pin_setPage_page {s : State} {pg : Handle} (h4 : 4 ≤ pg.toNat) (f : Page → Page) (k : Handle) :
    ((s.pin pg).setPage pg f).page k = if k = pg then (s.page k).map fun p => f (p.pinned 1) else s.page k := by
  rw [page_setPage, pin_stored h4, page_setPage]
  by_cases h : k = pg
  · rw [if_pos h, if_pos h, if_pos h, Option.map_map]
    rfl
  · rw [if_neg h, if_neg h, if_neg h]

theorem pin_setPage_only (s : State) (pg : Handle) (f : Page → Page) :
    ((s.pin pg).setPage pg f) = { s with dir := ((s.pin pg).setPage pg f).dir } ∧
      ((s.pin pg).setPage pg f).dir.free = s.dir.free ∧
      ((s.pin pg).setPage pg f).dir.populated = s.dir.populated := by
  unfold State.pin
  split <;> exact ⟨rfl, rfl, rfl⟩

/-- The edit that a PATCH asks for (R72). -/
def patchEdit (p : Port) (tag : Byte) (pg : Handle) (cell col row line first : Byte) (plane stipple : BitVec 32)
    (ws : List Word) : Edit :=
  { port := p, tag := tag
    job := .patch pg cell.toNat col.toNat row.toNat line.toNat first.toNat plane stipple ws }

/-- The state in which an edit is in the queue, its request to the arbiter not yet made. -/
def State.enqueued (s : State) (e : Edit) : State := { s with edit := { s.edit with queue := s.edit.queue ++ [e] } }

theorem enqueueEdit_enqueued (s : State) (e : Edit) :
    s.enqueueEdit e = if s.edit.queue = [] then headRequested (s.enqueued e) else s.enqueued e :=
  enqueueEdit_eq s e

theorem patch_admitted {s : State} {c : Caller} {pg : Handle} {e : Page} {cell col row line first : Byte}
    {plane stipple : BitVec 32} {ws : List Word} (h : patchAdmitted s c.port pg e cell col row first ws.length) :
    patch pg cell col row line first plane stipple ws c s =
      ((s.pin pg).setPage pg fun p => { p with busy := some (c.port, .patchTarget) }).enqueueEdit
        (patchEdit c.port c.tag pg cell col row line first plane stipple ws) :=
  checked_pass (patchTests_pass h)

/-- The pages of a COPY, pinned and marked, as it is accepted (R76). -/
def State.copyMarked (s : State) (p : Port) (src dst : Handle) (dc : Byte) : State :=
  let s := (s.pin dst).setPage dst fun e =>
    { e with busy := some (p, .copyDest), state := .loading, valid := eraseBit e.valid dc.toNat }
  if isPattern src then s else (s.pin src).setPage src fun e => { e with busy := some (p, .copySource) }

theorem copyMarked_only (s : State) (p : Port) (src dst : Handle) (dc : Byte) :
    s.copyMarked p src dst dc = { s with dir := (s.copyMarked p src dst dc).dir } ∧
      (s.copyMarked p src dst dc).dir.free = s.dir.free ∧
      (s.copyMarked p src dst dc).dir.populated = s.dir.populated := by
  unfold State.copyMarked
  dsimp only
  obtain ⟨h1, h2, h3⟩ := pin_setPage_only s dst fun e =>
    { e with busy := some (p, .copyDest), state := .loading, valid := eraseBit e.valid dc.toNat }
  generalize (s.pin dst).setPage dst _ = t at h1 h2 h3
  split
  · exact ⟨h1, h2, h3⟩
  · obtain ⟨k1, k2, k3⟩ := pin_setPage_only t src fun e => { e with busy := some (p, .copySource) }
    refine ⟨?_, k2.trans h2, k3.trans h3⟩
    rw [k1, h1]

theorem copyMarked_page {s : State} {p : Port} {src dst : Handle} {dc : Byte} (h4 : 4 ≤ dst.toNat) (hne : src ≠ dst)
    (k : Handle) : (s.copyMarked p src dst dc).page k =
      if k = dst then (s.page k).map fun e =>
        { e with pins := e.pins + 1, busy := some (p, .copyDest), state := .loading, valid := eraseBit e.valid dc.toNat }
      else if k = src ∧ 4 ≤ src.toNat then
        (s.page k).map fun e => { e with pins := e.pins + 1, busy := some (p, .copySource) }
      else s.page k := by
  unfold State.copyMarked
  dsimp only
  by_cases hs : 4 ≤ src.toNat
  · rw [isPattern_false hs, if_neg Bool.false_ne_true, pin_setPage_page hs, pin_setPage_page h4]
    by_cases hk : k = dst
    · rw [if_neg (fun h => hne (h.symm.trans hk)), if_pos hk]
      simp only [hk, if_true]
      rfl
    · by_cases hks : k = src
      · rw [if_pos hks, if_neg hk, if_neg hk, if_pos ⟨hks, hs⟩]
        rfl
      · rw [if_neg hks, if_neg hk, if_neg hk, if_neg fun h => hks h.1]
  · rw [if_pos (isPattern_true (by omega)), pin_setPage_page h4]
    by_cases hk : k = dst
    · rw [if_pos hk, if_pos hk]
      rfl
    · rw [if_neg hk, if_neg hk, if_neg fun h => hs h.2]

theorem copyTests_stored {s : State} {p : Port} {src dst : Handle} {a d : Page} {sc dc : Byte}
    (h : copyAdmitted s p src dst a d sc dc) : firstFailure (copyTests src sc dst dc p s) = none := by
  obtain ⟨h4, k4, hne, ha, hd, hsc, hdc, hw, hh, how, hshow, hready, hbusy, hwr, hst, hpins, hq, hlit⟩ := h
  have hright : rightOver s p a a.showClasses = true := by simp [rightOver, how, hshow]
  simp [copyTests, isPattern_false h4, isPattern_false k4, State.isPage, ha, hd, State.pageCells, hsc, hdc, hne,
    State.pageSize, hw, hh, State.showRight, hright, State.sourceState, hready, hbusy, writeRight_of hd hwr, hst, hpins,
    hasEdit_false hq, hlit]

theorem copyTests_pattern {s : State} {p : Port} {src dst : Handle} {d : Page} {sc dc : Byte}
    (h : patternCopyAdmitted s p src dst d sc dc) : firstFailure (copyTests src sc dst dc p s) = none := by
  obtain ⟨h4, k4, hd, rfl, hdc, hw, hh, hwr, hst, hpins, hq, hlit⟩ := h
  have hne : src ≠ dst := by rintro rfl; omega
  simp [copyTests, isPattern_true h4, isPattern_false k4, State.isPage, hd, State.pageCells, hdc, hne,
    State.pageSize, hw, hh, State.showRight, State.sourceState, writeRight_of hd hwr, hst, hpins,
    hasEdit_false hq, hlit]

/-- Settles O24: the pages that an edit marks, the queue that it joins, and its request. -/
theorem editsAreAccepted : Obligations.EditsAreAccepted := by
  refine ⟨fun h pg cell col row line first plane stipple ws e s r ha => ?patch, fun h src dst sc dc d s r ha => ?copy⟩
  case patch =>
    have h4 := ha.1
    have he : (s.taking h).page pg = some e := ha.2.1
    have ha' : patchAdmitted (s.taking h) h.port pg e cell col row first ws.length := by
      obtain ⟨h1, h2, h3, h4, h5, h6, h7, h8, h9, h10⟩ := ha
      exact ⟨h1, h2, h3, h4, h5, h6, h7, h8, mayWrite_taking.2 h9, h10⟩
    have hrun := serve_reaches (code := 48) (self := (.patch · pg cell col row line first plane stipple ws))
      (act := patch pg cell col row line first plane stipple ws) r
    rw [patch_admitted ha'] at hrun
    obtain ⟨honly, hfree, hpop⟩ := pin_setPage_only (s.taking h) pg fun p => { p with busy := some (h.port, .patchTarget) }
    have hpage := pin_setPage_page (s := s.taking h) h4 fun p => { p with busy := some (h.port, .patchTarget) }
    dsimp only at hrun
    generalize ((s.taking h).pin pg).setPage pg _ = u at hrun honly hfree hpop hpage
    have hq : u.edit = s.edit := by rw [honly]; rfl
    rw [enqueueEdit_enqueued, hq] at hrun
    refine ⟨_, congrArg Host.Outcome.next hrun, ?_, ⟨fun k hk => (hpage k).trans (if_neg hk), hfree, hpop⟩, ?_⟩
    · unfold State.enqueued
      rw [honly]
      rfl
    · refine (hpage pg).trans ((if_pos rfl).trans ?_)
      rw [he]
      rfl
  case copy =>
    have hfacts : 4 ≤ dst.toNat ∧ src ≠ dst ∧ s.page dst = some d ∧
        firstFailure (copyTests src sc dst dc h.port (s.taking h)) = none := by
      obtain ⟨a, ha⟩ | ha := ha
      · refine ⟨ha.2.1, ha.2.2.1, ha.2.2.2.2.1, copyTests_stored (a := a) (d := d) ?_⟩
        obtain ⟨h1, h2, h3, h4, h5, h6, h7, h8, h9, h10, h11, h12, h13, h14, h15⟩ := ha
        exact ⟨h1, h2, h3, h4, h5, h6, h7, h8, h9, h10, by rwa [taking_cls], h12, h13, mayWrite_taking.2 h14, h15⟩
      · refine ⟨ha.2.1, ?_, ha.2.2.1, copyTests_pattern (d := d) ?_⟩
        · rintro rfl
          have h1 := ha.1
          have h2 := ha.2.1
          omega
        · obtain ⟨h1, h2, h3, h4, h5, h6, h7, h8, h9⟩ := ha
          exact ⟨h1, h2, h3, h4, h5, h6, h7, mayWrite_taking.2 h8, h9⟩
    obtain ⟨h4, hne, hd, hpass⟩ := hfacts
    have hrun := serve_reaches (code := 49) (self := (.copy · src sc dst dc)) (act := copy src sc dst dc) r
    rw [show copy src sc dst dc { port := h.port, tag := h.tag, code := 49 } (s.taking h) =
      ((s.taking h).copyMarked h.port src dst dc).enqueueEdit
        { port := h.port, tag := h.tag, job := .copy src sc.toNat dst dc.toNat 0 } from checked_pass hpass] at hrun
    obtain ⟨honly, hfree, hpop⟩ := copyMarked_only (s.taking h) h.port src dst dc
    have hpage := copyMarked_page (s := s.taking h) (p := h.port) (dc := dc) h4 hne
    generalize (s.taking h).copyMarked h.port src dst dc = u at hrun honly hfree hpop hpage
    have hq : u.edit = s.edit := by rw [honly]; rfl
    rw [enqueueEdit_enqueued, hq] at hrun
    refine ⟨_, congrArg Host.Outcome.next hrun, ?_, ?_, fun hs => ?_, fun k hk hks => ?_, hfree, hpop⟩
    · unfold State.enqueued
      rw [honly]
      rfl
    · refine (hpage dst).trans ((if_pos rfl).trans ?_)
      rw [show (s.taking h).page dst = some d from hd]
      rfl
    · exact (hpage src).trans ((if_neg hne).trans (if_pos ⟨rfl, hs⟩))
    · refine (hpage k).trans ((if_neg hk).trans (if_neg ?_))
      rintro ⟨rfl, hs⟩
      exact hks.elim (fun h' => h' rfl) fun h' => by omega

/-! ### CANCEL_EDIT -/

/-- What an edit leaves that is taken out of the queue, its pages aside. -/
def State.editRemoved (s : State) (pre post : List Edit) : State :=
  { s with
    edit := { s.edit with queue := pre ++ post }
    store := if pre = [] then { s.store with editWaiting := false, running := editDiscarded s } else s.store }

theorem runsPatch_iff {s : State} {e : Edit} {pre post : List Edit} (hq : s.edit.queue = pre ++ e :: post)
    (hpre : ∀ x ∈ pre, x.port ≠ e.port) : s.runsPatch e = true ↔
      pre = [] ∧ ∃ pg cell x y l w a b ws, e.job = .patch pg cell x y l w a b ws := by
  unfold State.runsPatch
  rw [hq]
  cases pre with
  | nil =>
    simp only [List.nil_append, List.head?_cons, decide_true, Bool.true_and, true_and]
    cases hj : e.job with
    | patch => simp
    | copy => simp
  | cons x pre =>
    have hx : x ≠ e := fun he => hpre x List.mem_cons_self (by rw [he])
    simp [hx]

theorem erase_first {e : Edit} {pre post : List Edit} (hpre : ∀ x ∈ pre, x.port ≠ e.port) :
    (pre ++ e :: post).erase e = pre ++ post := by
  rw [List.erase_append_right _ fun h => hpre e h rfl, List.erase_cons_head]

theorem removeEdit_effect {s : State} {e : Edit} {pre post : List Edit} (hq : s.edit.queue = pre ++ e :: post)
    (hpre : ∀ x ∈ pre, x.port ≠ e.port) : ∃ u : State,
      s.removeEdit e = (if pre = [] then headRequested u else u) ∧
      u = { s.editRemoved pre post with dir := u.dir } ∧ pagesBecome s u (afterEdit e false) := by
  have hgone : (s.modEdit fun u => { u with queue := u.queue.erase e }) =
      { s with edit := { s.edit with queue := pre ++ post } } := by
    unfold State.modEdit
    dsimp only
    rw [hq, erase_first hpre]
  have hbecome := (releaseEdit_becomes { s with edit := { s.edit with queue := pre ++ post } } e false)
  have honly := releaseEdit_dirOnly { s with edit := { s.edit with queue := pre ++ post } } e false
  unfold State.removeEdit
  dsimp only
  rw [hgone, hq]
  generalize State.releaseEdit _ e false = t at hbecome honly
  cases pre with
  | nil =>
    rw [List.nil_append, List.head?_cons, if_pos rfl, discardRunning_eq]
    refine ⟨_, requestEdit_eq _, ?_, hbecome⟩
    unfold State.editRemoved editDiscarded
    rw [honly]
    rfl
  | cons x pre =>
    have hx : x ≠ e := fun he => hpre x List.mem_cons_self (by rw [he])
    rw [List.cons_append, List.head?_cons, if_neg fun h => hx (Option.some.inj h)]
    exact ⟨t, rfl, honly, hbecome⟩

/-- Settles O25: no edit, a running PATCH, and any other edit of the port. -/
theorem cancelEditRemovesTheEdit : Obligations.CancelEditRemovesTheEdit := by
  intro h s r
  have hu := up_taking r
  refine ⟨fun hnone => ?none, fun e pre post hq hpre hport => ⟨fun hpatch => ?running, fun hother => ?removed⟩⟩
  case none =>
    refine congrArg Host.Outcome.next (serve_answers (self := .cancelEdit) r ?_)
    unfold cancelEdit
    rw [show (s.taking h).edit.queue.find? (fun e => e.port = h.port) = none from
      List.find?_eq_none.2 fun e he => by simpa using hnone e he]
  all_goals
    have hfind : (s.taking h).edit.queue.find? (fun e => e.port = h.port) = some e := by
      rw [show (s.taking h).edit.queue = pre ++ e :: post from hq,
        List.find?_append, List.find?_eq_none.2 fun x hx => by simpa using hpre x hx]
      simp [hport]
    have hpre' : ∀ x ∈ pre, x.port ≠ e.port := by rwa [hport]
    have hruns := runsPatch_iff (s := s.taking h) hq hpre'
  case running =>
    refine congrArg Host.Outcome.next (serve_answers (self := .cancelEdit) r ?_)
    unfold cancelEdit
    rw [hfind]
    exact if_pos (hruns.2 hpatch)
  case removed =>
    have hrun := serve_reaches (code := 50) (self := .cancelEdit) (act := cancelEdit) r
    have hact : cancelEdit { port := h.port, tag := h.tag, code := 50 } (s.taking h) =
        State.removeEdit { s.taking h with out := s.out ++
          [ .reply h.port { code := 50, tag := h.tag, status := .ok, body := .none },
            .reply h.port { code := e.caller.code, tag := e.tag, status := .cancelled, body := .none } ] } e := by
      unfold cancelEdit
      rw [hfind]
      refine (if_neg (mt hruns.1 hother)).trans ?_
      have hup : ∀ q : Port, q = h.port → (s.taking h).ports[q].up = true := by rintro q rfl; exact hu
      rw [reply_up (s.taking h) _ _ _ hu, reply_up ((s.taking h).send _) e.caller _ _ (hup e.port hport)]
      unfold State.send
      rw [List.append_assoc, show e.caller.port = h.port from hport]
      rfl
    rw [hact] at hrun
    obtain ⟨u, hu', honly, hbecome⟩ := removeEdit_effect (s := { s.taking h with out := s.out ++
      [ .reply h.port { code := 50, tag := h.tag, status := .ok, body := .none },
        .reply h.port { code := e.caller.code, tag := e.tag, status := .cancelled, body := .none } ] })
      (pre := pre) (post := post) hq hpre'
    rw [hu'] at hrun
    exact ⟨u, congrArg Host.Outcome.next hrun, honly, hbecome⟩

end Sys2Proof.Machine
end

