-- ==== Sys2Proof/Proofs/EditCompletions.lean ====
section
/-! PROOFS. The completion of EDIT transfers (R38, R73, R74, R77, R78, R80). -/

namespace Sys2Proof.Machine

/-! ### The words of a run -/

theorem wordNumber_add (slot line word k : Nat) : wordNumber slot line (word + k) = wordNumber slot line word + k := by
  induction k with
  | zero => rfl
  | succ k ih => rw [← Nat.add_assoc, wordNumber_succ, ih, Nat.add_assoc]

/-- A stored word, its data and its bits in error, is the same in two stores. -/
def sameWord (st st' : Store) (slot line word : Nat) : Prop :=
  st'.rawWord slot line word = st.rawWord slot line word ∧ st'.errorOf slot line word = st.errorOf slot line word

theorem sameWord.readWord {st st' : Store} {slot line word : Nat} (h : sameWord st st' slot line word) :
    st'.readWord slot line word = st.readWord slot line word := by
  obtain ⟨hr, he⟩ := h
  unfold Store.readWord
  rw [hr, he]

theorem sameWord.trans {a b c : Store} {slot line word : Nat} (h : sameWord a b slot line word)
    (k : sameWord b c slot line word) : sameWord a c slot line word :=
  ⟨k.1.trans h.1, k.2.trans h.2⟩

theorem sameWord_of_outside {st st' : Store} {slot line word : Nat}
    (hm : ∀ x, byteAddr slot line word ≤ x → x < byteAddr slot line word + 8 → st'.mem.read x = st.mem.read x)
    (he : sparseGet (0 : ErrorMask) st'.errors (wordNumber slot line word) =
      sparseGet 0 st.errors (wordNumber slot line word)) : sameWord st st' slot line word := by
  refine ⟨?_, he⟩
  unfold Store.rawWord
  rw [readBytes_congr _ 8 hm]

theorem writeWord_sameWord {st : Store} (w : st.wf) (slot line word a : Nat) (v : Word) (h : a ≠ word) :
    sameWord st (st.writeWord slot line word v) slot line a := by
  have e := byteAddr_eq slot line word
  have e' := byteAddr_eq slot line a
  have hw := wordNumber_add slot line 0 word
  have ha := wordNumber_add slot line 0 a
  rw [Nat.zero_add] at hw ha
  exact sameWord_of_outside (fun x h1 h2 => writeWord_read_outside w slot line word x v (by omega))
    (writeWord_errors_outside w slot line word _ v (by omega))

/-- The words of a run as a PATCH leaves them, one by one (R38, R73). -/
def Store.patchWord (st : Store) (slot line : Nat) (plane stipple : BitVec 32) (word : Nat) (w : Word) : Store :=
  if wholeWord plane stipple word then st.writeWord slot line word w
  else if (st.readWord slot line word).cls = .uncorrectable then st
  else st.writeWord slot line word (mergeWord plane stipple word (st.readWord slot line word).data w)

theorem patchWords_cons (st : Store) (slot line : Nat) (plane stipple : BitVec 32) (word : Nat) (w : Word)
    (ws : List Word) : st.patchWords slot line plane stipple word (w :: ws) =
      (st.patchWord slot line plane stipple word w).patchWords slot line plane stipple (word + 1) ws := rfl

section
variable {st : Store} (h : st.wf) (slot line : Nat) (plane stipple : BitVec 32)
include h

theorem patchWord_wf (word : Nat) (w : Word) : (st.patchWord slot line plane stipple word w).wf := by
  unfold Store.patchWord
  split
  · exact writeWord_wf h _ _ _ _
  · split
    · exact h
    · exact writeWord_wf h _ _ _ _

theorem patchWord_read_outside (word x : Nat) (w : Word)
    (hx : x < byteAddr slot line word ∨ byteAddr slot line word + 8 ≤ x) :
    (st.patchWord slot line plane stipple word w).mem.read x = st.mem.read x := by
  unfold Store.patchWord
  split
  · exact writeWord_read_outside h slot line word x w hx
  · split
    · rfl
    · exact writeWord_read_outside h slot line word x _ hx

theorem patchWord_errors_outside (word k : Nat) (w : Word) (hk : k ≠ wordNumber slot line word) :
    sparseGet (0 : ErrorMask) (st.patchWord slot line plane stipple word w).errors k = sparseGet 0 st.errors k := by
  unfold Store.patchWord
  split
  · exact writeWord_errors_outside h slot line word k w hk
  · split
    · rfl
    · exact writeWord_errors_outside h slot line word k _ hk

theorem patchWord_sameWord (word a : Nat) (w : Word) (ha : a ≠ word) :
    sameWord st (st.patchWord slot line plane stipple word w) slot line a := by
  unfold Store.patchWord
  split
  · exact writeWord_sameWord h slot line word a w ha
  · split
    · exact ⟨rfl, rfl⟩
    · exact writeWord_sameWord h slot line word a _ ha

end

theorem patchWords_read_outside {ws : List Word} {st : Store} (h : st.wf) (slot line : Nat) (plane stipple : BitVec 32)
    (word x : Nat) (hx : x < byteAddr slot line word ∨ byteAddr slot line word + 8 * ws.length ≤ x) :
    (st.patchWords slot line plane stipple word ws).mem.read x = st.mem.read x := by
  induction ws generalizing st word with
  | nil => rfl
  | cons w ws ih =>
    rw [List.length_cons] at hx
    have e : byteAddr slot line (word + 1) = byteAddr slot line word + 8 := by
      rw [byteAddr_word slot line (word + 1), byteAddr_word slot line word]; omega
    rw [patchWords_cons, ih (patchWord_wf h ..) (word + 1) (by omega),
      patchWord_read_outside h slot line plane stipple word x w (by omega)]

theorem patchWords_errors_outside {ws : List Word} {st : Store} (h : st.wf) (slot line : Nat)
    (plane stipple : BitVec 32) (word k : Nat)
    (hk : k < wordNumber slot line word ∨ wordNumber slot line word + ws.length ≤ k) :
    sparseGet (0 : ErrorMask) (st.patchWords slot line plane stipple word ws).errors k = sparseGet 0 st.errors k := by
  induction ws generalizing st word with
  | nil => rfl
  | cons w ws ih =>
    rw [List.length_cons] at hk
    rw [patchWords_cons, ih (patchWord_wf h ..) (word + 1) (by rw [wordNumber_succ]; omega),
      patchWord_errors_outside h slot line plane stipple word k w (by omega)]

/-- A word of a run is left as its own step of the PATCH leaves it. -/
theorem patchWords_sameWord {ws : List Word} {st : Store} (h : st.wf) (slot line : Nat) (plane stipple : BitVec 32)
    (word a : Nat) (ha : a < word ∨ word + ws.length ≤ a) :
    sameWord st (st.patchWords slot line plane stipple word ws) slot line a := by
  induction ws generalizing st word with
  | nil => exact ⟨rfl, rfl⟩
  | cons w ws ih =>
    rw [List.length_cons] at ha
    rw [patchWords_cons]
    exact (patchWord_sameWord h slot line plane stipple word a w (by omega)).trans
      (ih (patchWord_wf h ..) (word + 1) (by omega))

/-- What a PATCH does to the k-th word of its run: it is overwritten or merged with fresh check bits, or left (R73). -/
theorem patchWords_word {ws : List Word} {st : Store} (h : st.wf) (slot line : Nat) (plane stipple : BitVec 32)
    (word k : Nat) {x : Word} (hk : ws[k]? = some x) :
    (wholeWord plane stipple (word + k) = true →
      (st.patchWords slot line plane stipple word ws).readWord slot line (word + k) = { cls := .clean, data := x }) ∧
    (wholeWord plane stipple (word + k) = false → (st.readWord slot line (word + k)).cls ≠ .uncorrectable →
      (st.patchWords slot line plane stipple word ws).readWord slot line (word + k) =
        { cls := .clean, data := mergeWord plane stipple (word + k) (st.readWord slot line (word + k)).data x }) ∧
    (wholeWord plane stipple (word + k) = false → (st.readWord slot line (word + k)).cls = .uncorrectable →
      sameWord st (st.patchWords slot line plane stipple word ws) slot line (word + k)) := by
  induction ws generalizing st word k with
  | nil => simp at hk
  | cons w ws ih =>
    rw [patchWords_cons]
    cases k with
    | zero =>
      obtain rfl : w = x := by simpa using hk
      have hlater := patchWords_sameWord (ws := ws) (patchWord_wf h slot line plane stipple word w) slot line plane
        stipple (word + 1) word (by omega)
      rw [Nat.add_zero]
      refine ⟨fun hw => hlater.readWord.trans ?_, fun hw hc => hlater.readWord.trans ?_, fun hw hc => ?_⟩
      · unfold Store.patchWord
        rw [if_pos hw]
        exact readWord_writeWord h slot line word w
      · unfold Store.patchWord
        rw [hw, if_neg Bool.false_ne_true, if_neg hc]
        exact readWord_writeWord h slot line word _
      · refine sameWord.trans ?_ hlater
        unfold Store.patchWord
        rw [hw, if_neg Bool.false_ne_true, if_pos hc]
        exact ⟨rfl, rfl⟩
    | succ k =>
      have hfirst := patchWord_sameWord h slot line plane stipple word (word + (k + 1)) w (by omega)
      have hrest := ih (patchWord_wf h slot line plane stipple word w) (word + 1) k (by simpa using hk)
      rw [show word + 1 + k = word + (k + 1) by omega, hfirst.readWord] at hrest
      exact ⟨hrest.1, hrest.2.1, fun hw hc => hfirst.trans (hrest.2.2 hw hc)⟩

/-! ### Merged words -/

theorem wholeWord_eq (plane stipple : BitVec 32) (word : Nat) : wholeWord plane stipple word =
    (decide (plane = BitVec.allOnes 32) && stipple.getLsbD (2 * word % 32) && stipple.getLsbD ((2 * word + 1) % 32)) := rfl

theorem mergePixel_bit (plane : BitVec 32) (sel : Bool) (old new : Pixel) (b : Nat) (hb : b < 32) :
    (mergePixel plane sel old new).getLsbD b = if sel = true ∧ plane.getLsbD b = true then new.getLsbD b
      else old.getLsbD b := by
  unfold mergePixel
  cases sel
  · simp
  · cases hp : plane.getLsbD b <;>
      simp only [if_true, BitVec.getLsbD_or, BitVec.getLsbD_and, BitVec.getLsbD_not, hp, hb] <;> simp

theorem mergeWord_bit (plane stipple : BitVec 32) (word : Nat) (old new : Word) (b : Nat) (hb : b < 64) :
    (mergeWord plane stipple word old new).getLsbD b =
      if stipple.getLsbD ((2 * word + b / 32) % 32) = true ∧ plane.getLsbD (b % 32) = true then new.getLsbD b
      else old.getLsbD b := by
  have hlow : ∀ w : Word, b < 32 → w.lowPixel.getLsbD b = w.getLsbD b := fun w h => by
    unfold Word.lowPixel
    simp only [BitVec.getLsbD_extractLsb', h, decide_true, Bool.true_and, Nat.zero_add]
  have hhigh : ∀ w : Word, 32 ≤ b → w.highPixel.getLsbD (b - 32) = w.getLsbD b := fun w h => by
    unfold Word.highPixel
    rw [BitVec.getLsbD_extractLsb', decide_eq_true (by omega : b - 32 < 32), Bool.true_and,
      show 32 + (b - 32) = b by omega]
  unfold mergeWord Word.ofPixels selected
  rw [BitVec.getLsbD_append]
  by_cases h : b < 32
  · rw [if_pos h, mergePixel_bit _ _ _ _ b h, hlow old h, hlow new h, Nat.mod_eq_of_lt h,
      Nat.div_eq_of_lt h, Nat.add_zero]
  · rw [if_neg h, mergePixel_bit _ _ _ _ (b - 32) (by omega), hhigh old (by omega),
      hhigh new (by omega), show b / 32 = 1 by omega, show b % 32 = b - 32 by omega]

/-! ### Before the grant -/

/-- The state before the grant that an EDIT leaves: bytes and bits in error are written, and the words that were read
have their effects. -/
def State.editWritten (d : State) (st : Store) (kind : FaultKind) (o : Origin) (slot line : Nat)
    (reads : List (Nat × ReadClass)) : State :=
  (State.lineEffects { d with store := st } kind o slot line reads).modStore fun st => { st with running := none }

theorem editWritten_done {d : State} {st : Store} (hst : st = { d.store with mem := st.mem, errors := st.errors })
    (hc : d.store.corrected ≤ 65535) (kind : FaultKind) (o : Origin) (slot line : Nat)
    (reads : List (Nat × ReadClass)) :
    transferDone d (d.editWritten st kind o slot line reads) kind o slot line reads ∧
      (d.editWritten st kind o slot line reads).store.mem = st.mem ∧
      (d.editWritten st kind o slot line reads).store.errors = st.errors := by
  have hc' : ({ d with store := st } : State).store.corrected ≤ 65535 := by
    change st.corrected ≤ 65535
    rw [hst]
    exact hc
  have hrec : st.record = d.store.record := by rw [hst]
  obtain ⟨h1, h2, h3, h4, h5, h6⟩ := lineEffects_done kind o slot line reads { d with store := st } hc'
  unfold State.editWritten
  generalize State.lineEffects { d with store := st } kind o slot line reads = u at h1 h2 h3 h4 h5 h6
  rw [recordAfter_disturbed (s := d) (d := { d with store := st }) hrec rfl rfl] at h2
  rw [portAfter_disturbed (s := d) (d := { d with store := st }) hrec rfl rfl] at h3
  rw [reportedPage_disturbed (s := d) (d := { d with store := st }) rfl] at h4
  refine ⟨⟨?_, ?_, h3, fun k _ => h4 k, h5, h6⟩, ?_, ?_⟩
  · rw [h1]; rfl
  · rw [modStore_store, h2]
    dsimp only
    rw [hst]
  · rw [modStore_store, h2]
  · rw [modStore_store, h2]

theorem patchReads_eq (st : Store) (slot line : Nat) (plane stipple : BitVec 32) (word : Nat) (ws : List Word) :
    patchReads st slot line plane stipple word ws =
      ((List.range ws.length).filter fun k => !wholeWord plane stipple (word + k)).map fun k =>
        (word + k, (st.readWord slot line (word + k)).cls) := by
  induction ws generalizing word with
  | nil => rfl
  | cons w ws ih =>
    have hshift : ((List.range ws.length).map (· + 1)).filter (fun k => !wholeWord plane stipple (word + k)) =
        ((List.range ws.length).filter fun k => !wholeWord plane stipple (word + 1 + k)).map (· + 1) := by
      rw [List.filter_map]
      congr 1
      refine List.filter_congr fun k _ => ?_
      simp only [Function.comp]
      rw [show word + (k + 1) = word + 1 + k by omega]
    have hmap : ((List.range ws.length).filter fun k => !wholeWord plane stipple (word + 1 + k)).map
        ((fun k => (word + k, (st.readWord slot line (word + k)).cls)) ∘ (· + 1)) =
        ((List.range ws.length).filter fun k => !wholeWord plane stipple (word + 1 + k)).map fun k =>
          (word + 1 + k, (st.readWord slot line (word + 1 + k)).cls) := by
      refine List.map_congr_left fun k _ => ?_
      simp only [Function.comp]
      rw [show word + (k + 1) = word + 1 + k by omega]
    unfold patchReads
    rw [ih, List.length_cons, List.range_succ_eq_map, List.filter_cons, hshift]
    simp only [Nat.add_zero]
    cases hw : wholeWord plane stipple word
    · simp only [Bool.not_false, if_true, Bool.false_eq_true, if_false, List.map_cons, List.map_map, hmap, Nat.add_zero]
    · simp only [Bool.not_true, if_true, Bool.false_eq_true, if_false, List.map_map, hmap]

/-! ### The end of an edit -/

/-- Any list of readings counted by class. -/
theorem countP_readings (reads : List (Nat × ReadClass)) :
    reads.countP (fun r => r.2 = .uncorrectable) = (readingOf reads .uncorrectable).length := by
  unfold readingOf
  rw [List.length_map, List.countP_eq_length_filter]

theorem reply_eq (s : State) (c : Caller) (st : Status) (b : Body) : s.reply c st b =
    { s with out := s.out ++ (if s.ports[c.port].up then
      [.reply c.port { code := c.code, tag := c.tag, status := st, body := b }] else []) } := by
  unfold State.reply
  split
  · rfl
  · rw [List.append_nil]

/-- The edit at the head of the queue has left it and is answered; the next one is still to ask for its transfer. -/
def State.headAnswered (s : State) (e : Edit) (rest : List Edit) (done : Bool) (st : Status) (b : Body) : State :=
  (State.releaseEdit { s with edit := { s.edit with queue := rest } } e done).reply e.caller st b

theorem headAnswered_effect (s : State) (e : Edit) (rest : List Edit) (done : Bool) (st : Status) (b : Body) :
    s.headAnswered e rest done st b = { s with
        dir := (s.headAnswered e rest done st b).dir, edit := { s.edit with queue := rest }
        out := s.out ++ (if s.ports[e.port].up then
          [.reply e.port { code := e.caller.code, tag := e.tag, status := st, body := b }] else []) } ∧
      pagesBecome s (s.headAnswered e rest done st b) (afterEdit e done) := by
  have hbecome := releaseEdit_becomes { s with edit := { s.edit with queue := rest } } e done
  have honly := releaseEdit_dirOnly { s with edit := { s.edit with queue := rest } } e done
  unfold State.headAnswered
  generalize State.releaseEdit _ e done = t at hbecome honly
  rw [reply_eq]
  refine ⟨?_, hbecome⟩
  have hports : t.ports = s.ports := by rw [honly]
  rw [hports, honly]
  rfl

/-! ### PATCH_EDIT_COMPLETE -/

theorem patchComplete_runs {s : State} {p : Port} {slot line first : Nat} {plane stipple : BitVec 32} {ws : List Word}
    {discard : Bool} (errors : BitErrors) (hr : runs s (.patch p slot line first plane stipple ws) discard) :
    let st := s.store.disturb slot line errors
    let reads := patchReads st slot line plane stipple first ws
    let g := (State.editWritten { s with store := st } (st.patchWords slot line plane stipple first ws)
      .patchUncorrectable (.port p) slot line reads).grant
    patchEditComplete errors s = if discard then g else g.patchDone (readingOf reads .uncorrectable).length := by
  intro st reads g
  rw [← countP_readings]
  unfold patchEditComplete
  rw [hr]
  rfl

theorem patchDone_queue {s : State} {e : Edit} {rest : List Edit} (hq : s.edit.queue = e :: rest) (n : Nat) :
    s.patchDone n = (headRequested (if n = 0 then s.headAnswered e rest true .ok .none
      else s.headAnswered e rest true .damagedWords (.unwritten n))).reportEditsEnded := by
  unfold State.patchDone
  rw [hq]
  dsimp only
  rw [← requestEdit_eq]
  split <;> rfl

theorem caller_code {e : Edit} :
    (∀ pg cell x y l w a b us, e.job = .patch pg cell x y l w a b us → e.caller.code = 48) ∧
    (∀ src sc dst dc k, e.job = .copy src sc dst dc k → e.caller.code = 49) := by
  unfold Edit.caller
  refine ⟨fun _ _ _ _ _ _ _ _ _ h => ?_, fun _ _ _ _ _ h => ?_⟩ <;> rw [h]

theorem portAfter_up (s : State) (slot : Nat) (bad : List Nat) (q : Port) : (portAfter s slot bad q).up = s.ports[q].up := by
  unfold portAfter
  dsimp only
  repeat' split
  all_goals simp [take_up]

/-- The effects of words leave the links of the ports, the edits, and what has been sent. -/
theorem transferDone_kept {s v : State} {kind : FaultKind} {o : Origin} {slot line : Nat} {reads : List (Nat × ReadClass)}
    (h : transferDone s v kind o slot line reads) :
    (∀ q : Port, v.grant.ports[q].up = s.ports[q].up) ∧ v.grant.edit = s.edit ∧ v.grant.out = s.out ∧
      v.grant.dir = v.dir := by
  obtain ⟨hrest, -, hports, -⟩ := h
  obtain ⟨gports, gdir, -, gedit, -, -, gout, -⟩ := grant_frame v
  refine ⟨fun q => ?_, ?_, ?_, gdir⟩
  · rw [gports, hports, portAfter_up]
  · rw [gedit, hrest]
  · rw [gout, hrest]

/-- Settles O26: the run is merged, its words have their effects, and the edit is answered. -/
theorem patchCompleteMergesTheRun : Obligations.PatchCompleteMergesTheRun := by
  intro p slot line first plane stipple ws discard errors s hm hscrub hr _ _ d whole cls reads n
  have hwf : d.store.wf := disturb_wf hm slot line errors
  have hrun := patchComplete_runs errors hr
  dsimp only at hrun
  have hreads : patchReads d.store slot line plane stipple first ws = reads := patchReads_eq ..
  have hcorrected : d.store.corrected ≤ 65535 := by
    rw [show d.store.corrected = s.store.corrected from disturb_corrected _ _ _ _]
    exact hscrub.2.2
  obtain ⟨hdone, hmem, herr⟩ := editWritten_done (patchWords_frame d.store slot line plane stipple first ws) hcorrected
    .patchUncorrectable (.port p) slot line reads
  rw [hreads] at hrun
  change patchEditComplete errors s = if discard = true then
    (d.editWritten (d.store.patchWords slot line plane stipple first ws) .patchUncorrectable (.port p) slot line reads).grant
    else (d.editWritten (d.store.patchWords slot line plane stipple first ws) .patchUncorrectable (.port p) slot line
      reads).grant.patchDone n at hrun
  generalize d.editWritten (d.store.patchWords slot line plane stipple first ws) .patchUncorrectable (.port p) slot line
    reads = v at hrun hdone hmem herr
  have hwords : ∀ k, sameWord (d.store.patchWords slot line plane stipple first ws) v.store slot line k := fun k => by
    unfold sameWord Store.rawWord Store.errorOf
    rw [hmem, herr]
    exact ⟨rfl, rfl⟩
  refine ⟨v, hdone, fun k x hx hk => ?merged, fun k hk hwhole hcls => ?left, ⟨fun a ha => ?bytes, fun k hk => ?errors⟩,
    fun hd => ?discarded, fun e rest hd hq hj => ?ended⟩
  case merged =>
    obtain ⟨h1, h2, -⟩ := patchWords_word hwf slot line plane stipple first k hx
    rw [(hwords _).readWord]
    cases hwh : wholeWord plane stipple (first + k)
    · have hc : (d.store.readWord slot line (first + k)).cls ≠ .uncorrectable :=
        hk.resolve_left fun h => Bool.false_ne_true (hwh.symm.trans h)
      exact ⟨_, h2 hwh hc, fun b hb => mergeWord_bit plane stipple (first + k) _ x b hb⟩
    · refine ⟨x, h1 hwh, fun b hb => ?_⟩
      rw [wholeWord_eq, Bool.and_eq_true, Bool.and_eq_true, decide_eq_true_eq] at hwh
      obtain ⟨⟨hplane, hlow⟩, hhigh⟩ := hwh
      have hsel : stipple.getLsbD ((2 * (first + k) + b / 32) % 32) = true := by
        obtain h | h : b / 32 = 0 ∨ b / 32 = 1 := by omega
        · rw [h, Nat.add_zero]; exact hlow
        · rw [h]; exact hhigh
      have hbit : plane.getLsbD (b % 32) = true := by
        rw [hplane, BitVec.getLsbD_allOnes]
        exact decide_eq_true (by omega)
      rw [if_pos ⟨hsel, hbit⟩]
  case left =>
    obtain ⟨-, -, h3⟩ := patchWords_word hwf slot line plane stipple first k (List.getElem?_eq_getElem hk)
    have hsame := (h3 hwhole hcls).trans (hwords _)
    exact ⟨hsame.readWord, hsame.1, hsame.2⟩
  case bytes =>
    rw [hmem]
    exact patchWords_read_outside hwf slot line plane stipple first a ha
  case errors =>
    rw [herr]
    exact patchWords_errors_outside hwf slot line plane stipple first k hk
  case discarded =>
    rw [hd] at hrun
    exact congrArg Host.Outcome.next hrun
  case ended =>
    rw [hd, if_neg Bool.false_ne_true] at hrun
    obtain ⟨hup, hedit, hout, hdir⟩ := transferDone_kept hdone
    obtain ⟨pg, cell, x, y, l, w, a, b, us, hj⟩ := hj
    rw [patchDone_queue (by rw [hedit]; exact hq)] at hrun
    have hcode := caller_code.1 _ _ _ _ _ _ _ _ _ hj
    refine ⟨_, congrArg Host.Outcome.next hrun, ?_⟩
    by_cases hn : n = 0
    · rw [if_pos hn]
      obtain ⟨h1, h2⟩ := headAnswered_effect v.grant e rest true .ok .none
      refine ⟨?_, h2.dirs hdir.symm rfl⟩
      rw [h1, hup, hedit, hout, hcode, if_pos hn]
    · rw [if_neg hn]
      obtain ⟨h1, h2⟩ := headAnswered_effect v.grant e rest true .damagedWords (.unwritten n)
      refine ⟨?_, h2.dirs hdir.symm rfl⟩
      rw [h1, hup, hedit, hout, hcode, if_neg hn]

end Sys2Proof.Machine
end

