-- ==== Sys2Proof/Proofs/CopyCompletions.lean ====
section
/-! PROOFS. The completion of a COPY's line (R38, R77, R78). -/

namespace Sys2Proof.Machine

theorem length_patternLine (q : PatternId) (line : Nat) : (patternLine q line).length = 256 := by
  unfold patternLine
  simp [wordsPerLine]

/-- The line that a COPY writes, whole, from the words of a slot. -/
def lineData (st : Store) (slot line : Nat) : List Word := (st.readLine slot line).map (·.data)

theorem length_lineData (st : Store) (slot line : Nat) : (lineData st slot line).length = 256 := by
  simp [lineData, Store.readLine, wordsPerLine]

theorem lineData_at (st : Store) (slot line : Nat) {w : Nat} (hw : w < 256) :
    (lineData st slot line)[w]? = some (st.readWord slot line w).data := by
  simp [lineData, Store.readLine, wordsPerLine, hw]

theorem readingOf_ne_nil {reads : List (Nat × ReadClass)} {c : ReadClass} :
    readingOf reads c ≠ [] ↔ ∃ r ∈ reads, r.2 = c := by
  unfold readingOf
  simp [List.filter_eq_nil_iff]

theorem readLine_bad (s : State) (slot line : Nat) :
    ((s.store.readLine slot line).any fun r => r.cls = .uncorrectable) =
      decide (readingOf (lineReadings s slot line) .uncorrectable ≠ []) := by
  rw [Bool.eq_iff_iff, decide_eq_true_eq, readingOf_ne_nil, List.any_eq_true]
  unfold Store.readLine lineReadings
  simp [wordsPerLine]

/-- The state before the grant that a line of a slot leaves. -/
def State.lineCopied (d : State) (p : Port) (n dest line : Nat) : State :=
  d.editWritten (if readingOf (lineReadings d n line) .uncorrectable ≠ [] then d.store
    else d.store.writeWords dest line 0 (lineData d.store n line)) .copyUncorrectable (.port p) n line (lineReadings d n line)

/-- The state before the grant that a line of a pattern page leaves. -/
def State.patternCopied (s : State) (p : Port) (q : PatternId) (dest line : Nat) : State :=
  s.editWritten (s.store.writeWords dest line 0 (patternLine q line)) .copyUncorrectable (.port p) 0 line []

theorem copyComplete_slot {s : State} {p : Port} {n dest line : Nat} {discard : Bool} (errors : BitErrors)
    (hr : runs s (.copy p (.slot n) dest line) discard) :
    let d : State := { s with store := s.store.disturb n line errors }
    copyLineComplete errors s =
      if discard then (d.lineCopied p n dest line).grant
      else if readingOf (lineReadings d n line) .uncorrectable ≠ [] then (d.lineCopied p n dest line).grant.copyStopped
      else (d.lineCopied p n dest line).grant.copyMoved := by
  intro d
  have hb := readLine_bad d n line
  unfold copyLineComplete
  rw [hr]
  dsimp only
  rw [if_neg Bool.false_ne_true, show (s.store.disturb n line errors) = d.store from rfl, hb, numbered_readLine d n line]
  unfold State.lineCopied
  by_cases h : readingOf (lineReadings d n line) .uncorrectable ≠ []
  · rw [decide_eq_true h, if_pos h, if_pos h, if_pos rfl, if_pos rfl]
    rfl
  · rw [decide_eq_false h, if_neg h, if_neg h, if_neg Bool.false_ne_true, if_neg Bool.false_ne_true]
    rfl

theorem copyComplete_pattern {s : State} {p : Port} {q : PatternId} {dest line : Nat} {discard : Bool}
    (errors : BitErrors) (hr : runs s (.copy p (.pattern q) dest line) discard) :
    copyLineComplete errors s = if discard then (s.patternCopied p q dest line).grant
      else (s.patternCopied p q dest line).grant.copyMoved := by
  unfold copyLineComplete
  rw [hr]
  rfl

/-- What a moved line does to the COPY at the head of the queue (R77, R78). -/
theorem copyMoved_head {s : State} {port : Port} {tag : Byte} {src dst : Handle} {sc dc k : Nat} {rest : List Edit}
    (hq : s.edit.queue = { port := port, tag := tag, job := .copy src sc dst dc k } :: rest) :
    let e : Edit := { port := port, tag := tag, job := .copy src sc dst dc (k + 1) }
    s.copyMoved = if k + 1 = (s.pageSize dst).1 * (s.pageSize dst).2 * 256
      then (headRequested (s.headAnswered e rest true .ok .none)).reportEditsEnded
      else headRequested { s with edit := { s.edit with queue := e :: rest } } := by
  intro e
  unfold State.copyMoved
  rw [hq]
  dsimp only
  rw [← requestEdit_eq, ← requestEdit_eq]
  rfl

theorem copyStopped_head {s : State} {e : Edit} {rest : List Edit} (hq : s.edit.queue = e :: rest) :
    s.copyStopped = (headRequested (s.headAnswered e rest false .sourceDamaged .none)).reportEditsEnded := by
  unfold State.copyStopped
  rw [hq]
  dsimp only
  rw [← requestEdit_eq]
  rfl

/-- The size of a stored page once a line's words have had their effects. -/
theorem transferDone_pageSize {s v : State} {kind : FaultKind} {o : Origin} {slot line : Nat}
    {reads : List (Nat × ReadClass)} (h : transferDone s v kind o slot line reads) {pg : Handle} {e : Page}
    (h4 : 4 ≤ pg.toNat) (he : s.page pg = some e) : v.grant.pageSize pg = (e.width, e.height) := by
  obtain ⟨-, -, -, hpages, -⟩ := h
  have hsize : ∀ f : Page, (damagedPage f).width = f.width ∧ (damagedPage f).height = f.height := fun f => by
    unfold damagedPage
    split <;> exact ⟨rfl, rfl⟩
  have hpage : v.grant.page pg = some (reportedPage s slot (readingOf reads .uncorrectable) pg e) := by
    have := hpages pg h4
    rw [he] at this
    unfold State.page at this ⊢
    rw [(grant_frame v).2.1, this]
    rfl
  unfold State.pageSize
  rw [isPattern_false h4, if_neg Bool.false_ne_true, hpage]
  dsimp only
  unfold reportedPage
  split
  · rw [(hsize e).1, (hsize e).2]
  · rfl

/-- What COPY_LINE_COMPLETE does once its line has been read and, unless it was damaged, written. -/
structure CopyDone (s d v : State) (errors : BitErrors) (p : Port) (slot line dest : Nat) (reads : List (Nat × ReadClass))
    (data : List Word) (discard : Bool) : Prop where
  done : transferDone d v .copyUncorrectable (.port p) slot line reads
  mem : readingOf reads .uncorrectable ≠ [] → v.store.mem = d.store.mem ∧ v.store.errors = d.store.errors
  written : readingOf reads .uncorrectable = [] → v.store.mem = (d.store.writeWords dest line 0 data).mem ∧
    v.store.errors = (d.store.writeWords dest line 0 data).errors
  run : copyLineComplete errors s = if discard then v.grant
    else if readingOf reads .uncorrectable ≠ [] then v.grant.copyStopped else v.grant.copyMoved

theorem copyDone_slot {s : State} {p : Port} {n dest line : Nat} {discard : Bool} (errors : BitErrors)
    (hr : runs s (.copy p (.slot n) dest line) discard) (hscrub : s.scrubOk) :
    let d : State := { s with store := s.store.disturb n line errors }
    CopyDone s d (d.lineCopied p n dest line) errors p n line dest (lineReadings d n line) (lineData d.store n line)
      discard := by
  intro d
  have hc : d.store.corrected ≤ 65535 := by
    rw [show d.store.corrected = s.store.corrected from disturb_corrected _ _ _ _]
    exact hscrub.2.2
  have hrun := copyComplete_slot errors hr
  dsimp only at hrun
  unfold State.lineCopied at hrun ⊢
  by_cases hb : readingOf (lineReadings d n line) .uncorrectable ≠ []
  · obtain ⟨hdone, hmem, herr⟩ := editWritten_done (d := d) (st := d.store) rfl hc .copyUncorrectable (.port p) n line
      (lineReadings d n line)
    rw [if_pos hb]
    refine ⟨hdone, fun _ => ⟨hmem, herr⟩, fun h => absurd h hb, hrun.trans ?_⟩
    rw [if_pos hb]
  · obtain ⟨hdone, hmem, herr⟩ := editWritten_done (writeWords_frame d.store dest line 0 (lineData d.store n line)) hc
      .copyUncorrectable (.port p) n line (lineReadings d n line)
    rw [if_neg hb]
    refine ⟨hdone, fun h => absurd h hb, fun _ => ⟨hmem, herr⟩, hrun.trans ?_⟩
    rw [if_neg hb]

theorem copyDone_pattern {s : State} {p : Port} {q : PatternId} {dest line : Nat} {discard : Bool} (errors : BitErrors)
    (hr : runs s (.copy p (.pattern q) dest line) discard) (hscrub : s.scrubOk) :
    CopyDone s s (s.patternCopied p q dest line) errors p 0 line dest [] (patternLine q line) discard := by
  obtain ⟨hdone, hmem, herr⟩ := editWritten_done (writeWords_frame s.store dest line 0 (patternLine q line)) hscrub.2.2
    .copyUncorrectable (.port p) 0 line []
  refine ⟨hdone, fun h => absurd rfl h, fun _ => ⟨hmem, herr⟩, (copyComplete_pattern errors hr).trans ?_⟩
  rw [if_neg fun h : readingOf [] .uncorrectable ≠ [] => h rfl]

theorem CopyDone.sameMemory {s d v : State} {errors : BitErrors} {p : Port} {slot line dest : Nat}
    {reads : List (Nat × ReadClass)} {data : List Word} {discard : Bool}
    (h : CopyDone s d v errors p slot line dest reads data discard) (hb : readingOf reads .uncorrectable ≠ []) :
    sameMemory d v := by
  obtain ⟨hm, he⟩ := h.mem hb
  exact ⟨fun a => by rw [hm], he⟩

theorem CopyDone.outside {s d v : State} {errors : BitErrors} {p : Port} {slot line dest : Nat}
    {reads : List (Nat × ReadClass)} {data : List Word} {discard : Bool} (hwf : d.store.wf)
    (h : CopyDone s d v errors p slot line dest reads data discard) (hb : readingOf reads .uncorrectable = []) :
    sameMemoryOutside d v dest line 0 data.length := by
  obtain ⟨hm, he⟩ := h.written hb
  refine ⟨fun a ha => ?_, fun k hk => ?_⟩
  · rw [hm]
    exact writeWords_read_outside hwf dest line 0 a data ha
  · rw [he]
    exact writeWords_errors_outside hwf dest line 0 k data hk

theorem CopyDone.reads {s d v : State} {errors : BitErrors} {p : Port} {slot line dest : Nat}
    {reads : List (Nat × ReadClass)} {data : List Word} {discard : Bool} (hwf : d.store.wf)
    (h : CopyDone s d v errors p slot line dest reads data discard) (hb : readingOf reads .uncorrectable = [])
    {w : Nat} {x : Word} (hx : data[w]? = some x) :
    v.store.readWord dest line w = { cls := .clean, data := x } := by
  obtain ⟨hm, he⟩ := h.written hb
  have hw := readWord_writeWords hwf dest line 0 w hx
  rw [Nat.zero_add] at hw
  rw [← hw]
  unfold Store.readWord Store.rawWord Store.errorOf
  rw [hm, he]

/-- The COPY at the head of the queue after a line (R77, R78). -/
theorem CopyDone.head {s d v : State} {errors : BitErrors} {p : Port} {slot line dest : Nat}
    {reads : List (Nat × ReadClass)} {data : List Word}
    (h : CopyDone s d v errors p slot line dest reads data false) (hd : d = { s with store := d.store })
    {port : Port} {tag : Byte} {src dst : Handle} {sc dc k : Nat} {rest : List Edit} {pg : Page}
    (hq : s.edit.queue = { port := port, tag := tag, job := .copy src sc dst dc k } :: rest) (h4 : 4 ≤ dst.toNat)
    (hpg : s.page dst = some pg) :
    let e : Edit := { port := port, tag := tag, job := .copy src sc dst dc (k + 1) }
    let ended (st : Status) (done : Bool) : Prop :=
      ∃ u : State, exec (.copyLineComplete errors) s = .next (headRequested u).reportEditsEnded ∧
        u = { v.grant with
          dir := u.dir, edit := { s.edit with queue := rest }
          out := s.out ++ (if s.ports[port].up then
            [.reply port { code := 49, tag := tag, status := st, body := .none }] else []) } ∧
        pagesBecome v u (afterEdit e done)
    (readingOf reads .uncorrectable ≠ [] → ended .sourceDamaged false) ∧
    (readingOf reads .uncorrectable = [] → k + 1 = pg.width * pg.height * 256 → ended .ok true) ∧
    (readingOf reads .uncorrectable = [] → k + 1 ≠ pg.width * pg.height * 256 → exec (.copyLineComplete errors) s =
      .next (headRequested { v.grant with edit := { s.edit with queue := e :: rest } })) := by
  intro e ended
  obtain ⟨hup, hedit, hout, hdir⟩ := transferDone_kept h.done
  have hsize : v.grant.pageSize dst = (pg.width, pg.height) := by
    refine transferDone_pageSize h.done h4 ?_
    rw [hd]
    exact hpg
  have hrun := h.run
  rw [if_neg Bool.false_ne_true] at hrun
  have hedit' : v.grant.edit = s.edit := by rw [hedit, hd]
  have hout' : v.grant.out = s.out := by rw [hout, hd]
  have hup' : ∀ q : Port, v.grant.ports[q].up = s.ports[q].up := fun q => by rw [hup, hd]
  have hq' := (congrArg EditUnit.queue hedit').trans hq
  have answers : ∀ (e' : Edit) (st : Status) (done : Bool), e'.port = port → e'.tag = tag → e'.caller.code = 49 →
      afterEdit e' done = afterEdit e done →
      copyLineComplete errors s = (headRequested (v.grant.headAnswered e' rest done st .none)).reportEditsEnded →
      ended st done := by
    intro e' st done hp ht hc ha hrun
    obtain ⟨h1, h2⟩ := headAnswered_effect v.grant e' rest done st .none
    refine ⟨_, congrArg Host.Outcome.next hrun, ?_, (ha ▸ h2).dirs hdir.symm rfl⟩
    subst hp ht
    rw [h1, hup', hedit', hout', hc]
  refine ⟨fun hb => ?_, fun hb hk => ?_, fun hb hk => ?_⟩
  · rw [if_pos hb, copyStopped_head hq'] at hrun
    exact answers _ .sourceDamaged false rfl rfl rfl rfl hrun
  · rw [if_neg (by simpa using hb), copyMoved_head hq', hsize, if_pos hk] at hrun
    exact answers _ .ok true rfl rfl rfl rfl hrun
  · rw [if_neg (by simpa using hb), copyMoved_head hq', hsize, if_neg hk, hedit'] at hrun
    exact congrArg Host.Outcome.next hrun

/-- Settles O27: a line of a slot, and a line of a pattern page. -/
theorem copyCompleteMovesTheLine : Obligations.CopyCompleteMovesTheLine := by
  intro p source dest line discard errors s hm hscrub _ hr
  cases source with
  | slot n =>
    have hcopy := copyDone_slot errors hr hscrub
    dsimp only at hcopy
    intro d reads from' bad
    have hwf : d.store.wf := disturb_wf hm n line errors
    have hlen := length_lineData d.store n line
    change CopyDone s d (d.lineCopied p n dest line) errors p n line dest reads (lineData d.store n line) discard at hcopy
    generalize d.lineCopied p n dest line = v at hcopy
    refine ⟨v, hcopy.done, fun hb => hcopy.sameMemory (of_decide_eq_true hb), fun hb => ⟨?_, fun w x hw hx => ?_⟩,
      fun hd => ?_, fun port tag src dst sc dc k rest pg hd hq h4 _ hpg => ?_⟩
    · have := hcopy.outside hwf (by simpa using of_decide_eq_false hb)
      rwa [hlen] at this
    · exact hcopy.reads hwf (by simpa using of_decide_eq_false hb) ((lineData_at d.store n line hw).trans hx)
    · have := hcopy.run
      rw [hd] at this
      exact congrArg Host.Outcome.next this
    · subst hd
      obtain ⟨h1, h2, h3⟩ := hcopy.head rfl hq h4 hpg
      exact ⟨fun hb => h1 (of_decide_eq_true hb), fun hb => h2 (by simpa using of_decide_eq_false hb),
        fun hb => h3 (by simpa using of_decide_eq_false hb)⟩
  | pattern q =>
    have hcopy := copyDone_pattern errors hr hscrub
    intro d reads from' bad
    have hgood : readingOf ([] : List (Nat × ReadClass)) .uncorrectable = [] := rfl
    have hb : bad = false := decide_eq_false fun h => h hgood
    generalize s.patternCopied p q dest line = v at hcopy
    refine ⟨v, hcopy.done, fun h => absurd (hb.symm.trans h) Bool.false_ne_true, fun _ => ⟨?_, fun w x _ hx => ?_⟩,
      fun hd => ?_, fun port tag src dst sc dc k rest pg hd hq h4 _ hpg => ?_⟩
    · have := hcopy.outside hm hgood
      rwa [length_patternLine] at this
    · exact hcopy.reads hm hgood hx
    · have := hcopy.run
      rw [hd] at this
      exact congrArg Host.Outcome.next this
    · subst hd
      obtain ⟨h1, h2, h3⟩ := hcopy.head rfl hq h4 hpg
      exact ⟨fun h => absurd (hb.symm.trans h) Bool.false_ne_true, fun _ => h2 hgood, fun _ => h3 hgood⟩

end Sys2Proof.Machine
end

