-- ==== Sys2Proof/Proofs/PinLaws.lean ====
section
/-! SUPPORT. The pins of scenes, and the cuts that leave a zone's queue with their pages unpinned and their outcomes
logged (R15, R104, R105). -/

namespace Sys2Proof.Machine

/-! ### The pins of scenes -/

theorem pin_pattern {s : State} {pg : Handle} (hp : pg.toNat < 4) : s.pin pg = s := by
  rw [State.pin, isPattern_true hp, if_pos rfl]

theorem pinScene_cons (s : State) (x : Placement) (sc : Scene) : s.pinScene (x :: sc) = (s.pin x.page).pinScene sc := rfl

theorem pin_page (s : State) (pg k : Handle) :
    (s.pin pg).page k = if k = pg ∧ 4 ≤ pg.toNat then (s.page k).map (Page.pinned 1) else s.page k := by
  by_cases hp : 4 ≤ pg.toNat
  · rw [pin_stored hp, page_setPage]
    by_cases h : k = pg
    · rw [if_pos h, if_pos ⟨h, hp⟩]
    · rw [if_neg h, if_neg fun h' => h h'.1]
  · rw [pin_pattern (by omega), if_neg fun h => hp h.2]

theorem pinScene_eq (s : State) (sc : Scene) : s.pinScene sc = { s with dir := (s.pinScene sc).dir } := by
  obtain ⟨hports, hstore, hload, hedit, hscene, hunits, hmail, hout, hpending⟩ := pinScene_frame s sc
  exact State.eq_of_blocks hports rfl hstore hload hedit hscene hunits hmail hout hpending

theorem pinScene_slotMap (sc : Scene) (s : State) :
    (s.pinScene sc).dir.free = s.dir.free ∧ (s.pinScene sc).dir.populated = s.dir.populated := by
  have hpin : ∀ (b : State) (pg : Handle), (b.pin pg).dir.free = b.dir.free ∧ (b.pin pg).dir.populated = b.dir.populated :=
    fun b pg => by unfold State.pin; split <;> exact ⟨rfl, rfl⟩
  exact ⟨foldl_keeps (·.dir.free) _ (fun b x => (hpin b x.page).1) sc s,
    foldl_keeps (·.dir.populated) _ (fun b x => (hpin b x.page).2) sc s⟩

theorem page_pinScene (sc : Scene) (s : State) (pg : Handle) : (s.pinScene sc).page pg =
    if pg.toNat < 4 then s.page pg else (s.page pg).map (Page.pinned (placementsNaming sc pg)) := by
  induction sc generalizing s with
  | nil =>
    split
    · rfl
    · exact Option.map_id'.symm
  | cons x sc ih =>
    rw [pinScene_cons, ih, pin_page]
    by_cases hp : pg.toNat < 4
    · rw [if_pos hp, if_pos hp, if_neg (by rintro ⟨rfl, h⟩; omega)]
    · rw [if_neg hp, if_neg hp]
      by_cases h : pg = x.page
      · rw [if_pos ⟨h, by rw [← h]; omega⟩, placementsNaming_cons_same h, Option.map_map]
        refine congrArg (Option.map · (s.page pg)) (funext fun p => ?_)
        simp [Page.pinned, Nat.add_assoc, Nat.add_comm 1]
      · rw [if_neg fun h' => h h'.1, placementsNaming_cons_other h]

/-- Pinning a scene is the rise of pins that its placements call for (R15). -/
theorem pinsMove_pinScene (s : State) (sc : Scene) : pinsMove s (s.pinScene sc) sc [] := by
  refine ⟨fun pg => (page_pinScene sc s pg).trans ?_, pinScene_slotMap sc s⟩
  split
  · rfl
  · simp only [placementsNaming_nil]
    rfl

section
variable {s t u : State} {gained dropped more : Scene}

theorem pinsMove_of_dir (h : t.dir = s.dir) : pinsMove s t [] [] := by
  unfold pinsMove State.page
  rw [h]
  refine ⟨fun pg => ?_, rfl, rfl⟩
  split
  · rfl
  · simp only [placementsNaming_nil]
    exact Option.map_id'.symm

theorem pinsMove.dirs {s' t' : State} (h : pinsMove s t gained dropped) (hs : s'.dir = s.dir) (ht : t'.dir = t.dir) :
    pinsMove s' t' gained dropped := by
  unfold pinsMove State.page at h ⊢
  rw [hs, ht]
  exact h

theorem placementsNaming_append (a b : Scene) (pg : Handle) :
    placementsNaming (a ++ b) pg = placementsNaming a pg + placementsNaming b pg := List.countP_append

/-- Pins that fall after others have come and gone. -/
theorem pinsMove.dropMore (h : pinsMove s t gained dropped) (k : pinsMove t u [] more) :
    pinsMove s u gained (dropped ++ more) := by
  obtain ⟨hp, hf, hn⟩ := h
  obtain ⟨kp, kf, kn⟩ := k
  refine ⟨fun pg => ?_, kf.trans hf, kn.trans hn⟩
  rw [kp, hp]
  split
  · rfl
  · rw [Option.map_map]
    refine congrArg (Option.map · (s.page pg)) (funext fun p => ?_)
    simp [placementsNaming_nil, placementsNaming_append, Nat.sub_sub]

/-- What becomes of each page when pins fall. -/
theorem pinsMove.becomes (h : pinsMove s t [] dropped) :
    pagesBecome s t fun k p => p.unpinned (placementsNaming dropped k) := by
  obtain ⟨hp, hf, hn⟩ := h
  refine ⟨fun k h4 => ?_, hf, hn⟩
  rw [hp, if_neg (by omega)]
  rfl

end

/-! ### Outcome logs -/

theorem logged_nil {l : List LogEntry} (h : l.length ≤ 8) : logged l [] = l := by
  unfold logged
  rw [List.append_nil, List.length_nil, Nat.sub_eq_zero_of_le (by omega), List.drop_zero]

theorem appendLog_eq {l : List LogEntry} (e : LogEntry) : appendLog l e = logged l [e] := rfl

/-- Entries that join a log together, or one after the other. -/
theorem logged_logged (l m n : List LogEntry) : logged (logged l m) n = logged l (m ++ n) := by
  unfold logged
  rw [List.length_drop, List.length_append, List.length_append]
  rcases Nat.lt_or_ge (l.length + m.length) 8 with h | h
  · rw [Nat.sub_eq_zero_of_le (by omega : l.length + m.length ≤ 8), List.drop_zero, List.append_assoc]
    congr 1
    omega
  · rw [← List.drop_append_of_le_length (by rw [List.length_append]; omega), List.drop_drop, List.append_assoc]
    congr 1
    omega

/-! ### Cuts leave a queue -/

/-- Nothing has changed but zones and pages. -/
structure ZonesOnly (s t : State) : Prop where
  rest : t = { s with scene := t.scene, dir := t.dir }
  scene : t.scene = { s.scene with zones := t.scene.zones }

/-- Nothing has changed but one zone and the pages. -/
structure ZoneOnly (s t : State) (z : ZoneId) : Prop extends ZonesOnly s t where
  others : ∀ y : ZoneId, y ≠ z → t.zone y = s.zone y

section
variable {s t u : State} {z : ZoneId}

theorem ZonesOnly.refl (s : State) : ZonesOnly s s := ⟨rfl, rfl⟩

theorem ZonesOnly.trans (h : ZonesOnly s t) (k : ZonesOnly t u) : ZonesOnly s u := by
  refine ⟨?_, ?_⟩
  · rw [k.rest, h.rest]
  · rw [k.scene, h.scene]

theorem ZoneOnly.refl (s : State) (z : ZoneId) : ZoneOnly s s z := ⟨.refl s, fun _ _ => rfl⟩

theorem ZoneOnly.trans (h : ZoneOnly s t z) (k : ZoneOnly t u z) : ZoneOnly s u z :=
  ⟨h.toZonesOnly.trans k.toZonesOnly, fun y hy => (k.others y hy).trans (h.others y hy)⟩

theorem setZone_same (s : State) (z : ZoneId) (f : Zone → Zone) : (s.setZone z f).zone z = f (s.zone z) := by
  rw [setZone_zone, if_pos rfl]

theorem setZone_other (s : State) {z y : ZoneId} (h : y ≠ z) (f : Zone → Zone) : (s.setZone z f).zone y = s.zone y := by
  rw [setZone_zone, if_neg (Ne.symm h)]

theorem setZone_only (s : State) (z : ZoneId) (f : Zone → Zone) : ZoneOnly s (s.setZone z f) z :=
  ⟨⟨rfl, rfl⟩, fun _ hy => setZone_other s hy f⟩

theorem unpinScene_only (s : State) (z : ZoneId) (sc : Scene) : ZoneOnly s (s.unpinScene sc) z := by
  refine ⟨⟨?_, ?_⟩, fun y _ => ?_⟩
  · rw [unpinScene_eq]
  · rw [unpinScene_eq]
  · exact congrArg (fun e : SceneEngine => e.zones[y]) (unpinScene_frame s sc).2.2.2.2.1

theorem pinScene_only (s : State) (z : ZoneId) (sc : Scene) : ZoneOnly s (s.pinScene sc) z := by
  refine ⟨⟨?_, ?_⟩, fun y _ => ?_⟩
  · rw [pinScene_eq]
  · rw [pinScene_eq]
  · exact congrArg (fun e : SceneEngine => e.zones[y]) (pinScene_frame s sc).2.2.2.2.1

/-- A zone whose cuts leave its queue, with their outcome logged. -/
def Zone.lost (zn : Zone) (o : CutOutcome) (frame : Nat) (gone : List Cut) : Zone :=
  { zn with cuts := gone.foldl List.erase zn.cuts, log := logged zn.log (gone.map fun c => logEntry c o frame) }

theorem loseCut_effect (s : State) (z : ZoneId) (o : CutOutcome) (c : Cut) :
    ZoneOnly s (s.loseCut z o c) z ∧ pinsMove s (s.loseCut z o c) [] c.scene ∧
      (s.loseCut z o c).zone z = (s.zone z).lost o s.scene.frame [c] := by
  have htake := setZone_only s z fun zn => { zn with cuts := zn.cuts.erase c }
  have hunpin := unpinScene_only (s.takeCut z c) z c.scene
  have hlog : ZoneOnly ((s.takeCut z c).unpinScene c.scene) (s.loseCut z o c) z := setZone_only _ z _
  have hpins := pinsMove_unpinScene (s.takeCut z c) c.scene
  refine ⟨(htake.trans hunpin).trans hlog, hpins.dirs rfl rfl, ?_⟩
  have hzone : ((s.takeCut z c).unpinScene c.scene).zone z = { s.zone z with cuts := (s.zone z).cuts.erase c } := by
    rw [unpinScene_eq]
    exact setZone_same s z _
  have hframe : ((s.takeCut z c).unpinScene c.scene).scene.frame = s.scene.frame := by
    rw [unpinScene_eq]
    rfl
  unfold State.loseCut State.logCut
  rw [setZone_same, hzone, hframe]
  rfl

/-- Cuts that leave the queue of a zone one after the other. -/
theorem loseCuts_effect (z : ZoneId) (o : CutOutcome) (gone : List Cut) (s : State) (hl : (s.zone z).log.length ≤ 8) :
    ZoneOnly s (gone.foldl (fun s c => s.loseCut z o c) s) z ∧
      pinsMove s (gone.foldl (fun s c => s.loseCut z o c) s) [] (gone.flatMap (·.scene)) ∧
      (gone.foldl (fun s c => s.loseCut z o c) s).zone z = (s.zone z).lost o s.scene.frame gone := by
  induction gone generalizing s with
  | nil =>
    refine ⟨.refl s z, pinsMove_of_dir rfl, ?_⟩
    unfold Zone.lost
    rw [List.map_nil, logged_nil hl]
    rfl
  | cons c gone ih =>
    obtain ⟨h1, h2, h3⟩ := loseCut_effect s z o c
    rw [List.foldl_cons]
    have hl' : ((s.loseCut z o c).zone z).log.length ≤ 8 := by
      rw [h3]
      unfold Zone.lost logged
      simp only [List.length_drop, List.length_append]
      omega
    have hframe : (s.loseCut z o c).scene.frame = s.scene.frame := by rw [h1.scene]
    obtain ⟨k1, k2, k3⟩ := ih (s.loseCut z o c) hl'
    refine ⟨h1.trans k1, ?_, ?_⟩
    · rw [List.flatMap_cons]
      exact h2.dropMore k2
    · rw [k3, h3, hframe]
      unfold Zone.lost
      dsimp only
      rw [logged_logged]
      rfl

end

/-- A queue that loses its cuts one by one but for the first is left with the first. -/
theorem foldl_erase_keep (keep gone : List Cut) (h : keep.length ≤ 1) : gone.foldl List.erase (keep ++ gone) = keep := by
  have hall : gone.foldl List.erase (gone ++ keep) = keep := by
    induction gone with
    | nil => rfl
    | cons c gone ih => rwa [List.foldl_cons, List.cons_append, List.erase_cons_head]
  have hperm : (gone.foldl List.erase (keep ++ gone)).Perm keep := by
    rw [← List.diff_eq_foldl]
    refine (List.Perm.diff_right gone List.perm_append_comm).trans ?_
    rw [List.diff_eq_foldl, hall]
  cases keep with
  | nil => exact List.perm_nil.1 hperm
  | cons c rest =>
    obtain rfl : rest = [] := List.length_eq_zero_iff.1 (by simpa using h)
    exact List.perm_singleton.1 hperm

end Sys2Proof.Machine
end

