-- ==== Sys2Proof/Proofs/Claims.lean ====
section
/-! PROOFS. Claims on zones: CLAIM_ZONE, HAND_OVER, SEIZE_ZONE and RELEASE_ZONE (R89 to R94). -/

namespace Sys2Proof.Machine

section
variable {s : State} {zone : Byte} {z : ZoneId}

theorem zoneField_some (h : zone.toNat = z.val) : zoneField zone = some z := fieldBelow_some h

theorem holderOf_field (h : zone.toNat = z.val) : s.holderOf zone = (s.zone z).holder := by
  unfold State.holderOf
  rw [zoneField_some h]
  rfl

theorem zoneSet_field (h : zone.toNat = z.val) (hr : (s.zone z).rect ≠ none) : s.zoneSet zone = true := by
  unfold State.zoneSet
  rw [zoneField_some h]
  exact Option.isSome_iff_ne_none.2 hr

theorem playsOut_of {p : Port} (h : s.cls p = .playout ∨ s.cls p = .operator) : s.playsOut p = true := by
  unfold State.playsOut
  obtain h | h := h <;> rw [h] <;> rfl

end

@[simp] theorem taking_zone (s : State) (h : Hdr) (z : ZoneId) : (s.taking h).zone z = s.zone z := rfl

theorem playsOut_taking (s : State) (h : Hdr) (p : Port) : (s.taking h).playsOut p = s.playsOut p := by
  unfold State.playsOut
  rw [taking_cls]

/-- A released zone (R91, R92, log entry 15). -/
def Zone.released (zn : Zone) (frame : Nat) : Zone :=
  let stays : Bool := decide (zn.armed = some .cut) && zn.fetch.any (·.armed)
  let gone : List Cut := if stays then zn.cuts.tail else zn.cuts
  { zn with
    holder := none
    armed := if zn.armed = some .cut ∧ stays = false then none else zn.armed
    cuts := if stays then (zn.cuts.take 1).map fun c => { c with released := true } else []
    log := logged zn.log (gone.map fun c => logEntry c .discarded frame) }

/-- The cuts that leave the queue of a zone with its release. -/
def Zone.goneCuts (zn : Zone) : List Cut :=
  if decide (zn.armed = some .cut) && zn.fetch.any (·.armed) then zn.cuts.tail else zn.cuts

theorem releaseZone_effect (s : State) (z : ZoneId) (hl : (s.zone z).log.length ≤ 8) :
    ZoneOnly s (s.releaseZone z) z ∧ pinsMove s (s.releaseZone z) [] ((s.zone z).goneCuts.flatMap (·.scene)) ∧
      (s.releaseZone z).zone z = (s.zone z).released s.scene.frame := by
  unfold State.releaseZone
  dsimp only
  change let u := s.setZone z _; ZoneOnly s ((s.zone z).goneCuts.foldl (fun s c => s.loseCut z .discarded c) u) z ∧
    pinsMove s ((s.zone z).goneCuts.foldl (fun s c => s.loseCut z .discarded c) u) [] _ ∧
    State.zone ((s.zone z).goneCuts.foldl (fun s c => s.loseCut z .discarded c) u) z = _
  intro u
  have hu : ZoneOnly s u z := setZone_only s z _
  have hz : u.zone z = _ := setZone_same s z _
  have hframe : u.scene.frame = s.scene.frame := rfl
  have hdir : u.dir = s.dir := rfl
  clear_value u
  have hlog : (u.zone z).log.length ≤ 8 := by rw [hz]; exact hl
  obtain ⟨h1, h2, h3⟩ := loseCuts_effect z .discarded (s.zone z).goneCuts u hlog
  refine ⟨hu.trans h1, h2.dirs hdir.symm rfl, ?_⟩
  rw [h3, hz, hframe]
  unfold Zone.lost Zone.released Zone.goneCuts Zone.fetched
  dsimp only
  cases hs : decide ((s.zone z).armed = some .cut) && (s.zone z).fetch.any (·.armed)
  · have hcuts := foldl_erase_keep [] (s.zone z).cuts (by simp)
    rw [List.nil_append] at hcuts
    simp only [Bool.false_eq_true, if_false, hcuts, Bool.not_false, Bool.and_true, decide_eq_true_eq, and_true]
  · have hcuts := foldl_erase_keep ((s.zone z).cuts.take 1 |>.map fun c => { c with released := true })
      (s.zone z).cuts.tail (by simp)
    simp only [if_true, hcuts, Bool.not_true, Bool.and_false, Bool.false_eq_true, if_false, and_false, reduceCtorEq]

/-- Settles O29: each claim request by its checks. -/
theorem zonesAreClaimedAndReleased : Obligations.ZonesAreClaimedAndReleased := by
  refine ⟨fun h zone z s r hc hz hset => ⟨fun hfree => ?claim, fun q hq hne => ?held⟩,
    fun h zone port z q s r hh hp hup hcq hne => ?handOver, fun h zone port z s r hh hp hcp => ?handBack,
    fun h zone z s r hc hz hset hother => ?seize, fun h zone z s r hc hh => ?seizeOwn,
    fun h zone z s r hh hlog => ?release⟩
  case claim =>
    refine congrArg Host.Outcome.next (serve_effects (self := (.claimZone · zone)) r ?_ rfl)
    unfold claimZone
    dsimp only
    rw [holderOf_field (s := s.taking h) hz, taking_zone]
    refine (checked_pass ?_).trans ?_
    · simp [playsOut_taking, playsOut_of hc, zoneField_some hz, zoneSet_field (s := s.taking h) hz hset]
      exact hfree.resolve_left
    · rw [zoneField_some hz]
  case held =>
    refine congrArg Host.Outcome.next (serve_answers (self := (.claimZone · zone)) r ?_)
    unfold claimZone
    dsimp only
    rw [holderOf_field (s := s.taking h) hz, taking_zone, hq]
    exact checked_fail (by
      simp [playsOut_taking, playsOut_of hc, zoneField_some hz, zoneSet_field (s := s.taking h) hz hset, hne])
  case handOver =>
    obtain ⟨hz, hset, hhold⟩ := hh
    have hpf : portField port = some q := fieldBelow_some hp
    refine congrArg Host.Outcome.next (serve_effects (self := (.handOver · zone port)) r ?_ rfl)
    unfold handOver
    dsimp only
    rw [holderOf_field (s := s.taking h) hz, taking_zone, hhold]
    refine (checked_pass ?_).trans ?_
    · simp [playsOut_taking, playsOut_of hcq, zoneField_some hz, zoneSet_field (s := s.taking h) hz hset, hpf]
      exact (taking_up s h q).trans hup
    · rw [zoneField_some hz, hpf]
      dsimp only
      rw [if_neg hne]
      rfl
  case handBack =>
    obtain ⟨hz, hset, hhold⟩ := hh
    have hpf : portField port = some h.port := fieldBelow_some hp
    refine congrArg Host.Outcome.next (serve_answers (self := (.handOver · zone port)) r ?_)
    unfold handOver
    dsimp only
    rw [holderOf_field (s := s.taking h) hz, taking_zone, hhold]
    refine (checked_pass ?_).trans ?_
    · simp [playsOut_taking, playsOut_of hcp, zoneField_some hz, zoneSet_field (s := s.taking h) hz hset, hpf]
      exact r.1
    · rw [zoneField_some hz, hpf]
      exact congrArg (fun t : State => t.reply _ _ _) (if_pos rfl)
  case seize =>
    have hu := up_taking r
    have hact : seizeZone zone { port := h.port, tag := h.tag, code := 68 } (s.taking h) =
        (match (s.zone z).holder with
          | some p => ((s.taking h).passZone z h.port).raise p .zoneLost
          | none => (s.taking h).passZone z h.port).reply { port := h.port, tag := h.tag, code := 68 } .ok
          (.holder (s.zone z).holder none) := by
      unfold seizeZone
      dsimp only
      rw [holderOf_field (s := s.taking h) hz, taking_zone]
      refine (checked_pass (by simp [taking_cls, hc, zoneField_some hz, zoneSet_field (s := s.taking h) hz hset])).trans ?_
      rw [zoneField_some hz]
      dsimp only
      rw [if_neg hother] <;> rfl
    cases hold : (s.zone z).holder with
    | none =>
      rw [hold] at hact
      refine ⟨_, congrArg Host.Outcome.next (serve_effects (self := (.seizeZone · zone)) r hact rfl), rfl, fun q => ?_⟩
      rw [if_neg (by simp)]
      rfl
    | some p =>
      rw [hold] at hact
      have hraised : ∀ q : Port, (((s.taking h).passZone z h.port).raise p .zoneLost).ports[q] =
          if some p = some q then ((s.taking h).ports[q]).take .zoneLost else (s.taking h).ports[q] := fun q => by
        rw [raise_at]
        simp only [Option.some.injEq, eq_comm]
        rfl
      refine ⟨_, congrArg Host.Outcome.next (serve_done (self := (.seizeZone · zone)) r hact ?_), rfl, hraised⟩
      rw [hraised, if_neg (by rintro h'; rw [hold] at hother; exact hother h')]
      exact hu
  case seizeOwn =>
    obtain ⟨hz, hset, hhold⟩ := hh
    refine congrArg Host.Outcome.next (serve_answers (self := (.seizeZone · zone)) r ?_)
    unfold seizeZone
    dsimp only
    rw [holderOf_field (s := s.taking h) hz, taking_zone, hhold]
    refine (checked_pass (by simp [taking_cls, hc, zoneField_some hz, zoneSet_field (s := s.taking h) hz hset])).trans ?_
    rw [zoneField_some hz]
    exact congrArg (fun t : State => t.reply _ _ _) (if_pos rfl)
  case release =>
    obtain ⟨hz, hset, hhold⟩ := hh
    have hact : releaseZone zone { port := h.port, tag := h.tag, code := 66 } (s.taking h) =
        ((s.taking h).releaseZone z).reply { port := h.port, tag := h.tag, code := 66 } .ok
          (.holder (some h.port) none) := by
      unfold releaseZone
      dsimp only
      rw [holderOf_field (s := s.taking h) hz, taking_zone, hhold]
      refine (checked_pass (by simp [zoneField_some hz, zoneSet_field (s := s.taking h) hz hset])).trans ?_
      rw [zoneField_some hz]
    obtain ⟨honly, hpins, hzone⟩ := releaseZone_effect (s.taking h) z hlog
    generalize (s.taking h).releaseZone z = t at hact honly hpins hzone
    refine ⟨t, congrArg Host.Outcome.next (serve_effects (self := (.releaseZone · zone)) r hact ?_), honly.rest,
      honly.others, hzone, hpins.dirs rfl rfl⟩
    rw [honly.rest]

end Sys2Proof.Machine
end

