-- ==== Sys2Proof/Proofs/SceneRequests.lean ====
section
/-! PROOFS. The scene checks, QUEUE_CUT and WITHDRAW_CUT, and the gate requests (R102 to R108, R124 to R135). -/

namespace Sys2Proof.Machine

/-! ### The scene checks (R102) -/

section
variable {s : State} {sc : List RawPlacement}

theorem isPage_iff {pg : Handle} : s.isPage pg = true ↔ pg.toNat < 4 ∨ s.page pg ≠ none := by
  simp [State.isPage, isPattern, Option.isSome_iff_ne_none]

theorem isDamaged_iff {pg : Handle} :
    (!s.isDamaged pg) = true ↔ pg.toNat < 4 ∨ ∀ e ∈ s.page pg, e.state ≠ .damaged := by
  unfold State.isDamaged
  by_cases h : pg.toNat < 4
  · simp [isPattern_true h, h]
  · cases hp : s.page pg <;> simp [isPattern_false (by omega : 4 ≤ pg.toNat), h]

theorem showRight_iff {p : Port} {pg : Handle} : s.showRight p pg = true ↔ pg.toNat < 4 ∨
    ∃ e ∈ s.page pg, (e.owner = p ∨ e.shared = true) ∧ e.showClasses.getLsbD (s.cls p).value = true := by
  unfold State.showRight rightOver
  by_cases h : pg.toNat < 4
  · simp [isPattern_true h, h]
  · cases hp : s.page pg <;> simp [isPattern_false (by omega : 4 ≤ pg.toNat), h]

theorem rawHold_none {x : RawPlacement} : rawHold x = none ↔ x.hold = 255 := by
  unfold rawHold
  split <;> simp_all

theorem rawHold_below {x : RawPlacement} {n : Nat} :
    ((rawHold x).any fun k => decide (k < n)) = true ↔ x.hold ≠ 255 ∧ x.hold.toNat < n := by
  unfold rawHold
  split <;> simp_all

/-- A mode that suits a page, by the kind of the page (check 4 of R102, log entry 17). -/
theorem modeSuits_iff {x : RawPlacement} : s.modeSuits x = true ↔
    (s.liveKind x.page = true ∧ x.mode = 2 ∧ x.hold = 255) ∨
    (s.liveKind x.page = false ∧
      ((x.mode = 0 ∧ x.hold = 255) ∨ (x.mode = 1 ∧ x.hold ≠ 255 ∧ x.hold.toNat < s.pageCells x.page))) := by
  unfold State.modeSuits cellModeField
  by_cases h0 : x.mode = 0
  · simp [h0, rawHold_none]
  · by_cases h1 : x.mode = 1
    · simp only [h1, if_neg (by decide : ¬ (1 : Byte) = 0), if_true, Bool.and_eq_true, Bool.not_eq_true', rawHold_below]
      simp
    · by_cases h2 : x.mode = 2
      · simp [h2, rawHold_none]
      · simp only [h0, h1, h2, if_false, false_and, and_false, or_self, Bool.false_eq_true]

theorem modeSuits_page {x : RawPlacement} (hp : x.page.toNat < 4 ∨ s.page x.page ≠ none) : s.modeSuits x = true ↔
    (x.page.toNat < 4 → (x.mode = 0 ∧ x.hold = 255) ∨ (x.mode = 1 ∧ x.hold = 0)) ∧
    (4 ≤ x.page.toNat → ∀ e ∈ s.page x.page,
      (e.kind = .live → x.mode = 2 ∧ x.hold = 255) ∧
      (e.kind = .still → (x.mode = 0 ∧ x.hold = 255) ∨ (x.mode = 1 ∧ x.hold ≠ 255 ∧ x.hold.toNat < e.cells))) := by
  rw [modeSuits_iff]
  by_cases h : x.page.toNat < 4
  · have hone : (x.hold ≠ 255 ∧ x.hold.toNat < 1) ↔ x.hold = 0 := by
      constructor
      · rintro ⟨-, h1⟩
        exact BitVec.eq_of_toNat_eq (by simp; omega)
      · rintro h1
        rw [h1]
        decide
    have hlive : s.liveKind x.page = false := by simp [State.liveKind, isPattern_true h]
    have hcells : s.pageCells x.page = 1 := by simp [State.pageCells, isPattern_true h]
    rw [hlive, hcells, hone]
    have h4 : ¬ 4 ≤ x.page.toNat := by omega
    tauto
  · obtain ⟨e, he⟩ := Option.ne_none_iff_exists'.1 (hp.resolve_left h)
    have h4 : 4 ≤ x.page.toNat := by omega
    have hlive : s.liveKind x.page = decide (e.kind = .live) := by simp [State.liveKind, isPattern_false h4, he]
    have hcells : s.pageCells x.page = e.cells := by simp [State.pageCells, isPattern_false h4, he]
    rw [hlive, hcells, he]
    cases hk : e.kind <;> simp [h, h4, hk]

theorem fits_iff {z : ZoneId} {x : RawPlacement} : ((s.zone z).rect.any fun r => s.fits r x) = true ↔
    ∃ r ∈ (s.zone z).rect, x.offsets.toNat % 16 + (s.pageSize x.page).1 ≤ r.cols ∧
      x.offsets.toNat / 16 + (s.pageSize x.page).2 ≤ r.rows := by
  rw [Option.any_eq_true]
  refine exists_congr fun r => and_congr_right fun _ => ?_
  unfold State.fits rawCol rawRow
  rw [decide_eq_true_eq]

theorem liesApart_iff : (sc.flatMap s.covered).Nodup ↔ liesApart s sc := by
  rw [covered_nodup_iff]
  unfold liesApart
  refine iff_of_eq (congrArg (List.Pairwise · sc) (funext fun x => funext fun y => forall_congr fun pos => ?_))
  have hcovers : ∀ w : RawPlacement, (pos ∈ s.covered w) = coversPos s (placementOf w) pos := fun w =>
    propext mem_coveredFrom
  rw [hcovers, hcovers]

/-- The scene checks as the statements put them (R102). -/
theorem sceneChecks_iff (z : ZoneId) (p : Port) :
    ((sc.all fun x => s.isPage x.page) = true ↔ pagesExist s sc) ∧
    ((sc.all fun x => !s.isDamaged x.page) = true ↔ pagesSound s sc) ∧
    ((sc.all fun x => s.showRight p x.page) = true ↔ pagesShowable s p sc) ∧
    (pagesExist s sc → ((sc.all fun x => s.modeSuits x) = true ↔ modesSuit s sc)) ∧
    ((sc.all fun x => (s.zone z).rect.any fun r => s.fits r x) = true ↔ liesInside s z sc) := by
  simp only [List.all_eq_true]
  exact ⟨forall₂_congr fun x _ => isPage_iff, forall₂_congr fun x _ => isDamaged_iff,
    forall₂_congr fun x _ => showRight_iff, fun h => forall₂_congr fun x hx => modeSuits_page (h x hx),
    forall₂_congr fun x _ => fits_iff⟩

theorem sceneTests_admitted {z : ZoneId} {p : Port} (h : sceneAdmitted s z p sc) :
    firstFailure (sceneTests z sc p s) = none := by
  obtain ⟨h1, h2, h3, h4, h5, h6⟩ := h
  obtain ⟨k1, k2, k3, k4, k5⟩ := sceneChecks_iff (s := s) (sc := sc) z p
  rw [firstFailure_scene, k1.2 h1, k2.2 h2, k3.2 h3, (k4 h1).2 h4, k5.2 h5]
  simp only [Bool.true_eq_false, if_false, true_and]
  exact if_pos (liesApart_iff.2 h6)

theorem sceneTests_refused {z : ZoneId} {p : Port} {st : Status} (h : sceneRefused s z p sc st) :
    firstFailure (sceneTests z sc p s) = some st := by
  obtain ⟨k1, k2, k3, k4, k5⟩ := sceneChecks_iff (s := s) (sc := sc) z p
  rw [firstFailure_scene]
  obtain ⟨h1, rfl⟩ | ⟨h1, h2, rfl⟩ | ⟨h1, h2, h3, rfl⟩ | ⟨h1, h2, h3, h4, rfl⟩ := h
  · rw [if_pos (Bool.eq_false_iff.2 (mt k1.1 h1))]
  · rw [k1.2 h1, if_neg (by decide), if_pos (Bool.eq_false_iff.2 (mt k2.1 h2))]
  · rw [k1.2 h1, k2.2 h2, if_neg (by decide), if_neg (by decide), if_pos (Bool.eq_false_iff.2 (mt k3.1 h3))]
  · rw [k1.2 h1, k2.2 h2, k3.2 h3, if_neg (by decide), if_neg (by decide), if_neg (by decide)]
    by_cases hm : modesSuit s sc
    · rw [(k4 h1).2 hm, if_neg (by decide), if_neg]
      rintro ⟨h5, h6⟩
      exact h4 ⟨hm, k5.1 h5, liesApart_iff.1 h6⟩
    · rw [if_pos (Bool.eq_false_iff.2 (mt (k4 h1).1 hm))]

end

theorem pagesShowable_taking {s : State} {h : Hdr} {p : Port} {sc : List RawPlacement} :
    pagesShowable (s.taking h) p sc ↔ pagesShowable s p sc := by
  unfold pagesShowable
  rw [taking_cls]
  rfl

theorem sceneAdmitted_taking {s : State} {h : Hdr} {z : ZoneId} {p : Port} {sc : List RawPlacement}
    (ha : sceneAdmitted s z p sc) : sceneAdmitted (s.taking h) z p sc :=
  ⟨ha.1, ha.2.1, pagesShowable_taking.2 ha.2.2.1, ha.2.2.2⟩

theorem sceneRefused_taking {s : State} {h : Hdr} {z : ZoneId} {p : Port} {sc : List RawPlacement} {st : Status}
    (hr : sceneRefused s z p sc st) : sceneRefused (s.taking h) z p sc st := by
  obtain h1 | h2 | ⟨h1, h2, h3, h4⟩ | ⟨h1, h2, h3, h4⟩ := hr
  · exact .inl h1
  · exact .inr (.inl h2)
  · exact .inr (.inr (.inl ⟨h1, h2, mt pagesShowable_taking.1 h3, h4⟩))
  · exact .inr (.inr (.inr ⟨h1, h2, pagesShowable_taking.2 h3, h4⟩))

/-! ### QUEUE_CUT and WITHDRAW_CUT -/

theorem sceneTestsAt_field {s : State} {zone : Byte} {z : ZoneId} (hz : zone.toNat = z.val) (sc : List RawPlacement) (p : Port) :
    sceneTestsAt zone sc p s = sceneTests z sc p s := by
  unfold sceneTestsAt
  rw [zoneField_some hz]

theorem queueCutTests_asked {s : State} {p : Port} {zone : Byte} {target : BitVec 48} {slip : Byte}
    {sc : List RawPlacement} {z : ZoneId} (h : cutAsked s p zone target slip sc z) :
    firstFailure (queueCutTests zone target slip sc p s) = firstFailure (sceneTests z sc p s) := by
  obtain ⟨hc, ⟨hz, hset, hhold⟩, hslip, hlen, hsoon, hdup, hfull⟩ := h
  unfold queueCutTests
  dsimp only
  rw [sceneTestsAt_field hz, firstFailure_append]
  refine congrArg (Option.or · _) (a₂ := none) ?_
  rw [holderOf_field hz, hhold, zoneField_some hz, zoneSet_field hz hset, playsOut_of hc]
  have hall : ((s.zone z).cuts.all fun c => decide (c.target ≠ target.toNat)) = true := by
    rw [List.all_eq_true]
    exact fun c hcut => decide_eq_true (hdup c hcut)
  simp only [Option.map_some, Option.getD_some, hall]
  simp [hslip, hlen, hsoon]
  exact hfull

/-- A cut takes its place between the earlier targets and the later ones (R105). -/
theorem insertCut_place (c : Cut) : ∀ {cuts : List Cut}, (∀ x ∈ cuts, x.target ≠ c.target) →
    ∃ pre post, cuts = pre ++ post ∧ (∀ x ∈ pre, x.target < c.target) ∧
      (∀ x, post.head? = some x → c.target < x.target) ∧ insertCut c cuts = pre ++ c :: post
  | [], _ => ⟨[], [], rfl, nofun, nofun, rfl⟩
  | d :: ds, h => by
    by_cases hd : c.target < d.target
    · refine ⟨[], d :: ds, rfl, nofun, fun x hx => ?_, if_pos hd⟩
      cases hx
      exact hd
    · obtain ⟨pre, post, hsplit, hpre, hpost, hins⟩ := insertCut_place c fun x hx => h x (List.mem_cons_of_mem d hx)
      refine ⟨d :: pre, post, by rw [hsplit]; rfl, fun x hx => ?_, hpost, (if_neg hd).trans (by rw [hins]; rfl)⟩
      obtain rfl | hx := List.mem_cons.1 hx
      · have := h x List.mem_cons_self
        omega
      · exact hpre x hx

/-- The cut that a QUEUE_CUT asks for (R107). -/
def cutOf (p : Port) (target : BitVec 48) (label : BitVec 16) (slip : Byte) (sc : List RawPlacement) : Cut :=
  { label := label, port := p, target := target.toNat, slip := slip.toNat, scene := sc.map placementOf, released := false }

/-- The state with a cut in the queue of a zone and its pages pinned. -/
def State.cutQueued (s : State) (z : ZoneId) (c : Cut) : State :=
  (s.pinScene c.scene).setZone z fun zn => { zn with cuts := insertCut c zn.cuts }

theorem cutQueued_effect (s : State) (z : ZoneId) (c : Cut) :
    ZoneOnly s (s.cutQueued z c) z ∧ pinsMove s (s.cutQueued z c) c.scene [] ∧
      (s.cutQueued z c).zone z = { s.zone z with cuts := insertCut c (s.zone z).cuts } := by
  refine ⟨(pinScene_only s z c.scene).trans (setZone_only _ z _), (pinsMove_pinScene s c.scene).dirs rfl rfl, ?_⟩
  unfold State.cutQueued
  rw [setZone_same, pinScene_eq]

theorem cutAsked_taking {s : State} {h : Hdr} {p : Port} {zone : Byte} {target : BitVec 48} {slip : Byte}
    {sc : List RawPlacement} {z : ZoneId} (ha : cutAsked s p zone target slip sc z) :
    cutAsked (s.taking h) p zone target slip sc z :=
  ⟨by rw [taking_cls]; exact ha.1, ha.2⟩

/-- Settles O30: the scene checks, the queue and the pins. -/
theorem cutsAreQueuedAndWithdrawn : Obligations.CutsAreQueuedAndWithdrawn := by
  refine ⟨fun h zone target label slip sc z s r ha hs => ?queued, fun h zone target label slip sc z st s r ha hs => ?refused,
    fun h zone target z c pre post s r hc hh hcuts ht hpre harmed => ?withdrawn⟩
  case queued =>
    have hact : queueCut zone target label slip sc { port := h.port, tag := h.tag, code := 72 } (s.taking h) =
        ((s.taking h).cutQueued z (cutOf h.port target label slip sc)).reply
          { port := h.port, tag := h.tag, code := 72 } .ok := by
      refine (checked_pass ((queueCutTests_asked (cutAsked_taking ha)).trans
        (sceneTests_admitted (sceneAdmitted_taking hs)))).trans ?_
      rw [zoneField_some ha.2.1.1]
      rfl
    obtain ⟨honly, hpins, hzone⟩ := cutQueued_effect (s.taking h) z (cutOf h.port target label slip sc)
    generalize (s.taking h).cutQueued z (cutOf h.port target label slip sc) = t at hact honly hpins hzone
    obtain ⟨pre, post, hsplit, hpre, hpost, hins⟩ := insertCut_place (cutOf h.port target label slip sc)
      (cuts := (s.zone z).cuts) ha.2.2.2.2.2.1
    refine ⟨t, congrArg Host.Outcome.next (serve_effects (self := (.queueCut · zone target label slip sc)) r hact ?_),
      honly.rest, honly.others, hpins.dirs rfl rfl, pre, post, hsplit, hpre, hpost, ?_⟩
    · rw [honly.rest]
    · rw [hzone, taking_zone, hins]
      rfl
  case refused =>
    exact congrArg Host.Outcome.next (serve_answers (self := (.queueCut · zone target label slip sc)) r
      (checked_fail ((queueCutTests_asked (cutAsked_taking ha)).trans (sceneTests_refused (sceneRefused_taking hs)))))
  case withdrawn =>
    obtain ⟨hz, hset, hhold⟩ := hh
    have hfind : (s.zone z).cutAt target.toNat = some c := by
      unfold Zone.cutAt
      rw [hcuts, List.find?_append, List.find?_eq_none.2 fun x hx => by simpa using hpre x hx]
      simp [ht]
    have hnot : (s.zone z).isArmed c = false := by
      unfold Zone.isArmed
      refine decide_eq_false fun ⟨h1, h2⟩ => harmed ⟨h1, ?_⟩
      rw [hcuts] at h2
      cases pre with
      | nil => rfl
      | cons x pre =>
        obtain rfl : x = c := by simpa using h2
        exact absurd ht (hpre x List.mem_cons_self)
    have hact : withdrawCut zone target { port := h.port, tag := h.tag, code := 73 } (s.taking h) =
        ((s.taking h).loseCut z .withdrawn c).reply { port := h.port, tag := h.tag, code := 73 } .ok := by
      unfold withdrawCut
      dsimp only
      rw [holderOf_field (s := s.taking h) hz, taking_zone, hhold, zoneField_some hz]
      simp only [Option.map_some, Option.bind_some, taking_zone, hfind]
      exact checked_pass (by
        simp [playsOut_taking, playsOut_of hc, zoneSet_field (s := s.taking h) hz hset]
        exact hnot)
    obtain ⟨honly, hpins, hzone⟩ := loseCut_effect (s.taking h) z .withdrawn c
    generalize (s.taking h).loseCut z .withdrawn c = t at hact honly hpins hzone
    refine ⟨t, congrArg Host.Outcome.next (serve_effects (self := (.withdrawCut · zone target)) r hact ?_),
      honly.rest, honly.others, hpins.dirs rfl rfl, ?_⟩
    · rw [honly.rest]
    · rw [hzone, taking_zone]
      unfold Zone.lost
      rw [List.foldl_cons, List.foldl_nil, hcuts,
        List.erase_append_right _ fun hm => absurd ht (hpre c hm), List.erase_cons_head]
      rfl

/-! ### DEFINE_GATE, INVOKE_GATE and RETURN_GATE -/

section
variable {s : State} {gate zone : Byte} {g : GateId} {z : ZoneId}

theorem gateField_some (h : gate.toNat = g.val) : gateField gate = some g := fieldBelow_some h

theorem gateAt_field (h : gate.toNat = g.val) : s.gateAt gate = s.gate g := by
  unfold State.gateAt
  rw [gateField_some h]
  rfl

theorem defineGateTests_asked {p : Port} {level minClass : Byte} {sc : List RawPlacement}
    (h : gateAsked s p gate zone level minClass sc g z) :
    firstFailure (defineGateTests gate zone level minClass sc p s) = firstFailure (sceneTests z sc p s) := by
  obtain ⟨hc, hg, hz, hl1, hl3, hm1, hm3, hlen, huse, hset⟩ := h
  unfold defineGateTests
  rw [sceneTestsAt_field hz, firstFailure_append]
  refine congrArg (Option.or · _) (a₂ := none) ?_
  have hall : ((s.gate g).all fun e => decide (e.use = .defined)) = true := by
    rw [Option.all_eq_true]
    exact fun e he => decide_eq_true (huse e he)
  rw [gateAt_field hg, gateField_some hg, zoneField_some hz, zoneSet_field hz hset, hall]
  simp [hc, hl1, hl3, hm1, hm3, hlen]

end

theorem setGate_gate (s : State) (g k : GateId) (f : Option Gate → Option Gate) :
    (s.setGate g f).gate k = if k = g then f (s.gate k) else s.gate k := by
  unfold State.gate
  rw [setGate_scene]
  refine (upd_at _ _ _ _).trans ?_
  by_cases h : k = g
  · rw [if_pos h.symm, if_pos h]
  · rw [if_neg (Ne.symm h), if_neg h]

/-- The state with a gate defined, its scene pinned and the one it replaces unpinned. -/
def State.gateDefined (s : State) (g : GateId) (e : Gate) : State :=
  ((s.pinScene e.scene).unpinScene (((s.gate g).map (·.scene)).getD [])).setGate g fun _ => some e

theorem gateDefined_effect (s : State) (g : GateId) (e : Gate) :
    s.gateDefined g e = { s with scene := (s.gateDefined g e).scene, dir := (s.gateDefined g e).dir } ∧
      (s.gateDefined g e).scene = { s.scene with gates := (s.gateDefined g e).scene.gates } ∧
      (∀ k : GateId, (s.gateDefined g e).gate k = if k = g then some e else s.gate k) ∧
      pinsMove s (s.gateDefined g e) e.scene (((s.gate g).map (·.scene)).getD []) := by
  have hscene : ((s.pinScene e.scene).unpinScene (((s.gate g).map (·.scene)).getD [])).scene = s.scene := by
    rw [unpinScene_eq, pinScene_eq]
  have hpins := (pinsMove_pinScene s e.scene).dropMore (pinsMove_unpinScene (s.pinScene e.scene)
    (((s.gate g).map (·.scene)).getD []))
  refine ⟨?_, ?_, fun k => ?_, ?_⟩
  · unfold State.gateDefined State.setGate State.modScene
    rw [unpinScene_eq, pinScene_eq]
  · unfold State.gateDefined
    rw [setGate_scene, hscene]
  · unfold State.gateDefined
    rw [setGate_gate]
    have hgate : ((s.pinScene e.scene).unpinScene (((s.gate g).map (·.scene)).getD [])).gate k = s.gate k :=
      congrArg (fun x : SceneEngine => x.gates[k]) hscene
    rw [hgate]
  · rw [List.nil_append] at hpins
    exact hpins.dirs rfl rfl

theorem takesInvocation_of {zn : Zone} (hp : zn.pend = none) (ha : zn.armed = none ∨ zn.armed = some .cut) :
    zn.takesInvocation = true := by
  unfold Zone.takesInvocation
  obtain h | h := ha <;> rw [hp, h] <;> rfl

theorem invokeGateTests_pass {s : State} {p : Port} {gate : Byte} {g : GateId} {e : Gate}
    (h : invocationAdmitted s p gate g e) : firstFailure (invokeGateTests gate p s) = none := by
  obtain ⟨hg, he, hcls, huse, hlit, hpend, harmed, hstack, hlevel⟩ := h
  have htakes := takesInvocation_of hpend harmed
  unfold invokeGateTests
  dsimp only
  rw [gateAt_field hg, he, gateField_some hg]
  simp only [Option.map_some, Option.getD_some, Option.all_some, Option.any_some, huse, htakes]
  simp [hcls, hlit, hlevel]
  exact hstack

theorem gateAsked_taking {s : State} {h : Hdr} {p : Port} {gate zone level minClass : Byte} {sc : List RawPlacement}
    {g : GateId} {z : ZoneId} (ha : gateAsked s p gate zone level minClass sc g z) :
    gateAsked (s.taking h) p gate zone level minClass sc g z :=
  ⟨by rw [taking_cls]; exact ha.1, ha.2⟩

/-- Settles O32: the definition, the invocation and the return, by their checks. -/
theorem gatesAreDefinedInvokedAndReturned : Obligations.GatesAreDefinedInvokedAndReturned := by
  refine ⟨fun h gate zone level minClass duration sc g z s r ha hs => ?defined,
    fun h gate zone level minClass duration sc g z st s r ha hs => ?refused, fun h gate g e s r ha => ?invoked,
    fun h zone z s r ha => ?returned⟩
  case defined =>
    have hact : defineGate gate zone level minClass duration sc { port := h.port, tag := h.tag, code := 80 } (s.taking h) =
        ((s.taking h).gateDefined g
          { use := .defined, zone := z, level := level.toNat, minClass := minClass.toNat
            duration := duration.toNat, scene := sc.map placementOf }).reply
          { port := h.port, tag := h.tag, code := 80 } .ok := by
      refine (checked_pass ((defineGateTests_asked (gateAsked_taking ha)).trans
        (sceneTests_admitted (sceneAdmitted_taking hs)))).trans ?_
      rw [gateField_some ha.2.1, zoneField_some ha.2.2.1]
      rfl
    obtain ⟨honly, hscene, hgate, hpins⟩ := gateDefined_effect (s.taking h) g
      { use := .defined, zone := z, level := level.toNat, minClass := minClass.toNat
        duration := duration.toNat, scene := sc.map placementOf }
    generalize (s.taking h).gateDefined g _ = t at hact honly hscene hgate hpins
    refine ⟨t, congrArg Host.Outcome.next (serve_effects (self := (.defineGate · gate zone level minClass duration sc)) r
      hact (by rw [honly])), honly, hscene, fun k hk => (hgate k).trans (if_neg hk), (hgate g).trans (if_pos rfl),
      hpins.dirs rfl rfl⟩
  case refused =>
    exact congrArg Host.Outcome.next (serve_answers (self := (.defineGate · gate zone level minClass duration sc)) r
      (checked_fail ((defineGateTests_asked (gateAsked_taking ha)).trans (sceneTests_refused (sceneRefused_taking hs)))))
  case invoked =>
    have ha' : invocationAdmitted (s.taking h) h.port gate g e := by
      obtain ⟨h1, h2, h3, h4⟩ := ha
      exact ⟨h1, h2, by rwa [taking_cls], h4⟩
    have hact : invokeGate gate { port := h.port, tag := h.tag, code := 82 } (s.taking h) =
        (((s.taking h).useGate g (.invoked h.port)).setZone e.zone fun zn =>
          { zn with pend := some (.invocation g h.port) }).reply { port := h.port, tag := h.tag, code := 82 } .ok := by
      refine (checked_pass (invokeGateTests_pass ha')).trans ?_
      rw [gateAt_field ha.1, gateField_some ha.1, show (s.taking h).gate g = some e from ha.2.1]
    refine ⟨_, congrArg Host.Outcome.next (serve_effects (self := (.invokeGate · gate)) r hact rfl), rfl, rfl, ?_,
      fun k hk => ?_, setZone_same _ _ _, fun y hy => setZone_other _ hy _⟩
    · refine (setGate_gate (s.taking h) g g _).trans ((if_pos rfl).trans ?_)
      rw [show (s.taking h).gate g = some e from ha.2.1]
      rfl
    · exact (setGate_gate (s.taking h) g k _).trans (if_neg hk)
  case returned =>
    obtain ⟨hz, hset, hkind, hown, harmed, hpend⟩ := ha
    refine congrArg Host.Outcome.next (serve_effects (self := (.returnGate · zone)) r ?_ rfl)
    unfold returnGate
    dsimp only
    rw [zoneField_some hz]
    have hzone := zoneSet_field (s := s.taking h) hz hset
    refine (checked_pass ?_).trans rfl
    rw [hzone, taking_cls]
    simp only [Option.map_some, Option.any_some, taking_zone, harmed, hpend]
    simp
    exact (if_neg hkind).trans (if_pos hown)

end Sys2Proof.Machine
end

