-- ==== Sys2Proof/Proofs/SetZone.lean ====
section
/-! PROOFS. SET_ZONE: a zone's rectangle changes, and tiles pass with their memberships (R87, R88). -/

namespace Sys2Proof.Machine

/-! ### One tile passes -/

/-- What a zone and the background say of a tile. -/
def memberships (s : State) (z : ZoneId) (i : Tile) : Bool × Bool × Bool × Bool :=
  ((s.zone z).inStep.getLsbD i.val, (s.zone z).delivered.getLsbD i.val, s.scene.background.inStep.getLsbD i.val,
    s.scene.background.delivered.getLsbD i.val)

/-- The memberships of a tile that passes, into a zone or out of it. -/
def passed (into : Bool) (m : Bool × Bool × Bool × Bool) : Bool × Bool × Bool × Bool :=
  if into then (m.1 || m.2.2.1, m.2.1 || m.2.2.2, false, false) else (false, false, m.2.2.1 || m.1, m.2.2.2 || m.2.1)

/-- Nothing has changed but the memberships of a zone and of the background, and the contexts of tiles. -/
structure MembersOnly (s t : State) (z : ZoneId) : Prop where
  rest : t = { s with scene := t.scene, units := t.units }
  scene : t.scene = { s.scene with
    zones := t.scene.zones
    background := { s.scene.background with
      inStep := t.scene.background.inStep, delivered := t.scene.background.delivered } }
  zone : t.zone z = { s.zone z with inStep := (t.zone z).inStep, delivered := (t.zone z).delivered }
  others : ∀ y : ZoneId, y ≠ z → t.zone y = s.zone y
  units : ∀ i : Tile, t.units[i] = { s.units[i] with ctx := t.units[i].ctx }

theorem MembersOnly.trans {s t u : State} {z : ZoneId} (h : MembersOnly s t z) (k : MembersOnly t u z) :
    MembersOnly s u z := by
  refine ⟨?_, ?_, ?_, fun y hy => (k.others y hy).trans (h.others y hy), fun i => ?_⟩
  · rw [k.rest, h.rest]
  · rw [k.scene, h.scene]
  · rw [k.zone, h.zone]
  · rw [k.units, h.units]

theorem MembersOnly.refl (s : State) (z : ZoneId) : MembersOnly s s z := ⟨rfl, rfl, rfl, fun _ _ => rfl, fun _ => rfl⟩

/-- A zone that a tile joins, or leaves. -/
def Zone.moved (zn : Zone) (b : Background) (into : Bool) (t : Tile) : Zone :=
  if into then
    { zn with
      inStep := if b.inStep.getLsbD t.val then insertBit zn.inStep t.val else zn.inStep
      delivered := if b.delivered.getLsbD t.val then insertBit zn.delivered t.val else zn.delivered }
  else { zn with inStep := eraseBit zn.inStep t.val, delivered := eraseBit zn.delivered t.val }

/-- The background that a tile leaves for a zone, or joins from it. -/
def Background.moved (b : Background) (zn : Zone) (into : Bool) (t : Tile) : Background :=
  if into then { b with inStep := eraseBit b.inStep t.val, delivered := eraseBit b.delivered t.val }
  else
    { b with
      inStep := if zn.inStep.getLsbD t.val then insertBit b.inStep t.val else b.inStep
      delivered := if zn.delivered.getLsbD t.val then insertBit b.delivered t.val else b.delivered }

theorem moveTile_eq (s : State) (z : ZoneId) (into : Bool) (t : Tile) : s.moveTile z into t = { s with
    units := upd s.units t fun u => { u with ctx := some (if into then .zone z else .background) }
    scene := { s.scene with
      zones := upd s.scene.zones z fun zn => zn.moved s.scene.background into t
      background := s.scene.background.moved (s.zone z) into t } } := by
  cases into <;> rfl

theorem moveTile_zone (s : State) (z : ZoneId) (into : Bool) (t : Tile) (y : ZoneId) : (s.moveTile z into t).zone y =
    if z = y then (s.zone y).moved s.scene.background into t else s.zone y := by
  rw [moveTile_eq]
  exact upd_at _ _ _ _

theorem moveTile_background (s : State) (z : ZoneId) (into : Bool) (t : Tile) :
    (s.moveTile z into t).scene.background = s.scene.background.moved (s.zone z) into t := by
  rw [moveTile_eq]

theorem moveTile_unit (s : State) (z : ZoneId) (into : Bool) (t i : Tile) : (s.moveTile z into t).units[i] =
    if t = i then { s.units[i] with ctx := some (if into then .zone z else .background) } else s.units[i] := by
  rw [moveTile_eq]
  exact upd_at _ _ _ _

theorem moveTile_only (s : State) (z : ZoneId) (into : Bool) (t : Tile) : MembersOnly s (s.moveTile z into t) z := by
  refine ⟨?_, ?_, ?_, fun y hy => ?_, fun i => ?_⟩
  · rw [moveTile_eq]
  · rw [moveTile_eq]
    unfold Background.moved
    cases into <;> rfl
  · rw [moveTile_zone, if_pos rfl]
    unfold Zone.moved
    cases into <;> rfl
  · rw [moveTile_zone, if_neg (Ne.symm hy)]
  · rw [moveTile_unit]
    split <;> rfl

theorem insertIf_bit {n : Nat} (b : Bool) (v : BitVec n) (t i : Nat) (hi : i < n) :
    (if b then insertBit v t else v).getLsbD i = (v.getLsbD i || (b && decide (t = i))) := by
  cases b
  · simp
  · rw [if_pos rfl, getLsbD_insertBit _ _ _ hi, Bool.true_and]

theorem moveTile_memberships (s : State) (z : ZoneId) (into : Bool) (t i : Tile) :
    memberships (s.moveTile z into t) z i = if t = i then passed into (memberships s z i) else memberships s z i := by
  unfold memberships
  rw [moveTile_zone, if_pos rfl, moveTile_background]
  unfold Zone.moved Background.moved passed
  have hti : (t.val = i.val) ↔ t = i := Fin.val_inj
  cases into
  all_goals
    simp only [Bool.false_eq_true, if_false, if_true, getLsbD_eraseBit _ _ _ i.isLt, insertIf_bit _ _ _ _ i.isLt, hti]
    by_cases h : t = i
    · subst h
      simp
    · simp [h]

/-! ### Every tile -/

/-- The tiles that a change of a zone's rectangle moves, one by one. -/
def State.passTile (z : ZoneId) (old new : Option Rect) (s : State) (t : Tile) : State :=
  match s.units[t].position with
  | some p =>
    let was := old.any (·.covers p)
    let now := new.any (·.covers p)
    if was = now then s else s.moveTile z now t
  | none => s

theorem reshape_eq (s : State) (z : ZoneId) (new : Option Rect) : s.reshape z new =
    allTiles.foldl (State.passTile z (s.zone z).rect new) (s.setZone z fun zn => { zn with rect := new }) := rfl

/-- Whether a rectangle covers a unit. -/
def coversUnit (r : Option Rect) (u : TileUnit) : Bool := u.position.any fun p => r.any (·.covers p)

theorem passTile_eq (z : ZoneId) (old new : Option Rect) (s : State) (t : Tile) : s.passTile z old new t =
    if coversUnit old s.units[t] = coversUnit new s.units[t] then s
    else s.moveTile z (coversUnit new s.units[t]) t := by
  unfold State.passTile coversUnit
  cases s.units[t].position with
  | none => rfl
  | some p => rfl

theorem passTile_only (z : ZoneId) (old new : Option Rect) (s : State) (t : Tile) :
    MembersOnly s (s.passTile z old new t) z := by
  rw [passTile_eq]
  split
  · exact .refl s z
  · exact moveTile_only s z _ t

theorem MembersOnly.covers {s t : State} {z : ZoneId} (h : MembersOnly s t z) (r : Option Rect) (i : Tile) :
    coversUnit r t.units[i] = coversUnit r s.units[i] := by
  rw [h.units]
  rfl

/-- What becomes of one tile when the rectangle of its zone changes. -/
def tileAfter (z : ZoneId) (was now : Bool) (x : Option Ctx × Bool × Bool × Bool × Bool) :
    Option Ctx × Bool × Bool × Bool × Bool :=
  if was = now then x else (some (if now then .zone z else .background), passed now x.2)

theorem tileAfter_fst (z : ZoneId) (was now : Bool) (x : Option Ctx × Bool × Bool × Bool × Bool) :
    (tileAfter z was now x).1 = if was = now then x.1 else some (if now then .zone z else .background) := by
  unfold tileAfter
  split <;> rfl

theorem tileAfter_snd (z : ZoneId) (was now : Bool) (x : Option Ctx × Bool × Bool × Bool × Bool) :
    (tileAfter z was now x).2 = if was = now then x.2 else passed now x.2 := by
  unfold tileAfter
  split <;> rfl

theorem passTile_at (z : ZoneId) (old new : Option Rect) (s : State) (t i : Tile) :
    ((s.passTile z old new t).units[i].ctx, memberships (s.passTile z old new t) z i) =
      if t = i then tileAfter z (coversUnit old s.units[i]) (coversUnit new s.units[i])
        (s.units[i].ctx, memberships s z i)
      else (s.units[i].ctx, memberships s z i) := by
  rw [passTile_eq]
  by_cases hs : coversUnit old s.units[t] = coversUnit new s.units[t]
  · rw [if_pos hs]
    by_cases h : t = i
    · subst h
      rw [if_pos rfl, tileAfter, if_pos hs]
    · rw [if_neg h]
  · rw [if_neg hs, moveTile_unit, moveTile_memberships]
    by_cases h : t = i
    · subst h
      rw [if_pos rfl, if_pos rfl, if_pos rfl, tileAfter, if_neg hs]
    · rw [if_neg h, if_neg h, if_neg h]

/-- Every tile that a zone's rectangle gains or gives up passes, and nothing else changes (R88). -/
theorem passTiles (z : ZoneId) (old new : Option Rect) (s : State) :
    MembersOnly s (allTiles.foldl (State.passTile z old new) s) z ∧
    ∀ i : Tile, ((allTiles.foldl (State.passTile z old new) s).units[i].ctx,
      memberships (allTiles.foldl (State.passTile z old new) s) z i) =
        tileAfter z (coversUnit old s.units[i]) (coversUnit new s.units[i]) (s.units[i].ctx, memberships s z i) := by
  have hinv : ∀ (u : State) (t : Tile), MembersOnly s u z → MembersOnly s (u.passTile z old new t) z :=
    fun u t h => h.trans (passTile_only z old new u t)
  refine ⟨foldl_inv (inv := fun u => MembersOnly s u z) hinv allTiles (.refl s z), fun i => ?_⟩
  refine foldl_at (inv := fun u => MembersOnly s u z) hinv (π := fun u i => (u.units[i].ctx, memberships u z i))
    (g := fun i x => tileAfter z (coversUnit old s.units[i]) (coversUnit new s.units[i]) x) ?_ ?_ nodup_allTiles
    (.refl s z) (mem_allTiles i)
  · intro u t hu
    rw [passTile_at, if_pos rfl, hu.covers, hu.covers]
  · intro u t j _ hj
    rw [passTile_at, if_neg hj]

theorem membershipsPass_of {s t : State} {z : ZoneId} {i : Tile} {was now : Bool}
    (h : memberships t z i = if was = now then memberships s z i else passed now (memberships s z i)) :
    membershipsPass s t z i was now := by
  unfold memberships passed at h
  unfold membershipsPass
  cases was <;> cases now
  case true.false =>
    obtain ⟨hi, hd, hbi, hbd⟩ : _ ∧ _ ∧ _ ∧ _ := by simpa using h
    simpa using ⟨hbi, hbd, hi, hd⟩
  all_goals simpa using h

/-- Two states between which a zone has been given another rectangle, or been left unset (R88). -/
structure Reshaped (s t : State) (z : ZoneId) (new : Option Rect) : Prop where
  rest : t = { s with scene := t.scene, units := t.units }
  zone : t.zone z = { s.zone z with rect := new, inStep := (t.zone z).inStep, delivered := (t.zone z).delivered }
  others : ∀ y : ZoneId, y ≠ z → t.zone y = s.zone y
  scene : t.scene = { s.scene with
    zones := t.scene.zones
    background := { s.scene.background with
      inStep := t.scene.background.inStep, delivered := t.scene.background.delivered } }
  units : ∀ i : Tile, t.units[i] = { s.units[i] with
    ctx := if coversUnit (s.zone z).rect s.units[i] = coversUnit new s.units[i] then s.units[i].ctx
      else some (if coversUnit new s.units[i] then .zone z else .background) }
  members : ∀ i : Tile,
    membershipsPass s t z i (coversUnit (s.zone z).rect s.units[i]) (coversUnit new s.units[i])

theorem Reshaped.ports {s t : State} {z : ZoneId} {new : Option Rect} (w : Reshaped s t z new) :
    t.ports = s.ports := by
  rw [w.rest]

theorem reshape_effect (s : State) (z : ZoneId) (new : Option Rect) :
    ∃ t : State, s.reshape z new = t ∧ Reshaped s t z new := by
  rw [reshape_eq]
  obtain ⟨hw, hat⟩ := passTiles z (s.zone z).rect new (s.setZone z fun zn => { zn with rect := new })
  generalize allTiles.foldl _ _ = t at hw hat ⊢
  refine ⟨t, rfl, ?_⟩
  have hz : (s.setZone z fun zn => { zn with rect := new }).zone z = { s.zone z with rect := new } :=
    setZone_same s z _
  have hm : ∀ i, memberships (s.setZone z fun zn => { zn with rect := new }) z i = memberships s z i := by
    intro i
    unfold memberships
    rw [hz]
    rfl
  refine ⟨hw.rest, ?_, fun y hy => (hw.others y hy).trans (setZone_other s hy _), hw.scene, fun i => ?_, fun i => ?_⟩
  · rw [hw.zone, hz]
  · rw [hw.units]
    exact congrArg (fun c => { s.units[i] with ctx := c })
      ((congrArg Prod.fst (hat i)).trans (tileAfter_fst _ _ _ _))
  · refine membershipsPass_of ((congrArg Prod.snd (hat i)).trans ?_)
    rw [hm]
    exact tileAfter_snd _ _ _ _

/-! ### The request -/

theorem coversUnit_none (u : TileUnit) : coversUnit none u = false := by
  unfold coversUnit
  cases u.position <;> rfl

theorem idleZone_taking (s : State) (h : Hdr) (z : ZoneId) : (s.taking h).idleZone z = s.idleZone z := rfl

/-- The checks on a rectangle pass (R87). -/
theorem rectTests_pass {s : State} {zone presence : Byte} {z : ZoneId} {g : Grid} {r : Rect} {p : Port}
    (hc : s.cls p = .operator) (hp : presence = 1) (hz : zone.toNat = z.val) (ha : rectAdmitted s z g r) :
    firstFailure (setZoneTests zone presence r p s) = none := by
  obtain ⟨hg, hcols, hrows, hcol, hrow, hapart, hidle⟩ := ha
  have hmeets : ∀ y : ZoneId, y.val = zone.toNat ∨ (s.zone y).rect.any r.meets = false := by
    intro y
    rw [hz, Fin.val_inj]
    refine (eq_or_ne y z).imp_right fun hy => ?_
    cases hq : (s.zone y).rect with
    | none => rfl
    | some q =>
      have := hapart y hy q hq
      simp only [Option.any_some, Rect.meets, decide_eq_false_iff_not]
      omega
  have hall : (allZones.all fun y => decide (y.val = zone.toNat) || !((s.zone y).rect.any r.meets)) = true := by
    rw [List.all_eq_true]
    intro y _
    obtain h | h := hmeets y
    · rw [decide_eq_true h, Bool.true_or]
    · rw [h, Bool.not_false, Bool.or_true]
  subst hp
  unfold setZoneTests
  rw [hall, zoneField_some hz, hg]
  simp [hc, hcols, hrows, hcol, hrow, hidle, boolField_isSome]

/-- A zone that is given a rectangle. -/
theorem setZone_set {s : State} {zone col row cols rows : Byte} {z : ZoneId} {g : Grid} {c : Caller} {r : Rect}
    (hr : r = { col := col.toNat, row := row.toNat, cols := cols.toNat, rows := rows.toNat })
    (hc : s.cls c.port = .operator) (hz : zone.toNat = z.val) (ha : rectAdmitted s z g r) :
    setZone zone 1 col row cols rows c s = (s.reshape z (some r)).reply c .ok := by
  subst hr
  unfold setZone
  dsimp only
  rw [checked_pass (rectTests_pass hc rfl hz ha), zoneField_some hz]
  exact if_pos rfl

theorem unsetTests_pass {s : State} {zone : Byte} {z : ZoneId} {r : Rect} {p : Port}
    (hc : s.cls p = .operator) (hz : zone.toNat = z.val) (hi : s.idleZone z = true) :
    firstFailure (setZoneTests zone 0 r p s) = none := by
  unfold setZoneTests
  rw [zoneField_some hz]
  simp [hc, hi, boolField_isSome]

/-- The holder of a zone that is left unset hears of it, unless it asked for it itself (R88). -/
def State.tellHolder (s : State) (held : Option Port) (p : Port) : State :=
  match held with
  | some q => if q = p then s else s.raise q .zoneLost
  | none => s

theorem setZone_unset {s : State} {zone col row cols rows : Byte} {z : ZoneId} {c : Caller}
    (hc : s.cls c.port = .operator) (hz : zone.toNat = z.val) (hi : s.idleZone z = true) :
    setZone zone 0 col row cols rows c s =
      (((s.reshape z none).setZone z fun zn => { zn with holder := none }).tellHolder
        (s.zone z).holder c.port).reply c .ok := by
  unfold setZone
  dsimp only
  rw [checked_pass (unsetTests_pass hc hz hi), zoneField_some hz]
  exact if_neg (by decide)

theorem tellHolder_effect (s : State) (held : Option Port) (p : Port) :
    s.tellHolder held p = { s with ports := (s.tellHolder held p).ports } ∧
    ∀ q : Port, (s.tellHolder held p).ports[q] =
      if held = some q ∧ q ≠ p then s.ports[q].take .zoneLost else s.ports[q] := by
  unfold State.tellHolder
  cases held with
  | none => exact ⟨rfl, fun q => (if_neg (by simp)).symm⟩
  | some o =>
    dsimp only
    by_cases ho : o = p
    · rw [if_pos ho]
      exact ⟨rfl, fun q => (if_neg fun e => e.2 (Option.some.inj e.1 ▸ ho)).symm⟩
    · rw [if_neg ho]
      refine ⟨rfl, fun q => ?_⟩
      rw [raise_at]
      by_cases hq : q = o
      · subst hq
        rw [if_pos rfl, if_pos ⟨rfl, ho⟩]
      · rw [if_neg hq, if_neg fun e => hq (Option.some.inj e.1).symm]

/-- Settles O28: both presences by the one effect of a changed rectangle. -/
theorem setZoneMovesTheTiles : Obligations.SetZoneMovesTheTiles := by
  refine ⟨fun h zone col row cols rows z g s r hc hz => ?set, fun h zone col row cols rows z s r hc hz hi => ?unset⟩
  case set =>
    intro x ha
    obtain ⟨t, ht, w⟩ := reshape_effect (s.taking h) z (some x)
    refine ⟨t, congrArg Host.Outcome.next (serve_effects (self := (.setZone · zone 1 col row cols rows)) r
      ((setZone_set rfl ((taking_cls s h _).trans hc) hz ha).trans (congrArg (fun u : State => u.reply { port := h.port, tag := h.tag, code := 64 } .ok) ht))
      w.ports), w.rest, w.zone, w.others, w.scene, fun i => ⟨(w.units i).trans ?_, w.members i⟩⟩
    refine congrArg (fun c => { s.units[i] with ctx := c }) ?_
    change (if coversUnit (s.zone z).rect s.units[i] = coversUnit (some x) s.units[i] then s.units[i].ctx
        else some (if coversUnit (some x) s.units[i] then .zone z else .background)) =
      if coversUnit (some x) s.units[i] = true ∧ coversUnit (s.zone z).rect s.units[i] = false then some (.zone z)
      else if coversUnit (s.zone z).rect s.units[i] = true ∧ coversUnit (some x) s.units[i] = false
      then some .background else s.units[i].ctx
    cases coversUnit (s.zone z).rect s.units[i] <;> cases coversUnit (some x) s.units[i] <;> rfl
  case unset =>
    obtain ⟨t, ht, w⟩ := reshape_effect (s.taking h) z none
    have hports : t.ports = (s.taking h).ports := w.ports
    obtain ⟨hrest, hat⟩ := tellHolder_effect (t.setZone z fun zn => { zn with holder := none }) (s.zone z).holder h.port
    generalize hv : (t.setZone z fun zn => { zn with holder := none }).tellHolder (s.zone z).holder h.port = v
      at hrest hat
    have hunits : v.units = t.units := by
      rw [hrest]
      rfl
    have hscene : v.scene = (t.setZone z fun zn => { zn with holder := none }).scene := by rw [hrest]
    have hzones : ∀ y, v.zone y = (t.setZone z fun zn => { zn with holder := none }).zone y := by
      intro y
      unfold State.zone
      rw [hscene]
    have hvz : v.zone z = { t.zone z with holder := none } := (hzones z).trans (setZone_same t z _)
    have hpass := w.members
    simp only [coversUnit_none] at hpass
    refine ⟨v, congrArg Host.Outcome.next (serve_done (self := (.setZone · zone 0 col row cols rows)) r ?_ ?_),
      ?_, ?_, fun y hy => ?_, ?_, fun i => ⟨?_, ?_⟩, fun q => ?_⟩
    · refine (setZone_unset ((taking_cls s h _).trans hc) hz hi).trans ?_
      rw [ht, ← hv]
      rfl
    · have hup : t.ports[h.port].up = true := by
        rw [hports]
        exact (taking_up s h _).trans r.1
      rw [hat]
      split
      · exact (take_up _ _).trans hup
      · exact hup
    · rw [hrest, w.rest]
      rfl
    · rw [hvz, w.zone]
      rfl
    · rw [hzones, setZone_other t hy, w.others y hy]
      rfl
    · rw [hscene]
      exact congrArg (fun e : SceneEngine => { e with zones := upd e.zones z fun zn => { zn with holder := none } })
        w.scene
    · rw [hunits, w.units, coversUnit_none]
      refine congrArg (fun c => { s.units[i] with ctx := c }) ?_
      change (if coversUnit (s.zone z).rect s.units[i] = false then s.units[i].ctx else some .background) =
        if coversUnit (s.zone z).rect s.units[i] = true then some .background else s.units[i].ctx
      cases coversUnit (s.zone z).rect s.units[i] <;> rfl
    · have hb : v.scene.background = t.scene.background := by
        rw [hscene]
        rfl
      have hp := hpass i
      unfold membershipsPass at hp ⊢
      rw [hvz, hb]
      exact hp
    · rw [hat, ← hports]
      rfl

end Sys2Proof.Machine
end

