-- ==== Sys2Proof/Proofs/SlotLaws.lean ====
section
/-! PROOFS. The slot map under loads, edits and damage: these change the entries of pages, never their runs or the free
slots, and leave the window (R10). -/

namespace Sys2Proof.Machine

/-! ### What a directory says of the slots -/

/-- The run of slots of a page. -/
def Page.run (p : Page) : Nat × Nat := (p.baseSlot, p.slotCount)

/-- The free runs, the populated count and the run of every page. -/
def Directory.slots (d : Directory) : List (Nat × Nat) × Nat × Vector (Option (Nat × Nat)) 256 :=
  (d.free, d.populated, d.pages.map (·.map Page.run))

theorem plan_slots (d : Directory) : d.plan.slots = d.slots := by
  unfold Directory.slots Directory.plan
  simp only [Vector.map_map, Prod.mk.injEq, true_and]
  refine Vector.ext fun i hi => ?_
  simp only [Vector.getElem_map, Function.comp_apply, Option.map_map]
  rfl

theorem slots_of_plan {d e : Directory} (h : e.plan = d.plan) : e.slots = d.slots := by
  rw [← plan_slots, h, plan_slots]

theorem setPage_slots (s : State) (pg : Handle) {f : Page → Page} (hf : ∀ p, (f p).run = p.run) :
    (s.setPage pg f).dir.slots = s.dir.slots := by
  unfold State.setPage Directory.slots
  simp only [modDir_dir, Prod.mk.injEq, true_and]
  refine Vector.ext fun i hi => ?_
  have hat := upd_at s.dir.pages (handleIndex pg) ⟨i, hi⟩ (·.map f)
  simp only [Fin.getElem_fin] at hat
  rw [Vector.getElem_map, Vector.getElem_map, hat]
  split
  · rw [Option.map_map]
    exact Option.map_congr fun p _ => hf p
  · rfl

/-- The slots and the window are as before. -/
abbrev sameSlots (s t : State) : Prop := t.dir.slots = s.dir.slots ∧ t.scene.window = s.scene.window

/-- The same, as a relation between states that is composed and not taken apart. -/
def keepsSlots (s t : State) : Prop := sameSlots s t

theorem keepsSlots_refl (s : State) : keepsSlots s s := ⟨rfl, rfl⟩

theorem keepsSlots.trans {a b c : State} (h : keepsSlots a b) (k : keepsSlots b c) : keepsSlots a c :=
  ⟨k.1.trans h.1, k.2.trans h.2⟩

theorem keepsStage.slots {s t : State} (h : keepsStage s t) : keepsSlots s t := ⟨slots_of_plan h.2.2, h.2.1⟩

theorem keepsSlots.setPage {s t : State} (h : keepsSlots s t) {pg : Handle} {f : Page → Page}
    (hf : ∀ p, (f p).run = p.run) : keepsSlots s (t.setPage pg f) := ⟨(setPage_slots t pg hf).trans h.1, h.2⟩

theorem keepsSlots.pin {s t : State} (h : keepsSlots s t) {pg : Handle} : keepsSlots s (t.pin pg) :=
  h.trans ⟨slots_of_plan (pin_plan t pg), by simp⟩

theorem keepsSlots.unpin {s t : State} (h : keepsSlots s t) {pg : Handle} : keepsSlots s (t.unpin pg) :=
  h.trans ⟨slots_of_plan (unpin_plan t pg), by simp⟩

theorem keepsSlots.setChan {s t : State} (h : keepsSlots s t) {c : ChanId} {f : Option Load → Option Load} :
    keepsSlots s (t.setChan c f) := ⟨h.1, h.2⟩

theorem keepsSlots.reply {s t : State} (h : keepsSlots s t) {c : Caller} {st : Status} {b : Body} :
    keepsSlots s (t.reply c st b) := h.trans ⟨by simp, by simp⟩

/-- A state whose directory and window are those of a state that keeps the slots. -/
theorem keepsSlots.congr {s t u : State} (h : keepsSlots s t) (hd : u.dir = t.dir)
    (hw : u.scene.window = t.scene.window) : keepsSlots s u := ⟨(congrArg Directory.slots hd).trans h.1, hw.trans h.2⟩

theorem keepsSlots_foldl {α : Type} (f : State → α → State) (hf : ∀ s a, keepsSlots s (f s a)) (l : List α)
    (s : State) : keepsSlots s (l.foldl f s) := by
  induction l generalizing s with
  | nil => exact keepsSlots_refl s
  | cons a l ih => exact (hf s a).trans (ih _)

/-- A page that is settled keeps its run, whatever else changed. -/
@[simp] theorem settle_run (p : Page) : p.settle.run = p.run := rfl

@[simp] theorem damage_run (p : Page) : p.damage.run = p.run := by
  unfold Page.damage
  split
  · rfl
  · dsimp only
    split <;> rfl

/-! ### Loads (R56 to R65) -/

@[simp] theorem beginTarget_slots (s : State) (c : ChanId) : sameSlots s (s.beginTarget c) := by
  unfold State.beginTarget
  repeat' split
  · exact keepsSlots_refl s
  · exact keepsSlots.setPage (t := s.setChan c _) (keepsSlots_refl s) fun _ => rfl
  all_goals exact keepsSlots_refl s

@[simp] theorem endBlock_slots (s : State) (c : ChanId) (l : Load) (first count : Nat) (expected : Check) :
    sameSlots s (s.endBlock c l first count expected) := by
  unfold State.endBlock
  dsimp only
  split
  all_goals exact keepsSlots.setPage (t := s.setChan c _) (keepsSlots_refl s) fun _ => rfl

@[simp] theorem endCell_slots (s : State) (c : ChanId) (l : Load) (target : Nat) (k : Option Check) :
    sameSlots s (s.endCell c l target k) := by
  unfold State.endCell
  dsimp only
  split
  · have h := (keepsSlots_refl s).setPage (pg := l.page)
      (f := fun p => { p with valid := insertBit p.valid target, latest := some target }) fun _ => rfl
    generalize s.setPage l.page _ = t at h ⊢
    exact h.trans (beginTarget_slots (t.setChan c _) c)
  · exact beginTarget_slots s c

@[simp] theorem lineLoaded_slots (s : State) (c : ChanId) : sameSlots s (s.lineLoaded c) := by
  unfold State.lineLoaded
  dsimp only
  (repeat' split) <;> simp [sameSlots]

@[simp] theorem abortLoad_slots (s : State) (c : ChanId) : sameSlots s (s.abortLoad c) := by
  unfold State.abortLoad
  dsimp only
  split
  · split
    · exact keepsSlots.setPage (by simp [keepsSlots, sameSlots]) settle_run
    · simp [sameSlots]
  · exact keepsSlots_refl s

@[simp] theorem recheckWaiting_slots (s : State) (c : ChanId) : sameSlots s (s.recheckWaiting c) := by
  unfold State.recheckWaiting
  (repeat' split) <;> simp [sameSlots]

@[simp] theorem abortAll_slots (s : State) : sameSlots s s.abortAll := by
  refine (keepsSlots_foldl _ (fun s c => ?_) _ s : keepsSlots _ _)
  split <;> simp [keepsSlots, sameSlots]

/-! ### Edits (R69, R74, R78, R81) -/

@[simp] theorem releaseEdit_slots (s : State) (e : Edit) (done : Bool) : sameSlots s (s.releaseEdit e done) := by
  change keepsSlots s _
  unfold State.releaseEdit
  dsimp only
  split
  · exact (keepsSlots_refl s).unpin.setPage fun _ => rfl
  · split
    · exact (keepsSlots_refl s).unpin.setPage fun _ => rfl
    · refine keepsSlots.setPage (keepsSlots.unpin (keepsSlots.setPage (keepsSlots.unpin (keepsSlots_refl s)) ?_)) ?_
      all_goals exact fun _ => rfl

@[simp] theorem enqueueEdit_slots (s : State) (e : Edit) : sameSlots s (s.enqueueEdit e) := by
  unfold State.enqueueEdit
  dsimp only
  split <;> simp [sameSlots]

@[simp] theorem takeEnds_slots (s : State) (f : EndReports → EndReports) : sameSlots s (s.takeEnds f) := by
  unfold State.takeEnds
  (repeat' split) <;> simp [sameSlots]

@[simp] theorem reportEditsEnded_slots (s : State) : sameSlots s s.reportEditsEnded := by
  unfold State.reportEditsEnded
  split <;> simp [sameSlots]

@[simp] theorem removeEdit_slots (s : State) (e : Edit) : sameSlots s (s.removeEdit e) := by
  unfold State.removeEdit
  dsimp only
  split <;> simp [sameSlots, State.nextEdit]

@[simp] theorem endEdits_slots (s : State) : sameSlots s s.endEdits := by
  unfold State.endEdits
  refine keepsSlots.trans (b := s.modEdit fun u => { u with endAsked := true }) (keepsSlots_refl s)
    ((keepsSlots_foldl _ (fun s e => ?_) _ _).trans (reportEditsEnded_slots _))
  split <;> simp [keepsSlots, sameSlots]

@[simp] theorem patchDone_slots (s : State) (n : Nat) : sameSlots s (s.patchDone n) := by
  unfold State.patchDone
  (repeat' split) <;> simp [sameSlots, State.nextEdit]

@[simp] theorem copyMoved_slots (s : State) : sameSlots s s.copyMoved := by
  unfold State.copyMoved
  split
  · dsimp only
    split <;> simp [sameSlots, State.nextEdit]
  · exact keepsSlots_refl s

@[simp] theorem copyStopped_slots (s : State) : sameSlots s s.copyStopped := by
  unfold State.copyStopped
  split <;> simp [sameSlots, State.nextEdit]

/-! ### The words read (R36, R37) -/

@[simp] theorem uncorrectable_slots (s : State) (k : FaultKind) (o : Origin) (a : WordAddr) :
    (s.uncorrectable k o a).dir.slots = s.dir.slots := by
  unfold State.uncorrectable
  dsimp only
  cases s.slotOwner a.slot with
  | none => split <;> simp
  | some pg =>
    have h := setPage_slots s pg damage_run
    dsimp only
    generalize s.setPage pg Page.damage = t at h ⊢
    split <;> simpa using h

@[simp] theorem lineEffects_slots (s : State) (k : FaultKind) (o : Origin) (slot line : Nat)
    (ws : List (Nat × ReadClass)) : (s.lineEffects k o slot line ws).dir.slots = s.dir.slots := by
  induction ws generalizing s with
  | nil => rfl
  | cons w ws ih =>
    rw [State.lineEffects, ih]
    unfold State.wordEffect
    split <;> simp

end Sys2Proof.Machine
end

