-- ==== Sys2Proof/Proofs/SlotMap.lean ====
section
/-! PROOFS. The law of the slot map: every command but the six that take or free slots leaves it, and each of those six
keeps it (R10, R12, R19, R20, R177, R178). -/

namespace Sys2Proof.Machine

/-! ### The commands that take no slot -/

/-- The slots are as before, and the window has not become UNCONFIGURED. -/
def keepsMap (s t : State) : Prop :=
  t.dir.slots = s.dir.slots ∧ (t.window = .unconfigured → s.window = .unconfigured)

theorem keepsSlots.map {s t : State} (h : keepsSlots s t) : keepsMap s t := ⟨h.1, fun hw => h.2.symm.trans hw⟩

theorem keepsMap.trans {a b c : State} (h : keepsMap a b) (k : keepsMap b c) : keepsMap a c :=
  ⟨k.1.trans h.1, fun hw => h.2 (k.2 hw)⟩

theorem setWindow_map (s : State) {w : WindowState} (hw : w ≠ .unconfigured) : keepsMap s (s.setWindow w) :=
  ⟨by simp, fun h => absurd h hw⟩

/-- The commands that take or free slots. -/
def takesSlots : Instr → Bool
  | .powerOnReset _ | .configure _ _ _ _ _ _ _ _ | .resetWindow _ | .createPage _ _ _ _ _ _ | .deletePage _ _
  | .purgePages _ _ _ => true
  | _ => false

theorem checked_slots {s : State} (c : Caller) (ts : List Test) {act : State → State} (b : Body)
    (h : keepsSlots s (act s)) : keepsSlots s (s.checked c ts act b) := by
  unfold State.checked
  split
  · simp [keepsSlots, sameSlots]
  · exact h

theorem portLoss_slots (p : Port) (s : State) : keepsSlots s (portLoss p s) := by
  unfold portLoss
  split
  · dsimp only
    have hz : keepsSlots s ((s.setPort p fun r =>
        { r with up := false, events := 0, mask := 0, transit := none, waiting := [] }).releaseZonesOf p) := by
      refine keepsSlots.trans (b := s.setPort p _) ⟨rfl, rfl⟩ (keepsSlots_foldl _ (fun s z => ?_) _ _)
      split
      · exact keepsStage.slots (releaseZone_stage s z)
      · exact keepsSlots_refl s
    have hl : ∀ t : State, keepsSlots t (t.abortLoadsOf p) := fun t => by
      refine keepsSlots_foldl _ (fun s c => ?_) _ t
      split <;> simp [keepsSlots, sameSlots]
    have he : ∀ t : State, keepsSlots t (t.removeEditOf p) := fun t => by
      unfold State.removeEditOf
      split <;> simp [keepsSlots, sameSlots]
    exact ((hz.trans (hl _)).trans (he _)).trans
      (keepsSlots_foldl _ (fun s z => keepsStage.slots (loseInvoker_stage s p z)) _ _)
  · exact keepsSlots_refl s

/-- What the words of a line do, and the bus that falls free, leave the slots. -/
theorem lineEffects_keepsSlots (s : State) (st : Store) (k : FaultKind) (o : Origin) (slot line : Nat)
    (ws : List (Nat × ReadClass)) : keepsSlots s ((s.modStore fun _ => st).lineEffects k o slot line ws).freeBus := by
  simp [keepsSlots, sameSlots]

theorem patchEditComplete_slots (errors : BitErrors) (s : State) : keepsSlots s (patchEditComplete errors s) := by
  unfold patchEditComplete
  split
  · split
    · simp [keepsSlots, sameSlots]
    · dsimp only
      split
      · exact lineEffects_keepsSlots ..
      · exact (lineEffects_keepsSlots ..).trans (patchDone_slots _ _)
  · exact keepsSlots_refl s

theorem copyLineComplete_slots (errors : BitErrors) (s : State) : keepsSlots s (copyLineComplete errors s) := by
  unfold copyLineComplete
  split
  · split
    · simp [keepsSlots, sameSlots]
    · split
      · generalize patternLine _ _ = ws
        dsimp only
        split <;> simp [keepsSlots, sameSlots]
      · dsimp only
        generalize hu : State.freeBus _ = u
        have h : keepsSlots s u := hu ▸ lineEffects_keepsSlots s ..
        repeat' split
        · exact h
        · exact h.trans (copyStopped_slots u)
        · exact h.trans (copyMoved_slots u)
  · exact keepsSlots_refl s

theorem scanComplete_slots (errors : BitErrors) (s : State) : keepsSlots s (scanComplete errors s) := by
  unfold scanComplete
  split
  · dsimp only
    repeat' split
    all_goals simp [keepsSlots, sameSlots]
  · exact keepsSlots_refl s

theorem scrubComplete_slots (errors : ErrorMask) (s : State) : keepsSlots s (scrubComplete errors s) := by
  unfold scrubComplete
  split
  · split
    · simp [keepsSlots, sameSlots]
    · have h : ∀ (t : State) (e : ScrubEntry), keepsSlots t (t.scrubWord e) := fun t e => by
        unfold State.scrubWord
        dsimp only
        repeat' split
        all_goals simp [keepsSlots, sameSlots]
      dsimp only
      generalize hu : s.modStore _ = u
      have hu : keepsSlots s u := hu ▸ ⟨rfl, rfl⟩
      generalize hv : State.scrubWord u _ = v
      have hv : keepsSlots u v := hv ▸ h u _
      exact (hu.trans hv).trans (by simp [keepsSlots, sameSlots])
  · exact keepsSlots_refl s

theorem loadComplete_slots (s : State) : keepsSlots s (loadComplete s) := by
  unfold loadComplete
  split
  · dsimp only
    repeat' split
    all_goals simp [keepsSlots, sameSlots]
  · exact keepsSlots_refl s

theorem latchedCellAnnouncement_slots (s : State) : keepsSlots s (latchedCellAnnouncement s) := by
  unfold latchedCellAnnouncement
  split
  · exact keepsSlots.trans (b := (s.modMail _).modLoad _) (keepsSlots_refl s)
      (keepsSlots_foldl _ recheckWaiting_slots _ _)
  · exact keepsSlots_refl s

theorem cancelEdit_slots (c : Caller) (s : State) : keepsSlots s (cancelEdit c s) := by
  unfold cancelEdit
  repeat' split
  all_goals simp [keepsSlots, sameSlots]

theorem setPageRights_slots (pg : Handle) (shared showC writeC : Byte) (c : Caller) (s : State) :
    keepsSlots s (setPageRights pg shared showC writeC c s) :=
  checked_slots _ _ _ (by
    refine keepsSlots.reply (keepsSlots.setPage (keepsSlots_refl s) ?_)
    exact fun _ => rfl)

theorem loadBegin_slots (pg : Handle) (mode first count : Byte) (check : Check) (c : Caller) (s : State) :
    keepsSlots s (loadBegin pg mode first count check c s) := by
  refine checked_slots _ _ _ ?_
  split
  · next ch p _ _ =>
    dsimp only
    split
    · refine keepsSlots.reply (keepsSlots.setPage (keepsSlots.setChan (keepsSlots_refl s)) ?_)
      exact fun _ => rfl
    · simp [keepsSlots, sameSlots]
  · exact keepsSlots_refl s

theorem loadAbort_slots (chan : Byte) (c : Caller) (s : State) : keepsSlots s (loadAbort chan c s) := by
  refine checked_slots _ _ _ ?_
  repeat' split
  all_goals simp [keepsSlots, sameSlots]

theorem keepsSlots.enqueue {s t : State} (h : keepsSlots s t) {e : Edit} : keepsSlots s (t.enqueueEdit e) :=
  h.trans (enqueueEdit_slots t e)

theorem patch_slots (pg : Handle) (cell col row line first : Byte) (plane stipple : BitVec 32) (ws : List Word)
    (c : Caller) (s : State) : keepsSlots s (patch pg cell col row line first plane stipple ws c s) :=
  checked_slots _ _ _ (by
    refine keepsSlots.enqueue (keepsSlots.setPage (keepsSlots.pin (keepsSlots_refl s)) ?_)
    exact fun _ => rfl)

theorem copy_slots (src : Handle) (sc : Byte) (dst : Handle) (dc : Byte) (c : Caller) (s : State) :
    keepsSlots s (copy src sc dst dc c s) := by
  refine checked_slots _ _ _ ?_
  dsimp only
  split
  · refine keepsSlots.enqueue (keepsSlots.setPage (keepsSlots.pin (keepsSlots_refl s)) ?_)
    exact fun _ => rfl
  · refine keepsSlots.enqueue (keepsSlots.setPage (keepsSlots.pin (keepsSlots.setPage (keepsSlots.pin
      (keepsSlots_refl s)) ?_)) ?_)
    all_goals exact fun _ => rfl

/-- The requests of the zones, the cuts and the gates leave the slots. -/
theorem checked_stage {s : State} (c : Caller) (ts : List Test) {act : State → State} (b : Body)
    (h : keepsStage s (act s)) : keepsSlots s (s.checked c ts act b) := checked_slots c ts b h.slots

theorem wakeEntry_map (s : State) : keepsMap s s.wakeEntry :=
  ⟨by simp [State.wakeEntry], fun h => absurd h (by simp [State.wakeEntry, State.window, State.setWindow])⟩

theorem darkEntry_map (s : State) : keepsMap s s.darkEntry := by
  unfold State.darkEntry
  dsimp only
  have hw : keepsMap s ((s.modScene fun e => { e with change := none }).setWindow .darkening) :=
    setWindow_map (s.modScene _) (by decide)
  generalize State.setWindow _ _ = t at hw ⊢
  have hz := keepsSlots_foldl State.windBack (fun s z => keepsStage.slots (windBack_stage s z)) allZones t
  generalize allZones.foldl State.windBack t = u at hz ⊢
  have hb : keepsSlots u (u.modBackground fun _ => .initial) := ⟨rfl, rfl⟩
  generalize u.modBackground _ = v at hb ⊢
  have ha : keepsSlots v v.abortAll := abortAll_slots v
  generalize v.abortAll = w at ha ⊢
  have he : keepsSlots w (w.modScene fun e => { e with waitEnds := some { loads := true, edits := false } }) :=
    ⟨rfl, rfl⟩
  generalize w.modScene _ = x at he ⊢
  have hx : keepsSlots x x.endEdits := endEdits_slots x
  generalize x.endEdits = y at hx ⊢
  exact hw.trans ((hz.trans (hb.trans (ha.trans (he.trans (hx.trans
    (keepsSlots_foldl (fun (s : State) i => s.toUnit i .powerOff) (fun s i => ⟨rfl, rfl⟩) allTiles y)))))).map)

theorem takeChange_map (s : State) : keepsMap s s.takeChange := by
  unfold State.takeChange
  dsimp only
  repeat' split
  · exact darkEntry_map s
  · exact (keepsSlots_refl s).map
  · exact wakeEntry_map s
  · exact (keepsSlots_refl s).map
  · exact (keepsSlots_refl s).map

theorem frameBoundary_map (s : State) : keepsMap s (frameBoundary s) := by
  unfold frameBoundary
  dsimp only
  split
  · have h0 : keepsSlots s ((s.send .sync).modScene fun e => { e with frame := e.nextFrame, epoch := none }) :=
      ⟨rfl, rfl⟩
    generalize (s.send .sync).modScene _ = u at h0 ⊢
    have hv := takeChange_map u
    generalize u.takeChange = v at hv ⊢
    refine (h0.map.trans hv).trans (keepsSlots.map ?_)
    split
    · exact ((keepsSlots_foldl _ (fun s z => keepsStage.slots (zoneLit_stage s _ z)) allZones v).trans
        (keepsStage.slots (backgroundLit_stage _))).congr rfl rfl
    · exact ((keepsSlots_foldl _ (fun s z => keepsStage.slots (zoneDark_stage s z)) allZones v).trans
        (keepsStage.slots (modBackground_keepsStage _ fun b => { b with fetch := none }))).congr rfl rfl
  · exact (keepsSlots_refl s).map

theorem atBlock_map (i : Instr) (hi : takesSlots i = false) (c : Caller) (s : State) : keepsMap s (atBlock i c s) := by
  cases i with
  | powerOnReset | configure | resetWindow | createPage | deletePage | purgePages => cases hi
  | portLoss p => exact (portLoss_slots p s).map
  | patchEditComplete errors => exact (patchEditComplete_slots errors s).map
  | copyLineComplete errors => exact (copyLineComplete_slots errors s).map
  | scanComplete errors => exact (scanComplete_slots errors s).map
  | scrubComplete errors => exact (scrubComplete_slots errors s).map
  | loadComplete => exact (loadComplete_slots s).map
  | latchedCellAnnouncement => exact (latchedCellAnnouncement_slots s).map
  | cancelEdit => exact (cancelEdit_slots c s).map
  | setPageRights => exact (setPageRights_slots _ _ _ _ c s).map
  | loadBegin => exact (loadBegin_slots _ _ _ _ _ c s).map
  | loadAbort => exact (loadAbort_slots _ c s).map
  | patch => exact (patch_slots _ _ _ _ _ _ _ _ _ c s).map
  | copy => exact (copy_slots _ _ _ _ c s).map
  | frameBoundary => exact frameBoundary_map s
  | setEpoch | darken | wake => exact (checked_slots _ _ _ (by simp [keepsSlots, sameSlots])).map
  | setZone | seizeZone | queueCut | defineGate =>
    refine (checked_stage _ _ _ ?_).map
    dsimp only
    (repeat' split) <;> simp [keepsStage, sameStage, sameClock]
  | claimZone | releaseZone | handOver | withdrawCut | clearGate | invokeGate | returnGate =>
    refine (checked_stage _ _ _ ?_).map
    (repeat' split) <;> simp [keepsStage, sameStage, sameClock]
  | entryCompletion =>
    simp only [atBlock, entryCompletion]
    split
    · exact setWindow_map (State.popStore s) (by decide)
    · exact (keepsSlots_refl s).map
  | exitCompletion =>
    simp only [atBlock, exitCompletion]
    repeat' split
    · refine (setWindow_map (State.popStore s) (w := .lit) (by decide)).trans (keepsSlots.map ?_)
      simp [keepsSlots, sameSlots]
    all_goals exact (keepsSlots_refl s).map
  | deliveryReport t =>
    simp only [atBlock, deliveryReport]
    split
    · exact (keepsStage.trans (b := s.popReport t) (keepsStage_of_scene ⟨rfl, rfl⟩)
        (takeDelivery_stage _ _ _)).slots.map
    · exact (keepsSlots_refl s).map
  | stateReport t =>
    simp only [atBlock, stateReport]
    split
    · exact (keepsStage.trans (b := s.popReport t) (keepsStage_of_scene ⟨rfl, rfl⟩)
        (takeStateReport_stage _ _ _)).slots.map
    · exact (keepsSlots_refl s).map
  | _ => exact (keepsStage_of_scene (by simp [atBlock])).slots.map

end Sys2Proof.Machine
end

