-- ==== Sys2Proof/Proofs/SlotRuns.lean ====
section
/-! PROOFS. Runs of slots: what an allocation takes from the free runs and what a freed page gives back to them, and the
law of the slot map over both (R10, R12, R19, R20). -/

namespace Sys2Proof.Machine

/-! ### Runs -/

/-- A slot lies in one of some runs. -/
def inRuns (rs : List (Nat × Nat)) (n : Nat) : Prop := ∃ r ∈ rs, inRun n r.1 r.2

theorem inRuns_cons (r : Nat × Nat) (rs : List (Nat × Nat)) (n : Nat) :
    inRuns (r :: rs) n ↔ inRun n r.1 r.2 ∨ inRuns rs n := by
  simp [inRuns]

theorem runsOk_cons {r : Nat × Nat} {rs : List (Nat × Nat)} :
    runsOk (r :: rs) ↔ 0 < r.2 ∧ (∀ x ∈ rs, r.1 + r.2 < x.1) ∧ runsOk rs := by
  unfold runsOk
  rw [List.forall_mem_cons, List.pairwise_cons]
  tauto

/-- The slots of the runs behind a run lie above it. -/
theorem above_of_runsOk {r : Nat × Nat} {rs : List (Nat × Nat)} (h : runsOk (r :: rs)) {n : Nat} (hn : inRuns rs n) :
    r.1 + r.2 < n := by
  obtain ⟨-, hgap, -⟩ := runsOk_cons.1 h
  obtain ⟨x, hx, hlo, -⟩ := hn
  exact (hgap x hx).trans_le hlo

/-! ### An allocation (R12) -/

/-- What an allocation takes: a run of free slots, which are free no longer. -/
theorem allocRun_effect {n base : Nat} (hn : 0 < n) {rs rest : List (Nat × Nat)} (hr : runsOk rs)
    (h : allocRun n rs = some (base, rest)) :
    runsOk rest ∧ (∀ x ∈ rest, ∃ y ∈ rs, y.1 ≤ x.1) ∧
      (∀ m, inRun m base n → inRuns rs m) ∧ ∀ m, inRuns rest m ↔ inRuns rs m ∧ ¬ inRun m base n := by
  induction rs generalizing rest with
  | nil => cases h
  | cons r rs ih =>
    obtain ⟨b, len⟩ := r
    obtain ⟨hlen, hgap, hrs⟩ := runsOk_cons.1 hr
    have habove := fun m => above_of_runsOk hr (n := m)
    dsimp only at hlen hgap habove
    rw [allocRun] at h
    split at h
    · next hfit =>
      obtain ⟨rfl, rfl⟩ := Prod.mk.inj (Option.some.inj h)
      refine ⟨?_, ?_, fun m hm => (inRuns_cons _ _ _).2 (.inl ⟨hm.1, by have := hm.2; omega⟩), fun m => ?_⟩
      · split
        · exact hrs
        · exact runsOk_cons.2 ⟨by dsimp only; omega, fun x hx => by have := hgap x hx; dsimp only; omega, hrs⟩
      · intro x hx
        split at hx
        · exact ⟨x, List.mem_cons_of_mem _ hx, le_rfl⟩
        · obtain rfl | hx := List.mem_cons.1 hx
          · exact ⟨(b, len), List.mem_cons_self .., by dsimp only; omega⟩
          · exact ⟨x, List.mem_cons_of_mem _ hx, le_rfl⟩
      · have hm := habove m
        rw [inRuns_cons]
        split
        · next he =>
          subst he
          unfold inRun
          constructor
          · intro hin
            have := hm hin
            exact ⟨.inr hin, by omega⟩
          · rintro ⟨hin | hin, hout⟩
            · exact absurd hin hout
            · exact hin
        · rw [inRuns_cons]
          unfold inRun
          constructor
          · rintro (hin | hin)
            · exact ⟨.inl (by omega), by omega⟩
            · have := hm hin
              exact ⟨.inr hin, by omega⟩
          · rintro ⟨hin | hin, hout⟩
            · exact .inl (by dsimp only at hin ⊢; omega)
            · exact .inr hin
    · obtain ⟨⟨base', rest'⟩, hk, he⟩ := Option.map_eq_some_iff.1 h
      obtain ⟨rfl, rfl⟩ := Prod.mk.inj he
      obtain ⟨hok, hlow, hin, hiff⟩ := ih hrs hk
      refine ⟨runsOk_cons.2 ⟨hlen, fun x hx => ?_, hok⟩, ?_, fun m hm => (inRuns_cons _ _ _).2 (.inr (hin m hm)),
        fun m => ?_⟩
      · obtain ⟨y, hy, hyx⟩ := hlow x hx
        exact (hgap y hy).trans_le hyx
      · intro x hx
        obtain rfl | hx := List.mem_cons.1 hx
        · exact ⟨_, List.mem_cons_self .., le_rfl⟩
        · obtain ⟨y, hy, hyx⟩ := hlow x hx
          exact ⟨y, List.mem_cons_of_mem _ hy, hyx⟩
      · rw [inRuns_cons, inRuns_cons, hiff]
        constructor
        · rintro (hb | ⟨hb, hout⟩)
          · refine ⟨.inl hb, fun hm => ?_⟩
            have := habove m (hin m hm)
            unfold inRun at hb
            dsimp only at hb
            omega
          · exact ⟨.inr hb, hout⟩
        · rintro ⟨hb | hb, hout⟩
          · exact .inl hb
          · exact .inr ⟨hb, hout⟩

/-! ### A run rejoins the free ones (R12) -/

theorem joinRun_ok {b len : Nat} {rs : List (Nat × Nat)} (hlen : 0 < len) (hr : runsOk rs)
    (hlow : ∀ x ∈ rs, b + len ≤ x.1) : runsOk (joinRun b len rs) := by
  cases rs with
  | nil => exact runsOk_cons.2 ⟨hlen, by simp, hr⟩
  | cons r rs =>
    obtain ⟨hpos, hgap, hrs⟩ := runsOk_cons.1 hr
    have hfirst := hlow r (List.mem_cons_self ..)
    rw [joinRun]
    split
    · next he => exact runsOk_cons.2 ⟨by dsimp only; omega, fun x hx => by have := hgap x hx; dsimp only; omega, hrs⟩
    · next hne =>
      refine runsOk_cons.2 ⟨hlen, fun x hx => ?_, hr⟩
      obtain rfl | hx := List.mem_cons.1 hx
      · dsimp only
        omega
      · have := hgap x hx
        dsimp only
        omega

theorem freeRun_ok {b len : Nat} {rs : List (Nat × Nat)} (hlen : 0 < len) (hr : runsOk rs)
    (hapart : ∀ n, inRun n b len → ¬ inRuns rs n) : runsOk (freeRun b len rs) := by
  induction rs with
  | nil => exact runsOk_cons.2 ⟨hlen, by simp, hr⟩
  | cons r rs ih =>
    obtain ⟨b', len'⟩ := r
    obtain ⟨hpos, hgap, hrs⟩ := runsOk_cons.1 hr
    dsimp only at hpos hgap
    rw [freeRun]
    split
    · next hlt =>
      refine joinRun_ok hlen hr fun x hx => ?_
      have hb' : b + len ≤ b' := by
        by_contra hover
        exact hapart b' ⟨hlt.le, by omega⟩ ((inRuns_cons _ _ _).2 (.inl ⟨le_rfl, by dsimp only; omega⟩))
      obtain rfl | hx := List.mem_cons.1 hx
      · exact hb'
      · have := hgap x hx
        omega
    · next hge =>
      have hb : b' + len' ≤ b := by
        by_contra hover
        exact hapart b ⟨le_rfl, by omega⟩ ((inRuns_cons _ _ _).2 (.inl ⟨by dsimp only; omega, by dsimp only; omega⟩))
      have hok := ih hrs fun n hn hin => hapart n hn ((inRuns_cons _ _ _).2 (.inr hin))
      refine joinRun_ok hpos hok fun x hx => ?_
      have hfirst : inRuns (freeRun b len rs) x.1 := ⟨x, hx, le_rfl, by have := hok.1 x hx; omega⟩
      rcases (mem_freeRun b len rs x.1).1 hfirst with hin | hin
      · exact hb.trans hin.1
      · exact (above_of_runsOk hr hin).le

end Sys2Proof.Machine
end

