-- ==== Sys2Proof/Proofs/SlotsKept.lean ====
section
/-! PROOFS. Every step keeps the law of the slot map, and in UNCONFIGURED the directory as it was reset and nothing in
transit but what is served there (R10, R24, R175). -/

namespace Sys2Proof.Machine

/-! ### The law of the slot map, by the runs of the pages -/

theorem pages_of_slots {s t : State} (h : t.dir.slots = s.dir.slots) (pg : Handle) :
    (t.page pg).map Page.run = (s.page pg).map Page.run := by
  have hp := congrArg (fun x => x.2.2[handleIndex pg]) h
  unfold Directory.slots at hp
  simp only [Fin.getElem_fin, Vector.getElem_map] at hp
  exact hp

theorem pageHolds_iff (s : State) (pg : Handle) (n : Nat) :
    s.pageHolds pg n ↔ ∃ r, (s.page pg).map Page.run = some r ∧ inRun n r.1 r.2 := by
  unfold State.pageHolds
  cases s.page pg <;> simp [Page.run]

theorem slotsOk_of_slots {s t : State} (h : t.dir.slots = s.dir.slots) (hs : s.slotsOk) : t.slotsOk := by
  have hfree : t.dir.free = s.dir.free := congrArg Prod.fst h
  have hpop : t.dir.populated = s.dir.populated := congrArg (fun x => x.2.1) h
  have hpages := pages_of_slots h
  have hholds : ∀ pg n, t.pageHolds pg n ↔ s.pageHolds pg n := fun pg n => by
    rw [pageHolds_iff, pageHolds_iff, hpages]
  obtain ⟨h1, h2, h3, h4, h5, h6⟩ := hs
  unfold State.slotsOk State.slotFree
  simp only [hholds, hfree, hpop]
  refine ⟨h1, fun pg p hp => ?_, h3, h4, h5, h6⟩
  have hrun := hpages pg
  rw [hp] at hrun
  cases hq : s.page pg with
  | none => rw [hq] at hrun; cases hrun
  | some q =>
    rw [hq] at hrun
    have hcount : p.slotCount = q.slotCount := congrArg Prod.snd (Option.some.inj hrun)
    rw [hcount]
    exact h2 pg q hq

theorem initial_slotsOk {s : State} (h : s.dir = .initial) : s.slotsOk := by
  have hpage : ∀ pg, s.page pg = none := fun pg => by
    unfold State.page
    rw [h]
    simp [Directory.initial]
  refine ⟨?_, fun pg p hp => ?_, fun pg n hn => ?_, fun pg k n hn => ?_, fun n hn => ?_, fun n hn => ?_⟩
  · rw [h]
    exact ⟨fun r hr => absurd hr (by simp [Directory.initial]), .nil⟩
  · rw [hpage] at hp
    cases hp
  · obtain ⟨p, hp, -⟩ := hn
    rw [hpage] at hp
    cases hp
  · obtain ⟨p, hp, -⟩ := hn
    rw [hpage] at hp
    cases hp
  · obtain ⟨r, hr, -⟩ := hn
    rw [h] at hr
    exact absurd hr (by simp [Directory.initial])
  · rw [h] at hn
    exact absurd hn (Nat.not_lt_zero n)

theorem initial_of_slots {d : Directory} (h : d.slots = Directory.initial.slots) : d = .initial := by
  obtain ⟨pages, n, free⟩ := d
  obtain ⟨hfree, hn, hpages⟩ : free = _ ∧ n = _ ∧ _ := by simpa [Directory.slots, Prod.mk.injEq] using h
  have hp : pages = Directory.initial.pages := by
    refine Vector.ext fun i hi => ?_
    have := congrArg (·[i]) hpages
    simpa [Directory.initial] using this
  rw [hfree, hn, hp]

/-- The law of the slot map, with the directory of UNCONFIGURED. -/
def State.mapOk (s : State) : Prop := s.slotsOk ∧ (s.window = .unconfigured → s.dir = .initial)

theorem keepsMap.mapOk {s t : State} (h : keepsMap s t) (hs : s.mapOk) : t.mapOk :=
  ⟨slotsOk_of_slots h.1 hs.1, fun hw => initial_of_slots (h.1.trans (congrArg _ (hs.2 (h.2 hw))))⟩

/-! ### A page is created (R18, R19) -/

theorem lowestFree_some {s : State} {pg : Handle} (h : s.lowestFree = some pg) :
    isPattern pg = false ∧ s.page pg = none := by
  have := List.find?_some h
  simpa using this

theorem createFields_pos {kind width height cells rate : Byte} (h : createFieldsOk kind width height cells rate = true) :
    0 < width.toNat * height.toNat * cells.toNat := by
  unfold createFieldsOk at h
  obtain ⟨hsize, hkind⟩ := Bool.and_eq_true _ _ ▸ h
  obtain ⟨hw, -, hh, -⟩ := of_decide_eq_true hsize
  have hc : 1 ≤ cells.toNat := by
    split at hkind
    · exact (of_decide_eq_true hkind).1
    · exact (by decide : 1 ≤ 2).trans (of_decide_eq_true hkind).1
    · cases hkind
  exact Nat.mul_pos (Nat.mul_pos hw hh) hc

/-- CREATE_PAGE leaves the directory, or puts a page at a FREE handle on the run that is allocated. -/
theorem createPage_cases (kind width height cells rate : Byte) (c : Caller) (s : State) :
    (createPage kind width height cells rate c s).dir = s.dir ∨
    ∃ pg base free, createFieldsOk kind width height cells rate = true ∧ isPattern pg = false ∧ s.page pg = none ∧
      allocRun (width.toNat * height.toNat * cells.toNat) s.dir.free = some (base, free) ∧
      (createPage kind width height cells rate c s).dir = (s.putPage pg (newPage c.port (s.cls c.port)
        ((kindField kind).getD .still) width.toNat height.toNat cells.toNat rate.toNat base) free).dir := by
  unfold createPage State.checked
  split
  · exact .inl (reply_dir _ _ _ _)
  · next hf =>
    have hfields := (firstFailure_none_iff _).1 hf (createFieldsOk kind width height cells rate, .badField) (by simp)
    dsimp only
    split
    · exact .inl (reply_dir _ _ _ _)
    · exact .inl (reply_dir _ _ _ _)
    · next pg base free hl ha =>
      obtain ⟨hp, hn⟩ := lowestFree_some hl
      exact .inr ⟨pg, base, free, hfields, hp, hn, ha, by rw [reply_dir]; rfl⟩

/-- A page on an allocated run keeps the law of the slot map. -/
theorem putPage_slotsOk {s : State} {pg : Handle} {p : Page} {free : List (Nat × Nat)} (hs : s.slotsOk)
    (hn : s.page pg = none) (hpos : 0 < p.slotCount) (ha : allocRun p.slotCount s.dir.free = some (p.baseSlot, free)) :
    (s.putPage pg p free).slotsOk := by
  obtain ⟨hruns, hcount, hheld, hone, hbelow, hall⟩ := hs
  obtain ⟨hok, -, hin, hiff⟩ := allocRun_effect hpos hruns ha
  have hfree : ∀ n, (s.putPage pg p free).slotFree n ↔ s.slotFree n ∧ ¬ inRun n p.baseSlot p.slotCount := hiff
  have hholds : ∀ k n, (s.putPage pg p free).pageHolds k n ↔
      s.pageHolds k n ∨ k = pg ∧ inRun n p.baseSlot p.slotCount := fun k n => by
    unfold State.pageHolds
    rw [putPage_page]
    by_cases hk : k = pg
    · subst hk
      rw [if_pos rfl, hn]
      simp
    · rw [if_neg hk]
      simp [hk]
  have hnew : ∀ n, inRun n p.baseSlot p.slotCount → s.slotFree n := hin
  refine ⟨hok, fun k q hq => ?_, fun k n hk => ?_, fun k l n hk hl => ?_, fun n hn => ?_, fun n hlt => ?_⟩
  · rw [putPage_page] at hq
    split at hq
    · obtain rfl := Option.some.inj hq
      exact hpos
    · exact hcount k q hq
  · rw [hfree]
    rcases (hholds k n).1 hk with hk | ⟨-, hk⟩
    · exact ⟨(hheld k n hk).1, fun hf => (hheld k n hk).2 hf.1⟩
    · exact ⟨hbelow n (hnew n hk), fun hf => hf.2 hk⟩
  · rcases (hholds k n).1 hk with ek | ⟨hkp, ek⟩ <;> rcases (hholds l n).1 hl with el | ⟨hlp, el⟩
    · exact hone k l n ek el
    · exact absurd (hnew n el) (hheld k n ek).2
    · exact absurd (hnew n ek) (hheld l n el).2
    · exact hkp.trans hlp.symm
  · exact hbelow n ((hfree n).1 hn).1
  · by_cases hr : inRun n p.baseSlot p.slotCount
    · exact .inr ⟨pg, (hholds pg n).2 (.inr ⟨rfl, hr⟩)⟩
    · rcases hall n hlt with hf | ⟨k, hk⟩
      · exact .inl ((hfree n).2 ⟨hf, hr⟩)
      · exact .inr ⟨k, (hholds k n).2 (.inl hk)⟩

theorem createPage_mapOk (kind width height cells rate : Byte) (c : Caller) {s : State} (hs : s.mapOk) :
    (createPage kind width height cells rate c s).mapOk := by
  have hw : (createPage kind width height cells rate c s).window = s.window :=
    congrArg SceneEngine.window (createPage_frame ..).2.2.2.2.1
  rcases createPage_cases kind width height cells rate c s with h | ⟨pg, base, free, hfields, -, hn, ha, h⟩
  · exact keepsMap.mapOk ⟨congrArg Directory.slots h, hw.symm.trans⟩ hs
  · refine ⟨slotsOk_of_slots (congrArg Directory.slots h)
      (putPage_slotsOk hs.1 hn (createFields_pos hfields) ha), fun hu => ?_⟩
    rw [hs.2 (hw.symm.trans hu)] at ha
    cases ha

/-! ### Pages are freed (R20, R21) -/

theorem freePage_populated (s : State) (pg : Handle) : (s.freePage pg).dir.populated = s.dir.populated := by
  unfold State.freePage
  split <;> rfl

theorem freePage_slotsOk {s : State} (pg : Handle) (hs : s.slotsOk) : (s.freePage pg).slotsOk := by
  obtain ⟨hruns, hcount, hheld, hone, hbelow, hall⟩ := hs
  have hholds : ∀ k n, (s.freePage pg).pageHolds k n ↔ s.pageHolds k n ∧ k ≠ pg := fun k n => by
    unfold State.pageHolds
    rw [freePage_page]
    by_cases hk : k = pg <;> simp [hk]
  have hfree : ∀ n, (s.freePage pg).slotFree n ↔ s.slotFree n ∨ s.pageHolds pg n := freePage_free s pg
  refine ⟨?_, fun k q hq => ?_, fun k n hk => ?_, fun k l n hk hl => ?_, fun n hn => ?_, fun n hlt => ?_⟩
  · unfold State.freePage
    cases hp : s.page pg with
    | none => exact hruns
    | some p => exact freeRun_ok (hcount pg p hp) hruns fun n hn => (hheld pg n ⟨p, hp, hn⟩).2
  · rw [freePage_page] at hq
    split at hq
    · cases hq
    · exact hcount k q hq
  · obtain ⟨hk, hne⟩ := (hholds k n).1 hk
    rw [hfree, freePage_populated]
    exact ⟨(hheld k n hk).1, fun hf => hf.elim (hheld k n hk).2 fun hp => hne (hone k pg n hk hp)⟩
  · exact hone k l n ((hholds k n).1 hk).1 ((hholds l n).1 hl).1
  · rw [freePage_populated]
    exact ((hfree n).1 hn).elim (hbelow n) fun hp => (hheld pg n hp).1
  · rw [freePage_populated] at hlt
    rcases hall n hlt with hf | ⟨k, hk⟩
    · exact .inl ((hfree n).2 (.inl hf))
    · by_cases he : k = pg
      · subst he
        exact .inl ((hfree n).2 (.inr hk))
      · exact .inr ⟨k, (hholds k n).2 ⟨hk, he⟩⟩

theorem freePage_mapOk {s : State} (pg : Handle) (hs : s.mapOk) : (s.freePage pg).mapOk := by
  refine ⟨freePage_slotsOk pg hs.1, fun hw => ?_⟩
  have hscene : (s.freePage pg).window = s.window := by
    unfold State.freePage
    split <;> rfl
  have hd := hs.2 (hscene.symm.trans hw)
  have hp : s.page pg = none := by
    unfold State.page
    rw [hd]
    simp [Directory.initial]
  unfold State.freePage
  rw [hp]
  exact hd

theorem reply_mapOk {s : State} (hs : s.mapOk) (c : Caller) (st : Status) (b : Body) : (s.reply c st b).mapOk :=
  keepsMap.mapOk (keepsSlots.reply (keepsSlots_refl s)).map hs

theorem checked_mapOk {s : State} {c : Caller} {ts : List Test} {act : State → State} {b : Body} (hs : s.mapOk)
    (h : firstFailure ts = none → (act s).mapOk) : (s.checked c ts act b).mapOk := by
  unfold State.checked
  split
  · exact reply_mapOk hs _ _ _
  · next hf => exact h hf

theorem deletePage_mapOk (pg : Handle) (c : Caller) {s : State} (hs : s.mapOk) : (deletePage pg c s).mapOk :=
  checked_mapOk hs fun _ => reply_mapOk (freePage_mapOk pg hs) _ _ _

theorem purgePages_mapOk (owner unsharedOnly : Byte) (c : Caller) {s : State} (hs : s.mapOk) :
    (purgePages owner unsharedOnly c s).mapOk := by
  refine checked_mapOk hs fun _ => ?_
  split
  · exact reply_mapOk (foldl_inv (inv := State.mapOk) (fun _ pg h => freePage_mapOk pg h) _ hs) _ _ _
  · exact hs

/-! ### CONFIGURE and the resets (R177, R178) -/

/-- The slots of a directory that is configured are all free. -/
theorem configured_slotsOk {s : State} {n : Nat} (hn : 0 < n)
    (h : s.dir = { Directory.initial with populated := n, free := [(0, n)] }) : s.slotsOk := by
  have hpage : ∀ pg, s.page pg = none := fun pg => by
    unfold State.page
    rw [h]
    simp [Directory.initial]
  have hheld : ∀ pg m, ¬ s.pageHolds pg m := fun pg m hm => by
    obtain ⟨p, hp, -⟩ := hm
    rw [hpage] at hp
    cases hp
  have hfree : ∀ m, s.slotFree m ↔ m < n := fun m => by
    unfold State.slotFree inRun
    rw [h]
    simp
  have hpop : s.dir.populated = n := by rw [h]
  refine ⟨?_, fun pg p hp => ?_, fun pg m hm => absurd hm (hheld pg m), fun pg k m hm => absurd hm (hheld pg m),
    fun m hm => ?_, fun m hm => ?_⟩
  · rw [h]
    exact runsOk_cons.2 ⟨hn, by simp, by simp, .nil⟩
  · rw [hpage] at hp
    cases hp
  · rw [hpop]
    exact (hfree m).1 hm
  · rw [hpop] at hm
    exact .inl ((hfree m).2 hm)

theorem configure_mapOk (rate : Byte) (slots : BitVec 16) (cols rows : Byte) (positions : Vector Byte 16)
    (presence : Byte) (start : BitVec 48) (c : Caller) {s : State} (hs : s.mapOk) :
    (configure rate slots cols rows positions presence start c s).mapOk := by
  refine checked_mapOk hs fun hf => ?_
  have htests := (firstFailure_none_iff _).1 hf
  have hw : s.window = .unconfigured := by
    simpa using htests (decide (s.window = .unconfigured), .state) (by simp [configureTests])
  have hslots : 0 < slots.toNat := by
    have h := htests (_, .badField) (List.mem_cons_of_mem _ (List.mem_cons_of_mem _ (List.mem_cons_of_mem _
      (List.mem_cons_self ..))))
    obtain ⟨h, -⟩ := Bool.and_eq_true _ _ ▸ h
    obtain ⟨-, h, -⟩ := of_decide_eq_true h
    simp only [List.mem_cons, List.not_mem_nil, or_false] at h
    omega
  have hd := hs.2 hw
  dsimp only
  generalize hu : s.modDir _ = u
  have hud : u.dir = { Directory.initial with populated := slots.toNat, free := [(0, slots.toNat)] } := by
    rw [← hu, modDir_dir, hd]
  have hfold := foldl_keeps (fun b : State => b.dir) (fun (s : State) (t : Tile) =>
    match (bindings cols.toNat rows.toNat positions)[t] with
    | some (some p) => s.setUnit t fun u => { u with position := some p, ctx := some .background }
    | _ => s) (fun b t => by split <;> rfl) allTiles u
  generalize hv : allTiles.foldl _ u = v at hfold ⊢
  refine ⟨configured_slotsOk hslots ?_, fun hc => ?_⟩
  · simp only [reply_dir, (powerOnBound_frame _).2.1, (setWindow_frame _ _).1, modScene_dir]
    exact hfold.trans hud
  · refine absurd hc ?_
    unfold State.window
    simp only [reply_scene, (powerOnBound_frame _).2.2.2.2.2.1]
    exact (by decide : (WindowState.lit : WindowState) ≠ .unconfigured)

theorem resetWindow_mapOk (c : Caller) {s : State} (hs : s.mapOk) : (resetWindow c s).mapOk := by
  refine checked_mapOk hs fun _ => ?_
  dsimp only
  generalize allPorts.foldl State.cancelTransit _ = u
  have hd : ((u.resetBlocks.grant.setWindow .unconfigured).reply c .ok).goOnAll.dir = .initial := by
    rw [(goOnAll_frame _).1, reply_dir, (setWindow_frame _ _).1]
    exact (grant_frame _).2.1
  exact ⟨initial_slotsOk hd, fun _ => hd⟩

theorem atBlock_mapOk (i : Instr) (c : Caller) {s : State} (hs : s.mapOk) : (atBlock i c s).mapOk := by
  by_cases hi : takesSlots i = false
  · exact (atBlock_map i hi c s).mapOk hs
  · cases i with
    | powerOnReset => exact ⟨initial_slotsOk rfl, fun _ => rfl⟩
    | configure => exact configure_mapOk _ _ _ _ _ _ _ c hs
    | resetWindow => exact resetWindow_mapOk c hs
    | createPage => exact createPage_mapOk _ _ _ _ _ c hs
    | deletePage => exact deletePage_mapOk _ c hs
    | purgePages => exact purgePages_mapOk _ _ c hs
    | _ => exact absurd rfl hi

/-! ### What is in transit in UNCONFIGURED (R175) -/

/-- In UNCONFIGURED nothing is in transit but what is served there. -/
def State.servedOk (s : State) : Prop :=
  s.window = .unconfigured → ∀ (p : Port) (i : Instr), s.ports[p].transit = some i → Instr.servedUnconfigured i = true

/-- The window has not become UNCONFIGURED, and nothing new is in transit. -/
theorem servedOk_of {s t : State} (hw : t.window = .unconfigured → s.window = .unconfigured)
    (ht : ∀ (p : Port) i, t.ports[p].transit = some i → s.ports[p].transit = some i) (hs : s.servedOk) : t.servedOk :=
  fun hu p i hi => hs (hw hu) p i (ht p i hi)

theorem servedOk_of_hears {s t : State} (hw : t.window = .unconfigured → s.window = .unconfigured) (ht : s.hears t)
    (hs : s.servedOk) : t.servedOk := servedOk_of hw (fun p _ hi => (ht.transit p).symm.trans hi) hs

/-- A port is changed, and what it has in transit is served in UNCONFIGURED where that is the window. -/
theorem setPort_servedOk {s : State} {p : Port} {f : PortRec → PortRec} (hs : s.servedOk)
    (hf : ∀ i, (f s.ports[p]).transit = some i → s.ports[p].transit = some i ∨
      (s.window = .unconfigured → Instr.servedUnconfigured i = true)) : (s.setPort p f).servedOk := by
  intro hu q i hi
  have hu' : s.window = .unconfigured := hu
  rw [setPort_ports, upd_at] at hi
  split at hi
  · next h =>
    subst h
    exact (hf i hi).elim (hs hu' p i) fun h => h hu'
  · exact hs hu' q i hi

theorem goOn_servedOk {s : State} (hs : s.servedOk) (p : Port) : (s.goOn p).servedOk := by
  obtain ⟨⟨hother, -, hscene⟩, -, hserved⟩ := goOn_portsGo s p
  intro hu q i hi
  have hu' : s.window = .unconfigured := by
    unfold State.window at hu ⊢
    rwa [hscene] at hu
  by_cases hq : q = p
  · subst hq
    exact (hserved i hi).elim (hs hu' q i) fun h => h hu'
  · rw [hother q hq] at hi
    exact hs hu' q i hi

theorem wait_servedOk {s : State} (hs : s.servedOk) (p : Port) (i : Instr) : (s.wait p i).servedOk :=
  setPort_servedOk hs fun _ h => .inl h

theorem reply_servedOk {s : State} (hs : s.servedOk) (c : Caller) (st : Status) (b : Body) : (s.reply c st b).servedOk :=
  servedOk_of_hears (fun hu => by
    unfold State.window at hu ⊢
    rwa [reply_scene] at hu) (State.hears_of_eq (reply_ports _ _ _ _)) hs

/-- A request that is served keeps what is in transit, where its effect does. -/
theorem serve_servedOk {act : Caller → State → State} (ha : ∀ c s, s.servedOk → (act c s).servedOk) (h : Hdr)
    (code : Byte) (self : Hdr → Instr) {any : Bool} (hany : ∀ h', Instr.servedUnconfigured (self h') = any) {s : State}
    (hs : s.servedOk) : (serve h code self any act s).servedOk := by
  unfold serve
  dsimp only
  split
  · exact hs
  cases h.stage
  case take =>
    dsimp only
    split
    · exact goOn_servedOk (ha _ _ (setPort_servedOk hs fun _ hi => absurd hi (by simp))) _
    · exact hs
  case whole =>
    dsimp only
    split
    · exact wait_servedOk hs _ _
    split
    · exact reply_servedOk hs _ _ _
    · exact ha _ _ hs
  case pass =>
    dsimp only
    split
    · exact wait_servedOk hs _ _
    split
    · exact reply_servedOk hs _ _ _
    · next hn =>
      refine setPort_servedOk hs fun i hi => .inr fun hu => ?_
      obtain rfl := Option.some.inj hi
      rw [hany]
      simpa [hu] using hn

theorem serveAtPort_servedOk {act : Caller → State → State} (ha : ∀ c s, s.servedOk → (act c s).servedOk) (h : Hdr)
    (code : Byte) (self : Hdr → Instr) {s : State} (hs : s.servedOk) : (serveAtPort h code self act s).servedOk := by
  unfold serveAtPort
  dsimp only
  split
  · exact hs
  split
  · exact wait_servedOk hs _ _
  · exact ha _ _ hs

theorem resetWindow_servedOk (c : Caller) {s : State} (hs : s.servedOk) : (resetWindow c s).servedOk := by
  unfold resetWindow State.checked
  split
  · exact reply_servedOk hs _ _ _
  · dsimp only
    generalize allPorts.foldl State.cancelTransit _ = u
    have hh : u.resetBlocks.hears ((u.resetBlocks.grant.setWindow .unconfigured).reply c .ok) :=
      hears_then ((State.hears_of_eq (grant_frame _).1).trans (setWindow_hears _ _)) (reply_ports _ _ _ _)
    refine foldl_inv (inv := State.servedOk) (fun _ p h => goOn_servedOk h p) _ fun _ p i hi => ?_
    rw [hh.transit p, resetBlocks_port] at hi
    cases hi

/-- No command but a reset makes the window UNCONFIGURED. -/
theorem atBlock_window (i : Instr) (c : Caller) {s : State} (hi : ∀ h, i ≠ .resetWindow h)
    (hp : ∀ st, i ≠ .powerOnReset st) (hu : (atBlock i c s).window = .unconfigured) : s.window = .unconfigured := by
  by_cases hk : takesSlots i = false
  · exact (atBlock_map i hk c s).2 hu
  · cases i with
    | powerOnReset st => exact absurd rfl (hp st)
    | resetWindow h => exact absurd rfl (hi h)
    | configure =>
      simp only [atBlock, configure, State.checked] at hu
      split at hu
      · simpa [State.window] using hu
      · exact absurd hu (by simp [State.window, State.setWindow])
    | createPage => simpa [State.window, atBlock] using hu
    | deletePage => simpa [State.window, atBlock] using hu
    | purgePages => simpa [State.window, atBlock] using hu
    | _ => exact absurd rfl hk

theorem atBlock_servedOk (i : Instr) (c : Caller) {s : State} (hs : s.servedOk) : (atBlock i c s).servedOk := by
  by_cases hk : changesPorts i = false
  · cases i with
    | powerOnReset | resetWindow => cases hk
    | _ => exact servedOk_of_hears (atBlock_window _ c nofun nofun) (atBlock_hears _ hk c s) hs
  · cases i with
    | powerOnReset st =>
      intro _ p i hi
      have hp : (atBlock (.powerOnReset st) c s).ports[p] = .initial (classOfStraps st[p]) := by simp [atBlock]
      rw [hp] at hi
      cases hi
    | badRequest p frame =>
      simp only [atBlock, badRequest]
      split
      · exact hs
      split
      · exact wait_servedOk hs _ _
      · exact reply_servedOk hs _ _ _
    | resetWindow => exact resetWindow_servedOk c hs
    | getEvents => exact reply_servedOk (setPort_servedOk hs fun _ h => .inl h) _ _ _
    | setEventMask _ mask =>
      simp only [atBlock, setEventMask, State.checked]
      split
      · exact reply_servedOk hs _ _ _
      · exact reply_servedOk (setPort_servedOk hs fun _ h => .inl h) _ _ _
    | clientLinkUp p =>
      simp only [atBlock, clientLinkUp]
      split
      · exact hs
      · exact setPort_servedOk hs fun _ hi => absurd hi (by simp)
    | portLoss p =>
      refine servedOk_of (atBlock_window _ c nofun nofun) (fun q i hi => ?_) hs
      simp only [atBlock, portLoss_ports] at hi
      split at hi
      · rw [upd_at] at hi
        split at hi
        · cases hi
        · exact hi
      · exact hi
    | _ => exact absurd rfl hk

/-- Every command keeps what is in transit as it should be. -/
theorem exec_servedOk {i : Instr} {s t : State} (h : exec i s = .next t) (hs : s.servedOk) : t.servedOk := by
  rcases exec_course i s with ⟨_, _, _, _, hany, he⟩ | ⟨_, _, _, he⟩ | he
  · cases he.symm.trans h
    exact serve_servedOk (fun c s => atBlock_servedOk i c) _ _ _ hany hs
  · cases he.symm.trans h
    exact serveAtPort_servedOk (fun c s => atBlock_servedOk i c) _ _ _ hs
  · cases (he ⟨0, 0, 0⟩).symm.trans h
    exact atBlock_servedOk i _ hs

theorem unconfiguredOk_iff (s : State) :
    s.unconfiguredOk ↔ (s.window = .unconfigured → s.dir = .initial) ∧ s.servedOk := by
  unfold State.unconfiguredOk State.servedOk State.window
  exact imp_and

/-- Settles O59: the law of the map is kept at the block of every command, and what is in transit along its course. -/
theorem slotMapStaysConsistent : Obligations.SlotMapStaysConsistent := by
  intro s t hs hu h
  obtain ⟨hd, hserved⟩ := (unconfiguredOk_iff s).1 hu
  have hmap : t.mapOk := step_keeps (P := State.mapOk) (fun _ _ _ _ h => h) (fun i c _ => atBlock_mapOk i c) h ⟨hs, hd⟩
  refine ⟨hmap.1, (unconfiguredOk_iff t).2 ⟨hmap.2, ?_⟩⟩
  rcases step_cases h with rfl | ⟨i, rest, -, h⟩
  · exact hserved
  · exact exec_servedOk h hserved

end Sys2Proof.Machine
end

