-- ==== Sys2Proof/Proofs/PageStates.lean ====
section
/-! PROOFS. The law of the page states: each operation on a page, a channel or the edit queue keeps it, or passes the
page between the law and the load or the COPY that writes it (R5, R6, R51). -/

namespace Sys2Proof.Machine

/-! ### The law, with writers that are on their way -/

/-- A RING load is bound to a LIVE page (R51). -/
def State.ringsOk (s : State) : Prop :=
  ∀ (c : ChanId) (l : Load) (n : Nat) (k : Option Check), s.load.chans[c] = some l → l.mode = .ring n k →
    ∃ p, s.page l.page = some p ∧ p.kind = .live

/-- The law of the page states, where some pages have writers beside the channels and the edits. -/
def State.pagesOkWith (s : State) (x : Handle → Nat) : Prop :=
  (∀ h p, s.page h = some p → p.stateOk) ∧
    (∀ h, s.writers h + x h = if (s.page h).any fun p => p.state = .loading then 1 else 0) ∧ s.ringsOk

theorem pagesOk_iff (s : State) : s.pagesOk ↔ s.pagesOkWith fun _ => 0 := Iff.rfl

/-- One writer of a page. -/
def oneAt (pg : Handle) (h : Handle) : Nat := if h = pg then 1 else 0

/-- What the law says of a page does not depend on its pins. -/
theorem plan_stateOk (p : Page) : p.plan.stateOk ↔ p.stateOk := Iff.rfl

theorem page_of_plan {s t : State} (h : t.dir.plan = s.dir.plan) (pg : Handle) :
    (t.page pg).map Page.plan = (s.page pg).map Page.plan := by
  have hp := congrArg (fun d : Directory => d.pages[handleIndex pg]) h
  unfold Directory.plan at hp
  simp only [Fin.getElem_fin, Vector.getElem_map] at hp
  exact hp

/-- A page of one directory is, but for its pins, the page of another. -/
theorem page_some_of_plan {s t : State} (h : t.dir.plan = s.dir.plan) {pg : Handle} {p : Page} (hp : t.page pg = some p) :
    ∃ q, s.page pg = some q ∧ p.plan = q.plan := by
  have hm := page_of_plan h pg
  rw [hp] at hm
  cases hq : s.page pg with
  | none => rw [hq] at hm; cases hm
  | some q => rw [hq] at hm; exact ⟨q, rfl, Option.some.inj hm⟩

theorem loading_of_plan {s t : State} (h : t.dir.plan = s.dir.plan) (pg : Handle) :
    ((t.page pg).any fun p => p.state = .loading) = (s.page pg).any fun p => p.state = .loading := by
  have hany : ∀ o : Option Page, (o.any fun p => decide (p.state = .loading)) =
      (o.map Page.plan).any fun p => p.state = .loading := fun o => by cases o <;> rfl
  rw [hany (t.page pg), hany (s.page pg), page_of_plan h]

theorem writers_of {s t : State} (hl : t.load.chans = s.load.chans) (he : t.edit.queue = s.edit.queue) (h : Handle) :
    t.writers h = s.writers h := by
  unfold State.writers
  rw [hl, he]

/-- A directory changed in its pins alone keeps the law. -/
theorem pagesOk_of_plan {s t : State} {x : Handle → Nat} (hd : t.dir.plan = s.dir.plan)
    (hl : t.load.chans = s.load.chans) (he : t.edit.queue = s.edit.queue) (hs : s.pagesOkWith x) : t.pagesOkWith x := by
  obtain ⟨hstate, hwriters, hrings⟩ := hs
  refine ⟨fun h p hp => ?_, fun h => ?_, fun c l n k hc hm => ?_⟩
  · obtain ⟨q, hq, hpq⟩ := page_some_of_plan hd hp
    rw [← plan_stateOk, hpq, plan_stateOk]
    exact hstate h q hq
  · rw [writers_of hl he, loading_of_plan hd]
    exact hwriters h
  · rw [hl] at hc
    obtain ⟨q, hq, hk⟩ := hrings c l n k hc hm
    obtain ⟨p, hp, hqp⟩ := page_some_of_plan hd.symm hq
    exact ⟨p, hp, (congrArg Page.kind hqp).symm.trans hk⟩

theorem pagesOk_of_dir {s t : State} {x : Handle → Nat} (hd : t.dir = s.dir) (hl : t.load.chans = s.load.chans)
    (he : t.edit.queue = s.edit.queue) (hs : s.pagesOkWith x) : t.pagesOkWith x :=
  pagesOk_of_plan (congrArg _ hd) hl he hs

/-! ### An entry changes -/

theorem setPage_some {s : State} {pg h : Handle} {f : Page → Page} {p : Page} (hp : (s.setPage pg f).page h = some p) :
    ∃ q, s.page h = some q ∧ p = if h = pg then f q else q := by
  rw [page_setPage] at hp
  split at hp
  · next he =>
    obtain ⟨q, hq, rfl⟩ := Option.map_eq_some_iff.1 hp
    exact ⟨q, hq, (if_pos he).symm⟩
  · next he => exact ⟨p, hp, (if_neg he).symm⟩

/-- A changed entry keeps the law where its own part of the law, its kind and the count of its writers agree. -/
theorem setPage_pagesOkWith {s : State} {pg : Handle} {f : Page → Page} {x y : Handle → Nat} (hs : s.pagesOkWith x)
    (hf : ∀ p, s.page pg = some p → p.stateOk → (f p).stateOk ∧ (f p).kind = p.kind)
    (hy : ∀ h, h ≠ pg → y h = x h)
    (hw : s.writers pg + y pg = if (s.page pg).any fun p => (f p).state = .loading then 1 else 0) :
    (s.setPage pg f).pagesOkWith y := by
  obtain ⟨hstate, hwriters, hrings⟩ := hs
  refine ⟨fun h p hp => ?_, fun h => ?_, fun c l n k hc hm => ?_⟩
  · obtain ⟨q, hq, rfl⟩ := setPage_some hp
    split
    · next he => exact (hf q (he ▸ hq) (hstate h q hq)).1
    · exact hstate h q hq
  · have hsame : (s.setPage pg f).writers h = s.writers h := writers_of rfl rfl h
    rw [hsame, page_setPage]
    by_cases he : h = pg
    · subst he
      rw [if_pos rfl, hw]
      cases s.page h <;> rfl
    · rw [if_neg he, hy h he]
      exact hwriters h
  · obtain ⟨q, hq, hk⟩ := hrings c l n k hc hm
    rw [page_setPage, hq]
    split
    · next he => exact ⟨f q, rfl, (hf q (he ▸ hq) (hstate _ q hq)).2.trans hk⟩
    · exact ⟨q, rfl, hk⟩

/-- A changed entry that is LOADING as before keeps the law. -/
theorem setPage_pagesOk_same {s : State} {pg : Handle} {f : Page → Page} {x : Handle → Nat} (hs : s.pagesOkWith x)
    (hf : ∀ p, s.page pg = some p → p.stateOk →
      (f p).stateOk ∧ (f p).kind = p.kind ∧ ((f p).state = .loading ↔ p.state = .loading)) :
    (s.setPage pg f).pagesOkWith x := by
  refine setPage_pagesOkWith hs (fun p hp hok => ⟨(hf p hp hok).1, (hf p hp hok).2.1⟩) (fun _ _ => rfl) ?_
  rw [hs.2.1]
  cases hp : s.page pg with
  | none => rfl
  | some p => simp only [Option.any_some, decide_eq_true_eq, (hf p hp (hs.1 pg p hp)).2.2]

/-- A page that is written and no longer LOADING has lost its one writer. -/
theorem setPage_pagesOk_end {s : State} {pg : Handle} {f : Page → Page} (hs : s.pagesOkWith (oneAt pg))
    (hf : ∀ p, s.page pg = some p → p.state = .loading → p.stateOk →
      (f p).stateOk ∧ (f p).kind = p.kind ∧ (f p).state ≠ .loading) : (s.setPage pg f).pagesOkWith fun _ => 0 := by
  have hw := hs.2.1 pg
  rw [oneAt, if_pos rfl] at hw
  cases hp : s.page pg with
  | none => rw [hp] at hw; simp at hw
  | some p =>
    rw [hp] at hw
    have hload : p.state = .loading := by
      by_contra hne
      simp [hne] at hw
    have hzero : s.writers pg = 0 := by simpa [hload] using hw
    refine setPage_pagesOkWith hs (fun q hq hok => ?_) (fun h hne => (if_neg hne).symm) ?_
    · obtain rfl := Option.some.inj (hp.symm.trans hq)
      exact ⟨(hf p hp hload hok).1, (hf p hp hload hok).2.1⟩
    · rw [hzero, hp]
      simp [(hf p hp hload (hs.1 pg p hp)).2.2]

/-- A page that becomes LOADING has one writer. -/
theorem setPage_pagesOk_begin {s : State} {pg : Handle} {f : Page → Page} {p : Page} (hs : s.pagesOkWith fun _ => 0)
    (hp : s.page pg = some p) (hn : p.state ≠ .loading)
    (hf : (f p).stateOk ∧ (f p).kind = p.kind ∧ (f p).state = .loading) :
    (s.setPage pg f).pagesOkWith (oneAt pg) := by
  have hw := hs.2.1 pg
  rw [hp] at hw
  refine setPage_pagesOkWith hs (fun q hq _ => ?_) (fun h hne => if_neg hne) ?_
  · obtain rfl := Option.some.inj (hp.symm.trans hq)
    exact ⟨hf.1, hf.2.1⟩
  · rw [hp, oneAt, if_pos rfl]
    simpa [hn, hf.2.2] using hw

/-! ### A channel or the edit queue changes -/

theorem countP_upd {α : Type} {n : Nat} (v : Vector α n) (i : Fin n) (f : α → α) (P : α → Bool) {l : List (Fin n)}
    (hl : l.Nodup) (hi : i ∈ l) :
    (l.countP fun j => P (upd v i f)[j]) + (P v[i]).toNat = (l.countP fun j => P v[j]) + (P (f v[i])).toNat := by
  induction l with
  | nil => cases hi
  | cons j l ih =>
    obtain ⟨hj, hl⟩ := List.nodup_cons.1 hl
    rw [List.countP_cons, List.countP_cons]
    rcases List.mem_cons.1 hi with rfl | hi
    · have hrest : (l.countP fun j => P (upd v i f)[j]) = l.countP fun j => P v[j] :=
        List.countP_congr fun k hk => by
          have hne : i ≠ k := fun e => hj (e ▸ hk)
          rw [upd_other _ _ _ _ hne]
      rw [hrest, upd_same]
      cases P v[i] <;> cases P (f v[i]) <;> simp
    · have hother : (upd v i f)[j] = v[j] := upd_other _ _ _ _ fun e => hj (e ▸ hi)
      have := ih hl hi
      rw [hother]
      omega

theorem setChan_writers (s : State) (c : ChanId) (f : Option Load → Option Load) (h : Handle) :
    (s.setChan c f).writers h + (s.load.chans[c].any (·.blockOf h)).toNat =
      s.writers h + ((f s.load.chans[c]).any (·.blockOf h)).toNat := by
  have hcount : (allChans.countP fun d => ((upd s.load.chans c f)[d]).any (·.blockOf h)) +
      (s.load.chans[c].any (·.blockOf h)).toNat =
      (allChans.countP fun d => (s.load.chans[d]).any (·.blockOf h)) +
        ((f s.load.chans[c]).any (·.blockOf h)).toNat :=
    countP_upd s.load.chans c f (fun l => l.any (·.blockOf h)) nodup_allChans (mem_allChans c)
  change (allChans.countP fun d => ((upd s.load.chans c f)[d]).any (·.blockOf h)) +
      s.edit.queue.countP (·.copiesTo h) + (s.load.chans[c].any (·.blockOf h)).toNat =
    (allChans.countP fun d => (s.load.chans[d]).any (·.blockOf h)) + s.edit.queue.countP (·.copiesTo h) +
      ((f s.load.chans[c]).any (·.blockOf h)).toNat
  omega

/-- A changed channel keeps the law where it takes over what it no longer writes, and is bound as a RING load is. -/
theorem setChan_pagesOkWith {s : State} {c : ChanId} {f : Option Load → Option Load} {x y : Handle → Nat}
    (hs : s.pagesOkWith x)
    (hw : ∀ h, (s.load.chans[c].any (·.blockOf h)).toNat + x h = ((f s.load.chans[c]).any (·.blockOf h)).toNat + y h)
    (hring : ∀ l n k, f s.load.chans[c] = some l → l.mode = .ring n k → ∃ p, s.page l.page = some p ∧ p.kind = .live) :
    (s.setChan c f).pagesOkWith y := by
  obtain ⟨hstate, hwriters, hrings⟩ := hs
  refine ⟨hstate, fun h => ?_, fun d l n k hd hm => ?_⟩
  · refine Eq.trans ?_ (hwriters h)
    have := setChan_writers s c f h
    have := hw h
    omega
  · have hat : (s.setChan c f).load.chans[d] = if c = d then f s.load.chans[d] else s.load.chans[d] := upd_at _ _ _ _
    rw [hat] at hd
    split at hd
    · next he =>
      subst he
      exact hring l n k hd hm
    · exact hrings d l n k hd hm

theorem setQueue_pagesOkWith {s t : State} {x y : Handle → Nat} (hs : s.pagesOkWith x) (hd : t.dir = s.dir)
    (hl : t.load.chans = s.load.chans)
    (hw : ∀ h, s.edit.queue.countP (·.copiesTo h) + x h = t.edit.queue.countP (·.copiesTo h) + y h) :
    t.pagesOkWith y := by
  obtain ⟨hstate, hwriters, hrings⟩ := hs
  have hpage : ∀ h, t.page h = s.page h := fun h => by
    unfold State.page
    rw [hd]
  refine ⟨fun h p hp => hstate h p ((hpage h).symm.trans hp), fun h => ?_, fun d l n k hd hm => ?_⟩
  · rw [hpage, ← hwriters h]
    have := hw h
    unfold State.writers
    rw [hl]
    omega
  · rw [hpage]
    rw [hl] at hd
    exact hrings d l n k hd hm

end Sys2Proof.Machine
end

