-- ==== Sys2Proof/Proofs/PagesKept.lean ====
section
/-! PROOFS. Every command keeps the law of the page states at its block (R6, R51). -/

namespace Sys2Proof.Machine

/-- A state whose directory, channels and edits are those of one that keeps the law. -/
theorem State.pagesOkWith.congr {s t : State} {x : Handle → Nat} (hs : s.pagesOkWith x)
    (h : t.dir = s.dir ∧ t.load = s.load ∧ t.edit = s.edit) : t.pagesOkWith x :=
  pagesOk_of_dir h.1 (congrArg LoadEngine.chans h.2.1) (congrArg EditUnit.queue h.2.2) hs

theorem raise_pagesOk {s : State} {x : Handle → Nat} {p : Port} {e : Event} (hs : s.pagesOkWith x) :
    (s.raise p e).pagesOkWith x := hs.congr ⟨rfl, rfl, rfl⟩

theorem reply_pagesOk {s : State} {x : Handle → Nat} {c : Caller} {st : Status} {b : Body} (hs : s.pagesOkWith x) :
    (s.reply c st b).pagesOkWith x := hs.congr (by simp)

/-! ### A page is settled, or damaged (R6, R7) -/

theorem still_of_loading {p : Page} (h : p.stateOk) (hl : p.state = .loading) : p.kind = .still ∧ p.damaged ≠ none := by
  obtain ⟨hlive, hdam, -⟩ := h
  have hk : p.kind ≠ .live := fun hk => by
    rw [hlive.2 hk] at hl
    cases hl
  exact ⟨by cases hkind : p.kind with
    | still => rfl
    | live => exact absurd hkind hk, fun hd => hk (hdam.1 hd)⟩

theorem settle_stateOk {p : Page} (hk : p.kind = .still) (hd : p.damaged ≠ none) :
    p.settle.stateOk ∧ p.settle.kind = p.kind ∧ p.settle.state ≠ .loading := by
  have hstate : p.settle.state = if p.damaged = some true then .damaged else if p.allValid then .ready else .incomplete :=
    rfl
  have hnot : ∀ st, st = .live ∨ st = .loading → p.settle.state ≠ st := fun st hst => by
    rw [hstate]
    rcases hst with rfl | rfl
    all_goals
      split
      · decide
      · split <;> decide
  refine ⟨⟨iff_of_false (hnot _ (.inl rfl)) (by rw [show p.settle.kind = p.kind from rfl, hk]; decide),
    iff_of_false hd (by rw [show p.settle.kind = p.kind from rfl, hk]; decide), fun _ _ => hstate⟩, rfl, hnot _ (.inr rfl)⟩

theorem damage_stateOk {p : Page} (h : p.stateOk) :
    p.damage.stateOk ∧ p.damage.kind = p.kind ∧ (p.damage.state = .loading ↔ p.state = .loading) := by
  unfold Page.damage
  split
  · exact ⟨h, rfl, Iff.rfl⟩
  · next hk =>
    dsimp only
    split
    · next hl =>
      obtain ⟨hlive, -, -⟩ := h
      exact ⟨⟨hlive, iff_of_false (by simp) (by simp [hk]), fun _ hn => absurd hl hn⟩, rfl, Iff.rfl⟩
    · next hl =>
      obtain ⟨hok, hkind, hn⟩ := settle_stateOk (p := { p with damaged := some true }) hk (by simp)
      exact ⟨hok, hkind, iff_of_false hn hl⟩

theorem uncorrectable_pagesOk {s : State} {x : Handle → Nat} (hs : s.pagesOkWith x) (k : FaultKind) (o : Origin)
    (a : WordAddr) : (s.uncorrectable k o a).pagesOkWith x := by
  unfold State.uncorrectable
  dsimp only
  cases s.slotOwner a.slot with
  | none => split <;> exact hs.congr (by simp)
  | some pg =>
    have h : (s.setPage pg Page.damage).pagesOkWith x := setPage_pagesOk_same hs fun p _ hok => damage_stateOk hok
    dsimp only
    generalize s.setPage pg Page.damage = t at h ⊢
    split <;> exact h.congr (by simp)

theorem lineEffects_pagesOk {s : State} {x : Handle → Nat} (hs : s.pagesOkWith x) (k : FaultKind) (o : Origin)
    (slot line : Nat) (ws : List (Nat × ReadClass)) : (s.lineEffects k o slot line ws).pagesOkWith x := by
  induction ws generalizing s with
  | nil => exact hs
  | cons w ws ih =>
    rw [State.lineEffects]
    refine ih ?_
    unfold State.wordEffect
    split
    · exact hs
    · exact hs.congr (by simp)
    · exact uncorrectable_pagesOk hs k o _

/-! ### Loads (R52 to R65) -/

/-- A BLOCK load writes its page, and no other. -/
theorem blockOf_block {l : Load} {first count : Nat} {k : Check} (hm : l.mode = .block first count k) (h : Handle) :
    (l.blockOf h).toNat = oneAt l.page h := by
  unfold Load.blockOf oneAt
  rw [hm]
  by_cases he : l.page = h
  · simp [he]
  · simp [he, Ne.symm he]

/-- A RING load writes no page. -/
theorem blockOf_ring {l : Load} {n : Nat} {k : Option Check} (hm : l.mode = .ring n k) (h : Handle) :
    l.blockOf h = false := by
  unfold Load.blockOf
  rw [hm]
  exact Bool.and_false _

/-- A channel whose load goes on in its mode and with its page keeps the law. -/
theorem setChan_pagesOk {s : State} {c : ChanId} {f : Option Load → Option Load} {x : Handle → Nat}
    (hs : s.pagesOkWith x) (hf : ∀ l, f s.load.chans[c] = some l →
      ∃ l₀, s.load.chans[c] = some l₀ ∧ l.page = l₀.page ∧
        ((∃ a b k, l₀.mode = .block a b k ∧ l.mode = .block a b k) ∨
          ∃ a b k k', l₀.mode = .ring a k ∧ l.mode = .ring b k'))
    (hn : f s.load.chans[c] = none → s.load.chans[c] = none) : (s.setChan c f).pagesOkWith x := by
  refine setChan_pagesOkWith hs (fun h => ?_) fun l n k hl hm => ?_
  · cases hl : f s.load.chans[c] with
    | none => rw [hn hl]
    | some l =>
      obtain ⟨l₀, h₀, hpage, ⟨a, b, k, hm₀, hm⟩ | ⟨a, b, k, k', hm₀, hm⟩⟩ := hf l hl
      · rw [h₀, Option.any_some, Option.any_some, blockOf_block hm₀, blockOf_block hm, hpage]
      · rw [h₀, Option.any_some, Option.any_some, blockOf_ring hm₀, blockOf_ring hm]
  · obtain ⟨l₀, h₀, hpage, ⟨a, b, k, hm₀, hm'⟩ | ⟨a, b, k₀, k', hm₀, -⟩⟩ := hf l hl
    · cases hm'.symm.trans hm
    · rw [hpage]
      exact hs.2.2 c l₀ a k₀ h₀ hm₀

/-- A channel becomes IDLE: the page of a BLOCK load is left without the writer it had. -/
theorem idle_pagesOk_block {s : State} {c : ChanId} {l : Load} {first count : Nat} {k : Check}
    (hs : s.pagesOkWith fun _ => 0) (hl : s.load.chans[c] = some l) (hm : l.mode = .block first count k) :
    (s.setChan c fun _ => none).pagesOkWith (oneAt l.page) := by
  refine setChan_pagesOkWith hs (fun h => ?_) fun l n k hn _ => nomatch hn
  rw [hl, Option.any_some, blockOf_block hm]
  simp

theorem idle_pagesOk_ring {s : State} {c : ChanId} {l : Load} {n : Nat} {k : Option Check} {x : Handle → Nat}
    (hs : s.pagesOkWith x) (hl : s.load.chans[c] = some l) (hm : l.mode = .ring n k) :
    (s.setChan c fun _ => none).pagesOkWith x := by
  refine setChan_pagesOkWith hs (fun h => ?_) fun l n k hn _ => nomatch hn
  rw [hl, Option.any_some, blockOf_ring hm]
  simp

/-- A page that loses its writer and is settled keeps the law. -/
theorem settle_pagesOk {s : State} {pg : Handle} {f : Page → Page} (hs : s.pagesOkWith (oneAt pg))
    (hf : ∀ p, p.damaged ≠ none → ∃ q : Page, f p = q.settle ∧ q.kind = p.kind ∧ q.damaged ≠ none) :
    (s.setPage pg f).pagesOkWith fun _ => 0 := by
  refine setPage_pagesOk_end hs fun p _ hload hok => ?_
  obtain ⟨hk, hd⟩ := still_of_loading hok hload
  obtain ⟨q, hq, hkind, hdam⟩ := hf p hd
  obtain ⟨h1, h2, h3⟩ := settle_stateOk (p := q) (hkind.trans hk) hdam
  rw [hq]
  exact ⟨h1, h2.trans hkind, h3⟩

/-- An entry of a LIVE page that changes in its cells keeps the law. -/
theorem setPage_pagesOk_live {s : State} {pg : Handle} {f : Page → Page} {x : Handle → Nat} (hs : s.pagesOkWith x)
    (hlive : ∃ p, s.page pg = some p ∧ p.kind = .live)
    (hf : ∀ p, (f p).state = p.state ∧ (f p).kind = p.kind ∧ (f p).damaged = p.damaged) :
    (s.setPage pg f).pagesOkWith x := by
  obtain ⟨q, hq, hk⟩ := hlive
  refine setPage_pagesOk_same hs fun p hp hok => ?_
  obtain rfl := Option.some.inj (hq.symm.trans hp)
  obtain ⟨h1, h2, h3⟩ := hf q
  obtain ⟨hst, hdam, -⟩ := hok
  refine ⟨⟨?_, ?_, fun hn => ?_⟩, h2, by rw [h1]⟩
  · rw [h1, h2]
    exact hst
  · rw [h3, h2]
    exact hdam
  · rw [h2, hk] at hn
    cases hn

theorem beginTarget_pagesOk {s : State} {x : Handle → Nat} (hs : s.pagesOkWith x) (c : ChanId) :
    (s.beginTarget c).pagesOkWith x := by
  unfold State.beginTarget
  cases hl : s.load.chans[c] with
  | none => exact hs
  | some l =>
    dsimp only
    split
    · next n k hm =>
      have hchan : ∀ l' : Load, l'.page = l.page → (∃ k', l'.mode = .ring n k') →
          (s.setChan c fun _ => some l').pagesOkWith x := fun l' hp hk =>
        setChan_pagesOk hs (fun l₁ h₁ => ⟨l, hl, by
          obtain rfl := Option.some.inj h₁
          obtain ⟨k', hk⟩ := hk
          exact ⟨hp, .inr ⟨n, n, k, k', hm, hk⟩⟩⟩) (fun h => nomatch h)
      split
      · exact hchan _ rfl ⟨k, hm⟩
      · refine setPage_pagesOk_live (hchan _ rfl ⟨none, rfl⟩) (hs.2.2 c l n k hl hm) fun p => ⟨rfl, rfl, rfl⟩
    · exact hs

theorem endBlock_pagesOk {s : State} (hs : s.pagesOkWith fun _ => 0) {c : ChanId} {l : Load} {first count : Nat}
    {expected : Check} (hl : s.load.chans[c] = some l) (hm : l.mode = .block first count expected) :
    (s.endBlock c l first count expected).pagesOkWith fun _ => 0 := by
  have h := idle_pagesOk_block hs hl hm
  unfold State.endBlock
  dsimp only
  split
  · refine raise_pagesOk ?_
    refine settle_pagesOk h fun p hd => ⟨_, rfl, rfl, ?_⟩
    dsimp only
    split
    · simp
    · exact hd
  · refine raise_pagesOk ?_
    exact settle_pagesOk h fun p hd => ⟨p, rfl, rfl, hd⟩

theorem endCell_pagesOk {s : State} {x : Handle → Nat} (hs : s.pagesOkWith x) {c : ChanId} {l : Load} {target : Nat}
    {k : Option Check} (hl : s.load.chans[c] = some l) (hm : l.mode = .ring target k) :
    (s.endCell c l target k).pagesOkWith x := by
  unfold State.endCell
  dsimp only
  split
  · refine beginTarget_pagesOk ?_ c
    have h := setPage_pagesOk_live (f := fun p => { p with valid := insertBit p.valid target, latest := some target }) hs
      (hs.2.2 c l target k hl hm) fun p => ⟨rfl, rfl, rfl⟩
    refine setChan_pagesOk h (fun l' h' => ?_) fun hn => ?_
    · have hl' : (s.setPage l.page fun p =>
        { p with valid := insertBit p.valid target, latest := some target }).load.chans[c] = some l := hl
      rw [hl'] at h' ⊢
      obtain rfl := Option.some.inj h'
      exact ⟨l, rfl, rfl, .inr ⟨target, _, k, none, hm, rfl⟩⟩
    · rwa [Option.map_eq_none_iff] at hn
  · exact State.pagesOkWith.congr (beginTarget_pagesOk hs c) ⟨rfl, rfl, rfl⟩

theorem lineLoaded_pagesOk {s : State} (hs : s.pagesOkWith fun _ => 0) (c : ChanId) :
    (s.lineLoaded c).pagesOkWith fun _ => 0 := by
  unfold State.lineLoaded
  dsimp only
  have h : (s.setChan c (·.map fun l =>
      { l with buffer := l.buffer.drop wordsPerLine, linesWritten := l.linesWritten + 1 })).pagesOkWith fun _ => 0 := by
    refine setChan_pagesOk hs (fun l hl => ?_) fun hn => by rwa [Option.map_eq_none_iff] at hn
    obtain ⟨l₀, h₀, rfl⟩ := Option.map_eq_some_iff.1 hl
    refine ⟨l₀, h₀, rfl, ?_⟩
    cases hm : l₀.mode with
    | block a b k => exact .inl ⟨a, b, k, rfl, rfl⟩
    | ring a k => exact .inr ⟨a, a, k, k, rfl, rfl⟩
  generalize s.setChan c _ = t at h ⊢
  cases hl : t.load.chans[c] with
  | none => exact h
  | some l =>
    dsimp only
    split
    · split
      · next hm => exact endBlock_pagesOk h hl hm
      · next hm => exact endCell_pagesOk h hl hm
    · exact h.congr (by simp)

theorem abortLoad_pagesOk {s : State} (hs : s.pagesOkWith fun _ => 0) (c : ChanId) :
    (s.abortLoad c).pagesOkWith fun _ => 0 := by
  unfold State.abortLoad
  cases hl : s.load.chans[c] with
  | none => exact hs
  | some l =>
    dsimp only
    generalize hu : State.discardRunning _ _ = u
    have h : u.pagesOkWith fun _ => 0 := hu ▸ hs.congr (by simp)
    have hl' : u.load.chans[c] = some l := by
      rw [← hu]
      simpa using hl
    split
    · next hm => exact settle_pagesOk (idle_pagesOk_block h hl' hm) fun p hd => ⟨p, rfl, rfl, hd⟩
    · next hm => exact idle_pagesOk_ring h hl' hm

theorem recheckWaiting_pagesOk {s : State} {x : Handle → Nat} (hs : s.pagesOkWith x) (c : ChanId) :
    (s.recheckWaiting c).pagesOkWith x := by
  unfold State.recheckWaiting
  repeat' split
  · exact beginTarget_pagesOk hs c
  all_goals exact hs

theorem abortAll_pagesOk {s : State} (hs : s.pagesOkWith fun _ => 0) : s.abortAll.pagesOkWith fun _ => 0 := by
  unfold State.abortAll
  refine foldl_inv (inv := fun t : State => t.pagesOkWith fun _ => 0) (fun t c h => ?_) allChans hs
  split
  · exact (abortLoad_pagesOk h c).congr ⟨rfl, rfl, rfl⟩
  · exact h

/-! ### Edits (R69, R74, R76, R78) -/

/-- The page of an edit that is a COPY. -/
def Edit.writes (e : Edit) (h : Handle) : Nat := (e.copiesTo h).toNat

theorem writes_patch {e : Edit} {pg : Handle} {cell x y l w : Nat} {a b : BitVec 32} {ws : List Word}
    (hj : e.job = .patch pg cell x y l w a b ws) : e.writes = fun _ => 0 := by
  funext h
  unfold Edit.writes Edit.copiesTo
  rw [hj]
  rfl

theorem writes_copy {e : Edit} {src dst : Handle} {a b k : Nat} (hj : e.job = .copy src a dst b k) :
    e.writes = oneAt dst := by
  funext h
  unfold Edit.writes Edit.copiesTo oneAt
  rw [hj]
  by_cases he : dst = h
  · simp [he]
  · simp [he, Ne.symm he]

theorem unpin_pagesOk {s : State} {x : Handle → Nat} (hs : s.pagesOkWith x) (pg : Handle) :
    (s.unpin pg).pagesOkWith x := pagesOk_of_plan (unpin_plan s pg) (by simp) (by simp) hs

theorem pin_pagesOk {s : State} {x : Handle → Nat} (hs : s.pagesOkWith x) (pg : Handle) :
    (s.pin pg).pagesOkWith x := pagesOk_of_plan (pin_plan s pg) (by simp) (by simp) hs

/-- An entry that changes in its busy mark alone keeps the law. -/
theorem busy_pagesOk {s : State} {x : Handle → Nat} (hs : s.pagesOkWith x) (pg : Handle) (b : Option (Port × BusyRole)) :
    (s.setPage pg fun p => { p with busy := b }).pagesOkWith x :=
  setPage_pagesOk_same hs fun _ _ hok => ⟨hok, rfl, Iff.rfl⟩

/-- An edit that has left the queue is released: the page that it wrote is settled. -/
theorem releaseEdit_pagesOk {s : State} {e : Edit} (hs : s.pagesOkWith e.writes) (done : Bool) :
    (s.releaseEdit e done).pagesOkWith fun _ => 0 := by
  unfold State.releaseEdit
  split
  · next hj =>
    rw [writes_patch hj] at hs
    exact busy_pagesOk (unpin_pagesOk hs _) _ none
  · next src _ dst cell _ hj =>
    rw [writes_copy hj] at hs
    have h : ((s.unpin dst).setPage dst fun p => Page.settle
        { p with busy := none, valid := if done then insertBit p.valid cell else p.valid }).pagesOkWith fun _ => 0 :=
      settle_pagesOk (unpin_pagesOk hs dst) fun p hd => ⟨_, rfl, rfl, hd⟩
    dsimp only
    split
    · exact h
    · exact busy_pagesOk (unpin_pagesOk h src) src none

end Sys2Proof.Machine
end

