-- ==== Sys2Proof/Proofs/PinCounts.lean ====
section
/-! PROOFS. The law of the pins: what each operation on the entries, the zones, the gates and the edit queue does to the
references and to the pin counts (R15, R16). -/

namespace Sys2Proof.Machine

/-- The law of the pins, where some pages have pins beside those that the references give them. -/
def State.pinsOkWith (s : State) (x : Handle → Nat) : Prop :=
  ∀ pg : Handle, 4 ≤ pg.toNat → s.references pg + x pg = ((s.page pg).map (·.pins)).getD 0

theorem pinsOk_iff (s : State) : s.pinsOk ↔ s.pinsOkWith fun _ => 0 := Iff.rfl

/-- The references to a page do not depend on what is no scene and no edit. -/
theorem references_of {s t : State} (hz : sameZones s t) (he : t.edit.queue = s.edit.queue) (pg : Handle) :
    t.references pg = s.references pg := by
  unfold State.references State.zone State.gate
  rw [hz.1, hz.2, he]

theorem pinsOk_of_pins {s t : State} {x : Handle → Nat} (hp : ∀ pg, (t.page pg).map (·.pins) = (s.page pg).map (·.pins))
    (hz : sameZones s t) (he : t.edit.queue = s.edit.queue) (hs : s.pinsOkWith x) : t.pinsOkWith x := by
  intro pg h4
  rw [references_of hz he, hp]
  exact hs pg h4

theorem State.pinsOkWith.congr {s t : State} {x : Handle → Nat} (hs : s.pinsOkWith x)
    (h : t.dir = s.dir ∧ sameZones s t ∧ t.edit = s.edit) : t.pinsOkWith x :=
  pinsOk_of_pins (fun pg => by unfold State.page; rw [h.1]) h.2.1 (congrArg EditUnit.queue h.2.2) hs

/-! ### Entries -/

/-- An entry that changes but for its pins keeps the law. -/
theorem setPage_pinsOk {s : State} {pg : Handle} {f : Page → Page} {x : Handle → Nat} (hs : s.pinsOkWith x)
    (hf : ∀ p, (f p).pins = p.pins) : (s.setPage pg f).pinsOkWith x := by
  refine pinsOk_of_pins (s := s) (fun k => ?_) ⟨rfl, rfl⟩ rfl hs
  rw [page_setPage]
  split
  · rw [Option.map_map]
    exact Option.map_congr fun p _ => hf p
  · rfl

theorem unpin_pinsOk {s : State} {pg : Handle} {x : Handle → Nat} (hs : s.pinsOkWith fun h => x h + oneAt pg h) :
    (s.unpin pg).pinsOkWith x := by
  intro k h4
  have hk := hs k h4
  have hrefs : (s.unpin pg).references k = s.references k := references_of (by simp [sameZones]) (by simp) k
  rw [hrefs]
  unfold State.unpin
  unfold oneAt at hk
  beta_reduce at hk
  split
  · next hp =>
    have hne : k ≠ pg := fun he => by
      rw [← he, isPattern_false h4] at hp
      cases hp
    rwa [if_neg hne] at hk
  · rw [page_setPage]
    by_cases he : k = pg
    · rw [if_pos he] at hk ⊢
      cases hpage : s.page k with
      | none => rw [hpage] at hk; simp at hk
      | some p =>
        rw [hpage] at hk
        simp only [Option.map_some, Option.getD_some] at hk ⊢
        omega
    · rw [if_neg he] at hk ⊢
      exact hk

theorem pin_pinsOk {s : State} {pg : Handle} {x : Handle → Nat} (hs : s.pinsOkWith x)
    (hp : 4 ≤ pg.toNat → (s.page pg).isSome = true) : (s.pin pg).pinsOkWith fun h => x h + oneAt pg h := by
  intro k h4
  have hk := hs k h4
  have hrefs : (s.pin pg).references k = s.references k := references_of (by simp [sameZones]) (by simp) k
  rw [hrefs]
  unfold oneAt
  beta_reduce
  rw [pin_page]
  by_cases he : k = pg
  · subst he
    obtain ⟨p, hpage⟩ := Option.isSome_iff_exists.1 (hp h4)
    rw [hpage] at hk ⊢
    rw [if_pos rfl, if_pos ⟨rfl, h4⟩]
    simp only [Option.map_some, Option.getD_some, Page.pinned] at hk ⊢
    omega
  · rw [if_neg he, if_neg fun h => he h.1]
    exact hk

/-! ### Scenes -/

theorem oneAt_naming (p : Placement) (sc : Scene) (h : Handle) :
    placementsNaming (p :: sc) h = placementsNaming sc h + oneAt p.page h := by
  unfold placementsNaming oneAt
  rw [List.countP_cons]
  by_cases he : p.page = h
  · simp [he]
  · simp [he, Ne.symm he]

theorem unpinScene_pinsOk {s : State} (sc : Scene) {x : Handle → Nat}
    (hs : s.pinsOkWith fun h => x h + placementsNaming sc h) : (s.unpinScene sc).pinsOkWith x := by
  induction sc generalizing s with
  | nil => exact hs
  | cons p sc ih =>
    rw [unpinScene_cons]
    refine ih (unpin_pinsOk ?_)
    intro k h4
    have := hs k h4
    beta_reduce at this ⊢
    rw [oneAt_naming] at this
    omega

/-- A page stays a page when another is pinned. -/
theorem pin_isSome (s : State) (pg k : Handle) : ((s.pin pg).page k).isSome = (s.page k).isSome := by
  unfold State.pin
  split
  · rfl
  · rw [page_setPage]
    split
    · exact Option.isSome_map
    · rfl

theorem pinScene_pinsOk {s : State} (sc : Scene) {x : Handle → Nat} (hs : s.pinsOkWith x)
    (hp : ∀ p ∈ sc, 4 ≤ p.page.toNat → (s.page p.page).isSome = true) :
    (s.pinScene sc).pinsOkWith fun h => x h + placementsNaming sc h := by
  induction sc generalizing s x with
  | nil => exact hs
  | cons p sc ih =>
    have h := ih (s := s.pin p.page) (pin_pinsOk hs (hp p (by simp))) fun q hq h4 => by
      rw [pin_isSome]
      exact hp q (by simp [hq]) h4
    intro k h4
    have := h k h4
    beta_reduce at this ⊢
    rw [oneAt_naming]
    refine Eq.trans ?_ this
    have hrefs : (s.pinScene (p :: sc)).references k = ((s.pin p.page).pinScene sc).references k := rfl
    rw [hrefs]
    omega

/-! ### Zones, gates and the edit queue -/

theorem sum_upd {α : Type} {n : Nat} (v : Vector α n) (i : Fin n) (f : α → α) (w : α → Nat) {l : List (Fin n)}
    (hl : l.Nodup) (hi : i ∈ l) :
    (l.map fun j => w (upd v i f)[j]).sum + w v[i] = (l.map fun j => w v[j]).sum + w (f v[i]) := by
  induction l with
  | nil => cases hi
  | cons j l ih =>
    obtain ⟨hj, hl⟩ := List.nodup_cons.1 hl
    simp only [List.map_cons, List.sum_cons]
    rcases List.mem_cons.1 hi with rfl | hi
    · have hrest : (l.map fun j => w (upd v i f)[j]) = l.map fun j => w v[j] :=
        List.map_congr_left fun k hk => by
          have hne : i ≠ k := fun e => hj (e ▸ hk)
          rw [upd_other _ _ _ _ hne]
      rw [hrest, upd_same]
      omega
    · have hne : i ≠ j := fun e => hj (e ▸ hi)
      have := ih hl hi
      rw [upd_other _ _ _ _ hne]
      omega

theorem nodup_allGates : allGates.Nodup := by decide

theorem setZone_references (s : State) (z : ZoneId) (f : Zone → Zone) (pg : Handle) :
    (s.setZone z f).references pg + (s.zone z).references pg = s.references pg + (f (s.zone z)).references pg := by
  have h : (allZones.map fun y => (upd s.scene.zones z f)[y].references pg).sum + s.scene.zones[z].references pg =
      (allZones.map fun y => s.scene.zones[y].references pg).sum + (f s.scene.zones[z]).references pg :=
    sum_upd s.scene.zones z f (·.references pg) nodup_allZones (mem_allZones z)
  change (allZones.map fun y => (upd s.scene.zones z f)[y].references pg).sum +
      (allGates.map fun g => (((s.gate g).map fun e => placementsNaming e.scene pg).getD 0)).sum +
      (s.edit.queue.map fun e => e.references pg).sum + s.scene.zones[z].references pg =
    (allZones.map fun y => s.scene.zones[y].references pg).sum +
      (allGates.map fun g => (((s.gate g).map fun e => placementsNaming e.scene pg).getD 0)).sum +
      (s.edit.queue.map fun e => e.references pg).sum + (f s.scene.zones[z]).references pg
  omega

/-- The references that the scene of a gate makes. -/
def gateRefs (e : Option Gate) (pg : Handle) : Nat := (e.map fun e => placementsNaming e.scene pg).getD 0

theorem setGate_references (s : State) (g : GateId) (f : Option Gate → Option Gate) (pg : Handle) :
    (s.setGate g f).references pg + gateRefs (s.gate g) pg = s.references pg + gateRefs (f (s.gate g)) pg := by
  have h : (allGates.map fun k => gateRefs (upd s.scene.gates g f)[k] pg).sum + gateRefs s.scene.gates[g] pg =
      (allGates.map fun k => gateRefs s.scene.gates[k] pg).sum + gateRefs (f s.scene.gates[g]) pg :=
    sum_upd s.scene.gates g f (gateRefs · pg) nodup_allGates (mem_allGates g)
  change (allZones.map fun z => (s.zone z).references pg).sum +
      (allGates.map fun k => gateRefs (upd s.scene.gates g f)[k] pg).sum +
      (s.edit.queue.map fun e => e.references pg).sum + gateRefs s.scene.gates[g] pg =
    (allZones.map fun z => (s.zone z).references pg).sum + (allGates.map fun k => gateRefs s.scene.gates[k] pg).sum +
      (s.edit.queue.map fun e => e.references pg).sum + gateRefs (f s.scene.gates[g]) pg
  omega

/-- A changed zone keeps the law where it takes over the pins of what it no longer refers to. -/
theorem setZone_pinsOk {s : State} {z : ZoneId} {f : Zone → Zone} {x y : Handle → Nat} (hs : s.pinsOkWith x)
    (hf : ∀ h, (s.zone z).references h + x h = (f (s.zone z)).references h + y h) : (s.setZone z f).pinsOkWith y := by
  intro pg h4
  refine Eq.trans ?_ (hs pg h4)
  have := setZone_references s z f pg
  have := hf pg
  omega

theorem setGate_pinsOk {s : State} {g : GateId} {f : Option Gate → Option Gate} {x y : Handle → Nat}
    (hs : s.pinsOkWith x) (hf : ∀ h, gateRefs (s.gate g) h + x h = gateRefs (f (s.gate g)) h + y h) :
    (s.setGate g f).pinsOkWith y := by
  intro pg h4
  refine Eq.trans ?_ (hs pg h4)
  have := setGate_references s g f pg
  have := hf pg
  omega

theorem setQueue_pinsOk {s t : State} {x y : Handle → Nat} (hs : s.pinsOkWith x) (hd : t.dir = s.dir)
    (hz : sameZones s t)
    (hw : ∀ h, (s.edit.queue.map (·.references h)).sum + x h = (t.edit.queue.map (·.references h)).sum + y h) :
    t.pinsOkWith y := by
  intro pg h4
  have hpage : t.page pg = s.page pg := by
    unfold State.page
    rw [hd]
  rw [hpage, ← hs pg h4]
  have := hw pg
  unfold State.references State.zone State.gate
  rw [hz.1, hz.2]
  omega

end Sys2Proof.Machine
end

