-- ==== Sys2Proof/Proofs/EditBooks.lean ====
section
/-! PROOFS. The law of the page states and the law of the pins over the edits: an edit that joins the queue takes its
writer and its references with it, and gives them back as it leaves (R6, R15, R69). -/

namespace Sys2Proof.Machine

/-- Both laws, with writers and pins beside those of the channels, the edits and the scenes. -/
def State.booksWith (s : State) (w r : Handle → Nat) : Prop := s.pagesOkWith w ∧ s.pinsOkWith r

/-- Both laws. -/
def State.booksOk (s : State) : Prop := s.booksWith (fun _ => 0) fun _ => 0

/-- Both laws, where an edit is between the pages and the queue. -/
def State.owing (s : State) (e : Edit) : Prop := s.booksWith e.writes e.references

theorem State.booksWith.congr {s t : State} {w r : Handle → Nat} (hs : s.booksWith w r) (hd : t.dir = s.dir)
    (hl : t.load.chans = s.load.chans) (he : t.edit.queue = s.edit.queue) (hz : sameZones s t) : t.booksWith w r :=
  ⟨pagesOk_of_dir hd hl he hs.1, pinsOk_of_pins (fun pg => by unfold State.page; rw [hd]) hz he hs.2⟩

/-! ### What an edit refers to -/

theorem references_patch {e : Edit} {pg : Handle} {cell x y l w : Nat} {a b : BitVec 32} {ws : List Word}
    (hj : e.job = .patch pg cell x y l w a b ws) : e.references = oneAt pg := by
  funext h
  unfold Edit.references oneAt
  rw [hj]
  exact if_congr eq_comm rfl rfl

theorem references_copy {e : Edit} {src dst : Handle} {a b k : Nat} (hj : e.job = .copy src a dst b k) :
    e.references = fun h => oneAt dst h + oneAt src h := by
  funext h
  unfold Edit.references oneAt
  rw [hj]
  exact congrArg₂ (· + ·) (if_congr eq_comm rfl rfl) (if_congr eq_comm rfl rfl)

/-- An edit that has left the queue gives back its pins and its writer. -/
theorem releaseEdit_books {s : State} {e : Edit} (hs : s.owing e) (done : Bool) : (s.releaseEdit e done).booksOk := by
  obtain ⟨hpages, hpins⟩ := hs
  refine ⟨releaseEdit_pagesOk hpages done, ?_⟩
  unfold State.releaseEdit
  split
  · next pg _ _ _ _ _ _ _ _ hj =>
    rw [references_patch hj] at hpins
    refine setPage_pinsOk (unpin_pinsOk ?_) fun _ => rfl
    simpa using hpins
  · next src _ dst cell _ hj =>
    rw [references_copy hj] at hpins
    have h : ((s.unpin dst).setPage dst fun p => Page.settle
        { p with busy := none, valid := if done then insertBit p.valid cell else p.valid }).pinsOkWith (oneAt src) := by
      refine setPage_pinsOk (unpin_pinsOk ?_) fun _ => rfl
      intro pg h4
      have := hpins pg h4
      beta_reduce at this ⊢
      omega
    dsimp only
    split
    · next hp =>
      intro pg h4
      have hne : pg ≠ src := fun he => by
        rw [← he, isPattern_false h4] at hp
        cases hp
      have := h pg h4
      rwa [oneAt, if_neg hne] at this
    · refine setPage_pinsOk (unpin_pinsOk ?_) fun _ => rfl
      simpa using h

/-! ### An edit leaves the queue, or joins it -/

theorem setQueue_books {s t : State} {w w' r r' : Handle → Nat} (hs : s.booksWith w r) (hd : t.dir = s.dir)
    (hl : t.load.chans = s.load.chans) (hz : sameZones s t)
    (hw : ∀ h, s.edit.queue.countP (·.copiesTo h) + w h = t.edit.queue.countP (·.copiesTo h) + w' h)
    (hr : ∀ h, (s.edit.queue.map (·.references h)).sum + r h = (t.edit.queue.map (·.references h)).sum + r' h) :
    t.booksWith w' r' := ⟨setQueue_pagesOkWith hs.1 hd hl hw, setQueue_pinsOk hs.2 hd hz hr⟩

theorem countP_writes (e : Edit) (q : List Edit) (h : Handle) :
    (e :: q).countP (·.copiesTo h) = q.countP (·.copiesTo h) + e.writes h := by
  rw [List.countP_cons]
  unfold Edit.writes
  cases e.copiesTo h <;> rfl

/-- An edit is taken out of a queue of which it is one. -/
theorem takeEdit_owing {s t : State} {e : Edit} {q : List Edit} (hs : s.booksOk) (hq : s.edit.queue.Perm (e :: q))
    (ht : t.edit.queue = q) (hd : t.dir = s.dir) (hl : t.load.chans = s.load.chans) (hz : sameZones s t) : t.owing e := by
  refine setQueue_books hs hd hl hz (fun h => ?_) fun h => ?_
  · rw [hq.countP_eq, ht, countP_writes]
    rfl
  · rw [(hq.map _).sum_eq, ht, List.map_cons, List.sum_cons]
    omega

/-- An edit joins the queue. -/
theorem joinEdit_books {s t : State} {e : Edit} (hs : s.owing e) (ht : t.edit.queue = s.edit.queue ++ [e])
    (hd : t.dir = s.dir) (hl : t.load.chans = s.load.chans) (hz : sameZones s t) : t.booksOk := by
  have hperm : t.edit.queue.Perm (e :: s.edit.queue) := by
    rw [ht]
    exact List.perm_append_singleton e s.edit.queue
  refine setQueue_books hs hd hl hz (fun h => ?_) fun h => ?_
  · rw [hperm.countP_eq, countP_writes]
    rfl
  · rw [(hperm.map _).sum_eq, List.map_cons, List.sum_cons]
    omega

theorem enqueueEdit_books {s : State} {e : Edit} (hs : s.owing e) : (s.enqueueEdit e).booksOk :=
  joinEdit_books hs (enqueueEdit_queue s e) (by unfold State.enqueueEdit; dsimp only; split <;> simp)
    (by unfold State.enqueueEdit; dsimp only; split <;> simp)
    (by unfold State.enqueueEdit; dsimp only; split <;> simp [sameZones])

theorem removeEdit_books {s : State} {e : Edit} (hs : s.booksOk) (he : e ∈ s.edit.queue) : (s.removeEdit e).booksOk := by
  have h : ((s.modEdit fun u => { u with queue := u.queue.erase e }).releaseEdit e false).booksOk :=
    releaseEdit_books (takeEdit_owing (t := s.modEdit fun u => { u with queue := u.queue.erase e }) hs
      (List.perm_cons_erase he) rfl rfl rfl ⟨rfl, rfl⟩) false
  unfold State.removeEdit
  dsimp only
  generalize State.releaseEdit _ e false = t at h ⊢
  split
  · exact h.congr (by simp [State.nextEdit]) (by simp [State.nextEdit]) (by simp [State.nextEdit])
      (by simp [State.nextEdit, sameZones])
  · exact h

/-- The edit at the head of the queue leaves it. -/
theorem releaseHead_books {s : State} {e : Edit} {rest : List Edit} (hs : s.booksOk) (hq : s.edit.queue = e :: rest)
    (done : Bool) : ((s.modEdit fun u => { u with queue := rest }).releaseEdit e done).booksOk :=
  releaseEdit_books (takeEdit_owing (t := s.modEdit fun u => { u with queue := rest }) hs (hq ▸ List.Perm.refl _) rfl rfl
    rfl ⟨rfl, rfl⟩) done

theorem reply_books {s : State} {w r : Handle → Nat} (hs : s.booksWith w r) (c : Caller) (st : Status) (b : Body) :
    (s.reply c st b).booksWith w r := hs.congr (by simp) (by simp) (by simp) (by simp [sameZones])

theorem reportEditsEnded_books {s : State} {w r : Handle → Nat} (hs : s.booksWith w r) :
    s.reportEditsEnded.booksWith w r :=
  hs.congr (by simp) (by simp) (reportEditsEnded_queue s) (reportEditsEnded_zones s)

theorem requestEdit_books {s : State} {w r : Handle → Nat} (hs : s.booksWith w r) : s.requestEdit.booksWith w r :=
  hs.congr (by simp) (by simp) (by simp) (by simp [sameZones])

/-- The next edit runs, and the end of the edits is reported where none is left. -/
theorem nextEdit_books {s : State} {w r : Handle → Nat} (hs : s.booksWith w r) :
    s.nextEdit.reportEditsEnded.booksWith w r := reportEditsEnded_books (requestEdit_books hs)

theorem patchDone_books {s : State} (hs : s.booksOk) (n : Nat) : (s.patchDone n).booksOk := by
  unfold State.patchDone
  split
  · next e rest hq =>
    have h := releaseHead_books hs hq true
    dsimp only
    split
    · exact nextEdit_books (reply_books h _ _ _)
    · exact nextEdit_books (reply_books h _ _ _)
  · exact hs

theorem copyStopped_books {s : State} (hs : s.booksOk) : s.copyStopped.booksOk := by
  unfold State.copyStopped
  split
  · next e rest hq => exact nextEdit_books (reply_books (releaseHead_books hs hq false) _ _ _)
  · exact hs

theorem copyMoved_books {s : State} (hs : s.booksOk) : s.copyMoved.booksOk := by
  unfold State.copyMoved
  split
  · next p tag src sc dst dc k rest hq =>
    dsimp only
    have hmoved : (Edit.writes { port := p, tag := tag, job := .copy src sc dst dc (k + 1) } = oneAt dst) ∧
        Edit.references { port := p, tag := tag, job := .copy src sc dst dc (k + 1) } =
          fun h => oneAt dst h + oneAt src h := ⟨writes_copy rfl, references_copy rfl⟩
    have hold : (Edit.writes { port := p, tag := tag, job := .copy src sc dst dc k } = oneAt dst) ∧
        Edit.references { port := p, tag := tag, job := .copy src sc dst dc k } =
          fun h => oneAt dst h + oneAt src h := ⟨writes_copy rfl, references_copy rfl⟩
    have hqueue : ∀ e : Edit, e.writes = oneAt dst → e.references = (fun h => oneAt dst h + oneAt src h) →
        (s.modEdit fun u => { u with queue := e :: rest }).booksOk := fun e hw hr => by
      refine setQueue_books hs rfl rfl ⟨rfl, rfl⟩ (fun h => ?_) fun h => ?_
      · change _ = (e :: rest).countP _ + _
        rw [hq, countP_writes, countP_writes, hw, hold.1]
      · change _ = ((e :: rest).map _).sum + _
        rw [hq, List.map_cons, List.map_cons, List.sum_cons, List.sum_cons, hr, hold.2]
    have hlast := hqueue _ hmoved.1 hmoved.2
    split
    · refine nextEdit_books (reply_books ?_ _ _ _)
      exact releaseHead_books (s := s.modEdit fun u =>
        { u with queue := { port := p, tag := tag, job := .copy src sc dst dc (k + 1) } :: rest }) hlast rfl true
    · exact requestEdit_books hlast
  · exact hs

/-- Edits of the queue are taken out one by one, or stay. -/
theorem removeEach_books {f : State → Edit → State} (hf : ∀ s e, f s e = s ∨ ∃ c st, f s e = (s.removeEdit e).reply c st)
    (l : List Edit) {s : State} (hl : l.Subperm s.edit.queue) (hs : s.booksOk) : (l.foldl f s).booksOk := by
  induction l generalizing s with
  | nil => exact hs
  | cons e l ih =>
    rw [List.foldl_cons]
    rcases hf s e with h | ⟨c, st, h⟩
    · rw [h]
      exact ih ((List.sublist_cons_self e l).subperm.trans hl) hs
    · rw [h]
      refine ih ?_ (reply_books (removeEdit_books hs (hl.subset (by simp))) _ _ _)
      have hq : ((s.removeEdit e).reply c st).edit.queue = s.edit.queue.erase e := by
        rw [reply_edit, removeEdit_queue]
      rw [hq]
      simpa using hl.erase e

theorem endEdits_books {s : State} (hs : s.booksOk) : s.endEdits.booksOk := by
  unfold State.endEdits
  dsimp only
  have h0 : (s.modEdit fun u => { u with endAsked := true }).booksOk := hs.congr rfl rfl rfl ⟨rfl, rfl⟩
  generalize s.modEdit _ = t at h0 ⊢
  refine reportEditsEnded_books (removeEach_books (fun u e => ?_) _ (List.reverse_perm _).subperm h0)
  split
  · exact .inl rfl
  · exact .inr ⟨_, _, rfl⟩

theorem removeEditOf_books {s : State} (hs : s.booksOk) (p : Port) : (s.removeEditOf p).booksOk := by
  unfold State.removeEditOf
  split
  · next e he => exact reportEditsEnded_books (removeEdit_books hs (List.mem_of_find?_eq_some he))
  · exact hs

theorem cancelEdit_books {s : State} (hs : s.booksOk) (c : Caller) : (cancelEdit c s).booksOk := by
  unfold cancelEdit
  split
  · exact reply_books hs _ _ _
  · next e he =>
    split
    · exact reply_books hs _ _ _
    · refine removeEdit_books (reply_books (reply_books hs _ _ _) _ _ _) ?_
      simpa using List.mem_of_find?_eq_some he

end Sys2Proof.Machine
end

