-- ==== Sys2Proof/Proofs/LoadBooks.lean ====
section
/-! PROOFS. The law of the pins under loads and damage, which change no pin; and both laws through the requests for
pages, loads and edits and the completions of transfers. -/

namespace Sys2Proof.Machine

/-- The pins and the references are as before. -/
def keepsPins (s t : State) : Prop :=
  (∀ pg, (t.page pg).map (·.pins) = (s.page pg).map (·.pins)) ∧ sameZones s t ∧ t.edit.queue = s.edit.queue

theorem keepsPins_refl (s : State) : keepsPins s s := ⟨fun _ => rfl, ⟨rfl, rfl⟩, rfl⟩

theorem keepsPins.trans {a b c : State} (h : keepsPins a b) (k : keepsPins b c) : keepsPins a c :=
  ⟨fun pg => (k.1 pg).trans (h.1 pg), ⟨k.2.1.1.trans h.2.1.1, k.2.1.2.trans h.2.1.2⟩, k.2.2.trans h.2.2⟩

theorem keepsPins.pinsOk {s t : State} {x : Handle → Nat} (h : keepsPins s t) (hs : s.pinsOkWith x) : t.pinsOkWith x :=
  pinsOk_of_pins h.1 h.2.1 h.2.2 hs

/-- A state with the directory, the zones and the edits of another. -/
theorem keepsPins_of {s t : State} (hd : t.dir = s.dir) (hz : sameZones s t) (he : t.edit = s.edit) : keepsPins s t :=
  ⟨fun pg => by unfold State.page; rw [hd], hz, congrArg EditUnit.queue he⟩

theorem keepsPins_setPage (s : State) (pg : Handle) {f : Page → Page} (hf : ∀ p, (f p).pins = p.pins) :
    keepsPins s (s.setPage pg f) := by
  refine ⟨fun k => ?_, ⟨rfl, rfl⟩, rfl⟩
  rw [page_setPage]
  split
  · rw [Option.map_map]
    exact Option.map_congr fun p _ => hf p
  · rfl

theorem setChan_pins (s : State) (c : ChanId) (f : Option Load → Option Load) : keepsPins s (s.setChan c f) :=
  keepsPins_of rfl ⟨rfl, rfl⟩ rfl

theorem raise_pins (s : State) (p : Port) (e : Event) : keepsPins s (s.raise p e) := keepsPins_of rfl ⟨rfl, rfl⟩ rfl

/-! ### Loads (R56 to R65) -/

theorem beginTarget_pins (s : State) (c : ChanId) : keepsPins s (s.beginTarget c) := by
  unfold State.beginTarget
  repeat' split
  · exact setChan_pins s c _
  · refine (setChan_pins s c _).trans (keepsPins_setPage _ _ ?_)
    exact fun _ => rfl
  all_goals exact keepsPins_refl s

theorem endBlock_pins (s : State) (c : ChanId) (l : Load) (first count : Nat) (k : Check) :
    keepsPins s (s.endBlock c l first count k) := by
  unfold State.endBlock
  dsimp only
  split
  all_goals
    refine ((setChan_pins s c _).trans (keepsPins_setPage _ _ ?_)).trans (raise_pins _ _ _)
    exact fun _ => rfl

theorem endCell_pins (s : State) (c : ChanId) (l : Load) (n : Nat) (k : Option Check) :
    keepsPins s (s.endCell c l n k) := by
  unfold State.endCell
  dsimp only
  split
  · refine ((keepsPins_setPage s l.page ?_).trans (setChan_pins _ c _)).trans (beginTarget_pins _ c)
    exact fun _ => rfl
  · exact (beginTarget_pins s c).trans (raise_pins _ _ _)

theorem lineLoaded_pins (s : State) (c : ChanId) : keepsPins s (s.lineLoaded c) := by
  unfold State.lineLoaded
  dsimp only
  have h := setChan_pins s c (·.map fun l =>
    { l with buffer := l.buffer.drop wordsPerLine, linesWritten := l.linesWritten + 1 })
  generalize s.setChan c _ = t at h ⊢
  repeat' split
  · exact h.trans (endBlock_pins t c _ _ _ _)
  · exact h.trans (endCell_pins t c _ _ _)
  · exact h.trans (keepsPins_of (by simp) (by simp [sameZones]) (by simp))
  · exact h

theorem abortLoad_pins (s : State) (c : ChanId) : keepsPins s (s.abortLoad c) := by
  unfold State.abortLoad
  split
  · dsimp only
    generalize hu : State.discardRunning _ _ = u
    have h : keepsPins s u := hu ▸ keepsPins_of (by simp) (by simp [sameZones]) (by simp)
    split
    · exact (h.trans (setChan_pins u c _)).trans (keepsPins_setPage _ _ fun _ => rfl)
    · exact h.trans (setChan_pins u c _)
  · exact keepsPins_refl s

theorem recheckWaiting_pins (s : State) (c : ChanId) : keepsPins s (s.recheckWaiting c) := by
  unfold State.recheckWaiting
  repeat' split
  · exact beginTarget_pins s c
  all_goals exact keepsPins_refl s

theorem damage_pins (p : Page) : p.damage.pins = p.pins := by
  unfold Page.damage
  split
  · rfl
  · dsimp only
    split <;> rfl

theorem uncorrectable_pins (s : State) (k : FaultKind) (o : Origin) (a : WordAddr) :
    keepsPins s (s.uncorrectable k o a) := by
  unfold State.uncorrectable
  dsimp only
  cases s.slotOwner a.slot with
  | none => split <;> exact keepsPins_of (by simp) (by simp [sameZones]) (by simp)
  | some pg =>
    have h := keepsPins_setPage s pg damage_pins
    dsimp only
    generalize s.setPage pg Page.damage = t at h ⊢
    split <;> exact h.trans (keepsPins_of (by simp) (by simp [sameZones]) (by simp))

theorem lineEffects_pins (s : State) (k : FaultKind) (o : Origin) (slot line : Nat) (ws : List (Nat × ReadClass)) :
    keepsPins s (s.lineEffects k o slot line ws) := by
  induction ws generalizing s with
  | nil => exact keepsPins_refl s
  | cons w ws ih =>
    rw [State.lineEffects]
    refine keepsPins.trans ?_ (ih _)
    unfold State.wordEffect
    split
    · exact keepsPins_refl s
    · exact keepsPins_of (by simp) (by simp [sameZones]) (by simp)
    · exact uncorrectable_pins s k o _

/-! ### Both laws -/

theorem books_of {s t : State} (hs : s.booksOk) (hp : t.pagesOkWith fun _ => 0) (h : keepsPins s t) : t.booksOk :=
  ⟨hp, h.pinsOk hs.2⟩

/-- What touches no entry, no channel, no edit and no scene keeps both laws. -/
theorem State.booksOk.congr {s t : State} (hs : s.booksOk)
    (h : t.dir = s.dir ∧ t.load = s.load ∧ t.edit = s.edit ∧ sameZones s t) : t.booksOk :=
  State.booksWith.congr hs h.1 (congrArg LoadEngine.chans h.2.1) (congrArg EditUnit.queue h.2.2.1) h.2.2.2

theorem abortLoad_books {s : State} (hs : s.booksOk) (c : ChanId) : (s.abortLoad c).booksOk :=
  books_of hs (abortLoad_pagesOk hs.1 c) (abortLoad_pins s c)

theorem abortAll_books {s : State} (hs : s.booksOk) : s.abortAll.booksOk := by
  unfold State.abortAll
  refine foldl_inv (inv := State.booksOk) (fun t c h => ?_) allChans hs
  split
  · exact (abortLoad_books h c).congr ⟨rfl, rfl, rfl, rfl, rfl⟩
  · exact h

/-- The words of a line are read and the bus falls free. -/
theorem lineEffects_books {s : State} (hs : s.booksOk) (st : Store) (k : FaultKind) (o : Origin) (slot line : Nat)
    (ws : List (Nat × ReadClass)) : (((s.modStore fun _ => st).lineEffects k o slot line ws).freeBus).booksOk := by
  have h : ((s.modStore fun _ => st).lineEffects k o slot line ws).booksOk :=
    books_of (s := s.modStore fun _ => st) (hs.congr ⟨rfl, rfl, rfl, rfl, rfl⟩)
      (lineEffects_pagesOk (hs.congr ⟨rfl, rfl, rfl, rfl, rfl⟩ : (s.modStore fun _ => st).booksOk).1 k o slot line ws)
      (lineEffects_pins _ k o slot line ws)
  exact h.congr (by simp [sameZones])

theorem patchEditComplete_books (errors : BitErrors) {s : State} (hs : s.booksOk) :
    (patchEditComplete errors s).booksOk := by
  unfold patchEditComplete
  split
  · split
    · exact hs.congr (by simp [sameZones])
    · dsimp only
      split
      · exact lineEffects_books hs ..
      · exact patchDone_books (lineEffects_books hs ..) _
  · exact hs

theorem copyLineComplete_books (errors : BitErrors) {s : State} (hs : s.booksOk) :
    (copyLineComplete errors s).booksOk := by
  unfold copyLineComplete
  split
  · split
    · exact hs.congr (by simp [sameZones])
    · split
      · generalize patternLine _ _ = ws
        dsimp only
        generalize hu : State.freeBus _ = u
        have h : u.booksOk := hu ▸ hs.congr (by simp [sameZones])
        split
        · exact h
        · exact copyMoved_books h
      · dsimp only
        generalize hu : State.freeBus _ = u
        have h : u.booksOk := hu ▸ lineEffects_books hs ..
        repeat' split
        · exact h
        · exact copyStopped_books h
        · exact copyMoved_books h
  · exact hs

theorem scanComplete_books (errors : BitErrors) {s : State} (hs : s.booksOk) : (scanComplete errors s).booksOk := by
  unfold scanComplete
  split
  · split
    · exact hs.congr (by simp [sameZones])
    · dsimp only
      generalize hu : State.freeBus _ = u
      have h : u.booksOk := hu ▸ lineEffects_books hs ..
      split <;> exact h.congr (by simp [sameZones])
  · exact hs

theorem scrubWord_books {s : State} (hs : s.booksOk) (e : ScrubEntry) : (s.scrubWord e).booksOk := by
  unfold State.scrubWord
  dsimp only
  repeat' split
  · exact hs
  · exact hs.congr (by simp [sameZones])
  · exact books_of hs (uncorrectable_pagesOk hs.1 _ _ _) (uncorrectable_pins s _ _ _)

theorem scrubComplete_books (errors : ErrorMask) {s : State} (hs : s.booksOk) : (scrubComplete errors s).booksOk := by
  unfold scrubComplete
  split
  · split
    · exact hs.congr (by simp [sameZones])
    · dsimp only
      generalize hu : s.modStore _ = u
      have hu : u.booksOk := hu ▸ hs.congr ⟨rfl, rfl, rfl, rfl, rfl⟩
      generalize hv : u.scrubWord _ = v
      have hv : v.booksOk := hv ▸ scrubWord_books hu _
      exact hv.congr (by simp [sameZones])
  · exact hs

theorem loadComplete_books {s : State} (hs : s.booksOk) : (loadComplete s).booksOk := by
  unfold loadComplete
  split
  · split
    · exact hs.congr (by simp [sameZones])
    · dsimp only
      generalize hu : State.freeBus _ = u
      have h : u.booksOk := hu ▸ hs.congr (by simp [sameZones])
      split
      · exact h.congr (by simp [sameZones])
      · exact books_of h (lineLoaded_pagesOk h.1 _) (lineLoaded_pins u _)
  · exact hs

theorem latchedCellAnnouncement_books {s : State} (hs : s.booksOk) : (latchedCellAnnouncement s).booksOk := by
  unfold latchedCellAnnouncement
  split
  · next a rest _ =>
    dsimp only
    have h : ((s.modMail fun w => { w with toLoad := rest }).modLoad fun l => { l with latched := a }).booksOk :=
      State.booksWith.congr hs rfl rfl rfl ⟨rfl, rfl⟩
    exact foldl_inv (inv := State.booksOk)
      (fun t c h => books_of h (recheckWaiting_pagesOk h.1 c) (recheckWaiting_pins t c)) allChans h
  · exact hs

end Sys2Proof.Machine
end

