-- ==== Sys2Proof/Proofs/ZoneMoves.lean ====
section
/-! PROOFS. A normal form of what the zones do: a changed scene engine, pages unpinned after it, and events raised last
(R15, R104, R136). -/

namespace Sys2Proof.Machine

/-! ### Pages are unpinned after the scenes have changed -/

/-- What unpinning does to the directory depends on the directory alone. -/
theorem unpinScene_dir_congr (sc : Scene) {s t : State} (h : s.dir = t.dir) :
    (s.unpinScene sc).dir = (t.unpinScene sc).dir := by
  induction sc generalizing s t with
  | nil => exact h
  | cons x sc ih =>
    rw [unpinScene_cons, unpinScene_cons]
    refine ih ?_
    unfold State.unpin
    split
    · exact h
    · rw [setPage_dir, setPage_dir, h]

theorem unpinScene_modScene (s : State) (sc : Scene) (f : SceneEngine → SceneEngine) :
    (s.unpinScene sc).modScene f = (s.modScene f).unpinScene sc :=
  State.eq_of_blocks (by simp) (unpinScene_dir_congr (s := s) (t := s.modScene f) sc rfl) (by simp) (by simp) (by simp)
    (by simp) (by simp) (by simp) (by simp) (by simp)

theorem unpinScene_setZone (s : State) (sc : Scene) (z : ZoneId) (f : Zone → Zone) :
    (s.unpinScene sc).setZone z f = (s.setZone z f).unpinScene sc := unpinScene_modScene s sc _

theorem unpinScene_useGate (s : State) (sc : Scene) (g : GateId) (u : GateUse) :
    (s.unpinScene sc).useGate g u = (s.useGate g u).unpinScene sc :=
  unpinScene_modScene s sc fun e => { e with gates := upd e.gates g (·.map fun e => { e with use := u }) }

theorem raise_unpinScene (s : State) (sc : Scene) (p : Port) (e : Event) :
    (s.raise p e).unpinScene sc = (s.unpinScene sc).raise p e :=
  State.eq_of_blocks (by simp) (unpinScene_dir_congr (s := s.raise p e) (t := s) sc rfl) (by simp) (by simp) (by simp)
    (by simp) (by simp) (by simp) (by simp) (by simp)

theorem unpinScene_append (s : State) (a b : Scene) : (s.unpinScene a).unpinScene b = s.unpinScene (a ++ b) :=
  (List.foldl_append ..).symm

@[simp] theorem unpinScene_zone (s : State) (sc : Scene) (z : ZoneId) : (s.unpinScene sc).zone z = s.zone z :=
  congrArg (fun e : SceneEngine => e.zones[z]) (unpinScene_frame s sc).2.2.2.2.1

@[simp] theorem unpinScene_gate (s : State) (sc : Scene) (g : GateId) : (s.unpinScene sc).gate g = s.gate g :=
  congrArg (fun e : SceneEngine => e.gates[g]) (unpinScene_frame s sc).2.2.2.2.1

theorem setZone_setZone (s : State) (z : ZoneId) (f g : Zone → Zone) :
    (s.setZone z f).setZone z g = s.setZone z fun zn => g (f zn) :=
  State.eq_of_blocks rfl rfl rfl rfl rfl (by simp [upd_upd]) rfl rfl rfl rfl

/-- Two changes of a zone that make the same of it are one. -/
theorem setZone_congr {s : State} {z : ZoneId} {f g : Zone → Zone} (h : f (s.zone z) = g (s.zone z)) :
    s.setZone z f = s.setZone z g :=
  State.eq_of_blocks rfl rfl rfl rfl rfl (by rw [setZone_scene, setZone_scene, upd_congr _ _ h]) rfl rfl rfl rfl

/-! ### Events are raised last -/

/-- Events are raised one after the other. -/
def State.raiseEach (s : State) (l : List (Port × Event)) : State := l.foldl (fun s x => s.raise x.1 x.2) s

/-- What a port makes of events that are raised one after the other. -/
def PortRec.takeEach (r : PortRec) (q : Port) (l : List (Port × Event)) : PortRec :=
  l.foldl (fun r x => if q = x.1 then r.take x.2 else r) r

theorem raiseEach_nil (s : State) : s.raiseEach [] = s := rfl

theorem raiseEach_cons (s : State) (x : Port × Event) (l : List (Port × Event)) :
    s.raiseEach (x :: l) = (s.raise x.1 x.2).raiseEach l := rfl

theorem raiseEach_append (s : State) (l m : List (Port × Event)) :
    (s.raiseEach l).raiseEach m = s.raiseEach (l ++ m) := (List.foldl_append ..).symm

theorem raise_eq_raiseEach (s : State) (p : Port) (e : Event) : s.raise p e = s.raiseEach [(p, e)] := rfl

theorem raiseEach_only (s : State) (l : List (Port × Event)) :
    s.raiseEach l = { s with ports := (s.raiseEach l).ports } := by
  induction l generalizing s with
  | nil => rfl
  | cons x l ih => rw [raiseEach_cons, ih] <;> rfl

theorem raiseEach_at (s : State) (l : List (Port × Event)) (q : Port) :
    (s.raiseEach l).ports[q] = s.ports[q].takeEach q l := by
  induction l generalizing s with
  | nil => rfl
  | cons x l ih => rw [raiseEach_cons, ih, raise_at] <;> rfl

theorem raiseEach_modScene (s : State) (l : List (Port × Event)) (f : SceneEngine → SceneEngine) :
    (s.raiseEach l).modScene f = (s.modScene f).raiseEach l := by
  induction l generalizing s with
  | nil => rfl
  | cons x l ih => exact ih (s.raise x.1 x.2)

theorem raiseEach_setZone (s : State) (l : List (Port × Event)) (z : ZoneId) (f : Zone → Zone) :
    (s.raiseEach l).setZone z f = (s.setZone z f).raiseEach l := raiseEach_modScene s l _

theorem raiseEach_unpinScene (s : State) (l : List (Port × Event)) (sc : Scene) :
    (s.raiseEach l).unpinScene sc = (s.unpinScene sc).raiseEach l := by
  induction l generalizing s with
  | nil => rfl
  | cons x l ih => rw [raiseEach_cons, ih, raise_unpinScene, raiseEach_cons]

theorem raiseEach_scene (s : State) (l : List (Port × Event)) : (s.raiseEach l).scene = s.scene := by
  rw [raiseEach_only]

/-! ### What the normal form says -/

/-- The zones have acted: the scene engine is given, pages are unpinned, and events are raised. -/
def State.acted (s : State) (e : SceneEngine) (sc : Scene) (l : List (Port × Event)) : State :=
  ((s.modScene fun _ => e).unpinScene sc).raiseEach l

section
variable (s : State) (e : SceneEngine) (sc : Scene) (l : List (Port × Event))

theorem acted_scene : (s.acted e sc l).scene = e := by
  unfold State.acted
  rw [raiseEach_scene, unpinScene_eq]
  rfl

theorem acted_only : s.acted e sc l =
    { s with scene := (s.acted e sc l).scene, dir := (s.acted e sc l).dir, ports := (s.acted e sc l).ports } := by
  unfold State.acted
  rw [raiseEach_only, unpinScene_eq] <;> rfl

/-- An act that tells nobody. -/
theorem acted_quiet : s.acted e sc [] = { s with scene := (s.acted e sc []).scene, dir := (s.acted e sc []).dir } := by
  unfold State.acted
  rw [raiseEach_nil, unpinScene_eq] <;> rfl

theorem acted_pins : pinsMove s (s.acted e sc l) [] sc := by
  refine (pinsMove_unpinScene (s.modScene fun _ => e) sc).dirs rfl ?_
  unfold State.acted
  rw [raiseEach_only]

theorem acted_at (q : Port) : (s.acted e sc l).ports[q] = s.ports[q].takeEach q l := by
  unfold State.acted
  rw [raiseEach_at, unpinScene_eq]
  rfl

end

@[simp] theorem acted_zone (s : State) (e : SceneEngine) (sc : Scene) (l : List (Port × Event)) (z : ZoneId) :
    (s.acted e sc l).zone z = e.zones[z] := congrArg (fun e : SceneEngine => e.zones[z]) (acted_scene s e sc l)

@[simp] theorem acted_gate (s : State) (e : SceneEngine) (sc : Scene) (l : List (Port × Event)) (g : GateId) :
    (s.acted e sc l).gate g = e.gates[g] := congrArg (fun e : SceneEngine => e.gates[g]) (acted_scene s e sc l)

/-- An act of one zone. -/
theorem acted_zone_same (s : State) (z : ZoneId) (f : Zone → Zone) (sc : Scene) (l : List (Port × Event)) :
    (s.acted (s.setZone z f).scene sc l).zone z = f (s.zone z) := by
  rw [acted_zone]
  exact setZone_same s z f

/-- Acts follow on each other. -/
theorem acted_acted (s : State) (e e' : SceneEngine) (a b : Scene) (l m : List (Port × Event)) :
    (s.acted e a l).acted e' b m = s.acted e' (a ++ b) (l ++ m) := by
  unfold State.acted
  rw [raiseEach_modScene, unpinScene_modScene, raiseEach_unpinScene, unpinScene_append, raiseEach_append]
  rfl

theorem acted_modScene (s : State) (e : SceneEngine) (sc : Scene) (l : List (Port × Event)) (f : SceneEngine → SceneEngine) :
    (s.acted e sc l).modScene f = s.acted (f e) sc l := by
  unfold State.acted
  rw [raiseEach_modScene, unpinScene_modScene]
  rfl

theorem acted_setZone (s : State) (e : SceneEngine) (sc : Scene) (l : List (Port × Event)) (z : ZoneId) (f : Zone → Zone) :
    (s.acted e sc l).setZone z f = s.acted { e with zones := upd e.zones z f } sc l := acted_modScene s e sc l _

theorem acted_unpinScene (s : State) (e : SceneEngine) (a b : Scene) (l : List (Port × Event)) :
    (s.acted e a l).unpinScene b = s.acted e (a ++ b) l := by
  unfold State.acted
  rw [raiseEach_unpinScene, unpinScene_append]

theorem acted_raise (s : State) (e : SceneEngine) (sc : Scene) (l : List (Port × Event)) (p : Port) (ev : Event) :
    (s.acted e sc l).raise p ev = s.acted e sc (l ++ [(p, ev)]) := by
  unfold State.acted
  rw [raise_eq_raiseEach, raiseEach_append]

theorem modScene_acted (s : State) (f : SceneEngine → SceneEngine) : s.modScene f = s.acted (f s.scene) [] [] := rfl

theorem setZone_acted (s : State) (z : ZoneId) (f : Zone → Zone) :
    s.setZone z f = s.acted (s.setZone z f).scene [] [] := rfl

theorem raise_acted (s : State) (p : Port) (e : Event) : s.raise p e = s.acted s.scene [] [(p, e)] := rfl

theorem unpinScene_acted (s : State) (sc : Scene) : s.unpinScene sc = s.acted s.scene sc [] := rfl

/-- A cut leaves its queue, its pages unpinned and its outcome logged (R104). -/
theorem loseCut_acted (s : State) (z : ZoneId) (o : CutOutcome) (c : Cut) : s.loseCut z o c =
    s.acted (s.setZone z fun zn =>
      { zn with cuts := zn.cuts.erase c, log := logged zn.log [logEntry c o s.scene.frame] }).scene c.scene [] := by
  have hframe : ((s.takeCut z c).unpinScene c.scene).scene.frame = s.scene.frame := by simp [State.takeCut]
  unfold State.loseCut State.logCut
  dsimp only
  rw [hframe, unpinScene_setZone]
  unfold State.takeCut
  rw [setZone_setZone]
  rfl

/-! ### Gates are DEFINED again (R136, R163) -/

/-- A gate is DEFINED again, where it is defined at all. -/
def SceneEngine.freeGate (e : SceneEngine) (g : GateId) : SceneEngine :=
  { e with gates := upd e.gates g (·.map fun d => { d with use := .defined }) }

/-- Gates are DEFINED again. -/
def SceneEngine.freeGates (e : SceneEngine) (l : List GateId) : SceneEngine := l.foldl SceneEngine.freeGate e

theorem freeGates_append (e : SceneEngine) (l m : List GateId) : (e.freeGates l).freeGates m = e.freeGates (l ++ m) :=
  (List.foldl_append ..).symm

theorem freeGates_only (e : SceneEngine) (l : List GateId) : e.freeGates l = { e with gates := (e.freeGates l).gates } := by
  induction l generalizing e with
  | nil => rfl
  | cons g l ih => exact (ih (e.freeGate g)).trans rfl

theorem freeGates_at (e : SceneEngine) (l : List GateId) (k : GateId) : (e.freeGates l).gates[k] =
    if k ∈ l then e.gates[k].map fun d => { d with use := .defined } else e.gates[k] := by
  induction l generalizing e with
  | nil => rfl
  | cons g l ih =>
    have hat : (e.freeGate g).gates[k] = if g = k then e.gates[k].map fun d => { d with use := .defined } else e.gates[k] :=
      upd_at _ _ _ _
    refine (ih (e.freeGate g)).trans ?_
    rw [hat]
    by_cases hg : g = k
    · subst hg
      cases hk : e.gates[g] <;> simp
    · simp [hg, Ne.symm hg]

theorem freeGate_acted (s : State) (g : GateId) (p : Port) (e : Event) :
    s.freeGate g p e = s.acted (s.scene.freeGates [g]) [] [(p, e)] := rfl

/-- The gate and the invoker of a context that is dropped. -/
def Context.ends (x : Context) : List (GateId × Port) :=
  match x.kind, x.invoker with
  | .gate g, some p => [(g, p)]
  | _, _ => []

theorem dropContext_acted (s : State) (x : Context) : s.dropContext x =
    s.acted (s.scene.freeGates (x.ends.map (·.1))) x.scene (x.ends.map fun y => (y.2, .gateEnded)) := by
  unfold State.dropContext Context.ends
  rw [unpinScene_acted]
  dsimp only
  rcases x.kind with _ | g
  · rfl
  · rcases x.invoker with _ | p
    · rfl
    · exact (congrArg (fun t : State => t.raise p .gateEnded)
        (acted_modScene s s.scene x.scene [] fun e => e.freeGate g)).trans (acted_raise s _ _ _ p _)

/-- Contexts are dropped one after the other. -/
theorem dropContexts_acted (l : List Context) (s : State) : l.foldl State.dropContext s =
    s.acted (s.scene.freeGates ((l.flatMap Context.ends).map (·.1))) (l.flatMap (·.scene))
      ((l.flatMap Context.ends).map fun y => (y.2, .gateEnded)) := by
  induction l generalizing s with
  | nil => rfl
  | cons x l ih =>
    rw [List.foldl_cons, ih, dropContext_acted, acted_acted, acted_scene, freeGates_append]
    simp only [List.flatMap_cons, List.map_append]

end Sys2Proof.Machine
end

