-- ==== Sys2Proof/Proofs/ShownItems.lean ====
section
/-! PROOFS. The verdict of a zone on its fetch, and the armed item that it shows (R112 to R114). -/

namespace Sys2Proof.Machine

/-! ### The verdicts of a context (R85, R112) -/

/-- The verdict that a tile of a context is sent, if any. -/
def State.tellVerdict (c : Ctx) (inStep delivered : TileSet) (v : Bool → VerdictKind) (s : State) (t : Tile) : State :=
  let d := delivered.getLsbD t.val
  if inStep.getLsbD t.val then s.toUnit t (.verdict (v d) d)
  else if s.tileOf t c && decide (s.scene.reported[t] = some .lagging) then s.toUnit t (.verdict .blank d)
  else s

theorem sendVerdicts_eq (s : State) (c : Ctx) (inStep delivered : TileSet) (v : Bool → VerdictKind) :
    s.sendVerdicts c inStep delivered v = allTiles.foldl (State.tellVerdict c inStep delivered v) s := rfl

section
variable {s : State} (c : Ctx) (inStep delivered : TileSet) (v : Bool → VerdictKind)

theorem tellVerdict_only {u : State} (h : onlyToUnit s u) (t : Tile) :
    onlyToUnit s (u.tellVerdict c inStep delivered v t) := by
  unfold State.tellVerdict
  dsimp only
  split
  · exact h.toUnit t _
  · split
    · exact h.toUnit t _
    · exact h

/-- What a tile of a context is told. -/
def verdictOf (s : State) (c : Ctx) (inStep delivered : TileSet) (v : Bool → VerdictKind) (i : Tile) : List UnitMsg :=
  let d := delivered.getLsbD i.val
  if inStep.getLsbD i.val = true then [.verdict (v d) d]
  else if s.units[i].ctx = some c ∧ s.scene.reported[i] = some .lagging then [.verdict .blank d] else []

theorem tellVerdict_at {u : State} (h : onlyToUnit s u) (t i : Tile) :
    (u.tellVerdict c inStep delivered v t).mail.toUnit[i] =
      if t = i then u.mail.toUnit[i] ++ verdictOf s c inStep delivered v i else u.mail.toUnit[i] := by
  unfold State.tellVerdict verdictOf State.tileOf
  dsimp only
  rw [h.units, h.scene]
  by_cases he : t = i
  · subst he
    rw [if_pos rfl]
    split
    · rw [toUnit_at, if_pos rfl]
    · simp only [Bool.and_eq_true, decide_eq_true_eq]
      split
      · rw [toUnit_at, if_pos rfl]
      · rw [List.append_nil]
  · rw [if_neg he]
    split
    · rw [toUnit_at, if_neg he]
    · split
      · rw [toUnit_at, if_neg he]
      · rfl

theorem sendVerdicts_sent (s : State) : verdictsSent s (s.sendVerdicts c inStep delivered v) c inStep delivered v := by
  rw [sendVerdicts_eq]
  refine ⟨foldl_inv (inv := onlyToUnit s) (fun _ t h => tellVerdict_only c inStep delivered v h t) allTiles
    (onlyToUnit_refl s), fun i => ?_⟩
  exact foldl_at (f := State.tellVerdict c inStep delivered v) (inv := onlyToUnit s)
    (π := fun (s : State) i => s.mail.toUnit[i]) (g := fun i w => w ++ verdictOf s c inStep delivered v i)
    (fun _ t h => tellVerdict_only c inStep delivered v h t)
    (fun u t hu => by rw [tellVerdict_at c inStep delivered v hu, if_pos rfl])
    (fun u t j hu hne => by rw [tellVerdict_at c inStep delivered v hu, if_neg hne])
    nodup_allTiles (onlyToUnit_refl s) (mem_allTiles i)

end

/-! ### The armed item is shown (R113, R114) -/

/-- An armed cut is shown: its scene is current, and the old one is unpinned. -/
theorem showCut_acted {s : State} {z : ZoneId} {c : Cut} {rest : List Cut} (h : (s.zone z).cuts = c :: rest) :
    s.showCut z = s.acted (s.setZone z fun zn =>
      { zn with
        armed := none, cuts := rest, current := playlistOf c s.scene.frame
        log := logged zn.log [logEntry c .shown s.scene.frame] }).scene (s.zone z).current.scene
      (if c.released then [] else [(c.port, .cutShown)]) := by
  have hframe : (s.unpinScene (s.zone z).current.scene).scene = s.scene := by simp
  have hcut : (((s.setZone z fun zn => { zn with armed := none, current := playlistOf c s.scene.frame }).takeCut z
      c).logCut z c .shown) = s.setZone z fun zn =>
        { zn with
          armed := none, cuts := rest, current := playlistOf c s.scene.frame
          log := logged zn.log [logEntry c .shown s.scene.frame] } := by
    unfold State.takeCut State.logCut
    rw [setZone_setZone, setZone_setZone]
    refine setZone_congr ?_
    dsimp only
    rw [h, List.erase_cons_head]
    rfl
  unfold State.showCut
  rw [h]
  unfold State.takeCut State.logCut at hcut ⊢
  dsimp only at hcut ⊢
  simp only [setZone_scene, hframe] at hcut ⊢
  rw [unpinScene_setZone, unpinScene_setZone, unpinScene_setZone]
  unfold playlistOf at hcut ⊢
  rw [hcut]
  split <;> rfl

/-- An armed gate is shown: its scene, with pins of its own, is current above the contexts that are saved. -/
theorem showGate_acted {s : State} {z : ZoneId} {g : GateId} {e : Gate} (h : s.gate g = some e) (p : Port) :
    s.showGate z g p = (s.pinScene e.scene).acted
      { s.scene with
        zones := upd s.scene.zones z fun zn =>
          { zn with
            armed := none, stack := zn.stack ++ [zn.current]
            current :=
              { scene := e.scene, origin := s.scene.frame, kind := .gate g
                remaining := if e.duration = 0 then none else some e.duration, invoker := some p } }
        gates := upd s.scene.gates g fun _ => some { e with use := .active p } } [] [(p, .gateShown)] := by
  have hgate : upd s.scene.gates g (·.map fun d => { d with use := .active p }) =
      upd s.scene.gates g fun _ => some { e with use := .active p } :=
    upd_congr _ _ (by rw [show s.scene.gates[g] = some e from h]; rfl)
  unfold State.showGate
  rw [h]
  dsimp only
  rw [pinScene_eq]
  unfold State.useGate
  refine congrArg (fun t : State => t.raise p .gateShown) ?_
  refine State.eq_of_blocks rfl rfl rfl rfl rfl ?_ rfl rfl rfl rfl
  simp only [setGate_scene, setZone_scene]
  rw [hgate]
  rfl

/-- An armed return is shown: the current context is dropped, and the top one is popped. -/
theorem showReturn_acted {s : State} {z : ZoneId} {x : Context} (h : (s.zone z).stack.getLast? = some x) :
    s.showReturn z = s.acted
      { s.scene.freeGates ((s.zone z).current.ends.map (·.1)) with
        zones := upd s.scene.zones z fun zn => { zn with armed := none, current := x, stack := zn.stack.dropLast } }
      (s.zone z).current.scene ((s.zone z).current.ends.map fun y => (y.2, .gateEnded)) := by
  unfold State.showReturn
  rw [h]
  dsimp only
  rw [dropContext_acted, acted_setZone, freeGates_only]

/-! ### The verdict of a zone (R112 to R114) -/

theorem allDelivered_iff (zn : Zone) : allDelivered zn.inStep zn.delivered = true ↔ wholeIn zn := by
  unfold allDelivered
  rw [beq_iff_eq]
  refine ⟨fun h i hi => ?_, fun h => BitVec.eq_of_getLsbD_eq fun i hi => ?_⟩
  · have hbit := congrArg (BitVec.getLsbD · i.val) h
    simpa [hi] using hbit
  · have hbit := h ⟨i, hi⟩
    simp only [BitVec.getLsbD_and, BitVec.getLsbD_not]
    cases hin : zn.inStep.getLsbD i
    · simp
    · rw [hbit hin]
      simp

/-- The state in which a zone has given its verdict on a fetch. -/
def State.judgedFetch (s : State) (z : ZoneId) (f : ZoneFetch) : State :=
  s.sendVerdicts (.zone z) (s.zone z).inStep (s.zone z).delivered fun _ =>
    if wholeIn (s.zone z) then .showFrame f.frame else .repeatFrame

section
variable {s : State} {z : ZoneId} {f : ZoneFetch}

theorem zoneVerdict_none (h : (s.zone z).fetch = none) : s.zoneVerdict z = s := by
  unfold State.zoneVerdict
  rw [h]

theorem zoneVerdict_shown (h : (s.zone z).fetch = some f) (hw : wholeIn (s.zone z)) : s.zoneVerdict z =
    (if f.armed then (s.judgedFetch z f).showArmed z else s.judgedFetch z f).countDown z := by
  unfold State.zoneVerdict State.judgedFetch
  rw [h]
  dsimp only
  rw [if_pos ((allDelivered_iff _).2 hw), if_pos hw, if_pos ((allDelivered_iff _).2 hw)]

theorem zoneVerdict_repeated (h : (s.zone z).fetch = some f) (hw : ¬ wholeIn (s.zone z)) : s.zoneVerdict z =
    if f.armed then (s.judgedFetch z f).dropReleased z else s.judgedFetch z f := by
  unfold State.zoneVerdict State.judgedFetch
  rw [h]
  dsimp only
  rw [if_neg (mt (allDelivered_iff _).1 hw), if_neg hw, if_neg (mt (allDelivered_iff _).1 hw)]

theorem judgedFetch_sent (s : State) (z : ZoneId) (f : ZoneFetch) :
    verdictsSent s (s.judgedFetch z f) (.zone z) (s.zone z).inStep (s.zone z).delivered
      (fun _ => if wholeIn (s.zone z) then .showFrame f.frame else .repeatFrame) := sendVerdicts_sent _ _ _ _ s

/-- Only messages to the units tell the state after the verdicts from that before them. -/
theorem judgedFetch_frame (s : State) (z : ZoneId) (f : ZoneFetch) : (s.judgedFetch z f).scene = s.scene ∧
    (s.judgedFetch z f).dir = s.dir ∧ (s.judgedFetch z f).ports = s.ports := by
  rw [(judgedFetch_sent s z f).1]
  exact ⟨rfl, rfl, rfl⟩

end

/-- After SHOW of an armed cut nothing counts down: a playlist has no remaining count. -/
theorem countDown_acted (s : State) (e : SceneEngine) (sc : Scene) (l : List (Port × Event)) (z : ZoneId) :
    (s.acted e sc l).countDown z = s.acted { e with zones := upd e.zones z fun zn =>
      { zn with current := { zn.current with remaining := zn.current.remaining.map (· - 1) } } } sc l :=
  acted_setZone ..

/-- What a verdict comes to that shows an armed item: the effect is that on a state with the same scenes. -/
theorem acted_of_told {s told : State} (e : SceneEngine) (sc : Scene) (l : List (Port × Event))
    (h : told.scene = s.scene ∧ told.dir = s.dir ∧ told.ports = s.ports) :
    pinsMove s (told.acted e sc l) [] sc ∧ ∀ q : Port, (told.acted e sc l).ports[q] = s.ports[q].takeEach q l := by
  refine ⟨(acted_pins told e sc l).dirs h.2.1.symm rfl, fun q => ?_⟩
  rw [acted_at, h.2.2]

theorem takeEach_one (r : PortRec) (q p : Port) (e : Event) : r.takeEach q [(p, e)] = if q = p then r.take e else r := rfl

theorem sameZone_of_told {s told : State} (h : told.scene = s.scene) (z : ZoneId) : told.zone z = s.zone z := by
  unfold State.zone
  rw [h]

/-- A released cut that was armed, fetched and not delivered is discarded. -/
theorem dropReleased_acted {s : State} {z : ZoneId} {c : Cut} {rest : List Cut} (ha : (s.zone z).armed = some .cut)
    (hc : (s.zone z).cuts = c :: rest) (hr : c.released = true) : s.dropReleased z =
    s.acted (s.setZone z fun zn =>
      { zn with
        armed := none, cuts := rest, log := logged zn.log [logEntry c .discarded s.scene.frame] }).scene c.scene [] := by
  unfold State.dropReleased State.disarm
  rw [ha, hc]
  dsimp only
  rw [if_pos hr, loseCut_acted, acted_setZone]
  refine congrArg (fun e : SceneEngine => s.acted e c.scene []) ?_
  simp only [setZone_scene, upd_upd]
  refine congrArg (fun v => { s.scene with zones := v }) (upd_congr _ _ ?_)
  have hc' : (s.scene.zones[z]).cuts = c :: rest := hc
  rw [hc', List.erase_cons_head]

theorem dropReleased_same {s : State} {z : ZoneId}
    (h : ¬ ((s.zone z).armed = some .cut ∧ (s.zone z).cuts.head?.any (·.released) = true)) : s.dropReleased z = s := by
  unfold State.dropReleased
  split
  · next c _ ha hc =>
    rw [ha, hc] at h
    exact if_neg fun hr => h ⟨rfl, hr⟩
  · rfl

/-- Settles O40, by the cases of the verdict, of the fetch and of what is armed. -/
theorem verdictsJudgeTheFetch : Obligations.VerdictsJudgeTheFetch := by
  refine fun z s => ⟨zoneVerdict_none, fun f hf => ⟨s.judgedFetch z f, judgedFetch_sent s z f, fun hw hor => ?_,
    fun c rest hw harm ha hc => ?_, fun hw => ⟨fun hn => ?_, fun c rest harm ha hc hr => ?_⟩⟩⟩
  all_goals
    have htold := judgedFetch_frame s z f
    have hzone := sameZone_of_told htold.1 z
  · rw [zoneVerdict_shown hf hw]
    obtain harm | hnone := hor
    · rw [harm]
      rfl
    · have hshow : (s.judgedFetch z f).showArmed z = s.judgedFetch z f := by
        unfold State.showArmed
        rw [hzone, hnone]
      rw [hshow, ite_self]
      rfl
  · have hverdict : s.zoneVerdict z = (s.judgedFetch z f).acted (s.setZone z fun zn =>
        { zn with
          armed := none, cuts := rest, current := playlistOf c s.scene.frame
          log := logged zn.log [logEntry c .shown s.scene.frame] }).scene (s.zone z).current.scene
        (if c.released then [] else [(c.port, .cutShown)]) := by
      rw [zoneVerdict_shown hf hw, if_pos harm]
      unfold State.showArmed
      rw [hzone, ha]
      dsimp only
      rw [showCut_acted (hzone ▸ hc), countDown_acted, hzone, htold.1]
      simp only [setZone_scene, upd_upd, htold.1]
      rfl
    obtain ⟨hpins, hports⟩ := acted_of_told (told := s.judgedFetch z f) _ _ _ htold
    refine ⟨_, hverdict, acted_only .., acted_scene .., hpins, fun q => (hports q).trans ?_⟩
    cases hrel : c.released with
    | true => simp [PortRec.takeEach]
    | false => simp [takeEach_one]
  · rw [zoneVerdict_repeated hf hw]
    split
    · next harm => exact dropReleased_same fun h => hn ⟨harm, hzone ▸ h.1, hzone ▸ h.2⟩
    · rfl
  · have hverdict : s.zoneVerdict z = (s.judgedFetch z f).acted (s.setZone z fun zn =>
        { zn with
          armed := none, cuts := rest, log := logged zn.log [logEntry c .discarded s.scene.frame] }).scene c.scene
        [] := by
      rw [zoneVerdict_repeated hf hw, if_pos harm, dropReleased_acted (hzone ▸ ha) (hzone ▸ hc) hr, htold.1]
      simp only [setZone_scene, htold.1]
    obtain ⟨hpins, hports⟩ := acted_of_told (told := s.judgedFetch z f) _ _ _ htold
    exact ⟨_, hverdict, acted_quiet .., acted_scene .., hpins⟩

/-- Two updates of one entry that together make of it what a third does. -/
theorem upd_upd_congr {α : Type} {n : Nat} (v : Vector α n) (i : Fin n) {f g k : α → α} (h : g (f v[i]) = k v[i]) :
    upd (upd v i f) i g = upd v i k := (upd_upd v i f g).trans (upd_congr v i h)

/-- The verdict that shows an armed gate. -/
theorem zoneVerdict_gate {s : State} {z : ZoneId} {f : ZoneFetch} {g : GateId} {p : Port} {k : Nat} {e : Gate}
    (hf : (s.zone z).fetch = some f) (harm : f.armed = true) (hw : wholeIn (s.zone z))
    (ha : (s.zone z).armed = some (.gate g p k)) (hg : s.gate g = some e) :
    s.zoneVerdict z = ((s.judgedFetch z f).pinScene e.scene).acted
      { s.scene with
        zones := upd s.scene.zones z fun zn =>
          { zn with
            armed := none, stack := zn.stack ++ [zn.current]
            current :=
              { scene := e.scene, origin := s.scene.frame, kind := .gate g
                remaining := if e.duration = 0 then none else some (e.duration - 1), invoker := some p } }
        gates := upd s.scene.gates g fun _ => some { e with use := .active p } } [] [(p, .gateShown)] := by
  have htold := judgedFetch_frame s z f
  rw [zoneVerdict_shown hf hw, if_pos harm]
  unfold State.showArmed
  rw [sameZone_of_told htold.1, ha]
  dsimp only
  rw [showGate_acted (e := e) (by unfold State.gate; rw [htold.1]; exact hg), countDown_acted, htold.1]
  dsimp only
  rw [upd_upd_congr]
  dsimp only
  split <;> rfl

/-- The verdict that shows an armed return. -/
theorem zoneVerdict_return {s : State} {z : ZoneId} {f : ZoneFetch} {below : List Context} {x : Context}
    (hf : (s.zone z).fetch = some f) (harm : f.armed = true) (hw : wholeIn (s.zone z))
    (ha : (s.zone z).armed = some .ret) (hs : (s.zone z).stack = below ++ [x]) :
    s.zoneVerdict z = (s.judgedFetch z f).acted
      { s.scene.freeGates ((s.zone z).current.ends.map (·.1)) with
        zones := upd s.scene.zones z fun zn =>
          { zn with armed := none, stack := below, current := { x with remaining := x.remaining.map (· - 1) } } }
      (s.zone z).current.scene ((s.zone z).current.ends.map fun y => (y.2, .gateEnded)) := by
  have htold := judgedFetch_frame s z f
  have hzone := sameZone_of_told htold.1 z
  rw [zoneVerdict_shown hf hw, if_pos harm]
  unfold State.showArmed
  rw [hzone, ha]
  dsimp only
  rw [showReturn_acted (x := x) (by rw [hzone, hs, List.getLast?_concat]), countDown_acted, hzone, htold.1]
  dsimp only
  rw [upd_upd_congr]
  dsimp only
  rw [show (s.scene.zones[z]).stack = below ++ [x] from hs, List.dropLast_concat]

/-- Settles O41, by the two items that are shown with a change of the link stack. -/
theorem gatesAndReturnsAreShown : Obligations.GatesAndReturnsAreShown := by
  intro z f s hf harm hw
  have htold := judgedFetch_frame s z f
  have hsent := judgedFetch_sent s z f
  rw [if_pos hw] at hsent
  refine ⟨s.judgedFetch z f, hsent, fun g p k e ha hg => ?_, fun below x g p ha hs hk hi => ?_⟩
  · have hpin : ((s.judgedFetch z f).pinScene e.scene).ports = s.ports := by simp [htold.2.2]
    refine ⟨_, zoneVerdict_gate hf harm hw ha hg, ?_, acted_scene .., ?_, fun q => ?_⟩
    · refine (acted_only ..).trans ?_
      rw [pinScene_eq]
    · exact ((pinsMove_pinScene (s.judgedFetch z f) e.scene).dropMore (acted_pins ..)).dirs htold.2.1.symm rfl
    · rw [acted_at, hpin, takeEach_one]
  · have hends : (s.zone z).current.ends = [(g, p)] := by
      unfold Context.ends
      rw [hk, hi]
    have hverdict := zoneVerdict_return hf harm hw ha hs
    rw [hends] at hverdict
    obtain ⟨hpins, hports⟩ := acted_of_told (told := s.judgedFetch z f) _ _ _ htold
    exact ⟨_, hverdict, acted_only .., acted_scene .., hpins, hports⟩

end Sys2Proof.Machine
end

