-- ==== Sys2Proof/Proofs/ZoneChoices.lean ====
section
/-! PROOFS. The choice of a zone for its next fetch: the armed item is cleared, a pending one is armed, due cuts are
settled, and the armed item is checked (R115 to R120). -/

namespace Sys2Proof.Machine

/-! ### The steps before the due cuts -/

/-- A zone is prepared for the settlement of its due cuts: its armed item is cleared where it can no longer be shown,
and what is pending, or else the return of a gate whose frames are over, is armed. -/
def State.prepared (s : State) (z : ZoneId) : State := ((s.clearArmed z).armPending z).armExpired z

theorem zoneChoice_eq (s : State) (z : ZoneId) : s.zoneChoice z =
    match ((s.prepared z).settleDue z).checkArmed z with
    | (t, some (sc, origin)) => t.orderFetch z true sc origin
    | (t, none) => t.orderFetch z false (t.zone z).current.scene (t.zone z).current.origin := rfl

/-- A choice depends on what the settlement of the due cuts leaves. -/
theorem zoneChoice_congr {s u : State} {z : ZoneId} (h : (s.prepared z).settleDue z = (u.prepared z).settleDue z) :
    s.zoneChoice z = u.zoneChoice z := by
  rw [zoneChoice_eq, zoneChoice_eq, h]

section
variable {s : State} {z : ZoneId}

theorem clearArmed_same (h : keepsArmed s z) : s.clearArmed z = s := by
  unfold State.clearArmed
  unfold keepsArmed at h
  split
  · next c later ha hc =>
    rw [ha] at h
    obtain ⟨hslip, hlater⟩ := h c later hc
    have h1 : s.slipOver c = false := decide_eq_false (by omega)
    have h2 : later.any s.isDue = false :=
      List.any_eq_false.2 fun x hx => by
        have := hlater x hx
        unfold State.isDue
        simp only [decide_eq_true_eq]
        omega
    rw [h1, h2]
    rfl
  · next g p k _ ha =>
    rw [ha] at h
    exact if_neg (by simpa using h)
  · rfl

theorem keepsArmed_none (h : (s.zone z).armed = none) : keepsArmed s z := by
  unfold keepsArmed
  rw [h]
  trivial

theorem clearArmed_none (h : (s.zone z).armed = none) : s.clearArmed z = s := clearArmed_same (keepsArmed_none h)

theorem armPending_same (h : (s.zone z).pend = none) : s.armPending z = s := by
  unfold State.armPending
  rw [h]

/-- A current gate's frames are over, with nothing armed. -/
def Zone.expired (zn : Zone) : Prop := zn.armed = none ∧ zn.current.kind ≠ .playlist ∧ zn.current.remaining = some 0

theorem armExpired_same (h : ¬ (s.zone z).expired) : s.armExpired z = s := by
  unfold State.armExpired
  exact if_neg fun hx => h ⟨hx.1, hx.2.2.1, hx.2.2.2⟩

theorem prepared_same (hk : keepsArmed s z) (hp : (s.zone z).pend = none) (he : ¬ (s.zone z).expired) :
    s.prepared z = s := by
  unfold State.prepared
  rw [clearArmed_same hk, armPending_same hp, armExpired_same he]

theorem prepared_pending (hk : keepsArmed s z) : s.prepared z = (s.armPending z).armExpired z := by
  unfold State.prepared
  rw [clearArmed_same hk]

end

/-! ### A cut leaves with an event (R104, R115, R118) -/

section
variable (s : State) (z : ZoneId) (c : Cut)

theorem loseCut_lost (o : CutOutcome) : s.loseCut z o c =
    s.acted (s.setZone z (·.lost o s.scene.frame [c])).scene c.scene [] := loseCut_acted s z o c

theorem abandonCut_acted : s.abandonCut z c =
    s.acted (s.setZone z (·.lost .abandoned s.scene.frame [c])).scene c.scene [(c.port, .cutAbandoned)] := by
  unfold State.abandonCut
  rw [loseCut_lost, acted_raise]
  rfl

theorem skipCut_acted : s.skipCut z c =
    s.acted (s.setZone z (·.lost .skipped s.scene.frame [c])).scene c.scene [(c.port, .cutSkipped)] := by
  unfold State.skipCut
  rw [loseCut_lost, acted_raise]
  rfl

end

theorem Zone.lost_lost (zn : Zone) (o : CutOutcome) (n : Nat) (a b : List Cut) :
    (zn.lost o n a).lost o n b = zn.lost o n (a ++ b) := by
  unfold Zone.lost
  dsimp only
  rw [logged_logged, List.map_append, List.foldl_append]

theorem Zone.lost_nil {zn : Zone} (o : CutOutcome) (n : Nat) (h : zn.log.length ≤ 8) : zn.lost o n [] = zn := by
  unfold Zone.lost
  rw [List.map_nil, logged_nil h]
  rfl

theorem Zone.lost_log (zn : Zone) (o : CutOutcome) (n : Nat) (gone : List Cut) : (zn.lost o n gone).log.length ≤ 8 := by
  unfold Zone.lost logged
  simp only [List.length_drop, List.length_append]
  omega

/-- Cuts are skipped one after the other (R118). -/
theorem skipCuts_acted (z : ZoneId) (pre : List Cut) (s : State) (hl : (s.zone z).log.length ≤ 8) :
    pre.foldl (fun s c => s.skipCut z c) s =
      s.acted (s.setZone z (·.lost .skipped s.scene.frame pre)).scene (pre.flatMap (·.scene))
        (pre.map fun c => (c.port, .cutSkipped)) := by
  induction pre generalizing s with
  | nil =>
    have hzone : s.setZone z (·.lost .skipped s.scene.frame []) = s.setZone z fun zn => zn :=
      setZone_congr (Zone.lost_nil _ _ hl)
    rw [hzone]
    refine State.eq_of_blocks rfl rfl rfl rfl rfl ?_ rfl rfl rfl rfl
    rw [acted_scene, setZone_scene, upd_of_fixed _ _ _ rfl]
    rfl
  | cons c pre ih =>
    have hzone : ((s.skipCut z c).zone z) = (s.zone z).lost .skipped s.scene.frame [c] := by
      rw [skipCut_acted, acted_zone]
      exact setZone_same s z _
    rw [List.foldl_cons, ih _ (by rw [hzone]; exact Zone.lost_log ..), skipCut_acted, acted_acted, acted_setZone,
      acted_scene, acted_scene]
    simp only [setZone_scene, upd_upd, Zone.lost_lost, List.flatMap_cons, List.map_cons, List.cons_append, List.nil_append]

/-! ### What a port is told -/

/-- An event raised at the ports of some cuts. -/
theorem takeEach_cuts (r : PortRec) (q : Port) (l : List Cut) (e : Event) :
    r.takeEach q (l.map fun c => (c.port, e)) = portTold r q l e := by
  induction l generalizing r with
  | nil => rfl
  | cons c l ih =>
    have hcons : r.takeEach q ((c :: l).map fun c => (c.port, e)) =
        (if q = c.port then r.take e else r).takeEach q (l.map fun c => (c.port, e)) := rfl
    rw [hcons, ih]
    unfold portTold
    by_cases h : q = c.port
    · rw [if_pos h, List.any_cons, decide_eq_true h.symm, Bool.true_or, if_pos rfl, take_take, ite_self]
    · rw [if_neg h, List.any_cons, decide_eq_false (Ne.symm h), Bool.false_or]

theorem takeEach_append (r : PortRec) (q : Port) (l m : List (Port × Event)) :
    r.takeEach q (l ++ m) = (r.takeEach q l).takeEach q m := List.foldl_append ..

/-! ### The armed item is cleared (R115, R132) -/

section
variable {s u : State} {z : ZoneId}

/-- An armed cut leaves its queue with an event, and nothing is armed. -/
theorem lostArmed_acted {c : Cut} {later : List Cut} (o : CutOutcome) (e : Event) (hc : (s.zone z).cuts = c :: later) :
    ((s.loseCut z o c).raise c.port e).disarm z = s.acted (s.setZone z fun zn =>
      { zn with armed := none, cuts := later, log := logged zn.log [logEntry c o s.scene.frame] }).scene c.scene
      [(c.port, e)] := by
  unfold State.disarm
  rw [loseCut_acted, acted_raise, acted_setZone]
  refine congrArg (fun e' : SceneEngine => s.acted e' c.scene [(c.port, e)]) ?_
  simp only [setZone_scene]
  rw [upd_upd_congr]
  dsimp only
  rw [show (s.scene.zones[z]).cuts = c :: later from hc, List.erase_cons_head]

theorem clearArmed_abandon {c : Cut} {later : List Cut} (ha : (s.zone z).armed = some .cut)
    (hc : (s.zone z).cuts = c :: later) (hslip : c.target + c.slip < s.scene.frame + 1) :
    s.clearArmed z = s.acted (s.setZone z fun zn =>
      { zn with armed := none, cuts := later, log := logged zn.log [logEntry c .abandoned s.scene.frame] }).scene c.scene
      [(c.port, .cutAbandoned)] := by
  rw [← lostArmed_acted .abandoned .cutAbandoned hc]
  unfold State.clearArmed
  rw [ha, hc]
  exact if_pos (decide_eq_true hslip)

theorem clearArmed_skip {c : Cut} {later : List Cut} (ha : (s.zone z).armed = some .cut)
    (hc : (s.zone z).cuts = c :: later) (hslip : s.scene.frame + 1 ≤ c.target + c.slip)
    (hdue : ∃ x ∈ later, x.target ≤ s.scene.frame + 1) :
    s.clearArmed z = s.acted (s.setZone z fun zn =>
      { zn with armed := none, cuts := later, log := logged zn.log [logEntry c .skipped s.scene.frame] }).scene c.scene
      [(c.port, .cutSkipped)] := by
  rw [← lostArmed_acted .skipped .cutSkipped hc]
  unfold State.clearArmed
  rw [ha, hc]
  dsimp only
  have hover : s.slipOver c = false := decide_eq_false (by omega)
  obtain ⟨x, hx, ht⟩ := hdue
  rw [hover, if_neg (by decide), if_pos (List.any_eq_true.2 ⟨x, hx, decide_eq_true ht⟩)]
  rfl

theorem clearArmed_gate {g : GateId} {p : Port} {k : Nat} (ha : (s.zone z).armed = some (.gate g p k)) (hk : 8 ≤ k) :
    s.clearArmed z = s.acted { s.scene with
      zones := upd s.scene.zones z fun zn => { zn with armed := none }
      gates := upd s.scene.gates g (·.map fun e => { e with use := .defined }) } [] [(p, .gateAbandoned)] := by
  unfold State.clearArmed
  rw [ha]
  exact if_pos hk

/-- A choice goes on from the state in which the armed item has been cleared. -/
theorem zoneChoice_cleared (h : s.clearArmed z = u) (hn : (u.zone z).armed = none) : s.zoneChoice z = u.zoneChoice z := by
  refine zoneChoice_congr ?_
  unfold State.prepared
  rw [h, clearArmed_none hn]

theorem unarmEarly_cut {c : Cut} {later : List Cut} (ha : (s.zone z).armed = some .cut)
    (hc : (s.zone z).cuts = c :: later) : s.unarmEarly z =
      if s.scene.frame + 1 < c.target then s.setZone z fun zn => { zn with armed := none } else s := by
  unfold State.unarmEarly
  rw [ha, hc]
  rfl

theorem unarmEarly_same (ha : (s.zone z).armed ≠ some .cut) : s.unarmEarly z = s := by
  unfold State.unarmEarly
  split
  · next h _ => exact absurd h ha
  · rfl

/-- A choice goes on from the state in which what is pending has been armed. -/
theorem zoneChoice_armed (hk : keepsArmed s z) (h : s.armPending z = u) (hu : keepsArmed u z)
    (hp : (u.zone z).pend = none) : s.zoneChoice z = u.zoneChoice z := by
  refine zoneChoice_congr ?_
  rw [prepared_pending hk, prepared_pending hu, h, armPending_same hp]

end

/-- Settles O42, by the steps of the choice: each is done once, and what it leaves is not cleared or armed again. -/
theorem choiceClearsAndArms : Obligations.ChoiceClearsAndArms := by
  intro z s left
  have hleft : ∀ {c : Cut} {later : List Cut} {o : CutOutcome} {e : Event}, s.clearArmed z =
      s.acted (s.setZone z fun zn =>
        { zn with armed := none, cuts := later, log := logged zn.log [logEntry c o s.scene.frame] }).scene c.scene
        [(c.port, e)] → left c later o e := fun {c later o e} h => by
    refine ⟨_, zoneChoice_cleared h ?_, acted_only .., acted_scene .., acted_pins .., fun q => ?_⟩
    · rw [acted_zone]
      exact congrArg Zone.armed (setZone_same s z _)
    · rw [acted_at]
      exact takeEach_cuts _ q [c] e
  refine ⟨fun c later ha hc => ⟨unarmEarly_cut ha hc, fun hslip => hleft (clearArmed_abandon ha hc hslip),
    fun hslip hdue => hleft (clearArmed_skip ha hc hslip hdue)⟩, unarmEarly_same, fun g p k ha hk => ?_,
    fun hk => ⟨fun g p hp => ?_, fun hp => ?_⟩, fun ha hp hkind hrem => ?_⟩
  · refine ⟨_, zoneChoice_cleared (clearArmed_gate ha hk) ?_, ?_, acted_scene .., fun q => ?_⟩
    · rw [acted_zone]
      exact congrArg Zone.armed (upd_same ..)
    · exact raiseEach_only ..
    · rw [acted_at, takeEach_one]
  · refine zoneChoice_armed hk (by unfold State.armPending; rw [hp]) ?_ (by rw [setZone_same])
    unfold keepsArmed
    rw [setZone_same]
    exact Nat.zero_lt_succ 7
  · refine zoneChoice_armed hk (by unfold State.armPending; rw [hp]) ?_ (by rw [setZone_same])
    unfold keepsArmed
    rw [setZone_same]
    trivial
  · refine zoneChoice_congr ?_
    have hx : s.armExpired z = s.setZone z fun zn => { zn with armed := some .ret } :=
      if_pos ⟨ha, hp, hkind, hrem⟩
    have hs : s.prepared z = s.setZone z fun zn => { zn with armed := some .ret } := by
      rw [prepared_pending (keepsArmed_none ha), armPending_same hp, hx]
    have hu : keepsArmed (s.setZone z fun zn => { zn with armed := some .ret }) z := by
      unfold keepsArmed
      rw [setZone_same]
      trivial
    rw [hs, prepared_same hu (by rw [setZone_same]; exact hp) (by rw [setZone_same]; rintro ⟨h, -⟩; cases h)]

end Sys2Proof.Machine
end

