-- ==== Sys2Proof/Proofs/DueCuts.lean ====
section
/-! PROOFS. The due cuts of a zone with nothing armed (R118, R120). -/

namespace Sys2Proof.Machine

/-! ### The latest due cut is found, with the others skipped -/

section
variable {s : State} {z : ZoneId} {pre post : List Cut} {c : Cut}

/-- The cuts that a zone holds are due up to one, and not after it. -/
theorem filter_due (h : dueCuts s z pre c post) : (s.zone z).cuts.filter s.isDue = pre ++ [c] := by
  obtain ⟨hcuts, hpre, hc, hpost⟩ := h
  have h1 : pre.filter s.isDue = pre := List.filter_eq_self.2 fun x hx => decide_eq_true (hpre x hx)
  have h2 : post.filter s.isDue = [] := List.filter_eq_nil_iff.2 fun x hx => by
    have := hpost x hx
    unfold State.isDue
    simp only [decide_eq_true_eq]
    omega
  have h3 : s.isDue c = true := decide_eq_true hc
  rw [hcuts, List.filter_append, List.filter_cons, h1, h2, if_pos h3]

theorem skipDue_none (h : ∀ x ∈ (s.zone z).cuts, s.scene.frame + 1 < x.target) : s.skipDue z = (s, none) := by
  have hnone : (s.zone z).cuts.filter s.isDue = [] := List.filter_eq_nil_iff.2 fun x hx => by
    have := h x hx
    unfold State.isDue
    simp only [decide_eq_true_eq]
    omega
  unfold State.skipDue
  rw [hnone]
  rfl

/-- The state in which the due cuts but the latest have been skipped. -/
def State.dueSkipped (s : State) (z : ZoneId) (pre : List Cut) : State :=
  s.acted (s.setZone z (·.lost .skipped s.scene.frame pre)).scene (pre.flatMap (·.scene))
    (pre.map fun c => (c.port, .cutSkipped))

theorem skipDue_some (h : dueCuts s z pre c post) (hl : (s.zone z).log.length ≤ 8) :
    s.skipDue z = (s.dueSkipped z pre, some c) := by
  unfold State.skipDue
  dsimp only
  rw [filter_due h, List.dropLast_concat, List.getLast?_concat, skipCuts_acted z pre s hl]
  rfl

/-- Cuts leave a queue from its head. -/
theorem foldl_erase_head (pre rest : List Cut) : pre.foldl List.erase (pre ++ rest) = rest := by
  induction pre with
  | nil => rfl
  | cons c pre ih => rw [List.cons_append, List.foldl_cons, List.erase_cons_head, ih]

theorem dueSkipped_zone (h : dueCuts s z pre c post) : (s.dueSkipped z pre).zone z =
    { s.zone z with
      cuts := c :: post
      log := logged (s.zone z).log (pre.map fun x => logEntry x .skipped s.scene.frame) } := by
  unfold State.dueSkipped
  rw [acted_zone]
  refine (setZone_same s z _).trans ?_
  unfold Zone.lost
  rw [h.1, foldl_erase_head]

theorem dueSkipped_frame (s : State) (z : ZoneId) (pre : List Cut) :
    (s.dueSkipped z pre).scene.frame = s.scene.frame := by
  unfold State.dueSkipped
  rw [acted_scene]
  rfl

end

/-! ### A cut is taken unseen -/

/-- The scene that a cut taken unseen replaces. -/
def Zone.replaced (zn : Zone) : Scene :=
  match zn.stack with
  | [] => zn.current.scene
  | b :: _ => b.scene

/-- A zone whose playlist, current or saved, is a cut taken unseen. -/
def Zone.unseen (zn : Zone) (c : Cut) : Zone :=
  match zn.stack with
  | [] => { zn with current := playlistOf c c.target }
  | _ :: above => { zn with stack := playlistOf c c.target :: above }

theorem Zone.unseen_queue (zn : Zone) (c : Cut) : (zn.unseen c).cuts = zn.cuts ∧ (zn.unseen c).log = zn.log := by
  unfold Zone.unseen
  split <;> exact ⟨rfl, rfl⟩

theorem takeUnseen_acted (s : State) (z : ZoneId) (c : Cut) : s.takeUnseen z c =
    s.acted (s.setZone z fun zn =>
      { zn.unseen c with
        cuts := zn.cuts.erase c, log := logged zn.log [logEntry c .unseen s.scene.frame] }).scene (s.zone z).replaced
      [(c.port, .cutUnseen)] := by
  have hshown : (match (s.zone z).stack with
      | [] => (s.unpinScene (s.zone z).current.scene).setZone z fun zn => { zn with current := playlistOf c c.target }
      | b :: above => (s.unpinScene b.scene).setZone z fun zn => { zn with stack := playlistOf c c.target :: above }) =
      s.acted (s.setZone z (·.unseen c)).scene (s.zone z).replaced [] := by
    unfold Zone.replaced
    cases hs : (s.zone z).stack with
    | nil =>
      dsimp only
      rw [unpinScene_acted, acted_setZone]
      refine congrArg (fun v => s.acted { s.scene with zones := v } _ []) (upd_congr _ _ ?_)
      unfold Zone.unseen
      rw [show (s.scene.zones[z]).stack = [] from hs]
    | cons b above =>
      dsimp only
      rw [unpinScene_acted, acted_setZone]
      refine congrArg (fun v => s.acted { s.scene with zones := v } _ []) (upd_congr _ _ ?_)
      unfold Zone.unseen
      rw [show (s.scene.zones[z]).stack = b :: above from hs]
  unfold State.takeUnseen
  dsimp only
  change State.raise (State.logCut (State.takeCut (match (s.zone z).stack with
      | [] => (s.unpinScene (s.zone z).current.scene).setZone z fun zn => { zn with current := playlistOf c c.target }
      | b :: above => (s.unpinScene b.scene).setZone z fun zn => { zn with stack := playlistOf c c.target :: above })
    z c) z c .unseen) c.port .cutUnseen = _
  rw [hshown]
  unfold State.logCut State.takeCut
  rw [acted_setZone, acted_setZone, acted_raise, acted_scene]
  refine congrArg (fun e : SceneEngine => s.acted e _ _) ?_
  simp only [setZone_scene, upd_upd]
  refine congrArg (fun v => { s.scene with zones := v }) (congrArg (upd s.scene.zones z) (funext fun zn => ?_))
  rw [(zn.unseen_queue c).1, (zn.unseen_queue c).2]
  rfl

/-! ### The due cuts are settled -/

section
variable {s : State} {z : ZoneId} {pre post : List Cut} {c : Cut}

theorem settleDue_same (h : (s.zone z).armed ≠ none ∨ ∀ x ∈ (s.zone z).cuts, s.scene.frame + 1 < x.target) :
    s.settleDue z = s := by
  unfold State.settleDue
  split
  · rfl
  · next ha => rw [skipDue_none (h.resolve_left ha)]

/-- What becomes of the latest due cut, in the state in which the others have been skipped. -/
theorem settleDue_some (ha : (s.zone z).armed = none) (h : dueCuts s z pre c post) (hl : (s.zone z).log.length ≤ 8) :
    s.settleDue z =
      if (s.zone z).stack ≠ [] then (s.dueSkipped z pre).takeUnseen z c
      else if c.target + c.slip < s.scene.frame + 1 then (s.dueSkipped z pre).abandonCut z c
      else (s.dueSkipped z pre).setZone z fun zn => { zn with armed := some .cut } := by
  have hover : (s.dueSkipped z pre).slipOver c = decide (c.target + c.slip < s.scene.frame + 1) := by
    unfold State.slipOver
    rw [dueSkipped_frame]
  unfold State.settleDue
  rw [if_neg (not_not_intro ha), skipDue_some h hl]
  dsimp only
  rw [hover, dueSkipped_zone h]
  simp only [decide_eq_true_eq]

/-- The entries of the skipped cuts in the outcome log. -/
def skips (pre : List Cut) (frame : Nat) : List LogEntry := pre.map fun x => logEntry x .skipped frame

theorem Zone.lost_head {zn : Zone} {rest : List Cut} (o : CutOutcome) (n : Nat) (hc : zn.cuts = pre ++ rest) :
    zn.lost o n pre = { zn with cuts := rest, log := logged zn.log (pre.map fun x => logEntry x o n) } := by
  unfold Zone.lost
  rw [hc, foldl_erase_head]

/-- The latest due cut is abandoned after the others have been skipped. -/
theorem dueSkipped_abandon (h : dueCuts s z pre c post) : (s.dueSkipped z pre).abandonCut z c =
    s.acted (s.setZone z fun zn =>
      { zn with
        cuts := post
        log := logged zn.log (skips pre s.scene.frame ++ [logEntry c .abandoned s.scene.frame]) }).scene
      ((pre ++ [c]).flatMap (·.scene)) (pre.map (fun c => (c.port, .cutSkipped)) ++ [(c.port, .cutAbandoned)]) := by
  rw [abandonCut_acted, dueSkipped_frame]
  unfold State.dueSkipped
  rw [acted_setZone, acted_acted, acted_scene, List.flatMap_append, List.flatMap_singleton]
  refine congrArg (fun e : SceneEngine => s.acted e _ _) ?_
  simp only [setZone_scene]
  rw [upd_upd_congr]
  rw [Zone.lost_head (rest := c :: post) _ _ h.1]
  unfold Zone.lost skips
  dsimp only
  rw [logged_logged, List.foldl_cons, List.erase_cons_head]
  rfl

/-- The latest due cut is taken unseen after the others have been skipped. -/
theorem dueSkipped_unseen (h : dueCuts s z pre c post) : (s.dueSkipped z pre).takeUnseen z c =
    s.acted (s.setZone z fun zn =>
      { zn.unseen c with
        cuts := post
        log := logged zn.log (skips pre s.scene.frame ++ [logEntry c .unseen s.scene.frame]) }).scene
      (pre.flatMap (·.scene) ++ (s.zone z).replaced)
      (pre.map (fun c => (c.port, .cutSkipped)) ++ [(c.port, .cutUnseen)]) := by
  have hrep : ((s.dueSkipped z pre).zone z).replaced = (s.zone z).replaced := by
    rw [dueSkipped_zone h]
    rfl
  rw [takeUnseen_acted, dueSkipped_frame, hrep]
  unfold State.dueSkipped
  rw [acted_setZone, acted_acted, acted_scene]
  refine congrArg (fun e : SceneEngine => s.acted e _ _) ?_
  simp only [setZone_scene]
  rw [upd_upd_congr]
  rw [Zone.lost_head (rest := c :: post) _ _ h.1]
  unfold Zone.unseen skips
  dsimp only
  rw [logged_logged, List.erase_cons_head]
  cases (s.scene.zones[z]).stack <;> rfl

/-- The latest due cut is armed after the others have been skipped. -/
theorem dueSkipped_arms (h : dueCuts s z pre c post) :
    ((s.dueSkipped z pre).setZone z fun zn => { zn with armed := some .cut }) =
      s.acted (s.setZone z fun zn =>
        { zn with
          armed := some .cut, cuts := c :: post, log := logged zn.log (skips pre s.scene.frame) }).scene
        (pre.flatMap (·.scene)) (pre.map fun c => (c.port, .cutSkipped)) := by
  unfold State.dueSkipped
  rw [acted_setZone]
  refine congrArg (fun e : SceneEngine => s.acted e _ _) ?_
  simp only [setZone_scene]
  rw [upd_upd_congr]
  rw [Zone.lost_head (rest := c :: post) _ _ h.1]
  rfl

/-- What a zone leaves settled is prepared and settled. -/
theorem settled_rest {u : State} (hun : unarmed (u.zone z)) (hpost : ∀ x ∈ (u.zone z).cuts, u.scene.frame + 1 < x.target) :
    (u.prepared z).settleDue z = u := by
  obtain ⟨ha, hp, hx⟩ := hun
  have hexp : ¬ (u.zone z).expired := fun h => hx.elim h.2.1 fun hr => hr h.2.2
  rw [prepared_same (keepsArmed_none ha) hp hexp, settleDue_same (.inr hpost)]

theorem prepared_unarmed (hun : unarmed (s.zone z)) : s.prepared z = s := by
  obtain ⟨ha, hp, hx⟩ := hun
  exact prepared_same (keepsArmed_none ha) hp fun h => hx.elim h.2.1 fun hr => hr h.2.2

end

/-- The due cuts of a zone are those it has when its fetch is dropped. -/
theorem dueCuts_dropFetch {s : State} {z : ZoneId} {pre post : List Cut} {c : Cut} (h : dueCuts s z pre c post) :
    dueCuts (s.setZone z fun zn => { zn with fetch := none, delivered := 0 }) z pre c post := by
  unfold dueCuts at h ⊢
  rw [setZone_same]
  exact h

/-- A zone outside LIT takes its latest due cut unseen (R120). -/
theorem zoneDark_unseen {s : State} {z : ZoneId} {pre post : List Cut} {c : Cut} (hl : (s.zone z).log.length ≤ 8)
    (hf : s.scene.frame ≠ 2 ^ 48 - 1) (h : dueCuts s z pre c post) : s.zoneDark z =
    s.acted (s.setZone z fun zn =>
      { zn.unseen c with
        fetch := none, delivered := 0, cuts := post
        log := logged zn.log (skips pre s.scene.frame ++ [logEntry c .unseen s.scene.frame]) }).scene
      (pre.flatMap (·.scene) ++ (s.zone z).replaced)
      (pre.map (fun c => (c.port, .cutSkipped)) ++ [(c.port, .cutUnseen)]) := by
  have hdue := dueCuts_dropFetch h
  have hzone := setZone_same s z fun zn => { zn with fetch := none, delivered := 0 }
  have hl' : ((s.setZone z fun zn => { zn with fetch := none, delivered := 0 }).zone z).log.length ≤ 8 := by
    rw [hzone]
    exact hl
  unfold State.zoneDark
  dsimp only
  rw [if_neg (by exact hf), skipDue_some hdue hl']
  dsimp only
  rw [dueSkipped_unseen hdue, hzone, setZone_acted s z fun zn => { zn with fetch := none, delivered := 0 }, acted_setZone,
    acted_acted, acted_scene]
  simp only [setZone_scene, List.nil_append]
  rw [upd_upd_congr]
  · rfl
  · unfold Zone.unseen
    dsimp only
    cases (s.scene.zones[z]).stack <;> rfl

theorem zoneDark_same {s : State} {z : ZoneId}
    (h : s.scene.frame = 2 ^ 48 - 1 ∨ ∀ x ∈ (s.zone z).cuts, s.scene.frame + 1 < x.target) :
    s.zoneDark z = s.setZone z fun zn => { zn with fetch := none, delivered := 0 } := by
  unfold State.zoneDark
  dsimp only
  split
  · rfl
  · next hf =>
    rw [skipDue_none (by rw [setZone_same]; exact h.resolve_left hf)]

/-- With a context saved, a cut taken unseen leaves the current one. -/
theorem unarmed_unseen {zn : Zone} {c : Cut} {cuts : List Cut} {log : List LogEntry} (hs : zn.stack ≠ [])
    (hun : unarmed zn) : unarmed { zn.unseen c with cuts := cuts, log := log } := by
  unfold Zone.unseen
  split
  · next h => exact absurd h hs
  · exact hun

/-- Settles O43, by what becomes of the latest due cut. -/
theorem dueCutsAreSettled : Obligations.DueCutsAreSettled := by
  intro z s hl
  refine ⟨fun pre c post hun hdue => ?_, fun h => zoneDark_same h, fun pre c post hf hdue => ?_⟩
  · have hsettle := settleDue_some hun.1 hdue hl
    have hchoice : ∀ u : State, s.settleDue z = u → (u.prepared z).settleDue z = u → s.zoneChoice z = u.zoneChoice z :=
      fun u h hu => zoneChoice_congr (by rw [prepared_unarmed hun, h, hu])
    by_cases hs : (s.zone z).stack = []
    · rw [if_neg (not_not_intro hs)] at hsettle
      by_cases hslip : c.target + c.slip < s.scene.frame + 1
      · rw [if_pos hslip, dueSkipped_abandon hdue] at hsettle
        refine ⟨_, hchoice _ hsettle (settled_rest ?_ ?_), acted_only .., fun _ h => absurd hslip (by omega), fun _ _ =>
          ⟨acted_scene .., acted_pins .., fun q => ?_⟩, fun h => absurd hs h⟩
        · rw [acted_zone_same]
          exact hun
        · rw [acted_zone_same, acted_scene]
          exact hdue.2.2.2
        · rw [acted_at, takeEach_append, takeEach_cuts]
          exact takeEach_cuts _ q [c] .cutAbandoned
      · rw [if_neg hslip, dueSkipped_arms hdue] at hsettle
        refine ⟨_, hchoice _ hsettle ?_, acted_only .., fun _ _ => ⟨acted_scene .., acted_pins .., fun q => ?_⟩,
          fun _ h => absurd h hslip, fun h => absurd hs h⟩
        · rw [prepared_same, settleDue_same (.inl ?_)]
          · rw [acted_zone_same]
            simp
          · unfold keepsArmed
            rw [acted_zone_same]
            rintro c' later ⟨⟩
            rw [acted_scene]
            exact ⟨Nat.le_of_not_lt hslip, hdue.2.2.2⟩
          · rw [acted_zone_same]
            exact hun.2.1
          · rw [acted_zone_same]
            rintro ⟨h, -⟩
            cases h
        · rw [acted_at, takeEach_cuts]
          rfl
    · rw [if_pos hs, dueSkipped_unseen hdue] at hsettle
      refine ⟨_, hchoice _ hsettle (settled_rest ?_ ?_), acted_only .., fun h => absurd h hs, fun h => absurd h hs, fun _ =>
        ⟨acted_scene .., acted_pins .., fun q => ?_⟩⟩
      · rw [acted_zone_same]
        exact unarmed_unseen hs hun
      · rw [acted_zone_same, acted_scene]
        exact hdue.2.2.2
      · rw [acted_at, takeEach_append, takeEach_cuts]
        exact takeEach_cuts _ q [c] .cutUnseen
  · refine ⟨_, zoneDark_unseen hl hf hdue, acted_only .., acted_scene .., acted_pins .., fun q => ?_⟩
    rw [acted_at, takeEach_append, takeEach_cuts]
    exact takeEach_cuts _ q [c] .cutUnseen

end Sys2Proof.Machine
end

