-- ==== Sys2Proof/Proofs/ArmedFetches.lean ====
section
/-! PROOFS. What a zone fetches once nothing is left to clear, arm or settle: the scene of its armed item where the arm
check passes, and its current scene otherwise (R109, R116, R117, R119, R131). -/

namespace Sys2Proof.Machine

/-! ### The arm check (R109) -/

theorem placementArms_iff (s : State) (x : Placement) : s.placementArms x = true ↔
    (x.page.toNat < 4 ∨ ∃ e, s.page x.page = some e ∧ e.busy = none ∧
      ((e.kind = .live ∧ e.latest ≠ none) ∨
        (e.kind = .still ∧ (e.state = .ready ∨ e.state = .damaged) ∧
          ((x.mode = .loop ∧ ∀ i, i < e.cells → e.valid.getLsbD i = true) ∨
            (x.mode = .hold ∧ ∃ n, x.hold = some n ∧ e.valid.getLsbD n = true))))) := by
  unfold State.placementArms isPattern
  rw [Bool.or_eq_true, decide_eq_true_eq, Option.any_eq_true]
  refine or_congr Iff.rfl (exists_congr fun e => and_congr Iff.rfl ?_)
  cases e.kind with
  | live => simp [and_comm, Option.isSome_iff_ne_none]
  | still =>
    cases x.mode with
    | loop => simp [allValid_iff, and_comm, and_left_comm, and_assoc]
    | hold => simp [Option.any_eq_true, and_comm, and_left_comm, and_assoc]
    | live => simp

theorem arms_iff (s : State) (sc : Scene) : s.arms sc = true ↔ fetchable s sc := by
  unfold State.arms fetchable
  rw [List.all_eq_true]
  exact forall₂_congr fun x _ => placementArms_iff s x

section
variable {s : State} {z : ZoneId} {sc : Scene}

theorem checkArmed_passes (ha : s.armedScene z = some sc) (h : fetchable s sc) : s.checkArmed z =
    (s, some (sc, match (s.zone z).armed with
      | some .ret => ((s.zone z).stack.getLast?.map (·.origin)).getD 0
      | _ => s.scene.frame + 1)) := by
  unfold State.checkArmed
  rw [ha]
  dsimp only
  rw [Option.any_some, (arms_iff s sc).2 h, if_pos rfl] <;> rfl

theorem checkArmed_fails (h : ∀ sc, s.armedScene z = some sc → ¬ fetchable s sc) : s.checkArmed z =
    (match (s.zone z).armed with
      | some (.gate g p k) => s.setZone z fun zn => { zn with armed := some (.gate g p (k + 1)) }
      | _ => s, none) := by
  have hany : (s.armedScene z).any s.arms = false := by
    rw [Option.any_eq_false]
    exact fun sc hsc => Bool.eq_false_iff.2 fun harm => h sc hsc ((arms_iff s sc).1 harm)
  unfold State.checkArmed
  dsimp only
  rw [hany, if_neg (by decide)] <;> rfl

theorem zoneChoice_settled (h : (s.prepared z).settleDue z = s) : s.zoneChoice z =
    match s.checkArmed z with
    | (t, some (sc, origin)) => t.orderFetch z true sc origin
    | (t, none) => steady t z := by
  rw [zoneChoice_eq, h] <;> rfl

/-- A zone whose armed item is not cleared has nothing to settle. -/
theorem settled_armed (hp : (s.zone z).pend = none) (hk : keepsArmed s z) (ha : (s.zone z).armed ≠ none) :
    (s.prepared z).settleDue z = s := by
  rw [prepared_same hk hp fun h => ha h.1, settleDue_same (.inl ha)]

/-- The armed item is fetched where it passes its check. -/
theorem zoneChoice_fetches (hp : (s.zone z).pend = none) (hk : keepsArmed s z) (ha : (s.zone z).armed ≠ none)
    (hs : s.armedScene z = some sc) (h : fetchable s sc) : s.zoneChoice z = s.orderFetch z true sc
      (match (s.zone z).armed with
        | some .ret => ((s.zone z).stack.getLast?.map (·.origin)).getD 0
        | _ => s.scene.frame + 1) := by
  rw [zoneChoice_settled (settled_armed hp hk ha), checkArmed_passes hs h]

/-- The current scene is fetched where the armed item fails its check. -/
theorem zoneChoice_slips (hp : (s.zone z).pend = none) (hk : keepsArmed s z) (ha : (s.zone z).armed ≠ none)
    (hs : s.armedScene z = some sc) (h : ¬ fetchable s sc) : s.zoneChoice z = steady
      (match (s.zone z).armed with
        | some (.gate g p k) => s.setZone z fun zn => { zn with armed := some (.gate g p (k + 1)) }
        | _ => s) z := by
  rw [zoneChoice_settled (settled_armed hp hk ha),
    checkArmed_fails fun sc' h' => Option.some.inj (hs.symm.trans h') ▸ h]

end

/-- Settles O44, by the armed item. -/
theorem armedItemsAreFetchedOrSlip : Obligations.ArmedItemsAreFetchedOrSlip := by
  refine fun z s hp hk => ⟨fun c later ha hc => ?_, fun g p k e ha hg => ?_, fun below x ha hs => ?_, fun hun hdue => ?_⟩
  · have hsc : s.armedScene z = some c.scene := by
      unfold State.armedScene
      rw [ha, hc]
      rfl
    have hne : (s.zone z).armed ≠ none := by rw [ha]; exact nofun
    exact ⟨fun h => by rw [zoneChoice_fetches hp hk hne hsc h, ha], fun h => by rw [zoneChoice_slips hp hk hne hsc h, ha]⟩
  · have hsc : s.armedScene z = some e.scene := by
      unfold State.armedScene
      rw [ha]
      exact congrArg (Option.map _) hg
    have hne : (s.zone z).armed ≠ none := by rw [ha]; exact nofun
    exact ⟨fun h => by rw [zoneChoice_fetches hp hk hne hsc h, ha], fun h => by rw [zoneChoice_slips hp hk hne hsc h, ha]⟩
  · have hsc : s.armedScene z = some x.scene := by
      unfold State.armedScene
      rw [ha, hs]
      exact congrArg (Option.map _) List.getLast?_concat
    have hne : (s.zone z).armed ≠ none := by rw [ha]; exact nofun
    refine ⟨fun h => ?_, fun h => by rw [zoneChoice_slips hp hk hne hsc h, ha]⟩
    rw [zoneChoice_fetches hp hk hne hsc h, ha, hs]
    dsimp only
    rw [List.getLast?_concat]
    rfl
  · have hset : (s.prepared z).settleDue z = s := by rw [prepared_unarmed hun, settleDue_same (.inr hdue)]
    have hnone : s.armedScene z = none := by
      unfold State.armedScene
      rw [hun.1]
    rw [zoneChoice_settled hset, checkArmed_fails (fun sc h => by rw [hnone] at h; cases h), hun.1]

end Sys2Proof.Machine
end

