-- ==== Sys2Proof/Proofs/FetchOrders.lean ====
section
/-! PROOFS. The fetch orders of a boundary, and the sources that they name (R85, R100, R101, R119). -/

namespace Sys2Proof.Machine

/-! ### The in-step set of a context -/

/-- The in-step set of a context. -/
def SceneEngine.steps (e : SceneEngine) : Ctx → TileSet
  | .zone z => (e.zones[z]).inStep
  | .background => e.background.inStep

/-- A context has another in-step set. -/
def SceneEngine.withSteps (e : SceneEngine) (c : Ctx) (v : TileSet) : SceneEngine :=
  match c with
  | .zone z => { e with zones := upd e.zones z fun zn => { zn with inStep := v } }
  | .background => { e with background := { e.background with inStep := v } }

section
variable (e : SceneEngine) (c : Ctx) (v w : TileSet)

theorem steps_withSteps : (e.withSteps c v).steps c = v := by
  cases c with
  | zone z => exact congrArg Zone.inStep (upd_same ..)
  | background => rfl

theorem withSteps_withSteps : (e.withSteps c v).withSteps c w = e.withSteps c w := by
  cases c with
  | zone z =>
    exact congrArg (fun x => ({ e with zones := x } : SceneEngine))
      (upd_upd e.zones z (fun zn => { zn with inStep := v }) fun zn => { zn with inStep := w })
  | background => rfl

theorem withSteps_steps : e.withSteps c (e.steps c) = e := by
  cases c with
  | zone z =>
    exact congrArg (fun x => ({ e with zones := x } : SceneEngine))
      (upd_of_fixed e.zones z (fun zn => { zn with inStep := (e.zones[z]).inStep }) rfl)
  | background => rfl

theorem withSteps_reported (r : Vector (Option TileState) 16) :
    ({ e with reported := r } : SceneEngine).withSteps c v = { e.withSteps c v with reported := r } := by
  cases c <;> rfl

theorem withSteps_reported_eq : (e.withSteps c v).reported = e.reported := by cases c <;> rfl

end

/-! ### The orders of a context (R85, R119) -/

/-- A JOINING tile is admitted: it is reported in step and joins the in-step set of its context. -/
def State.admitTile (s : State) (c : Ctx) (t : Tile) : State :=
  s.modScene fun e =>
    { e.withSteps c (insertBit (e.steps c) t.val) with reported := upd e.reported t fun _ => some .inStep }

/-- The order that a tile of a context is sent, if any. -/
def State.orderTile (c : Ctx) (frame : Nat) (source : Tile → Source) (s : State) (t : Tile) : State :=
  if s.tileOf t c then
    match s.scene.reported[t] with
    | some .inStep => s.toUnit t (.fetch frame (source t) false)
    | some .lagging => s.toUnit t (.fetch frame (source t) false)
    | some .joining => (s.admitTile c t).toUnit t (.fetch frame (source t) true)
    | _ => s
  else s

theorem sendOrders_eq {c : Ctx} {enter : State → Tile → State}
    (he : ∀ (s : State) (t : Tile), enter (s.modScene fun e => { e with reported := upd e.reported t fun _ => some .inStep }) t =
      s.admitTile c t) (s : State) (frame : Nat) (source : Tile → Source) :
    s.sendOrders c frame source enter = allTiles.foldl (State.orderTile c frame source) s := by
  unfold State.sendOrders
  refine congrArg (fun f => allTiles.foldl f s) (funext fun u => funext fun t => ?_)
  unfold State.orderTile
  rw [he] <;> rfl

/-- Only the in-step set of a context, the reported states and the messages to the units have changed. -/
def ordersOnly (c : Ctx) (s u : State) : Prop :=
  u = { s with scene := u.scene, mail := { s.mail with toUnit := u.mail.toUnit } } ∧
    u.scene = { s.scene.withSteps c (u.scene.steps c) with reported := u.scene.reported }

section
variable {c : Ctx} {s u : State} {frame : Nat} {source : Tile → Source}

theorem ordersOnly_refl (c : Ctx) (s : State) : ordersOnly c s s := by
  refine ⟨rfl, ?_⟩
  rw [withSteps_steps]

theorem ordersOnly.toUnit (h : ordersOnly c s u) (t : Tile) (m : UnitMsg) : ordersOnly c s (u.toUnit t m) := by
  refine ⟨?_, h.2⟩
  rw [h.1]
  rfl

theorem ordersOnly.join (h : ordersOnly c s u) (t : Tile) : ordersOnly c s (u.admitTile c t) := by
  obtain ⟨h1, h2⟩ := h
  refine ⟨?_, ?_⟩
  · rw [h1]
    rfl
  · unfold State.admitTile
    simp only [modScene_scene]
    have hsteps : ∀ (e : SceneEngine) (v : TileSet) r, ({ e.withSteps c v with reported := r } : SceneEngine).steps c = v :=
      fun e v r => by
        have := steps_withSteps e c v
        cases c <;> exact this
    rw [hsteps, h2, withSteps_reported, withSteps_withSteps]

theorem orderTile_only (h : ordersOnly c s u) (t : Tile) : ordersOnly c s (u.orderTile c frame source t) := by
  unfold State.orderTile
  split
  · split
    · exact h.toUnit t _
    · exact h.toUnit t _
    · exact (h.join t).toUnit t _
    · exact h
  · exact h

/-- What the fold over the tiles makes of one: its place in the in-step set, its reported state, and the messages on
their way to it. -/
def tileView (c : Ctx) (s : State) (i : Tile) : Bool × Option TileState × List UnitMsg :=
  ((s.scene.steps c).getLsbD i.val, s.scene.reported[i], s.mail.toUnit[i])

/-- What the order of a context makes of one of its tiles. -/
def orderedView (frame : Nat) (src : Source) (x : Bool × Option TileState × List UnitMsg) :
    Bool × Option TileState × List UnitMsg :=
  match x.2.1 with
  | some .inStep => (x.1, x.2.1, x.2.2 ++ [.fetch frame src false])
  | some .lagging => (x.1, x.2.1, x.2.2 ++ [.fetch frame src false])
  | some .joining => (true, some .inStep, x.2.2 ++ [.fetch frame src true])
  | _ => x

theorem tileView_toUnit (u : State) (t i : Tile) (m : UnitMsg) : tileView c (u.toUnit t m) i =
    if t = i then ((tileView c u i).1, (tileView c u i).2.1, (tileView c u i).2.2 ++ [m]) else tileView c u i := by
  unfold tileView
  rw [toUnit_at]
  split <;> rfl

theorem tileView_admit (u : State) (t i : Tile) : tileView c (u.admitTile c t) i =
    if t = i then (true, some .inStep, (tileView c u i).2.2) else tileView c u i := by
  have hsteps : (u.admitTile c t).scene.steps c = insertBit (u.scene.steps c) t.val := by
    have := steps_withSteps u.scene c (insertBit (u.scene.steps c) t.val)
    cases c <;> exact this
  have hrep : (u.admitTile c t).scene.reported[i] = if t = i then some .inStep else u.scene.reported[i] := upd_at _ _ _ _
  unfold tileView
  rw [hsteps, hrep, getLsbD_insertBit _ _ _ i.isLt]
  by_cases h : t = i
  · subst h
    simp
    rfl
  · have hv : t.val ≠ i.val := fun hv => h (Fin.ext hv)
    simp [h, hv]
    rfl

theorem orderTile_view (hu : ordersOnly c s u) (t i : Tile) : tileView c (u.orderTile c frame source t) i =
    if t = i then (if s.units[i].ctx = some c then orderedView frame (source i) (tileView c u i) else tileView c u i)
    else tileView c u i := by
  have hunits : u.units = s.units := by rw [hu.1]
  by_cases h : t = i
  · subst h
    rw [if_pos rfl]
    unfold State.orderTile State.tileOf
    rw [hunits]
    by_cases hc : s.units[t].ctx = some c
    · rw [decide_eq_true hc, if_pos rfl, if_pos hc]
      unfold orderedView
      have hr : (tileView c u t).2.1 = u.scene.reported[t] := rfl
      rw [hr]
      cases hst : u.scene.reported[t] with
      | none => rfl
      | some st =>
        cases st
        case inStep | lagging => rw [tileView_toUnit, if_pos rfl, hr, hst]
        case joining => rw [tileView_toUnit, if_pos rfl, tileView_admit, if_pos rfl]
        all_goals rfl
    · rw [decide_eq_false hc, if_neg (by decide), if_neg hc]
  · rw [if_neg h]
    unfold State.orderTile
    split
    · split
      · rw [tileView_toUnit, if_neg h]
      · rw [tileView_toUnit, if_neg h]
      · rw [tileView_toUnit, if_neg h, tileView_admit, if_neg h]
      · rfl
    · rfl

/-- The orders of a context change its in-step set, the reported states and the messages to the units. -/
theorem sendOrders_only (c : Ctx) (s : State) (frame : Nat) (source : Tile → Source) :
    ordersOnly c s (allTiles.foldl (State.orderTile c frame source) s) :=
  foldl_inv (inv := ordersOnly c s) (fun _ t h => orderTile_only h t) allTiles (ordersOnly_refl c s)

theorem sendOrders_view (c : Ctx) (s : State) (frame : Nat) (source : Tile → Source) (i : Tile) :
    tileView c (allTiles.foldl (State.orderTile c frame source) s) i =
      if s.units[i].ctx = some c then orderedView frame (source i) (tileView c s i) else tileView c s i :=
  foldl_at (f := State.orderTile c frame source) (inv := ordersOnly c s) (π := tileView c)
    (g := fun i x => if s.units[i].ctx = some c then orderedView frame (source i) x else x)
    (fun _ t h => orderTile_only h t) (fun u t hu => by rw [orderTile_view hu, if_pos rfl])
    (fun u t j hu hne => by rw [orderTile_view hu, if_neg hne]) nodup_allTiles (ordersOnly_refl c s) (mem_allTiles i)

/-- The orders of a context, in the words of the statements. -/
theorem sendOrders_at (c : Ctx) (s : State) (frame : Nat) (source : Tile → Source) (i : Tile) :
    tileView c (allTiles.foldl (State.orderTile c frame source) s) i =
      ((s.scene.steps c).getLsbD i.val || admitted s c i,
        if admitted s c i then some .inStep else s.scene.reported[i],
        s.mail.toUnit[i] ++ if ordered s c i then [.fetch frame (source i) (admitted s c i)] else []) := by
  rw [sendOrders_view]
  unfold admitted ordered tileView
  generalize s.units[i].ctx = x
  generalize s.scene.reported[i] = r
  generalize (s.scene.steps c).getLsbD i.val = b
  by_cases hc : x = some c
  · rw [if_pos hc]
    unfold orderedView
    cases r with
    | none => simp [hc]
    | some st => cases st <;> simp [hc]
  · simp [hc]

end

/-! ### The order of a zone (R119) -/

/-- The fetch that a zone records for the next frame. -/
def State.fetchOf (s : State) (armed : Bool) (sc : Scene) : ZoneFetch :=
  { frame := s.scene.frame + 1, armed := armed, latched := s.latches sc }

/-- The state in which a zone has recorded the fetch of the next frame. -/
def State.fetchBegun (s : State) (z : ZoneId) (armed : Bool) (sc : Scene) : State :=
  s.setZone z fun zn => { zn with fetch := some (s.fetchOf armed sc), delivered := 0 }

theorem orderFetch_eq (s : State) (z : ZoneId) (armed : Bool) (sc : Scene) (origin : Nat) :
    s.orderFetch z armed sc origin = allTiles.foldl (State.orderTile (.zone z) (s.scene.frame + 1) fun t =>
      s.sourceAt sc origin (s.scene.frame + 1) (s.zonePosition z t)) (s.fetchBegun z armed sc) := by
  unfold State.orderFetch
  dsimp only
  exact sendOrders_eq (fun _ _ => rfl) _ _ _

/-! ### The sources (R100, R101) -/

section
variable {s : State} {sc : Scene} {origin frame : Nat} {pos : Nat × Nat}

theorem coversAt_iff (x : Placement) : s.coversAt x pos = true ↔ coversPos s x pos := by
  unfold State.coversAt
  rw [List.contains_iff_mem]
  exact mem_coveredFrom

theorem sourceAt_none (h : ∀ x ∈ sc, ¬ coversPos s x pos) : s.sourceAt sc origin frame pos = .pattern 0 := by
  have hfind : sc.find? (s.coversAt · pos) = none :=
    List.find?_eq_none.2 fun x hx hc => h x hx ((coversAt_iff x).1 hc)
  unfold State.sourceAt
  rw [hfind]

theorem find_covering {pre post : List Placement} {x : Placement} (hpre : ∀ y ∈ pre, ¬ coversPos s y pos)
    (hx : coversPos s x pos) : (pre ++ x :: post).find? (s.coversAt · pos) = some x := by
  rw [List.find?_append, List.find?_eq_none.2 fun y hy hc => hpre y hy ((coversAt_iff y).1 hc), Option.none_or]
  exact List.find?_cons_of_pos (p := fun y => s.coversAt y pos) ((coversAt_iff x).2 hx)

theorem sourceAt_pattern {x : Placement} (hf : sc.find? (s.coversAt · pos) = some x) (h4 : x.page.toNat < 4) :
    s.sourceAt sc origin frame pos = .pattern (Fin.ofNat 4 x.page.toNat) := by
  unfold State.sourceAt
  rw [hf]
  dsimp only
  rw [isPattern_true h4]
  rfl

/-- The cell that a placement of a stored page shows. -/
theorem sourceAt_page {x : Placement} {e : Page} (hf : sc.find? (s.coversAt · pos) = some x) (h4 : 4 ≤ x.page.toNat)
    (he : s.page x.page = some e) : s.sourceAt sc origin frame pos =
      match shownCell e x origin frame with
      | none => .pattern 0
      | some c =>
        if e.valid.getLsbD c then .slot x.page (e.slotOf c (pos.1 - x.col) (pos.2 - x.row)) else .pattern 0 := by
  unfold State.sourceAt
  rw [hf]
  dsimp only
  rw [isPattern_false h4, if_neg (by decide), he] <;> rfl

end

/-- What the orders of a zone leave of a state, in its words. -/
theorem zone_of_orders {b t : State} {z : ZoneId} (h : ordersOnly (.zone z) b t) :
    (∀ y : ZoneId, y ≠ z → t.zone y = b.zone y) ∧ t.zone z = { b.zone z with inStep := (t.zone z).inStep } := by
  have hzone : ∀ y : ZoneId, t.zone y =
      (upd b.scene.zones z fun zn => { zn with inStep := (t.zone z).inStep })[y] := fun y => by
    exact congrArg (fun e : SceneEngine => e.zones[y]) h.2
  refine ⟨fun y hy => (hzone y).trans (upd_other _ _ _ _ (Ne.symm hy)), (hzone z).trans (upd_same ..)⟩

theorem tileView_eq {c : Ctx} {t : State} {i : Tile} {b : Bool} {r : Option TileState} {w : List UnitMsg}
    (h : tileView c t i = (b, r, w)) :
    (t.scene.steps c).getLsbD i.val = b ∧ t.scene.reported[i] = r ∧ t.mail.toUnit[i] = w := by
  unfold tileView at h
  rwa [Prod.mk.injEq, Prod.mk.injEq] at h

/-- Who is ordered and who admitted follows from the units and the reported states. -/
theorem orders_congr {s t : State} (c : Ctx) (i : Tile) (hu : t.units = s.units)
    (hr : t.scene.reported = s.scene.reported) : admitted t c i = admitted s c i ∧ ordered t c i = ordered s c i := by
  unfold admitted ordered
  rw [hu, hr]
  exact ⟨rfl, rfl⟩

/-- The state in which the background has recorded the fetch of the next frame. -/
def State.backgroundBegun (s : State) : State :=
  s.modBackground fun b => { b with fetch := some (s.scene.frame + 1), delivered := 0 }

theorem backgroundLit_orders {s : State} (h : s.scene.frame ≠ maxFrame) : s.backgroundLit =
    allTiles.foldl (State.orderTile .background (s.scene.frame + 1) fun _ => .pattern 0)
      s.tellBackground.backgroundBegun := by
  obtain ⟨hscene, -⟩ := tellBackground_scene s
  rw [backgroundLit_eq, hscene, if_neg h]
  refine (sendOrders_eq (fun _ _ => rfl) _ _ _).trans ?_
  unfold State.backgroundBegun
  rw [hscene]

/-- The verdicts of the background are messages to the units. -/
theorem tellBackground_only (s : State) : onlyToUnit s s.tellBackground := by
  unfold State.tellBackground
  split
  · exact (sendVerdicts_sent _ _ _ _ s).1
  · exact onlyToUnit_refl s

/-- Settles O45, by the orders of a zone, the source at a position, and the orders of the background. -/
theorem fetchOrdersNameTheSources : Obligations.FetchOrdersNameTheSources := by
  refine ⟨fun z armed sc origin s => ?_, fun sc origin frame pos s => ⟨sourceAt_none, fun pre post x hsc hpre hx => ?_⟩,
    fun s => ?_⟩
  · have honly := sendOrders_only (.zone z) (s.fetchBegun z armed sc) (s.scene.frame + 1) fun t =>
      s.sourceAt sc origin (s.scene.frame + 1) (s.zonePosition z t)
    have hat := sendOrders_at (.zone z) (s.fetchBegun z armed sc) (s.scene.frame + 1) fun t =>
      s.sourceAt sc origin (s.scene.frame + 1) (s.zonePosition z t)
    refine ⟨_, orderFetch_eq s z armed sc origin, ?_⟩
    generalize allTiles.foldl _ _ = t at *
    obtain ⟨hothers, hzone⟩ := zone_of_orders honly
    refine ⟨?_, ?_, fun y hy => (hothers y hy).trans (setZone_other s hy _), ?_, ?_, fun i => ?_⟩
    · rw [honly.1]
      rfl
    · rw [honly.2]
      rfl
    · rw [hzone]
      unfold State.fetchBegun
      rw [setZone_same]
      rfl
    · rw [honly.1]
      rfl
    · obtain ⟨hstep, hrep, hmsg⟩ := tileView_eq (hat i)
      refine ⟨hstep.trans ?_, hrep, fun hno => ?_, fun r p hord hr hp => ?_⟩
      · refine congrArg (fun v : TileSet => v.getLsbD i.val || admitted s (.zone z) i) ?_
        exact (congrArg Zone.inStep
          (setZone_same s z fun zn => { zn with fetch := some (s.fetchOf armed sc), delivered := 0 })).trans rfl
      · rw [hmsg, show ordered (s.fetchBegun z armed sc) (.zone z) i = false from hno, if_neg (by decide),
          List.append_nil]
        rfl
      · rw [hmsg, show ordered (s.fetchBegun z armed sc) (.zone z) i = true from hord, if_pos rfl]
        unfold State.zonePosition
        rw [hr, hp]
        rfl
  · subst hsc
    have hf := find_covering (post := post) hpre hx
    refine ⟨sourceAt_pattern hf, fun e h4 he => ?_⟩
    intro cell
    have hcell : shownCell e x origin frame = cell := by
      unfold shownCell
      rfl
    clear_value cell
    have hs := sourceAt_page (origin := origin) (frame := frame) hf h4 he
    rw [hcell] at hs
    refine ⟨fun n hn hv => ?_, fun hv => ?_⟩
    · rw [hs, hn]
      dsimp only
      rw [if_pos hv]
      rfl
    · rw [hs]
      cases hn : cell with
      | none => rfl
      | some n => exact if_neg (by rw [hv n hn]; decide)
  · refine ⟨s.tellBackground, fun h => ?_, fun n h => ?_, fun h => ?_, fun h => ?_⟩
    · unfold State.tellBackground
      rw [h]
    · unfold State.tellBackground
      rw [h]
      exact sendVerdicts_sent _ _ _ _ s
    · obtain ⟨hscene, -⟩ := tellBackground_scene s
      rw [backgroundLit_eq, hscene, if_pos (by exact h)]
      unfold State.modBackground State.modScene
      rw [hscene]
    · obtain ⟨hscene, -⟩ := tellBackground_scene s
      have hunits : s.tellBackground.units = s.units := (tellBackground_only s).units
      have honly := sendOrders_only .background s.tellBackground.backgroundBegun (s.scene.frame + 1) fun _ => .pattern 0
      have hat := sendOrders_at .background s.tellBackground.backgroundBegun (s.scene.frame + 1) fun _ => .pattern 0
      refine ⟨_, backgroundLit_orders h, ?_⟩
      generalize s.tellBackground = told at *
      generalize allTiles.foldl _ _ = t at *
      refine ⟨?_, ?_, fun i => ?_⟩
      · rw [honly.1]
        rfl
      · rw [honly.2]
        unfold State.backgroundBegun State.modBackground
        simp only [modScene_scene]
        rw [hscene]
        rfl
      · obtain ⟨hstep, hrep, hmsg⟩ := tileView_eq (hat i)
        have hrep' : told.backgroundBegun.scene.reported = s.scene.reported :=
          (congrArg SceneEngine.reported hscene).trans rfl
        obtain ⟨hadm, hord⟩ := orders_congr (t := told.backgroundBegun) .background i hunits hrep'
        rw [hadm] at hstep hrep hmsg
        rw [hord] at hmsg
        refine ⟨hstep.trans ?_, hrep.trans ?_, hmsg⟩
        · exact (congrArg (fun e : SceneEngine => e.background.inStep.getLsbD i.val || admitted s .background i)
            hscene).trans rfl
        · exact congrArg (fun e : SceneEngine => if admitted s .background i then some .inStep else e.reported[i]) hscene

end Sys2Proof.Machine
end

