-- ==== Sys2Proof/Proofs/PageBooks.lean ====
section
/-! PROOFS. The law of the page states and the law of the pins through the requests for pages, loads and edits (R6, R15,
R51). -/

namespace Sys2Proof.Machine

theorem checked_books {s : State} {c : Caller} {ts : List Test} {act : State → State} {b : Body} (hs : s.booksOk)
    (h : (∀ t ∈ ts, t.1 = true) → (act s).booksOk) : (s.checked c ts act b).booksOk := by
  unfold State.checked
  split
  · exact reply_books hs _ _ _
  · next hf => exact h ((firstFailure_none_iff _).1 hf)

/-! ### An entry appears or goes (R18 to R21) -/

section
variable {s t : State} {pg : Handle}

/-- An entry that is no load's and no edit's page appears or goes. -/
theorem entry_pagesOk (hs : s.pagesOkWith fun _ => 0) (hl : t.load.chans = s.load.chans)
    (he : t.edit.queue = s.edit.queue) (hother : ∀ k, k ≠ pg → t.page k = s.page k)
    (hnew : ∀ p, t.page pg = some p → p.stateOk ∧ p.state ≠ .loading) (hold : ∀ p, s.page pg = some p → p.state ≠ .loading)
    (hring : ∀ (c : ChanId) l n k, s.load.chans[c] = some l → l.mode = .ring n k → l.page ≠ pg) :
    t.pagesOkWith fun _ => 0 := by
  obtain ⟨hstate, hwriters, hrings⟩ := hs
  have hno : ∀ o : Option Page, (∀ p, o = some p → p.state ≠ .loading) →
      (o.any fun p => decide (p.state = .loading)) = false := fun o h => by
    rw [Option.any_eq_false]
    exact fun p hp => decide_eq_false (h p hp)
  refine ⟨fun k p hp => ?_, fun k => ?_, fun c l n k hc hm => ?_⟩
  · by_cases hk : k = pg
    · exact (hnew p (hk ▸ hp)).1
    · exact hstate k p ((hother k hk).symm.trans hp)
  · rw [writers_of hl he, hwriters]
    by_cases hk : k = pg
    · rw [hk, hno _ fun p hp => (hnew p hp).2, hno _ hold]
    · rw [hother k hk]
  · rw [hl] at hc
    rw [hother _ (hring c l n k hc hm)]
    exact hrings c l n k hc hm

/-- An entry without pins appears or goes. -/
theorem entry_pinsOk {x : Handle → Nat} (hs : s.pinsOkWith x) (hz : sameZones s t) (he : t.edit.queue = s.edit.queue)
    (hother : ∀ k, k ≠ pg → t.page k = s.page k) (hnew : ∀ p, t.page pg = some p → p.pins = 0)
    (hold : ∀ p, s.page pg = some p → p.pins = 0) : t.pinsOkWith x := by
  have hno : ∀ o : Option Page, (∀ p, o = some p → p.pins = 0) → (o.map (·.pins)).getD 0 = 0 := fun o h => by
    cases o with
    | none => rfl
    | some p => exact h p rfl
  intro k h4
  rw [references_of hz he, hs k h4]
  by_cases hk : k = pg
  · rw [hk, hno _ hold, hno _ hnew]
  · rw [hother k hk]

end

theorem newPage_books (p : Port) (c : Cls) (kind : PageKind) (w h rate base : Nat) {n : Nat} (hn : 1 ≤ n) :
    (newPage p c kind w h n rate base).stateOk ∧ (newPage p c kind w h n rate base).state ≠ .loading ∧
      (newPage p c kind w h n rate base).pins = 0 := by
  have hempty : (newPage p c kind w h n rate base).allValid = false := by
    rw [← Bool.not_eq_true, allValid_iff]
    intro hall
    have := hall 0 hn
    simp [newPage] at this
  cases kind
  · refine ⟨⟨by simp [newPage], by simp [newPage], fun _ _ => ?_⟩, by simp [newPage], rfl⟩
    rw [hempty]
    simp [newPage]
  · exact ⟨⟨by simp [newPage], by simp [newPage], by simp [newPage]⟩, by simp [newPage], rfl⟩

theorem createPage_books (kind width height cells rate : Byte) (c : Caller) {s : State} (hs : s.booksOk) :
    (createPage kind width height cells rate c s).booksOk := by
  obtain ⟨-, -, hload, hedit, hscene, -⟩ := createPage_frame kind width height cells rate c s
  have hz : sameZones s (createPage kind width height cells rate c s) := by simp [sameZones]
  rcases createPage_cases kind width height cells rate c s with h | ⟨pg, base, free, hfields, -, hn, -, h⟩
  · exact hs.congr ⟨h, hload, hedit, hz⟩
  · have hcells : 1 ≤ cells.toNat := by
      have := createFields_pos hfields
      exact Nat.one_le_iff_ne_zero.2 fun h0 => by simp [h0] at this
    obtain ⟨h1, h2, h3⟩ := newPage_books c.port (s.cls c.port) ((kindField kind).getD .still) width.toNat height.toNat
      rate.toNat base hcells
    generalize newPage c.port _ _ _ _ _ _ _ = p at h h1 h2 h3
    have hpage : ∀ k, (createPage kind width height cells rate c s).page k = if k = pg then some p else s.page k :=
      fun k => by
        rw [← putPage_page]
        unfold State.page
        rw [h]
    have hother : ∀ k, k ≠ pg → (createPage kind width height cells rate c s).page k = s.page k := fun k hk => by
      rw [hpage, if_neg hk]
    have hnew : ∀ q, (createPage kind width height cells rate c s).page pg = some q → p = q := fun q hq => by
      rw [hpage, if_pos rfl] at hq
      exact Option.some.inj hq
    refine ⟨entry_pagesOk hs.1 (congrArg _ hload) (congrArg _ hedit) hother (fun q hq => hnew q hq ▸ ⟨h1, h2⟩) (fun q hq => ?_)
      fun d l m k hd hm he => ?_, entry_pinsOk hs.2 hz (congrArg _ hedit) hother (fun q hq => hnew q hq ▸ h3) fun q hq => ?_⟩
    · rw [hn] at hq
      cases hq
    · obtain ⟨q, hq, -⟩ := hs.1.2.2 d l m k hd hm
      rw [he, hn] at hq
      cases hq
    · rw [hn] at hq
      cases hq

/-- A page with no pin, no load and no COPY is freed. -/
theorem freePage_books {s : State} {pg : Handle} (hs : s.booksOk) (hp : ∀ p, s.page pg = some p → p.pins = 0 ∧ p.state ≠ .loading)
    (hr : ¬ ringOn s pg) : (s.freePage pg).booksOk := by
  have honly := (freePage_dirOnly s pg).1
  have hz : sameZones s (s.freePage pg) := by rw [honly]; exact ⟨rfl, rfl⟩
  have he : (s.freePage pg).edit = s.edit := by rw [honly]
  have hl : (s.freePage pg).load = s.load := by rw [honly]
  have hother : ∀ k, k ≠ pg → (s.freePage pg).page k = s.page k := fun k hk => by rw [freePage_page, if_neg hk]
  have hgone : ∀ q, (s.freePage pg).page pg ≠ some q := fun q hq => by
    rw [freePage_page, if_pos rfl] at hq
    cases hq
  refine ⟨entry_pagesOk hs.1 (congrArg _ hl) (congrArg _ he) hother (fun q hq => absurd hq (hgone q)) (fun q hq => (hp q hq).2)
    fun c l n k hc hm hpg => hr ⟨c, l, hc, hpg, by unfold isRing; rw [hm]⟩,
    entry_pinsOk hs.2 hz (congrArg _ he) hother (fun q hq => absurd hq (hgone q)) fun q hq => (hp q hq).1⟩

theorem deletePage_books (pg : Handle) (c : Caller) {s : State} (hs : s.booksOk) : (deletePage pg c s).booksOk := by
  refine checked_books hs fun ht => reply_books (freePage_books hs (fun p hp => ?_) ?_) _ _ _
  · have hpins := ht ((s.page pg).any fun p => p.pins = 0, .pinned) (by simp)
    have hstate := ht ((s.page pg).any fun p => p.state ≠ .loading, .state) (by simp)
    rw [hp] at hpins hstate
    exact ⟨of_decide_eq_true hpins, of_decide_eq_true hstate⟩
  · have hring := ht (!s.ringBound pg, .state) (by simp)
    rw [← ringBound_iff]
    simpa using hring

theorem purgePages_books (owner unsharedOnly : Byte) (c : Caller) {s : State} (hs : s.booksOk) :
    (purgePages owner unsharedOnly c s).booksOk := by
  refine checked_books hs fun _ => ?_
  split
  · next o _ =>
    refine reply_books ?_ _ _ _
    have hgone : ∀ l : List Handle, (∀ k ∈ l, s.purgeable o (unsharedOnly = 1) k = true) → ∀ u : State, u.booksOk →
        u.load = s.load → (∀ k ∈ l, ∀ p, u.page k = some p → s.page k = some p) → (l.foldl State.freePage u).booksOk := by
      intro l
      induction l with
      | nil => exact fun _ u hu _ _ => hu
      | cons k l ih =>
        intro hl u hu hload hpage
        obtain ⟨e, -, he, -, hpins, hst, hr, -⟩ := purgeable_iff.1 (hl k (by simp))
        have honly := (freePage_dirOnly u k).1
        refine ih (fun j hj => hl j (by simp [hj])) _ (freePage_books hu (fun p hp => ?_) ?_) (by rw [honly]; exact hload)
          fun j hj p hp => ?_
        · obtain rfl := Option.some.inj (he.symm.trans (hpage k (by simp) p hp))
          exact ⟨hpins, hst⟩
        · unfold ringOn
          rw [hload]
          exact hr
        · rw [freePage_page] at hp
          split at hp
          · cases hp
          · exact hpage j (by simp [hj]) p hp
    exact hgone _ (fun k hk => (List.mem_filter.1 hk).2) s hs rfl fun _ _ _ hp => hp
  · exact hs

theorem setPageRights_books (pg : Handle) (shared showC writeC : Byte) (c : Caller) {s : State} (hs : s.booksOk) :
    (setPageRights pg shared showC writeC c s).booksOk := by
  refine checked_books hs fun _ => reply_books (books_of hs ?_ ?_) _ _ _
  · exact setPage_pagesOk_same hs.1 fun _ _ hok => ⟨hok, rfl, Iff.rfl⟩
  · refine keepsPins_setPage s pg ?_
    exact fun _ => rfl

/-! ### Loads (R51 to R54, R66) -/

theorem idleChan_none {s : State} {c : ChanId} (h : s.idleChan = some c) : s.load.chans[c] = none := by
  have := List.find?_some h
  simpa using this

theorem loadBegin_books (pg : Handle) (mode first count : Byte) (check : Check) (c : Caller) {s : State} (hs : s.booksOk) :
    (loadBegin pg mode first count check c s).booksOk := by
  refine checked_books hs fun ht => ?_
  unfold loadBeginTests at ht
  dsimp only at ht
  split
  · next ch p hidle hp =>
    have hfree := idleChan_none hidle
    dsimp only
    split
    · next hm =>
      rw [if_pos hm, hp] at ht
      refine reply_books (books_of hs ?_ ?_) _ _ _
      · have hst := ht ((some p).any fun e => e.state = .incomplete || e.state = .ready || e.state = .damaged, .state) (by simp)
        have hstate : p.state = .incomplete ∨ p.state = .ready ∨ p.state = .damaged := by simpa [or_assoc] using hst
        have hne : p.state ≠ .loading ∧ p.state ≠ .live := by
          rcases hstate with h | h | h <;> rw [h] <;> exact ⟨nofun, nofun⟩
        obtain ⟨hlive, hdam, -⟩ := hs.1.1 pg p hp
        have hbegun := setPage_pagesOk_begin (pg := pg) (p := p)
          (f := fun p => { p with state := .loading, valid := dropCells p.valid (cellRange first.toNat count.toNat) })
          hs.1 hp hne.1 ⟨⟨iff_of_false nofun fun hk => hne.2 (hlive.2 hk), hdam, fun _ hn => absurd rfl hn⟩, rfl, rfl⟩
        refine setChan_pagesOkWith (c := ch) (f := fun _ => some _) hbegun (fun h => ?_) fun l n k hl hk => ?_
        · have hnone : (s.setPage pg fun p => { p with
              state := .loading, valid := dropCells p.valid (cellRange first.toNat count.toNat) }).load.chans[ch] =
              none := hfree
          rw [hnone, Option.any_some, blockOf_block rfl]
          simp
        · obtain rfl := Option.some.inj hl
          cases hk
      · refine (setChan_pins s ch _).trans (keepsPins_setPage _ pg ?_)
        exact fun _ => rfl
    · next hm =>
      rw [if_neg hm, hp] at ht
      have hk := ht ((some p).any fun e => e.kind = .live, .state) (by simp)
      refine reply_books (books_of hs (beginTarget_pagesOk ?_ ch) ((setChan_pins s ch _).trans (beginTarget_pins _ ch))) _ _ _
      refine setChan_pagesOkWith (c := ch) (f := fun _ => some _) hs.1 (fun h => ?_) fun l n k hl _ => ?_
      · rw [hfree, Option.any_some, blockOf_ring rfl]
        rfl
      · obtain rfl := Option.some.inj hl
        exact ⟨p, hp, of_decide_eq_true hk⟩
  · exact hs

theorem data_books (ch presence : Byte) (check : Check) (ws : List Word) (c : Caller) {s : State} (hs : s.booksOk) :
    (data ch presence check ws c s).booksOk := by
  refine checked_books hs fun _ => ?_
  split
  · next k _ =>
    have h : (s.setChan k (·.map fun l => l.accept presence check ws)).booksOk := by
      refine books_of hs (setChan_pagesOk hs.1 (fun l hl => ?_) fun hn => by rwa [Option.map_eq_none_iff] at hn)
        (setChan_pins s k _)
      obtain ⟨l₀, h₀, rfl⟩ := Option.map_eq_some_iff.1 hl
      refine ⟨l₀, h₀, rfl, ?_⟩
      cases hm : l₀.mode with
      | block a b k => exact .inl ⟨a, b, k, rfl, by simp [Load.accept, hm]⟩
      | ring a k => exact .inr ⟨a, a, k, if presence = 1 then some check else k, rfl, by simp [Load.accept, hm]⟩
    refine State.booksOk.congr (reply_books h c .ok .none) ?_
    simp [sameZones]
  · exact hs

theorem loadAbort_books (ch : Byte) (c : Caller) {s : State} (hs : s.booksOk) : (loadAbort ch c s).booksOk := by
  refine checked_books hs fun _ => ?_
  split
  · next k l _ _ =>
    have h := abortLoad_books hs k
    dsimp only
    split
    · exact reply_books h _ _ _
    · exact reply_books (h.congr (t := (s.abortLoad k).raise l.port .loadFailed) ⟨rfl, rfl, rfl, rfl, rfl⟩) _ _ _
  · exact hs

/-! ### Edits (R70 to R76) -/

/-- A page is pinned, where it is one, and marked busy: an edit that names it is on its way to the queue. -/
theorem pinBusy_books {s : State} {w r : Handle → Nat} (hs : s.booksWith w r) {pg : Handle}
    (hp : 4 ≤ pg.toNat → (s.page pg).isSome = true) (b : Option (Port × BusyRole)) :
    ((s.pin pg).setPage pg fun p => { p with busy := b }).booksWith w fun h => r h + oneAt pg h :=
  ⟨busy_pagesOk (pin_pagesOk hs.1 pg) pg b, setPage_pinsOk (pin_pinsOk hs.2 hp) fun _ => rfl⟩

theorem patch_books (pg : Handle) (cell col row line first : Byte) (plane stipple : BitVec 32) (ws : List Word)
    (c : Caller) {s : State} (hs : s.booksOk) : (patch pg cell col row line first plane stipple ws c s).booksOk := by
  refine checked_books hs fun ht => enqueueEdit_books ?_
  have hp := ht ((s.page pg).isSome, .noSuch) (by simp [patchTests])
  have h := pinBusy_books (r := fun _ => 0) (w := fun _ => 0) hs (fun _ => hp) (some (c.port, .patchTarget))
  unfold State.owing
  rw [writes_patch rfl, references_patch rfl]
  simpa using h

theorem copy_books (src : Handle) (sc : Byte) (dst : Handle) (dc : Byte) (c : Caller) {s : State} (hs : s.booksOk) :
    (copy src sc dst dc c s).booksOk := by
  refine checked_books hs fun ht => ?_
  have hdst := ht ((s.page dst).isSome, .noSuch) (by simp [copyTests])
  have hsrc := ht (s.isPage src, .noSuch) (by simp [copyTests])
  have hne := ht (src ≠ dst, .badField) (by simp [copyTests])
  have hst := ht ((s.page dst).any fun e => e.state = .incomplete || e.state = .ready, .state) (by simp [copyTests])
  obtain ⟨d, hd⟩ := Option.isSome_iff_exists.1 hdst
  rw [hd] at hst
  have hstate : d.state = .incomplete ∨ d.state = .ready := by simpa using hst
  have hnot : d.state ≠ .loading ∧ d.state ≠ .live := by
    rcases hstate with h | h <;> rw [h] <;> exact ⟨nofun, nofun⟩
  obtain ⟨d', hd', hplan⟩ := page_some_of_plan (pin_plan s dst).symm hd
  have hkind : d'.stateOk ∧ d'.state ≠ .loading ∧ d'.state ≠ .live := by
    have hok := (plan_stateOk d').1 (hplan ▸ (plan_stateOk d).2 (hs.1.1 dst d hd))
    have hs' : d.state = d'.state := (congrArg (fun p : Page => p.state) hplan : d.plan.state = d'.plan.state)
    exact ⟨hok, hs' ▸ hnot.1, hs' ▸ hnot.2⟩
  have hpinned := pin_pinsOk (pg := dst) hs.2 fun _ => hdst
  have hbegun : ((s.pin dst).setPage dst fun p => { p with
      busy := some (c.port, .copyDest), state := .loading, valid := eraseBit p.valid dc.toNat }).booksWith (oneAt dst)
      (oneAt dst) := by
    refine ⟨setPage_pagesOk_begin (p := d') (pin_pagesOk hs.1 dst) hd' hkind.2.1 ?_, setPage_pinsOk ?_ fun _ => rfl⟩
    · obtain ⟨⟨hlive, hdam, -⟩, -, hnl⟩ := hkind
      exact ⟨⟨iff_of_false nofun fun hk => hnl (hlive.2 hk), hdam, fun _ hn => absurd rfl hn⟩, rfl, rfl⟩
    · simpa using hpinned
  dsimp only
  generalize hu : (s.pin dst).setPage dst _ = u at hbegun ⊢
  refine enqueueEdit_books ?_
  unfold State.owing
  rw [writes_copy rfl, references_copy rfl]
  split
  · next hp =>
    refine ⟨hbegun.1, fun k h4 => ?_⟩
    have hk := hbegun.2 k h4
    have hnk : k ≠ src := fun he => by
      rw [← he, isPattern_false h4] at hp
      cases hp
    beta_reduce
    rw [show oneAt src k = 0 from if_neg hnk]
    exact hk
  · next hp =>
    refine pinBusy_books hbegun (fun _ => ?_) (some (c.port, .copySource))
    have hpage : u.page src = s.page src := by
      have hne' : src ≠ dst := of_decide_eq_true hne
      rw [← hu, page_setPage, if_neg hne', pin_page, if_neg fun h => hne' h.1]
    rw [hpage]
    unfold State.isPage at hsrc
    simpa [hp] using hsrc

/-! ### CONFIGURE and the resets (R177, R178, R186) -/

/-- Scenes that name nothing make no reference. -/
theorem initial_references {s : State} (hz : s.scene.zones = SceneEngine.initial.zones)
    (hg : s.scene.gates = SceneEngine.initial.gates) (pg : Handle) :
    s.references pg = (s.edit.queue.map fun e => e.references pg).sum := by
  have hzone : (allZones.map fun z => (s.zone z).references pg).sum = 0 := by
    unfold State.zone
    rw [hz]
    rfl
  have hgate : (allGates.map fun g => (((s.gate g).map fun e => placementsNaming e.scene pg).getD 0)).sum = 0 := by
    unfold State.gate
    rw [hg]
    rfl
  unfold State.references
  rw [hzone, hgate]
  omega

/-- With no page there is neither a load nor a reference, and scenes that name nothing change that not. -/
theorem blank_books {s t : State} (hs : s.booksOk) (hp : ∀ pg, s.page pg = none) (hp' : ∀ pg, t.page pg = none)
    (hl : t.load = s.load) (he : t.edit = s.edit) (hz : t.scene.zones = SceneEngine.initial.zones)
    (hg : t.scene.gates = SceneEngine.initial.gates) : t.booksOk := by
  obtain ⟨⟨hstate, hwriters, hrings⟩, hpins⟩ := hs
  refine ⟨⟨fun h p hh => ?_, fun h => ?_, fun c l n k hc hm => ?_⟩, fun pg h4 => ?_⟩
  · rw [hp'] at hh
    cases hh
  · rw [writers_of (congrArg _ hl) (congrArg _ he), hwriters, hp, hp']
  · rw [hl] at hc
    obtain ⟨p, hh, -⟩ := hrings c l n k hc hm
    rw [hp] at hh
    cases hh
  · have hnone := hpins pg h4
    rw [hp] at hnone
    rw [initial_references hz hg, hp', he]
    unfold State.references at hnone
    change _ + 0 = 0 at hnone
    change _ + 0 = 0
    omega

theorem reset_books {s : State} (hd : s.dir = .initial) (hl : s.load = .initial) (he : s.edit = .initial)
    (hz : s.scene.zones = SceneEngine.initial.zones) (hg : s.scene.gates = SceneEngine.initial.gates) : s.booksOk := by
  obtain ⟨-, -, -, -, -, -, -, -, -, hpages, hpins, -⟩ := theInvariantsHoldAtReset
  exact State.booksOk.congr (s := State.reset) ⟨hpages, hpins⟩ ⟨hd, hl, he, hz, hg⟩

theorem configure_books (rate : Byte) (slots : BitVec 16) (cols rows : Byte) (positions : Vector Byte 16)
    (presence : Byte) (start : BitVec 48) (c : Caller) {s : State} (hs : s.booksOk)
    (hu : s.window = .unconfigured → s.dir = .initial) :
    (configure rate slots cols rows positions presence start c s).booksOk := by
  rw [configure_eq]
  refine checked_books hs fun ht => reply_books ?_ _ _ _
  have hw : s.window = .unconfigured :=
    of_decide_eq_true (ht (decide (s.window = .unconfigured), .state) (by simp [configureTests]))
  have hnone : ∀ d : Directory, d.pages = Directory.initial.pages → ∀ pg, d.pages[handleIndex pg] = none := fun d hd pg => by
    rw [hd]
    simp [Directory.initial]
  have hpages := congrArg Directory.pages (hu hw)
  have hblocks := configured_blocks s rate slots cols rows positions presence start
  refine blank_books hs (hnone _ (congrArg _ (hu hw))) (hnone _ ?_) ?_ ?_ ?_ ?_
  all_goals rw [hblocks]
  · exact hpages
  all_goals rfl

theorem resetWindow_books (c : Caller) {s : State} (hs : s.booksOk) : (resetWindow c s).booksOk := by
  refine checked_books hs fun _ => ?_
  dsimp only
  generalize allPorts.foldl State.cancelTransit _ = u
  have h : ((u.resetBlocks.grant.setWindow .unconfigured).reply c .ok).booksOk := by
    refine reset_books ?_ ?_ ?_ ?_ ?_
    all_goals
      simp [State.resetBlocks]
  refine h.congr ?_
  simp [sameZones]

/-- The directory is empty in UNCONFIGURED. -/
def State.emptyOk (s : State) : Prop := s.window = .unconfigured → s.dir = .initial

theorem resetWindow_emptyOk (c : Caller) {s : State} (hs : s.emptyOk) : (resetWindow c s).emptyOk := by
  unfold resetWindow State.checked
  split
  · intro hu
    rw [reply_dir]
    refine hs ?_
    unfold State.window at hu ⊢
    rwa [reply_scene] at hu
  · dsimp only
    generalize allPorts.foldl State.cancelTransit _ = u
    intro _
    rw [(goOnAll_frame _).1, reply_dir, (setWindow_frame _ _).1]
    simp [State.resetBlocks]

theorem atBlock_emptyOk (i : Instr) (c : Caller) {s : State} (hs : s.emptyOk) : (atBlock i c s).emptyOk := by
  by_cases hr : ∃ h, i = .resetWindow h
  · obtain ⟨h, rfl⟩ := hr
    exact resetWindow_emptyOk c hs
  · by_cases hp : ∃ st, i = .powerOnReset st
    · obtain ⟨st, rfl⟩ := hp
      exact fun _ => rfl
    · intro hu
      have hw := atBlock_window i c (fun h he => hr ⟨h, he⟩) (fun st he => hp ⟨st, he⟩) hu
      exact (atBlock_mapOk i c ⟨initial_slotsOk (hs hw), hs⟩).2 hu

end Sys2Proof.Machine
end

