-- ==== Sys2Proof/Proofs/ZoneBooks.lean ====
section
/-! PROOFS. The law of the pins over what the zones and the gates do: the references that a scene makes go with it, and
the pins of what is unpinned with its references (R15, R16, R104, R136). -/

namespace Sys2Proof.Machine

/-! ### References that stay, and references that go -/

/-- The references of a scene engine in which one zone, and of the gates no scene, is another. -/
theorem modScene_references {s : State} {e : SceneEngine} {z : ZoneId}
    (hz : ∀ y : ZoneId, y ≠ z → e.zones[y] = s.scene.zones[y])
    (hg : ∀ (g : GateId) h, gateRefs e.gates[g] h = gateRefs s.scene.gates[g] h) (pg : Handle) :
    (s.modScene fun _ => e).references pg + (s.zone z).references pg = s.references pg + (e.zones[z]).references pg := by
  have hzones : (s.modScene fun _ => e).references pg = (s.setZone z fun _ => e.zones[z]).references pg := by
    have h1 : (allZones.map fun y => (e.zones[y]).references pg) =
        allZones.map fun y => ((s.setZone z fun _ => e.zones[z]).zone y).references pg :=
      List.map_congr_left fun y _ => by
        by_cases hy : y = z
        · rw [hy, setZone_same]
        · exact congrArg (fun zn : Zone => zn.references pg) ((hz y hy).trans (setZone_other s hy _).symm)
    have h2 : (allGates.map fun g => gateRefs e.gates[g] pg) = allGates.map fun g => gateRefs s.scene.gates[g] pg :=
      List.map_congr_left fun g _ => hg g pg
    change (allZones.map fun y => (e.zones[y]).references pg).sum + (allGates.map fun g => gateRefs e.gates[g] pg).sum +
        (s.edit.queue.map fun e => e.references pg).sum =
      (allZones.map fun y => ((s.setZone z fun _ => e.zones[z]).zone y).references pg).sum +
        (allGates.map fun g => gateRefs s.scene.gates[g] pg).sum + (s.edit.queue.map fun e => e.references pg).sum
    rw [h1, h2]
  rw [hzones]
  exact setZone_references s z _ pg

/-- An act of one zone keeps the law where the references that it gives up are those of the scene it unpins. -/
theorem acted_pinsOk {s : State} {e : SceneEngine} {sc : Scene} {l : List (Port × Event)} {x : Handle → Nat} (z : ZoneId)
    (hs : s.pinsOkWith x) (hz : ∀ y : ZoneId, y ≠ z → e.zones[y] = s.scene.zones[y])
    (hg : ∀ (g : GateId) h, gateRefs e.gates[g] h = gateRefs s.scene.gates[g] h)
    (hr : ∀ h, (e.zones[z]).references h + placementsNaming sc h = (s.zone z).references h + x h) :
    (s.acted e sc l).pinsOk := by
  have hmod : (s.modScene fun _ => e).pinsOkWith fun h => 0 + placementsNaming sc h := fun pg h4 => by
    refine Eq.trans ?_ (hs pg h4)
    have := modScene_references hz hg pg
    have := hr pg
    beta_reduce
    omega
  have hpins : ((s.modScene fun _ => e).unpinScene sc).pinsOkWith fun _ => 0 := unpinScene_pinsOk sc hmod
  unfold State.acted
  rw [raiseEach_only]
  exact hpins.congr ⟨rfl, ⟨rfl, rfl⟩, rfl⟩

/-- The change of one zone is an act that leaves the others and the gates. -/
theorem actedZone_pinsOk {s : State} {z : ZoneId} {f : Zone → Zone} {sc : Scene} {l : List (Port × Event)}
    (hs : s.pinsOk) (hr : ∀ h, (f (s.zone z)).references h + placementsNaming sc h = (s.zone z).references h) :
    (s.acted (s.setZone z f).scene sc l).pinsOk := by
  have hzone : (s.setZone z f).scene.zones[z] = f (s.zone z) := setZone_same s z f
  have hother : ∀ y : ZoneId, y ≠ z → (s.setZone z f).scene.zones[y] = s.scene.zones[y] := fun y hy => setZone_other s hy f
  have hgate : (s.setZone z f).scene.gates = s.scene.gates := rfl
  generalize (s.setZone z f).scene = e at hzone hother hgate ⊢
  refine acted_pinsOk (x := fun _ => 0) z hs hother (fun g h => by rw [hgate]) fun h => ?_
  rw [hzone]
  exact hr h

/-- A zone that refers to what it referred to keeps the law. -/
theorem setZone_pinsOk_same {s : State} {z : ZoneId} {f : Zone → Zone} (hs : s.pinsOk)
    (hf : ∀ h, (f (s.zone z)).references h = (s.zone z).references h) : (s.setZone z f).pinsOk :=
  (pinsOk_iff _).2 (setZone_pinsOk (x := fun _ => 0) ((pinsOk_iff s).1 hs) fun h => by rw [hf h])

theorem raise_pinsOk {s : State} (hs : s.pinsOk) (p : Port) (e : Event) : (s.raise p e).pinsOk :=
  ((pinsOk_iff s).1 hs).congr ⟨rfl, ⟨rfl, rfl⟩, rfl⟩

/-- A gate keeps its scene as its standing changes. -/
theorem useGate_pinsOk {s : State} (hs : s.pinsOk) (g : GateId) (u : GateUse) : (s.useGate g u).pinsOk := by
  refine (pinsOk_iff _).2 (setGate_pinsOk (x := fun _ => 0) ((pinsOk_iff s).1 hs) fun h => ?_)
  cases s.gate g <;> rfl

theorem freeGate_pinsOk {s : State} (hs : s.pinsOk) (g : GateId) (p : Port) (e : Event) : (s.freeGate g p e).pinsOk :=
  raise_pinsOk (useGate_pinsOk hs g .defined) p e

theorem freeGates_refs (e : SceneEngine) (l : List GateId) (g : GateId) (h : Handle) :
    gateRefs (e.freeGates l).gates[g] h = gateRefs e.gates[g] h := by
  rw [freeGates_at]
  split
  · cases e.gates[g] <;> rfl
  · rfl

/-! ### Cuts -/

/-- The references of the cuts of a queue. -/
def cutRefs (l : List Cut) (h : Handle) : Nat := (l.map fun c => placementsNaming c.scene h).sum

/-- The references of the saved contexts of a link stack. -/
def stackRefs (l : List Context) (h : Handle) : Nat := (l.map fun x => placementsNaming x.scene h).sum

theorem references_eq (zn : Zone) (h : Handle) :
    zn.references h = placementsNaming zn.current.scene h + cutRefs zn.cuts h + stackRefs zn.stack h := rfl

theorem cutRefs_perm {a b : List Cut} (h : a.Perm b) (pg : Handle) : cutRefs a pg = cutRefs b pg := (h.map _).sum_eq

theorem cutRefs_cons (c : Cut) (l : List Cut) (h : Handle) :
    cutRefs (c :: l) h = placementsNaming c.scene h + cutRefs l h := List.sum_cons

theorem stackRefs_cons (x : Context) (l : List Context) (h : Handle) :
    stackRefs (x :: l) h = placementsNaming x.scene h + stackRefs l h := List.sum_cons

theorem stackRefs_append (a b : List Context) (h : Handle) : stackRefs (a ++ b) h = stackRefs a h + stackRefs b h := by
  unfold stackRefs
  rw [List.map_append, List.sum_append]

theorem cutRefs_erase {c : Cut} {l : List Cut} (hc : c ∈ l) (h : Handle) :
    cutRefs (l.erase c) h + placementsNaming c.scene h = cutRefs l h := by
  rw [cutRefs_perm (List.perm_cons_erase hc), cutRefs_cons, Nat.add_comm]

section
variable {s : State} {z : ZoneId}

theorem loseCut_pinsOk (hs : s.pinsOk) (o : CutOutcome) {c : Cut} (hc : c ∈ (s.zone z).cuts) :
    (s.loseCut z o c).pinsOk := by
  rw [loseCut_acted]
  refine actedZone_pinsOk hs fun h => ?_
  have := cutRefs_erase hc h
  simp only [references_eq]
  omega

theorem loseCut_cuts (s : State) (z : ZoneId) (o : CutOutcome) (c : Cut) :
    ((s.loseCut z o c).zone z).cuts = (s.zone z).cuts.erase c := by
  rw [loseCut_acted, acted_zone_same]

/-- Cuts of a queue leave it one by one. -/
theorem loseEach_pinsOk {f : State → Cut → State}
    (hf : ∀ s c, s.pinsOk → c ∈ (s.zone z).cuts → (f s c).pinsOk ∧ ((f s c).zone z).cuts = (s.zone z).cuts.erase c)
    (l : List Cut) {s : State} (hl : l.Subperm (s.zone z).cuts) (hs : s.pinsOk) : (l.foldl f s).pinsOk := by
  induction l generalizing s with
  | nil => exact hs
  | cons c l ih =>
    obtain ⟨hpins, hcuts⟩ := hf s c hs (hl.subset (by simp))
    refine ih ?_ hpins
    rw [hcuts]
    simpa using hl.erase c

theorem abandonCut_pinsOk (hs : s.pinsOk) {c : Cut} (hc : c ∈ (s.zone z).cuts) : (s.abandonCut z c).pinsOk :=
  raise_pinsOk (loseCut_pinsOk hs .abandoned hc) _ _

theorem skipCut_pinsOk (hs : s.pinsOk) {c : Cut} (hc : c ∈ (s.zone z).cuts) : (s.skipCut z c).pinsOk :=
  raise_pinsOk (loseCut_pinsOk hs .skipped hc) _ _

theorem skipDue_pinsOk (hs : s.pinsOk) : (s.skipDue z).1.pinsOk := by
  refine loseEach_pinsOk (z := z) (fun s c hs hc => ⟨skipCut_pinsOk hs hc, loseCut_cuts s z .skipped c⟩) _ ?_ hs
  exact ((List.dropLast_sublist _).trans List.filter_sublist).subperm

end

/-! ### What an armed item refers to -/

/-- A page that is referred to is no FREE one (R16). -/
theorem referenced_isSome {s : State} (hs : s.pinsOk) {pg : Handle} (h4 : 4 ≤ pg.toNat) (hr : 0 < s.references pg) :
    (s.page pg).isSome = true := by
  have h := hs pg h4
  cases hp : s.page pg with
  | none =>
    rw [hp] at h
    change _ = 0 at h
    omega
  | some p => rfl

theorem gateRefs_le (s : State) (g : GateId) (pg : Handle) : gateRefs (s.gate g) pg ≤ s.references pg := by
  have hle : gateRefs (s.gate g) pg ≤ (allGates.map fun k => gateRefs (s.gate k) pg).sum :=
    List.le_sum_of_mem (List.mem_map.2 ⟨g, mem_allGates g, rfl⟩)
  have heq : s.references pg = (allZones.map fun z => (s.zone z).references pg).sum +
      (allGates.map fun k => gateRefs (s.gate k) pg).sum + (s.edit.queue.map fun e => e.references pg).sum := rfl
  omega

theorem placementsNaming_pos {sc : Scene} {p : Placement} (hp : p ∈ sc) : 0 < placementsNaming sc p.page :=
  List.countP_pos_iff.2 ⟨p, hp, decide_eq_true rfl⟩

/-- The scene of a gate that is defined names pages. -/
theorem gateScene_isSome {s : State} (hs : s.pinsOk) {g : GateId} {e : Gate} (hg : s.gate g = some e) :
    ∀ p ∈ e.scene, 4 ≤ p.page.toNat → (s.page p.page).isSome = true := fun p hp h4 => by
  refine referenced_isSome hs h4 (Nat.lt_of_lt_of_le ?_ (gateRefs_le s g p.page))
  rw [hg]
  exact placementsNaming_pos hp

/-! ### The armed item is shown, cleared or dropped (R113 to R115, R163) -/

section
variable {s : State} {z : ZoneId}

theorem disarm_pinsOk (hs : s.pinsOk) (z : ZoneId) : (s.disarm z).pinsOk := setZone_pinsOk_same hs fun _ => rfl

theorem showCut_pinsOk (hs : s.pinsOk) (z : ZoneId) : (s.showCut z).pinsOk := by
  cases hc : (s.zone z).cuts with
  | nil =>
    unfold State.showCut
    rw [hc]
    exact hs
  | cons c rest =>
    rw [showCut_acted hc]
    refine actedZone_pinsOk hs fun h => ?_
    simp only [references_eq, playlistOf, hc, cutRefs_cons]
    omega

theorem showGate_pinsOk (hs : s.pinsOk) (z : ZoneId) (g : GateId) (p : Port) : (s.showGate z g p).pinsOk := by
  cases hg : s.gate g with
  | none =>
    unfold State.showGate
    rw [hg]
    exact hs
  | some e =>
    rw [showGate_acted hg]
    have hpin := pinScene_pinsOk e.scene ((pinsOk_iff s).1 hs) (gateScene_isSome hs hg)
    have hscene : (s.pinScene e.scene).scene = s.scene := by simp
    have hzone : (s.pinScene e.scene).zone z = s.zone z := congrArg (fun x : SceneEngine => x.zones[z]) hscene
    generalize s.pinScene e.scene = u at hpin hscene hzone ⊢
    refine acted_pinsOk z hpin (fun y hy => ?_) (fun k h => ?_) fun h => ?_
    · rw [hscene]
      exact upd_other _ _ _ _ (Ne.symm hy)
    · rw [hscene]
      change gateRefs (upd s.scene.gates g fun _ => some { e with use := .active p })[k] h = _
      rw [upd_at]
      split
      · next hk =>
        rw [← hk, show s.scene.gates[g] = some e from hg]
        rfl
      · rfl
    · rw [hzone]
      refine Eq.trans (congrArg (fun zn : Zone => zn.references h + placementsNaming [] h) (upd_same ..)) ?_
      simp only [references_eq, stackRefs_append, stackRefs_cons, placementsNaming_nil]
      rw [show stackRefs [] h = 0 from rfl]
      change placementsNaming e.scene h + cutRefs (s.zone z).cuts h + (stackRefs (s.zone z).stack h +
        (placementsNaming (s.zone z).current.scene h + 0)) + 0 = _
      omega

theorem showReturn_pinsOk (hs : s.pinsOk) (z : ZoneId) : (s.showReturn z).pinsOk := by
  cases hx : (s.zone z).stack.getLast? with
  | none =>
    unfold State.showReturn
    rw [hx]
    exact hs
  | some x =>
    rw [showReturn_acted hx]
    refine acted_pinsOk (x := fun _ => 0) z hs (fun y hy => upd_other _ _ _ _ (Ne.symm hy))
      (fun k h => freeGates_refs ..) fun h => ?_
    have hstack : (s.zone z).stack = (s.zone z).stack.dropLast ++ [x] := (List.dropLast_append_getLast? _ hx).symm
    refine Eq.trans (congrArg (fun zn : Zone => zn.references h + placementsNaming _ h) (upd_same ..)) ?_
    have hrefs := stackRefs_append (s.zone z).stack.dropLast [x] h
    rw [← hstack, stackRefs_cons] at hrefs
    change placementsNaming x.scene h + cutRefs (s.zone z).cuts h + stackRefs (s.zone z).stack.dropLast h +
      placementsNaming (s.zone z).current.scene h = placementsNaming (s.zone z).current.scene h +
      cutRefs (s.zone z).cuts h + stackRefs (s.zone z).stack h + 0
    change _ = _ + (_ + 0) at hrefs
    omega

theorem showArmed_pinsOk (hs : s.pinsOk) (z : ZoneId) : (s.showArmed z).pinsOk := by
  unfold State.showArmed
  split
  · exact showCut_pinsOk hs z
  · exact showGate_pinsOk hs z _ _
  · exact showReturn_pinsOk hs z
  · exact hs

theorem dropReleased_pinsOk (hs : s.pinsOk) (z : ZoneId) : (s.dropReleased z).pinsOk := by
  unfold State.dropReleased
  split
  · next c rest _ hc =>
    split
    · exact disarm_pinsOk (loseCut_pinsOk hs .discarded (by rw [hc]; simp)) z
    · exact hs
  · exact hs

theorem clearArmed_pinsOk (hs : s.pinsOk) (z : ZoneId) : (s.clearArmed z).pinsOk := by
  unfold State.clearArmed
  split
  · next c later _ hc =>
    have hmem : c ∈ (s.zone z).cuts := by rw [hc]; simp
    repeat' split
    · exact disarm_pinsOk (abandonCut_pinsOk hs hmem) z
    · exact disarm_pinsOk (skipCut_pinsOk hs hmem) z
    · exact hs
  · split
    · exact disarm_pinsOk (freeGate_pinsOk hs _ _ _) z
    · exact hs
  · exact hs

theorem takeUnseen_pinsOk (hs : s.pinsOk) {c : Cut} (hc : c ∈ (s.zone z).cuts) : (s.takeUnseen z c).pinsOk := by
  rw [takeUnseen_acted]
  refine actedZone_pinsOk hs fun h => ?_
  have hcut := cutRefs_erase hc h
  unfold Zone.unseen Zone.replaced
  cases hst : (s.zone z).stack with
  | nil =>
    simp only [references_eq, playlistOf, hst]
    omega
  | cons b above =>
    simp only [references_eq, playlistOf, hst, stackRefs_cons]
    omega

/-- The latest due cut is still in the queue when the others have been skipped. -/
theorem skipDue_mem {u : State} {c : Cut} (h : s.skipDue z = (u, some c)) : c ∈ (u.zone z).cuts := by
  unfold State.skipDue at h
  rw [Prod.mk.injEq] at h
  obtain ⟨rfl, hlast⟩ := h
  generalize hdue : (s.zone z).cuts.filter s.isDue = due at hlast ⊢
  have hsplit : due = due.dropLast ++ [c] := (List.dropLast_append_getLast? _ hlast).symm
  have hsub : (due.dropLast ++ [c]).Subperm (s.zone z).cuts := by
    rw [← hsplit, ← hdue]
    exact List.filter_sublist.subperm
  clear hdue hlast hsplit
  generalize due.dropLast = pre at hsub ⊢
  induction pre generalizing s with
  | nil => exact hsub.subset (by simp)
  | cons d pre ih =>
    refine ih ?_
    have hcuts : ((s.skipCut z d).zone z).cuts = (s.zone z).cuts.erase d := loseCut_cuts s z .skipped d
    rw [hcuts]
    simpa using hsub.erase d

theorem settleDue_pinsOk (hs : s.pinsOk) (z : ZoneId) : (s.settleDue z).pinsOk := by
  have hskip := skipDue_pinsOk (z := z) hs
  unfold State.settleDue
  split
  · exact hs
  · split
    · next h =>
      rw [h] at hskip
      exact hskip
    · next h =>
      rw [h] at hskip
      have hmem := skipDue_mem h
      repeat' split
      · exact takeUnseen_pinsOk hskip hmem
      · exact abandonCut_pinsOk hskip hmem
      · exact setZone_pinsOk_same hskip fun _ => rfl

theorem checkArmed_pinsOk (hs : s.pinsOk) (z : ZoneId) : (s.checkArmed z).1.pinsOk := by
  unfold State.checkArmed
  dsimp only
  split
  · exact hs
  · split
    · exact setZone_pinsOk_same hs fun _ => rfl
    · exact hs

end

/-! ### A zone's boundary (R112 to R120, R163) -/

/-- What touches no entry, no edit, no zone and no gate keeps the law. -/
theorem pinsOk_of_same {s t : State} (hs : s.pinsOk) (h : t.dir = s.dir ∧ sameZones s t ∧ t.edit = s.edit) : t.pinsOk :=
  (pinsOk_iff t).2 (((pinsOk_iff s).1 hs).congr h)

section
variable {s : State} {z : ZoneId}

theorem zoneVerdict_pinsOk (hs : s.pinsOk) (z : ZoneId) : (s.zoneVerdict z).pinsOk := by
  cases hf : (s.zone z).fetch with
  | none =>
    rw [zoneVerdict_none hf]
    exact hs
  | some f =>
    have htold : (s.judgedFetch z f).pinsOk := by
      rw [(judgedFetch_sent s z f).1]
      exact pinsOk_of_same hs ⟨rfl, ⟨rfl, rfl⟩, rfl⟩
    by_cases hw : wholeIn (s.zone z)
    · rw [zoneVerdict_shown hf hw]
      refine setZone_pinsOk_same ?_ fun _ => rfl
      split
      · exact showArmed_pinsOk htold z
      · exact htold
    · rw [zoneVerdict_repeated hf hw]
      split
      · exact dropReleased_pinsOk htold z
      · exact htold

theorem unarmEarly_pinsOk (hs : s.pinsOk) (z : ZoneId) : (s.unarmEarly z).pinsOk := by
  unfold State.unarmEarly
  split
  · split
    · exact disarm_pinsOk hs z
    · exact hs
  · exact hs

theorem armPending_pinsOk (hs : s.pinsOk) (z : ZoneId) : (s.armPending z).pinsOk := by
  unfold State.armPending
  split
  · exact setZone_pinsOk_same hs fun _ => rfl
  · exact setZone_pinsOk_same hs fun _ => rfl
  · exact hs

theorem armExpired_pinsOk (hs : s.pinsOk) (z : ZoneId) : (s.armExpired z).pinsOk := by
  unfold State.armExpired
  dsimp only
  split
  · exact setZone_pinsOk_same hs fun _ => rfl
  · exact hs

theorem orderTile_pinsOk (hs : s.pinsOk) (c : Ctx) (n : Nat) (src : Tile → Source) (t : Tile) :
    (s.orderTile c n src t).pinsOk := by
  have hunit : ∀ {u : State}, u.pinsOk → ∀ m, (u.toUnit t m).pinsOk := fun hu m =>
    pinsOk_of_same hu ⟨rfl, ⟨rfl, rfl⟩, rfl⟩
  have hjoin : (s.admitTile c t).pinsOk := by
    cases c with
    | zone z =>
      have h : (s.setZone z fun zn => { zn with inStep := insertBit (s.scene.steps (.zone z)) t.val }).pinsOk :=
        setZone_pinsOk_same hs fun _ => rfl
      exact pinsOk_of_same h ⟨rfl, ⟨rfl, rfl⟩, rfl⟩
    | background => exact pinsOk_of_same hs ⟨rfl, ⟨rfl, rfl⟩, rfl⟩
  unfold State.orderTile
  split
  · split
    · exact hunit hs _
    · exact hunit hs _
    · exact hunit hjoin _
    · exact hs
  · exact hs

theorem orderFetch_pinsOk (hs : s.pinsOk) (z : ZoneId) (armed : Bool) (sc : Scene) (origin : Nat) :
    (s.orderFetch z armed sc origin).pinsOk := by
  have h : (s.fetchBegun z armed sc).pinsOk := setZone_pinsOk_same hs fun _ => rfl
  rw [orderFetch_eq]
  exact foldl_inv (inv := State.pinsOk) (fun _ t h => orderTile_pinsOk h _ _ _ t) allTiles h

theorem zoneChoice_pinsOk (hs : s.pinsOk) (z : ZoneId) : (s.zoneChoice z).pinsOk := by
  have h := checkArmed_pinsOk (settleDue_pinsOk (armExpired_pinsOk (armPending_pinsOk (clearArmed_pinsOk hs z) z) z) z) z
  rw [zoneChoice_eq]
  unfold State.prepared
  generalize State.checkArmed _ z = x at h ⊢
  rcases x with ⟨t, _ | ⟨sc, origin⟩⟩
  · exact orderFetch_pinsOk h z _ _ _
  · exact orderFetch_pinsOk h z _ _ _

theorem judged_pinsOk (hs : s.pinsOk) (epoch : Bool) (z : ZoneId) : (s.judged epoch z).pinsOk := by
  unfold State.judged
  split
  · exact unarmEarly_pinsOk (zoneVerdict_pinsOk hs z) z
  · exact zoneVerdict_pinsOk hs z

theorem zoneLit_pinsOk (hs : s.pinsOk) (epoch : Bool) (z : ZoneId) : (s.zoneLit epoch z).pinsOk := by
  have h := judged_pinsOk hs epoch z
  rw [zoneLit_eq]
  split
  · exact setZone_pinsOk_same h fun _ => rfl
  · exact zoneChoice_pinsOk h z

theorem zoneDark_pinsOk (hs : s.pinsOk) (z : ZoneId) : (s.zoneDark z).pinsOk := by
  have h : (s.setZone z fun zn => { zn with fetch := none, delivered := 0 }).pinsOk :=
    setZone_pinsOk_same hs fun _ => rfl
  unfold State.zoneDark
  dsimp only
  generalize s.setZone z _ = t at h ⊢
  have hskip := skipDue_pinsOk (z := z) h
  split
  · exact h
  · split
    · next hk =>
      rw [hk] at hskip
      exact hskip
    · next hk =>
      rw [hk] at hskip
      exact takeUnseen_pinsOk hskip (skipDue_mem hk)

theorem backgroundLit_pinsOk (hs : s.pinsOk) : s.backgroundLit.pinsOk := by
  have htold : s.tellBackground.pinsOk := by
    rw [tellBackground_only s]
    exact pinsOk_of_same hs ⟨rfl, ⟨rfl, rfl⟩, rfl⟩
  by_cases hf : s.scene.frame = maxFrame
  · obtain ⟨hscene, -⟩ := tellBackground_scene s
    rw [backgroundLit_eq, hscene, if_pos hf]
    exact pinsOk_of_same htold ⟨rfl, ⟨rfl, rfl⟩, rfl⟩
  · rw [backgroundLit_orders hf]
    exact foldl_inv (inv := State.pinsOk) (fun _ t h => orderTile_pinsOk h _ _ _ t) allTiles
      (pinsOk_of_same htold ⟨rfl, ⟨rfl, rfl⟩, rfl⟩)

/-! ### Dark entry (R163) -/

theorem flatMap_stackRefs (l : List Context) (h : Handle) : placementsNaming (l.flatMap (·.scene)) h = stackRefs l h := by
  induction l with
  | nil => rfl
  | cons x l ih => rw [List.flatMap_cons, placementsNaming_append, ih, stackRefs_cons]

theorem unwind_pinsOk (hs : s.pinsOk) (z : ZoneId) : (s.unwind z).pinsOk := by
  unfold State.unwind
  dsimp only
  split
  · exact hs
  · next bottom above hst =>
    rw [dropContexts_acted, acted_setZone]
    refine acted_pinsOk (x := fun _ => 0) z hs (fun y hy => ?_) (fun k h => freeGates_refs ..) fun h => ?_
    · refine (upd_other _ _ _ _ (Ne.symm hy)).trans ?_
      rw [freeGates_only]
    · refine Eq.trans (congrArg (fun zn : Zone => zn.references h + placementsNaming _ h) (upd_same ..)) ?_
      have hrev : stackRefs above.reverse h = stackRefs above h := ((List.reverse_perm above).map _).sum_eq
      rw [flatMap_stackRefs, stackRefs_cons, hrev, references_eq, references_eq, hst, stackRefs_cons]
      have hcuts : ((s.scene.freeGates ((((s.zone z).current :: above.reverse).flatMap Context.ends).map (·.1))).zones[z]).cuts =
          (s.zone z).cuts := by
        rw [freeGates_only]
      rw [show stackRefs [] h = 0 from rfl]
      dsimp only
      rw [hcuts]
      omega

theorem dropArmed_pinsOk (hs : s.pinsOk) (z : ZoneId) : (s.dropArmed z).pinsOk := by
  unfold State.dropArmed
  split
  · next c rest _ hc =>
    refine disarm_pinsOk ?_ z
    split
    · exact loseCut_pinsOk hs .discarded (by rw [hc]; simp)
    · exact hs
  · exact disarm_pinsOk (freeGate_pinsOk hs _ _ _) z
  · exact disarm_pinsOk hs z

theorem dropPending_pinsOk (hs : s.pinsOk) (z : ZoneId) : (s.dropPending z).pinsOk := by
  unfold State.dropPending
  refine setZone_pinsOk_same ?_ fun _ => rfl
  split
  · exact freeGate_pinsOk hs _ _ _
  · exact hs

theorem windBack_pinsOk (hs : s.pinsOk) (z : ZoneId) : (s.windBack z).pinsOk :=
  setZone_pinsOk_same (dropPending_pinsOk (dropArmed_pinsOk (unwind_pinsOk hs z) z) z) fun _ => rfl

/-! ### Claims, and the loss of an invoker (R91, R92, R138) -/

theorem cutRefs_map (l : List Cut) {f : Cut → Cut} (hf : ∀ c, (f c).scene = c.scene) (h : Handle) :
    cutRefs (l.map f) h = cutRefs l h := by
  unfold cutRefs
  rw [List.map_map]
  exact congrArg List.sum (List.map_congr_left fun c _ => congrArg (placementsNaming · h) (hf c))

theorem passZone_pinsOk (hs : s.pinsOk) (z : ZoneId) (p : Port) : (s.passZone z p).pinsOk := by
  refine setZone_pinsOk_same hs fun h => ?_
  rw [references_eq, references_eq]
  dsimp only
  rw [cutRefs_map]
  intro c
  split <;> rfl

theorem releaseZone_pinsOk (hs : s.pinsOk) (z : ZoneId) : (s.releaseZone z).pinsOk := by
  unfold State.releaseZone
  dsimp only
  generalize (decide ((s.zone z).armed = some .cut) && (s.zone z).fetched) = stays
  generalize hu : s.setZone z _ = u
  have hcuts : (u.zone z).cuts = if stays = true then
      (s.zone z).cuts.take 1 |>.map (fun c => { c with released := true }) |>.append (s.zone z).cuts.tail
      else (s.zone z).cuts := by
    rw [← hu, setZone_same]
    rfl
  have hpins : u.pinsOk := by
    rw [← hu]
    refine setZone_pinsOk_same hs fun h => ?_
    rw [references_eq, references_eq]
    dsimp only
    cases stays with
    | false => rfl
    | true =>
      cases (s.zone z).cuts <;> rfl
  refine loseEach_pinsOk (z := z) (fun s c hs hc => ⟨loseCut_pinsOk hs .discarded hc, loseCut_cuts s z .discarded c⟩) _ ?_
    hpins
  rw [hcuts]
  cases stays with
  | false => exact List.Subperm.refl _
  | true => exact (List.sublist_append_right _ _).subperm

theorem loseInvoker_pinsOk (hs : s.pinsOk) (p : Port) (z : ZoneId) : (s.loseInvoker p z).pinsOk := by
  have hpend : (s.dropInvocation p z).pinsOk := by
    unfold State.dropInvocation
    split
    · split
      · exact setZone_pinsOk_same (useGate_pinsOk hs _ _) fun _ => rfl
      · exact hs
    · exact hs
  rw [loseInvoker_eq]
  unfold State.spendAttempts
  split
  · split
    · exact setZone_pinsOk_same hpend fun _ => rfl
    · exact hpend
  · exact hpend

end

/-! ### Both laws -/

/-- The directory but for its pins, the channels and the edits are as before. -/
def keepsPlan (s t : State) : Prop := t.dir.plan = s.dir.plan ∧ t.load = s.load ∧ t.edit = s.edit

theorem keepsPlan.books {s t : State} (h : keepsPlan s t) (hs : s.booksOk) (ht : s.pinsOk → t.pinsOk) : t.booksOk :=
  ⟨pagesOk_of_plan h.1 (congrArg _ h.2.1) (congrArg _ h.2.2) hs.1, ht hs.2⟩

section
variable {s : State}

theorem zoneLit_books (hs : s.booksOk) (epoch : Bool) (z : ZoneId) : (s.zoneLit epoch z).booksOk :=
  keepsPlan.books ⟨(zoneLit_stage s epoch z).2.2, by simp, by simp⟩ hs fun h => zoneLit_pinsOk h epoch z

theorem zoneDark_books (hs : s.booksOk) (z : ZoneId) : (s.zoneDark z).booksOk :=
  keepsPlan.books ⟨(zoneDark_stage s z).2.2, by simp, by simp⟩ hs fun h => zoneDark_pinsOk h z

theorem backgroundLit_books (hs : s.booksOk) : s.backgroundLit.booksOk :=
  keepsPlan.books ⟨(backgroundLit_stage s).2.2, by simp, by simp⟩ hs backgroundLit_pinsOk

theorem windBack_books (hs : s.booksOk) (z : ZoneId) : (s.windBack z).booksOk :=
  keepsPlan.books ⟨(windBack_stage s z).2.2, by simp, by simp⟩ hs fun h => windBack_pinsOk h z

theorem releaseZone_books (hs : s.booksOk) (z : ZoneId) : (s.releaseZone z).booksOk :=
  keepsPlan.books ⟨(releaseZone_stage s z).2.2, by simp, by simp⟩ hs fun h => releaseZone_pinsOk h z

theorem loseInvoker_books (hs : s.booksOk) (p : Port) (z : ZoneId) : (s.loseInvoker p z).booksOk :=
  keepsPlan.books ⟨(loseInvoker_stage s p z).2.2, by simp, by simp⟩ hs fun h => loseInvoker_pinsOk h p z

theorem toUnit_books (hs : s.booksOk) (t : Tile) (m : UnitMsg) : (s.toUnit t m).booksOk :=
  hs.congr ⟨rfl, rfl, rfl, rfl, rfl⟩

theorem modMail_books (hs : s.booksOk) (f : Mail → Mail) : (s.modMail f).booksOk :=
  hs.congr ⟨rfl, rfl, rfl, rfl, rfl⟩

theorem modBackground_books (hs : s.booksOk) (f : Background → Background) : (s.modBackground f).booksOk :=
  hs.congr ⟨rfl, rfl, rfl, rfl, rfl⟩

theorem darkEntry_books (hs : s.booksOk) : s.darkEntry.booksOk := by
  have h1 : (allZones.foldl State.windBack ((s.modScene fun e => { e with change := none }).setWindow .darkening)).booksOk :=
    foldl_inv (inv := State.booksOk) (fun _ z h => windBack_books h z) allZones
      (hs.congr (t := (s.modScene fun e => { e with change := none }).setWindow .darkening) ⟨rfl, rfl, rfl, rfl, rfl⟩)
  unfold State.darkEntry
  dsimp only
  generalize allZones.foldl State.windBack _ = t at h1 ⊢
  have h2 : (t.modBackground fun _ => .initial).abortAll.booksOk :=
    abortAll_books (h1.congr (t := t.modBackground fun _ => .initial) ⟨rfl, rfl, rfl, rfl, rfl⟩)
  generalize (t.modBackground fun _ => .initial).abortAll = u at h2 ⊢
  generalize hv : u.modScene _ = v
  have h3 : v.booksOk := h2.congr (by rw [← hv]; exact ⟨rfl, rfl, rfl, rfl, rfl⟩)
  have h4 := endEdits_books h3
  generalize v.endEdits = w at h4 ⊢
  exact foldl_inv (f := fun (s : State) (t : Tile) => s.toUnit t .powerOff) (inv := State.booksOk)
    (fun _ t h => toUnit_books h t .powerOff) allTiles h4

theorem takeChange_books (hs : s.booksOk) : s.takeChange.booksOk := by
  unfold State.takeChange
  dsimp only
  split
  · split
    · exact darkEntry_books hs
    · exact hs
  · split
    · exact hs.congr (by simp [State.wakeEntry, sameZones])
    · exact hs
  · exact hs

theorem frameBoundary_books (hs : s.booksOk) : (frameBoundary s).booksOk := by
  unfold frameBoundary
  split
  · dsimp only
    have h := takeChange_books (s := (s.send .sync).modScene fun e => { e with frame := e.nextFrame, epoch := none })
      (hs.congr ⟨rfl, rfl, rfl, rfl, rfl⟩)
    generalize State.takeChange _ = t at h ⊢
    refine modMail_books ?_ _
    split
    · exact backgroundLit_books (foldl_inv (inv := State.booksOk) (fun _ z h => zoneLit_books h _ z) allZones h)
    · have hd : (allZones.foldl State.zoneDark t).booksOk :=
        foldl_inv (inv := State.booksOk) (fun _ z h => zoneDark_books h z) allZones h
      exact modBackground_books hd _
  · exact hs

theorem portLoss_books (hs : s.booksOk) (p : Port) : (portLoss p s).booksOk := by
  unfold portLoss
  split
  · dsimp only
    have h0 : (s.setPort p fun r =>
        { r with up := false, events := 0, mask := 0, transit := none, waiting := [] }).booksOk :=
      hs.congr ⟨rfl, rfl, rfl, rfl, rfl⟩
    generalize s.setPort p _ = t at h0 ⊢
    have h1 : (t.releaseZonesOf p).booksOk :=
      foldl_inv (inv := State.booksOk) (fun u z h => by split; exact releaseZone_books h z; exact h) allZones h0
    have h2 : ((t.releaseZonesOf p).abortLoadsOf p).booksOk :=
      foldl_inv (inv := State.booksOk) (fun u c h => by split; exact abortLoad_books h c; exact h) allChans h1
    exact foldl_inv (inv := State.booksOk) (fun u z h => loseInvoker_books h p z) allZones (removeEditOf_books h2 p)
  · exact hs

end

end Sys2Proof.Machine
end

