-- ==== Sys2Proof/Proofs/BooksKept.lean ====
section
/-! PROOFS. Every step keeps the law of the page states and the law of the pins (R6, R15, R16, R51). -/

namespace Sys2Proof.Machine

/-! ### The requests for zones (R87 to R94) -/

section
variable {s : State}

theorem setZone_books_same (hs : s.booksOk) {z : ZoneId} {f : Zone → Zone}
    (hf : ∀ h, (f (s.zone z)).references h = (s.zone z).references h) : (s.setZone z f).booksOk :=
  keepsPlan.books (s := s) ⟨rfl, rfl, rfl⟩ hs fun h => setZone_pinsOk_same h hf

theorem raise_books (hs : s.booksOk) (p : Port) (e : Event) : (s.raise p e).booksOk :=
  hs.congr ⟨rfl, rfl, rfl, rfl, rfl⟩

theorem modScene_books (hs : s.booksOk) {f : SceneEngine → SceneEngine} (hz : sameZones s (s.modScene f)) :
    (s.modScene f).booksOk := hs.congr ⟨rfl, rfl, rfl, hz⟩

theorem moveTile_books (hs : s.booksOk) (z : ZoneId) (into : Bool) (t : Tile) : (s.moveTile z into t).booksOk := by
  have hu : (s.setUnit t fun u => { u with ctx := some (if into then .zone z else .background) }).booksOk :=
    hs.congr ⟨rfl, rfl, rfl, rfl, rfl⟩
  unfold State.moveTile
  dsimp only
  generalize s.setUnit t _ = u at hu ⊢
  split
  · exact modScene_books (setZone_books_same hu fun _ => rfl) ⟨rfl, rfl⟩
  · exact modScene_books (setZone_books_same hu fun _ => rfl) ⟨rfl, rfl⟩

theorem reshape_books (hs : s.booksOk) (z : ZoneId) (r : Option Rect) : (s.reshape z r).booksOk := by
  have h : (s.setZone z fun zn => { zn with rect := r }).booksOk := setZone_books_same hs fun _ => rfl
  unfold State.reshape
  dsimp only
  generalize s.setZone z _ = u at h ⊢
  refine foldl_inv (inv := State.booksOk) (fun v t h => ?_) allTiles h
  split
  · split
    · exact h
    · exact moveTile_books h z _ t
  · exact h

theorem setZone_request_books (zone presence col row cols rows : Byte) (c : Caller) (hs : s.booksOk) :
    (setZone zone presence col row cols rows c s).booksOk := by
  refine checked_books hs fun _ => ?_
  split
  · next z _ =>
    split
    · exact reply_books (reshape_books hs z _) _ _ _
    · have hr := reshape_books hs z none
      dsimp only
      generalize s.reshape z none = u at hr ⊢
      have h : (u.setZone z fun zn => { zn with holder := none }).booksOk := setZone_books_same hr fun _ => rfl
      generalize u.setZone z _ = t at h ⊢
      refine reply_books ?_ _ _ _
      split
      · split
        · exact h
        · exact raise_books h _ _
      · exact h
  · exact hs

theorem claimZone_books (zone : Byte) (c : Caller) (hs : s.booksOk) : (claimZone zone c s).booksOk := by
  refine checked_books hs fun _ => ?_
  split
  · exact reply_books (setZone_books_same hs fun _ => rfl) _ _ _
  · exact hs

theorem releaseZone_request_books (zone : Byte) (c : Caller) (hs : s.booksOk) : (releaseZone zone c s).booksOk := by
  refine checked_books hs fun _ => ?_
  split
  · exact reply_books (releaseZone_books hs _) _ _ _
  · exact hs

theorem passZone_books (hs : s.booksOk) (z : ZoneId) (p : Port) : (s.passZone z p).booksOk :=
  keepsPlan.books (s := s) ⟨rfl, rfl, rfl⟩ hs fun h => passZone_pinsOk h z p

theorem handOver_books (zone port : Byte) (c : Caller) (hs : s.booksOk) : (handOver zone port c s).booksOk := by
  refine checked_books hs fun _ => ?_
  split
  · refine reply_books ?_ _ _ _
    split
    · exact hs
    · exact passZone_books hs _ _
  · exact hs

theorem seizeZone_books (zone : Byte) (c : Caller) (hs : s.booksOk) : (seizeZone zone c s).booksOk := by
  refine checked_books hs fun _ => ?_
  split
  · refine reply_books ?_ _ _ _
    split
    · exact hs
    · dsimp only
      split
      · exact raise_books (passZone_books hs _ _) _ _
      · exact passZone_books hs _ _
  · exact hs

/-! ### Cuts and gates (R106 to R108, R124 to R129, R135) -/

theorem cutRefs_insert (c : Cut) (l : List Cut) (h : Handle) :
    cutRefs (insertCut c l) h = placementsNaming c.scene h + cutRefs l h := by
  induction l with
  | nil => exact cutRefs_cons c [] h
  | cons d l ih =>
    rw [insertCut]
    split
    · exact cutRefs_cons c (d :: l) h
    · rw [cutRefs_cons, cutRefs_cons, ih]
      omega

/-- A scene that passes the scene checks names pages. -/
theorem scene_isSome {sc : List RawPlacement} (h : (sc.all fun x => s.isPage x.page) = true) :
    ∀ p ∈ sc.map placementOf, 4 ≤ p.page.toNat → (s.page p.page).isSome = true := by
  intro p hp h4
  obtain ⟨x, hx, rfl⟩ := List.mem_map.1 hp
  have hpage := List.all_eq_true.1 h x hx
  unfold State.isPage at hpage
  have hpat : isPattern x.page = false := isPattern_false h4
  rwa [hpat, Bool.false_or] at hpage

theorem queueCut_books (zone : Byte) (target : BitVec 48) (label : BitVec 16) (slip : Byte) (sc : List RawPlacement)
    (c : Caller) (hs : s.booksOk) : (queueCut zone target label slip sc c s).booksOk := by
  refine checked_books hs fun ht => ?_
  split
  · next z hz =>
    have hpages : (sc.all fun x => s.isPage x.page) = true :=
      ht (sc.all fun x => s.isPage x.page, .noSuch) (by simp [queueCutTests, sceneTestsAt, hz, sceneTests])
    refine reply_books (keepsPlan.books ⟨by simp, by simp, by simp⟩ hs fun hp => ?_) _ _ _
    have hpin := pinScene_pinsOk (sc.map placementOf) ((pinsOk_iff s).1 hp) (scene_isSome hpages)
    refine (pinsOk_iff _).2 (setZone_pinsOk hpin fun h => ?_)
    simp only [references_eq, cutRefs_insert]
    omega
  · exact hs

theorem withdrawCut_books (zone : Byte) (target : BitVec 48) (c : Caller) (hs : s.booksOk) :
    (withdrawCut zone target c s).booksOk := by
  refine checked_books hs fun _ => ?_
  split
  · next z k hz hk =>
    rw [hz] at hk
    refine reply_books (keepsPlan.books ⟨(loseCut_stage s z _ k).2.2, by simp, by simp⟩ hs fun hp => ?_) _ _ _
    exact loseCut_pinsOk hp .withdrawn (List.mem_of_find?_eq_some hk)
  · exact hs

theorem unpinScene_setGate (s : State) (sc : Scene) (g : GateId) (f : Option Gate → Option Gate) :
    (s.unpinScene sc).setGate g f = (s.setGate g f).unpinScene sc :=
  unpinScene_modScene s sc fun e => { e with gates := upd e.gates g f }

/-- The references of the scene that a gate carries, if it is defined. -/
theorem gateRefs_scene (e : Option Gate) (h : Handle) :
    gateRefs e h = placementsNaming ((e.map (·.scene)).getD []) h := by cases e <;> rfl

theorem defineGate_books (gate zone level minClass : Byte) (duration : BitVec 16) (sc : List RawPlacement) (c : Caller)
    (hs : s.booksOk) : (defineGate gate zone level minClass duration sc c s).booksOk := by
  refine checked_books hs fun ht => ?_
  split
  · next g z hg hz =>
    have hpages : (sc.all fun x => s.isPage x.page) = true :=
      ht (sc.all fun x => s.isPage x.page, .noSuch) (by simp [defineGateTests, sceneTestsAt, hz, sceneTests])
    refine reply_books (keepsPlan.books ⟨by simp, by simp, by simp⟩ hs fun hp => ?_) _ _ _
    have hpin := pinScene_pinsOk (sc.map placementOf) ((pinsOk_iff s).1 hp) (scene_isSome hpages)
    have hgate : (s.pinScene (sc.map placementOf)).gate g = s.gate g :=
      congrArg (fun e : SceneEngine => e.gates[g]) (pinScene_frame s _).2.2.2.2.1
    rw [unpinScene_setGate]
    refine (pinsOk_iff _).2 (unpinScene_pinsOk _ (setGate_pinsOk hpin fun h => ?_))
    rw [hgate, gateRefs_scene (s.gate g)]
    change _ + (0 + placementsNaming (sc.map placementOf) h) = placementsNaming (sc.map placementOf) h + (0 + _)
    omega
  · exact hs

theorem clearGate_books (gate : Byte) (c : Caller) (hs : s.booksOk) : (clearGate gate c s).booksOk := by
  refine checked_books hs fun _ => ?_
  split
  · next g _ =>
    refine reply_books (keepsPlan.books ⟨by simp, by simp, by simp⟩ hs fun hp => ?_) _ _ _
    rw [unpinScene_setGate]
    refine (pinsOk_iff _).2 (unpinScene_pinsOk _ (setGate_pinsOk ((pinsOk_iff s).1 hp) fun h => ?_))
    rw [gateRefs_scene (s.gate g)]
    change _ + 0 = 0 + (0 + _)
    omega
  · exact hs

theorem invokeGate_books (gate : Byte) (c : Caller) (hs : s.booksOk) : (invokeGate gate c s).booksOk := by
  refine checked_books hs fun _ => ?_
  split
  · refine reply_books (setZone_books_same ?_ fun _ => rfl) _ _ _
    exact keepsPlan.books (s := s) ⟨rfl, rfl, rfl⟩ hs fun hp => useGate_pinsOk hp _ _
  · exact hs

theorem returnGate_books (zone : Byte) (c : Caller) (hs : s.booksOk) : (returnGate zone c s).booksOk := by
  refine checked_books hs fun _ => ?_
  split
  · exact reply_books (setZone_books_same hs fun _ => rfl) _ _ _
  · exact hs

/-! ### The reports of the units (R111, R145) -/

theorem deliveryReport_books (t : Tile) (hs : s.booksOk) : (deliveryReport t s).booksOk := by
  unfold deliveryReport
  split
  · have h : (s.popReport t).booksOk := hs.congr ⟨rfl, rfl, rfl, rfl, rfl⟩
    generalize s.popReport t = u at h ⊢
    unfold State.takeDelivery
    split
    · split
      · exact setZone_books_same h fun _ => rfl
      · exact h
    · split
      · exact modScene_books h ⟨rfl, rfl⟩
      · exact h
    · exact h
  · exact hs

theorem stateReport_books (t : Tile) (hs : s.booksOk) : (stateReport t s).booksOk := by
  unfold stateReport
  split
  · next st _ _ =>
    have h : (s.popReport t).booksOk := hs.congr ⟨rfl, rfl, rfl, rfl, rfl⟩
    generalize s.popReport t = u at h ⊢
    unfold State.takeStateReport
    split
    · exact h
    · have hr : (u.modScene fun e => { e with reported := upd e.reported t fun _ => some st }).booksOk :=
        modScene_books h ⟨rfl, rfl⟩
      dsimp only
      generalize u.modScene _ = v at hr ⊢
      split
      · exact hr
      · unfold State.leaveStep
        split
        · exact setZone_books_same hr fun _ => rfl
        · exact modScene_books hr ⟨rfl, rfl⟩
        · exact hr
  · exact hs

end

/-- Every command keeps both laws at its block. -/
theorem atBlock_books (i : Instr) (c : Caller) {s : State} (hs : s.booksOk) (hu : s.emptyOk) : (atBlock i c s).booksOk := by
  cases i with
  | powerOnReset => exact reset_books rfl rfl rfl rfl rfl
  | configure => exact configure_books _ _ _ _ _ _ _ c hs hu
  | resetWindow => exact resetWindow_books c hs
  | createPage => exact createPage_books _ _ _ _ _ c hs
  | deletePage => exact deletePage_books _ c hs
  | purgePages => exact purgePages_books _ _ c hs
  | setPageRights => exact setPageRights_books _ _ _ _ c hs
  | loadBegin => exact loadBegin_books _ _ _ _ _ c hs
  | data => exact data_books _ _ _ _ c hs
  | loadAbort => exact loadAbort_books _ c hs
  | patch => exact patch_books _ _ _ _ _ _ _ _ _ c hs
  | copy => exact copy_books _ _ _ _ c hs
  | cancelEdit => exact cancelEdit_books hs c
  | setZone => exact setZone_request_books _ _ _ _ _ _ c hs
  | claimZone => exact claimZone_books _ c hs
  | releaseZone => exact releaseZone_request_books _ c hs
  | handOver => exact handOver_books _ _ c hs
  | seizeZone => exact seizeZone_books _ c hs
  | queueCut => exact queueCut_books _ _ _ _ _ c hs
  | withdrawCut => exact withdrawCut_books _ _ c hs
  | defineGate => exact defineGate_books _ _ _ _ _ _ c hs
  | clearGate => exact clearGate_books _ c hs
  | invokeGate => exact invokeGate_books _ c hs
  | returnGate => exact returnGate_books _ c hs
  | portLoss p => exact portLoss_books hs p
  | frameBoundary => exact frameBoundary_books hs
  | deliveryReport t => exact deliveryReport_books t hs
  | stateReport t => exact stateReport_books t hs
  | scanComplete errors => exact scanComplete_books errors hs
  | scrubComplete errors => exact scrubComplete_books errors hs
  | loadComplete => exact loadComplete_books hs
  | patchEditComplete errors => exact patchEditComplete_books errors hs
  | copyLineComplete errors => exact copyLineComplete_books errors hs
  | latchedCellAnnouncement => exact latchedCellAnnouncement_books hs
  | setEpoch | darken | wake =>
    refine checked_books hs fun _ => reply_books ?_ _ _ _
    exact modScene_books hs ⟨rfl, rfl⟩
  | _ => exact hs.congr ⟨by simp [atBlock], by simp [atBlock], by simp [atBlock], atBlock_zones _ rfl c s⟩

/-- Settles O60: both laws are kept at the block of every command, and its course leaves them alone. -/
theorem pagesAndPinsStayLegal : Obligations.PagesAndPinsStayLegal := by
  intro s t hpages hpins hu h
  have hempty : s.emptyOk := ((unconfiguredOk_iff s).1 hu).1
  have hboth : t.booksOk ∧ t.emptyOk := step_keeps (P := fun s => s.booksOk ∧ s.emptyOk) (fun _ _ _ _ h => h)
    (fun i c _ hs => ⟨atBlock_books i c hs.1 hs.2, atBlock_emptyOk i c hs.2⟩) h ⟨⟨hpages, hpins⟩, hempty⟩
  exact ⟨hboth.1.1, hboth.1.2⟩

end Sys2Proof.Machine
end

