-- ==== Sys2Proof/Proofs/FrameStart.lean ====
section
/-! PROOFS. FRAME_BOUNDARY: the new frame, the window change that is due, and the zones in order (R96 to R98, R162). -/

namespace Sys2Proof.Machine

/-! ### What dark entry and wake send and leave (R163, R164, R167) -/

/-- What has been sent is followed by replies CANCELLED and nothing else. -/
def cancels (s t : State) : Prop :=
  ∃ more, t.out = s.out ++ more ∧ ∀ o ∈ more, ∃ p r, o = .reply p r ∧ r.status = .cancelled

theorem cancels_of_out {s t : State} (h : t.out = s.out) : cancels s t := ⟨[], by rw [h, List.append_nil], fun _ ho => absurd ho List.not_mem_nil⟩

theorem cancels.trans {a b c : State} (h : cancels a b) (k : cancels b c) : cancels a c := by
  obtain ⟨m, hm, hall⟩ := h
  obtain ⟨n, hn, kall⟩ := k
  refine ⟨m ++ n, by rw [hn, hm, List.append_assoc], fun o ho => ?_⟩
  exact (List.mem_append.1 ho).elim (hall o) (kall o)

theorem cancels_reply (s : State) (c : Caller) : cancels s (s.reply c .cancelled) := by
  unfold State.reply
  split
  · exact ⟨[.reply c.port { code := c.code, tag := c.tag, status := .cancelled, body := .none }], rfl, fun o ho =>
      ⟨_, _, List.mem_singleton.1 ho, rfl⟩⟩
  · exact cancels_of_out rfl

/-- An edit of the queue that is not a running PATCH is cancelled. -/
def State.cancelQueued (s : State) (e : Edit) : State :=
  if s.runsPatch e then s else (s.removeEdit e).reply e.caller .cancelled

theorem endEdits_eq (s : State) : s.endEdits =
    (s.edit.queue.reverse.foldl State.cancelQueued (s.modEdit fun u => { u with endAsked := true })).reportEditsEnded := rfl

theorem endEdits_cancels (s : State) : cancels s s.endEdits := by
  have hfold : cancels s (s.edit.queue.reverse.foldl State.cancelQueued (s.modEdit fun u => { u with endAsked := true })) := by
    refine foldl_inv (inv := cancels s) (fun t e h => ?_) _ (cancels_of_out rfl)
    unfold State.cancelQueued
    split
    · exact h
    · exact h.trans (cancels.trans (b := t.removeEdit e) (cancels_of_out (by simp)) (cancels_reply _ _))
  rw [endEdits_eq]
  generalize List.foldl _ _ _ = t at hfold ⊢
  exact hfold.trans (cancels_of_out (by simp))

/-- A state of dark entry: the zones and the background are wound back, and the loads are aborted. -/
def State.wound (s : State) : State :=
  ((allZones.foldl State.windBack ((s.modScene fun e => { e with change := none }).setWindow .darkening)).modBackground
    fun _ => .initial).abortAll

theorem wound_out (s : State) : s.wound.out = s.out := by
  have h : (allZones.foldl State.windBack ((s.modScene fun e => { e with change := none }).setWindow .darkening)).out =
      s.out := (foldl_keeps (fun t : State => t.out) _ (fun t z => by simp) _ _).trans rfl
  unfold State.wound
  generalize allZones.foldl _ _ = t at h ⊢
  rw [(abortAll_frame _).2.2.2.2.1]
  exact h

theorem wound_window (s : State) : s.wound.window = .darkening := by
  have h : keepsStage ((s.modScene fun e => { e with change := none }).setWindow .darkening)
      (allZones.foldl State.windBack ((s.modScene fun e => { e with change := none }).setWindow .darkening)) :=
    keepsStage_foldl _ windBack_stage _ _
  unfold State.wound
  generalize allZones.foldl _ _ = t at h ⊢
  unfold State.window
  rw [(abortAll_frame _).2.1]
  exact h.2.1

/-- Orders to the units change nothing but what is on its way to them. -/
theorem toUnits_only (m : UnitMsg) (s : State) : onlyToUnit s (allTiles.foldl (fun s t => s.toUnit t m) s) :=
  foldl_inv (inv := onlyToUnit s) (fun _ t h => h.toUnit t m) allTiles (onlyToUnit_refl s)

/-- The end of the edits leaves the window. -/
theorem endEdits_window (s : State) : s.endEdits.window = s.window := by
  have hends : ∀ (t : State) f, (t.takeEnds f).scene.window = t.scene.window := fun t f => by
    unfold State.takeEnds
    split <;> simp
  have hfold : (s.edit.queue.reverse.foldl State.cancelQueued (s.modEdit fun u => { u with endAsked := true })).scene =
      s.scene := by
    refine (foldl_keeps (fun t : State => t.scene) _ (fun t e => ?_) _ _).trans rfl
    unfold State.cancelQueued
    split <;> simp
  rw [endEdits_eq]
  generalize List.foldl _ _ _ = t at hfold ⊢
  unfold State.reportEditsEnded State.window
  split
  · rw [hends, modEdit_scene, hfold]
  · rw [hfold]

/-- The loads and edits of the unit have come to an end, for dark entry. -/
def State.unwound (s : State) : State :=
  (s.wound.modScene fun e => { e with waitEnds := some { loads := true, edits := false } }).endEdits

theorem darkEntry_unwound (s : State) : s.darkEntry = allTiles.foldl (fun s t => s.toUnit t .powerOff) s.unwound := rfl

theorem unwound_window (s : State) : s.unwound.window = .darkening := by
  have h := wound_window s
  unfold State.unwound
  generalize s.wound = t at h ⊢
  exact (endEdits_window _).trans h

theorem unwound_cancels (s : State) : cancels s s.unwound := by
  have h := cancels_of_out (wound_out s)
  unfold State.unwound
  generalize s.wound = t at h ⊢
  exact h.trans (cancels.trans (b := t.modScene _) (cancels_of_out rfl) (endEdits_cancels _))

theorem darkEntry_window (s : State) : s.darkEntry.window = .darkening := by
  have hw := unwound_window s
  rw [darkEntry_unwound]
  generalize s.unwound = t at hw ⊢
  have h := toUnits_only .powerOff t
  generalize allTiles.foldl _ _ = u at h ⊢
  exact (congrArg (·.window) h.scene).trans hw

theorem darkEntry_cancels (s : State) : cancels s s.darkEntry := by
  have hc := unwound_cancels s
  rw [darkEntry_unwound]
  generalize s.unwound = t at hc ⊢
  have h := toUnits_only .powerOff t
  generalize allTiles.foldl _ _ = u at h ⊢
  exact hc.trans (cancels_of_out (by rw [h]))

theorem wakeEntry_window (s : State) : s.wakeEntry.window = .waking := by
  unfold State.wakeEntry State.window
  simp [State.setWindow]

/-! ### The frame begins (R96 to R98) -/

/-- The state in which SYNC has pulsed and the new frame has its number. -/
def State.frameBegun (s : State) : State :=
  { s with out := s.out ++ [.sync], scene := { s.scene with frame := nextFrame s, epoch := none } }

/-- A window change that is due is of a kind. -/
def State.changeDue (s : State) (k : ChangeKind) (n : Nat) : Bool :=
  s.scene.change.any fun x => decide (x.1 = k) && x.2.all fun m => decide (m ≤ n)

/-- A boundary outside LIT. -/
def State.frameDark (s : State) : State :=
  (allZones.foldl State.zoneDark s).modBackground fun b => { b with fetch := none }

/-- The boundary while the frame timer runs, but for the announcement of the latched cells. -/
def State.boundary (s : State) : State :=
  if s.frameBegun.takeChange.window = .lit then
    (allZones.foldl (fun t z => t.zoneLit s.scene.epoch.isSome z) s.frameBegun.takeChange).backgroundLit
  else s.frameBegun.takeChange.frameDark

theorem frameBoundary_stopped {s : State} (h : s.scene.timer = false) : frameBoundary s = s := by
  unfold frameBoundary
  rw [h]
  rfl

theorem frameBoundary_eq {s : State} (h : s.scene.timer = true) : frameBoundary s =
    s.boundary.modMail fun w => { w with toLoad := w.toLoad ++ [s.boundary.allLatched] } := by
  unfold frameBoundary
  rw [h]
  rfl

theorem takeChange_darkens {s : State} (hw : s.window = .lit) (hd : s.changeDue .darken s.scene.frame = true) :
    s.takeChange = s.darkEntry := by
  unfold State.changeDue at hd
  obtain ⟨⟨k, f⟩, hc, hx⟩ := (Option.any_eq_true ..).1 hd
  obtain ⟨hk, hf⟩ := Bool.and_eq_true _ _ ▸ hx
  obtain rfl := of_decide_eq_true hk
  unfold State.takeChange
  rw [hc]
  exact if_pos ⟨hw, hf⟩

theorem takeChange_wakes {s : State} (hw : s.window = .dark) (hd : s.changeDue .wake s.scene.frame = true) :
    s.takeChange = s.wakeEntry := by
  unfold State.changeDue at hd
  obtain ⟨⟨k, f⟩, hc, hx⟩ := (Option.any_eq_true ..).1 hd
  obtain ⟨hk, hf⟩ := Bool.and_eq_true _ _ ▸ hx
  obtain rfl := of_decide_eq_true hk
  unfold State.takeChange
  rw [hc]
  exact if_pos ⟨hw, hf⟩

theorem takeChange_none {s : State} (hd : ¬ (s.window = .lit ∧ s.changeDue .darken s.scene.frame = true))
    (hw : ¬ (s.window = .dark ∧ s.changeDue .wake s.scene.frame = true)) : s.takeChange = s := by
  unfold State.changeDue at hd hw
  unfold State.takeChange
  dsimp only
  split
  · next f hc =>
    rw [hc] at hd
    exact if_neg fun h => hd ⟨h.1, by simpa using h.2⟩
  · next f hc =>
    rw [hc] at hw
    exact if_neg fun h => hw ⟨h.1, by simpa using h.2⟩
  · rfl

/-- A change that is due is carried out, and nothing else is. -/
theorem takeChange_cases {s : State} {darkens wakes : Bool}
    (hd : darkens = true ↔ s.window = .lit ∧ s.changeDue .darken s.scene.frame = true)
    (hw : wakes = true ↔ s.window = .dark ∧ s.changeDue .wake s.scene.frame = true) :
    s.takeChange = if darkens then s.darkEntry else if wakes then s.wakeEntry else s := by
  split
  · next h => exact takeChange_darkens (hd.1 h).1 (hd.1 h).2
  · next h =>
    split
    · next k => exact takeChange_wakes (hw.1 k).1 (hw.1 k).2
    · next k => exact takeChange_none (fun x => h (hd.2 x)) fun x => k (hw.2 x)

/-- The window is LIT after its changes only where it was and no darkening is due. -/
theorem takeChange_notLit {s : State} (h : s.window ≠ .lit ∨ s.window = .lit ∧ s.changeDue .darken s.scene.frame = true) :
    s.takeChange.window ≠ .lit := by
  by_cases hd : s.window = .lit ∧ s.changeDue .darken s.scene.frame = true
  · rw [takeChange_darkens hd.1 hd.2, darkEntry_window]
    decide
  have hlit : s.window ≠ .lit := h.resolve_right hd
  by_cases hw : s.window = .dark ∧ s.changeDue .wake s.scene.frame = true
  · rw [takeChange_wakes hw.1 hw.2, wakeEntry_window]
    decide
  · rw [takeChange_none hd hw]
    exact hlit

theorem boundary_lit {s : State} (h : s.frameBegun.takeChange.window = .lit) : s.boundary =
    (allZones.foldl (fun t z => t.zoneLit s.scene.epoch.isSome z) s.frameBegun.takeChange).backgroundLit := if_pos h

theorem boundary_dark {s : State} (h : s.frameBegun.takeChange.window ≠ .lit) :
    s.boundary = s.frameBegun.takeChange.frameDark := if_neg h

/-! ### What a boundary leaves -/

/-- The clock, the units and the memory are as before, and replies CANCELLED alone are sent. -/
def boundaryKeeps (s t : State) : Prop := keepsClock s t ∧ t.units = s.units ∧ s.store.sameContents t.store ∧ cancels s t

theorem boundaryKeeps.trans {a b c : State} (h : boundaryKeeps a b) (k : boundaryKeeps b c) : boundaryKeeps a c :=
  ⟨h.1.trans k.1, k.2.1.trans h.2.1, h.2.2.1.trans k.2.2.1, h.2.2.2.trans k.2.2.2⟩

theorem boundaryKeeps_refl (s : State) : boundaryKeeps s s :=
  ⟨keepsClock_refl s, rfl, Store.sameContents_refl _, cancels_of_out rfl⟩

theorem takeChange_keeps (s : State) : boundaryKeeps s s.takeChange := by
  refine ⟨takeChange_clock s, (takeChange_frame s).1, (takeChange_arbitrated s).1, ?_⟩
  unfold State.takeChange
  dsimp only
  repeat' split
  · exact darkEntry_cancels s
  · exact cancels_of_out rfl
  · exact cancels_of_out (by simp)
  · exact cancels_of_out rfl
  · exact cancels_of_out rfl

theorem boundaryKeeps_quiet {s t : State} (h : keepsStage s t) (hu : t.units = s.units) (hs : t.store = s.store)
    (ho : t.out = s.out) : boundaryKeeps s t := ⟨h.clock, hu, hs ▸ Store.sameContents_refl _, cancels_of_out ho⟩

theorem zonesLit_keeps (e : Bool) (s : State) : boundaryKeeps s (allZones.foldl (fun t z => t.zoneLit e z) s) :=
  foldl_inv (inv := boundaryKeeps s) (fun t z h => h.trans (boundaryKeeps_quiet (zoneLit_stage t e z) (by simp) (by simp)
    (by simp))) allZones (boundaryKeeps_refl s)

theorem zonesDark_keeps (s : State) : boundaryKeeps s (allZones.foldl State.zoneDark s) :=
  foldl_inv (inv := boundaryKeeps s) (fun t z h => h.trans (boundaryKeeps_quiet (zoneDark_stage t z) (by simp) (by simp)
    (by simp))) allZones (boundaryKeeps_refl s)

theorem frameDark_keeps (s : State) : boundaryKeeps s s.frameDark := by
  have h := zonesDark_keeps s
  unfold State.frameDark
  generalize allZones.foldl _ _ = t at h ⊢
  exact h.trans (boundaryKeeps_quiet (modBackground_keepsStage _ _) rfl rfl rfl)

theorem boundary_keeps (s : State) : boundaryKeeps s.frameBegun s.boundary := by
  have h := takeChange_keeps s.frameBegun
  unfold State.boundary
  generalize s.frameBegun.takeChange = t at h ⊢
  split
  · have hz := h.trans (zonesLit_keeps s.scene.epoch.isSome t)
    generalize allZones.foldl _ _ = u at hz ⊢
    exact hz.trans (boundaryKeeps_quiet (backgroundLit_stage u) (by simp) (by simp) (by simp))
  · exact h.trans (frameDark_keeps t)

theorem mem_allLatched (s : State) (x : Latch) :
    x ∈ s.allLatched ↔ ∃ (z : ZoneId) (f : ZoneFetch), (s.zone z).fetch = some f ∧ x ∈ f.latched := by
  unfold State.allLatched
  rw [List.mem_eraseDups, List.mem_flatMap]
  refine exists_congr fun z => ?_
  cases hf : (s.zone z).fetch <;> simp [mem_allZones]

/-- A zone's boundary in LIT, in the words of the statement. -/
theorem zonesLit_eq (n : Nat) (epoch : Option Nat) (s : State) (hn : s.scene.frame = n) :
    allZones.foldl (fun t z => t.zoneLit epoch.isSome z) s = allZones.foldl (fun t z =>
      let y : State := if epoch = none then t.zoneVerdict z else (t.zoneVerdict z).unarmEarly z
      if n = 2 ^ 48 - 1 then y.setZone z fun zn => { zn with fetch := none } else y.zoneChoice z) s := by
  generalize allZones = l
  induction l generalizing s with
  | nil => rfl
  | cons z l ih =>
    have hjudged : s.judged epoch.isSome z =
        if epoch = none then s.zoneVerdict z else (s.zoneVerdict z).unarmEarly z := by
      unfold State.judged
      cases epoch <;> rfl
    have hframe : (s.judged epoch.isSome z).scene.frame = n := (judged_stage s _ z).1.1.trans hn
    have hlit : s.zoneLit epoch.isSome z =
        let y : State := if epoch = none then s.zoneVerdict z else (s.zoneVerdict z).unarmEarly z
        if n = 2 ^ 48 - 1 then y.setZone z fun zn => { zn with fetch := none } else y.zoneChoice z := by
      rw [zoneLit_eq, hframe, hjudged]
      rfl
    rw [List.foldl_cons, List.foldl_cons, ← hlit]
    exact ih _ ((zoneLit_stage s _ z).1.1.trans hn)

/-- Settles O39: the parts of a boundary in their order, and what each of them leaves. -/
theorem frameBoundaryStartsTheNextFrame : Obligations.FrameBoundaryStartsTheNextFrame := by
  refine ⟨fun s h => congrArg Host.Outcome.next (frameBoundary_stopped h), fun s h => ?_⟩
  intro n begun darkens wakes changed lit
  have hdark : darkens = true ↔ s.frameBegun.window = .lit ∧ s.frameBegun.changeDue .darken s.frameBegun.scene.frame = true :=
    (Bool.and_eq_true_iff ..).trans (and_congr_left' decide_eq_true_iff)
  have hwake : wakes = true ↔ s.frameBegun.window = .dark ∧ s.frameBegun.changeDue .wake s.frameBegun.scene.frame = true :=
    (Bool.and_eq_true_iff ..).trans (and_congr_left' decide_eq_true_iff)
  have hchanged : s.frameBegun.takeChange = changed := takeChange_cases hdark hwake
  obtain ⟨hclock, hunits, hstore, more, hout, hall⟩ := boundary_keeps s
  refine ⟨s.boundary, congrArg Host.Outcome.next (frameBoundary_eq h), fun hw hd => ?_, fun hw => ?_, mem_allLatched _,
    hclock.1, hclock.2.1, hclock.2.2.1.trans h, hclock.2.2.2, hunits, ⟨fun a => by rw [hstore.1]; rfl, hstore.2.1⟩, more, ?_, hall⟩
  · have hstays : s.frameBegun.takeChange = s.frameBegun :=
      takeChange_none (fun k => absurd (hdark.2 k) (by rw [hd]; decide)) fun k => by
        have : s.window = .dark := k.1
        simp [hw] at this
    rw [← hchanged, boundary_lit (by rw [hstays]; exact hw)]
    exact congrArg State.backgroundLit (zonesLit_eq n s.scene.epoch _ (by rw [hstays]; rfl))
  · rw [← hchanged]
    refine ⟨_, rfl, boundary_dark ?_⟩
    exact takeChange_notLit (hw.imp_right hdark.1)
  · rw [hout]
    exact List.append_assoc ..

end Sys2Proof.Machine
end

