-- ==== Sys2Proof/Proofs/FrameCodes.lean ====
section
/-! PROOFS. The frame of a request and the request it spells (R187 to R189). -/

namespace Sys2Proof.Machine

/-! ### Numbers, words and placement records (R187, R189) -/

/-- A byte is read back where it stands. -/
theorem byteAt_append {o : Nat} (a b : List Byte) (x : Byte) (ho : a.length = o) : byteAt (a ++ x :: b) o = x := by
  subst ho
  unfold byteAt
  rw [List.getD_append_right _ _ _ _ (Nat.le_refl _), Nat.sub_self]
  rfl

/-- A number is read back where its bytes stand. -/
theorem numAt_leBytes {o k n : Nat} (a b : List Byte) (ho : a.length = o) (h : n < 256 ^ k) :
    numAt (a ++ leBytes k n ++ b) o k = n := by
  unfold numAt
  rw [List.append_assoc, List.drop_left' ho, List.take_left' (length_leBytes k n), leNat_leBytes, Nat.mod_eq_of_lt h]

/-- A field of 16, 32 or 48 bits is read back where its bytes stand. -/
theorem field_leBytes {w o k : Nat} (a b : List Byte) (x : BitVec w) (ho : a.length = o) (h : 2 ^ w = 256 ^ k) :
    BitVec.ofNat w (numAt (a ++ leBytes k x.toNat ++ b) o k) = x := by
  rw [numAt_leBytes a b ho (h ▸ x.isLt), BitVec.ofNat_toNat, BitVec.setWidth_eq]

theorem length_wordBytes (ws : List Word) : (wordBytes ws).length = 8 * ws.length := by
  induction ws with
  | nil => rfl
  | cons w ws ih =>
    rw [wordBytes, List.length_append, length_leBytes, ih, List.length_cons, Nat.mul_succ, Nat.add_comm]

theorem wordsOf_wordBytes (ws : List Word) : wordsOf ws.length (wordBytes ws) = ws := by
  induction ws with
  | nil => rfl
  | cons w ws ih =>
    rw [wordBytes, List.length_cons, wordsOf, List.take_left' (length_leBytes 8 _), List.drop_left' (length_leBytes 8 _), ih,
      leNat_leBytes, Nat.mod_eq_of_lt (b := 256 ^ 8) w.isLt, BitVec.ofNat_toNat, BitVec.setWidth_eq]

theorem length_placementBytes (ps : List RawPlacement) : (placementBytes ps).length = 4 * ps.length := by
  induction ps with
  | nil => rfl
  | cons p ps ih =>
    rw [placementBytes, List.length_append, ih, List.length_cons (as := ps), Nat.mul_succ, Nat.add_comm]
    rfl

theorem placementsOf_placementBytes (ps : List RawPlacement) : placementsOf ps.length (placementBytes ps) = ps := by
  induction ps with
  | nil => rfl
  | cons p ps ih => exact congrArg (p :: ·) ih

/-- A count of records is read back from its byte. -/
theorem numAt_count {o n : Nat} (a b : List Byte) (ho : a.length = o) (h : n ≤ 255) :
    numAt (a ++ [BitVec.ofNat 8 n] ++ b) o 1 = n := numAt_leBytes (k := 1) a b ho (Nat.lt_succ_of_le h)

/-! ### The frame around the fields (R188) -/

/-- The fields have the length the code calls for, which a frame can carry, and spell the request. -/
def spells (i : Instr) (h : Hdr) (code : Byte) (f : List Byte) : Prop :=
  f.length < 65536 ∧ fieldLength code.toNat f = some f.length ∧ requestOf h code.toNat f = some i

theorem decodeFrame_of_spells {i : Instr} {h : Hdr} {code : Byte} {f : List Byte} (hi : spells i h code f)
    (hs : h.stage = .whole) : decodeFrame h.port ([code, h.tag] ++ leBytes 2 f.length ++ f) = i := by
  obtain ⟨hlen, hform, hreq⟩ := hi
  have hh : ({ port := h.port, tag := h.tag, stage := .whole } : Hdr) = h := hs ▸ rfl
  have hcount : leNat (leBytes 2 f.length) = f.length :=
    (leNat_leBytes ..).trans (Nat.mod_eq_of_lt hlen)
  have hgood : hasForm ([code, h.tag] ++ leBytes 2 f.length ++ f) = true := by
    show (leNat (leBytes 2 f.length) == f.length && fieldLength code.toNat f == some f.length) = true
    rw [hcount, hform, beq_self_eq_true, beq_self_eq_true]
    rfl
  show (if hasForm ([code, h.tag] ++ leBytes 2 f.length ++ f) = true then
    (requestOf { port := h.port, tag := h.tag, stage := .whole } code.toNat f).getD _ else _) = i
  rw [if_pos hgood, hh, hreq]
  rfl

/-! ### The requests whose fields hold numbers, words or placements (R189) -/

theorem configure_spells (h : Hdr) (rate : Byte) (slots : BitVec 16) (cols rows : Byte) (pos : Vector Byte 16) (pres : Byte)
    (start : BitVec 48) {f : List Byte} (hf : f = [rate] ++ leBytes 2 slots.toNat ++ [cols, rows] ++ pos.toList ++ [pres] ++
      leBytes 6 start.toNat) : spells (.configure h rate slots cols rows pos pres start) h 1 f := by
  have hlen : f.length = 28 := by simp [hf]
  have hslots : BitVec.ofNat 16 (numAt f 1 2) = slots := by
    have hread := field_leBytes (o := 1) (k := 2) [rate] ([cols, rows] ++ (pos.toList ++ ([pres] ++ leBytes 6 start.toNat)))
      slots rfl rfl
    simpa only [hf, List.append_assoc] using hread
  have hpos : (Vector.ofFn fun i : Fin 16 => byteAt f (5 + i.val)) = pos := by
    refine Vector.ext fun i hi => ?_
    have hbehind : f = ([rate] ++ leBytes 2 slots.toNat ++ [cols, rows]) ++ (pos.toList ++ ([pres] ++ leBytes 6 start.toNat)) := by
      simp only [hf, List.append_assoc]
    unfold byteAt
    rw [Vector.getElem_ofFn, hbehind, List.getD_append_right _ _ _ _ (by simp), List.getD_append _ _ _ _ (by simpa using hi),
      List.getD_eq_getElem _ _ (by simpa using hi)]
    simp
  have hpres : byteAt f 21 = pres := by
    have hread := byteAt_append ([rate] ++ leBytes 2 slots.toNat ++ [cols, rows] ++ pos.toList) (leBytes 6 start.toNat) pres
      (o := 21) (by simp)
    simpa only [hf, List.append_assoc, List.singleton_append] using hread
  have hstart : BitVec.ofNat 48 (numAt f 22 6) = start := by
    have hread := field_leBytes (o := 22) (k := 6) ([rate] ++ leBytes 2 slots.toNat ++ [cols, rows] ++ pos.toList ++ [pres]) []
      start (by simp) rfl
    rwa [List.append_nil, ← hf] at hread
  have hbytes : byteAt f 0 = rate ∧ byteAt f 3 = cols ∧ byteAt f 4 = rows := by
    rw [hf]
    exact ⟨rfl, rfl, rfl⟩
  obtain ⟨hrate, hcols, hrows⟩ := hbytes
  refine ⟨by omega, congrArg some hlen.symm, ?_⟩
  show some (Instr.configure h (byteAt f 0) (BitVec.ofNat 16 (numAt f 1 2)) (byteAt f 3) (byteAt f 4)
    (Vector.ofFn fun i : Fin 16 => byteAt f (5 + i.val)) (byteAt f 21) (BitVec.ofNat 48 (numAt f 22 6))) = _
  rw [hrate, hslots, hcols, hrows, hpos, hpres, hstart]

theorem data_spells (h : Hdr) (c pres : Byte) (ck : Check) (ws : List Word) (hw : 8 + 8 * ws.length ≤ 65535) {f : List Byte}
    (hf : f = [c] ++ leBytes 2 ws.length ++ [pres] ++ leBytes 4 ck.toNat ++ wordBytes ws) :
    spells (.data h c pres ck ws) h 33 f := by
  have hlen : f.length = 8 + 8 * ws.length := by
    simp [hf, length_wordBytes]
    omega
  have hcount : numAt f 1 2 = ws.length :=
    hf ▸ numAt_leBytes (k := 2) [c] ([pres] ++ leBytes 4 ck.toNat ++ wordBytes ws) rfl (by omega)
  have hcheck : BitVec.ofNat 32 (numAt f 4 4) = ck :=
    hf ▸ field_leBytes (k := 4) ([c] ++ leBytes 2 ws.length ++ [pres]) (wordBytes ws) ck rfl rfl
  have hwords : f.drop 8 = wordBytes ws := by rw [hf]; rfl
  have hbytes : byteAt f 0 = c ∧ byteAt f 3 = pres := by rw [hf]; exact ⟨rfl, rfl⟩
  refine ⟨by omega, ?_, ?_⟩
  · show some (8 + 8 * numAt f 1 2) = _
    rw [hcount, hlen]
  · show some (Instr.data h (byteAt f 0) (byteAt f 3) (BitVec.ofNat 32 (numAt f 4 4)) (wordsOf (numAt f 1 2) (f.drop 8))) = _
    rw [hbytes.1, hbytes.2, hcheck, hcount, hwords, wordsOf_wordBytes]

theorem patch_spells (h : Hdr) (pg c x y l fw : Byte) (pl st : BitVec 32) (ws : List Word)
    (hw : 16 + 8 * ws.length ≤ 65535) {f : List Byte} (hf : f = [pg, c, x, y, l, fw] ++ leBytes 2 ws.length ++
      leBytes 4 pl.toNat ++ leBytes 4 st.toNat ++ wordBytes ws) :
    spells (.patch h pg c x y l fw pl st ws) h 48 f := by
  have hlen : f.length = 16 + 8 * ws.length := by
    simp [hf, length_wordBytes]
    omega
  have hcount : numAt f 6 2 = ws.length :=
    hf ▸ numAt_leBytes (k := 2) [pg, c, x, y, l, fw] (leBytes 4 pl.toNat ++ leBytes 4 st.toNat ++ wordBytes ws) rfl (by omega)
  have hplane : BitVec.ofNat 32 (numAt f 8 4) = pl :=
    hf ▸ field_leBytes (k := 4) ([pg, c, x, y, l, fw] ++ leBytes 2 ws.length) (leBytes 4 st.toNat ++ wordBytes ws) pl rfl rfl
  have hstipple : BitVec.ofNat 32 (numAt f 12 4) = st :=
    hf ▸ field_leBytes (k := 4) ([pg, c, x, y, l, fw] ++ leBytes 2 ws.length ++ leBytes 4 pl.toNat) (wordBytes ws) st rfl rfl
  have hwords : f.drop 16 = wordBytes ws := by rw [hf]; rfl
  have hbytes : byteAt f 0 = pg ∧ byteAt f 1 = c ∧ byteAt f 2 = x ∧ byteAt f 3 = y ∧ byteAt f 4 = l ∧ byteAt f 5 = fw := by
    rw [hf]
    exact ⟨rfl, rfl, rfl, rfl, rfl, rfl⟩
  obtain ⟨hpg, hc, hx, hy, hl, hfw⟩ := hbytes
  refine ⟨by omega, ?_, ?_⟩
  · show some (16 + 8 * numAt f 6 2) = _
    rw [hcount, hlen]
  · show some (Instr.patch h (byteAt f 0) (byteAt f 1) (byteAt f 2) (byteAt f 3) (byteAt f 4) (byteAt f 5)
      (BitVec.ofNat 32 (numAt f 8 4)) (BitVec.ofNat 32 (numAt f 12 4)) (wordsOf (numAt f 6 2) (f.drop 16))) = _
    rw [hpg, hc, hx, hy, hl, hfw, hplane, hstipple, hcount, hwords, wordsOf_wordBytes]

theorem queueCut_spells (h : Hdr) (z : Byte) (n : BitVec 48) (l : BitVec 16) (slip : Byte) (sc : List RawPlacement)
    (hsc : sc.length ≤ 255) {f : List Byte} (hf : f = [z] ++ leBytes 6 n.toNat ++ leBytes 2 l.toNat ++
      [slip, BitVec.ofNat 8 sc.length] ++ placementBytes sc) : spells (.queueCut h z n l slip sc) h 72 f := by
  have hlen : f.length = 11 + 4 * sc.length := by
    simp [hf, length_placementBytes]
    omega
  have hcount : numAt f 10 1 = sc.length :=
    hf ▸ numAt_count ([z] ++ leBytes 6 n.toNat ++ leBytes 2 l.toNat ++ [slip]) (placementBytes sc) rfl hsc
  have htarget : BitVec.ofNat 48 (numAt f 1 6) = n := hf ▸ field_leBytes (k := 6) [z]
    (leBytes 2 l.toNat ++ [slip, BitVec.ofNat 8 sc.length] ++ placementBytes sc) n rfl rfl
  have hlabel : BitVec.ofNat 16 (numAt f 7 2) = l := hf ▸ field_leBytes (k := 2) ([z] ++ leBytes 6 n.toNat)
    ([slip, BitVec.ofNat 8 sc.length] ++ placementBytes sc) l rfl rfl
  have hscene : f.drop 11 = placementBytes sc := by rw [hf]; rfl
  have hbytes : byteAt f 0 = z ∧ byteAt f 9 = slip := by rw [hf]; exact ⟨rfl, rfl⟩
  refine ⟨by omega, ?_, ?_⟩
  · show some (11 + 4 * numAt f 10 1) = _
    rw [hcount, hlen]
  · show some (Instr.queueCut h (byteAt f 0) (BitVec.ofNat 48 (numAt f 1 6)) (BitVec.ofNat 16 (numAt f 7 2)) (byteAt f 9)
      (placementsOf (numAt f 10 1) (f.drop 11))) = _
    rw [hbytes.1, hbytes.2, htarget, hlabel, hcount, hscene, placementsOf_placementBytes]

theorem defineGate_spells (h : Hdr) (g z l m : Byte) (d : BitVec 16) (sc : List RawPlacement) (hsc : sc.length ≤ 255)
    {f : List Byte} (hf : f = [g, z, l, m] ++ leBytes 2 d.toNat ++ [BitVec.ofNat 8 sc.length] ++ placementBytes sc) :
    spells (.defineGate h g z l m d sc) h 80 f := by
  have hlen : f.length = 7 + 4 * sc.length := by
    simp [hf, length_placementBytes]
    omega
  have hcount : numAt f 6 1 = sc.length :=
    hf ▸ numAt_count ([g, z, l, m] ++ leBytes 2 d.toNat) (placementBytes sc) rfl hsc
  have hduration : BitVec.ofNat 16 (numAt f 4 2) = d := hf ▸ field_leBytes (k := 2) [g, z, l, m]
    ([BitVec.ofNat 8 sc.length] ++ placementBytes sc) d rfl rfl
  have hscene : f.drop 7 = placementBytes sc := by rw [hf]; rfl
  have hbytes : byteAt f 0 = g ∧ byteAt f 1 = z ∧ byteAt f 2 = l ∧ byteAt f 3 = m := by
    rw [hf]
    exact ⟨rfl, rfl, rfl, rfl⟩
  obtain ⟨hg, hz, hl, hm⟩ := hbytes
  refine ⟨by omega, ?_, ?_⟩
  · show some (7 + 4 * numAt f 6 1) = _
    rw [hcount, hlen]
  · show some (Instr.defineGate h (byteAt f 0) (byteAt f 1) (byteAt f 2) (byteAt f 3) (BitVec.ofNat 16 (numAt f 4 2))
      (placementsOf (numAt f 6 1) (f.drop 7))) = _
    rw [hg, hz, hl, hm, hduration, hcount, hscene, placementsOf_placementBytes]

/-- Where a request's fields are some bytes and a frame number, the number is read back. -/
theorem frameNumber_spells {i : BitVec 48 → Instr} {h : Hdr} {code : Byte} {a : List Byte} (n : BitVec 48)
    (hl : a.length + 6 < 65536) (hform : ∀ f, fieldLength code.toNat f = some (a.length + 6))
    (hreq : requestOf h code.toNat (a ++ leBytes 6 n.toNat) =
      some (i (BitVec.ofNat 48 (numAt (a ++ leBytes 6 n.toNat) a.length 6)))) : spells (i n) h code (a ++ leBytes 6 n.toNat) := by
  have hn := field_leBytes (k := 6) a [] n rfl rfl
  have hlen : (a ++ leBytes 6 n.toNat).length = a.length + 6 := by simp
  rw [List.append_nil] at hn
  exact ⟨hlen ▸ hl, hlen ▸ hform _, by rw [hreq, hn]⟩

/-- Every request's fields spell it. -/
theorem request_spells {i : Instr} {h : Hdr} {code : Byte} {f : List Byte} (hi : i.request = some (h, code, f))
    (hw : i.wf = true) : spells i h code f := by
  cases i
  case data h' c pres ck ws =>
    cases hi
    exact data_spells _ _ _ _ _ (of_decide_eq_true hw) rfl
  case patch =>
    cases hi
    exact patch_spells _ _ _ _ _ _ _ _ _ _ (of_decide_eq_true hw) rfl
  case queueCut =>
    cases hi
    exact queueCut_spells _ _ _ _ _ _ (of_decide_eq_true hw) rfl
  case defineGate =>
    cases hi
    exact defineGate_spells _ _ _ _ _ _ _ (of_decide_eq_true hw) rfl
  case configure =>
    cases hi
    exact configure_spells _ _ _ _ _ _ _ _ rfl
  case setEpoch h' n =>
    cases hi
    exact frameNumber_spells (i := .setEpoch h) (a := []) n (by decide) (fun _ => rfl) rfl
  case darken h' pres n =>
    cases hi
    exact frameNumber_spells (i := .darken h pres) (a := [pres]) n (by simp) (fun _ => rfl) rfl
  case wake h' pres n =>
    cases hi
    exact frameNumber_spells (i := .wake h pres) (a := [pres]) n (by simp) (fun _ => rfl) rfl
  case withdrawCut h' z n =>
    cases hi
    exact frameNumber_spells (i := .withdrawCut h z) (a := [z]) n (by simp) (fun _ => rfl) rfl
  case loadBegin h' pg m first n ck =>
    cases hi
    exact ⟨(by simp), rfl, congrArg (fun x => some (Instr.loadBegin h pg m first n x))
      (field_leBytes (k := 4) [pg, m, first, n] [] ck rfl rfl)⟩
  case setEventMask h' m =>
    cases hi
    exact ⟨(by simp), rfl, congrArg (fun x => some (Instr.setEventMask h x)) (field_leBytes (k := 2) [] [] m rfl rfl)⟩
  all_goals cases hi
  all_goals exact ⟨by simp, rfl, rfl⟩

/-- Settles O54: the fields of every request spell it, and the frame is read by its fields. -/
theorem requestFramesAreReadBack : Obligations.RequestFramesAreReadBack := by
  intro i h code f frame hi hw hs hframe
  have henc : encodeFrame i = some ([code, h.tag] ++ leBytes 2 f.length ++ f) := by
    unfold encodeFrame
    rw [hi]
  obtain rfl := Option.some.inj (henc.symm.trans hframe)
  exact decodeFrame_of_spells (request_spells hi hw) hs

end Sys2Proof.Machine
end

