-- ==== Sys2Proof/Proofs/EndedLoads.lean ====
section
/-! PROOFS. Loads that end together, and the edit and the links of a port that is lost (R65, R80, R171, R184). -/

namespace Sys2Proof.Machine

/-! ### Loads that end together (R65) -/

/-- A running transfer, to be discarded where its requester has gone and no reset has dropped it (R28, R46). -/
def Transfer.discardedIf (r : Transfer) (b : Bool) : Transfer := { r with discard := r.discard || (!r.dropped && b) }

theorem discardedIf_false (r : Transfer) : r.discardedIf false = r := by
  unfold Transfer.discardedIf
  rw [Bool.and_false, Bool.or_false]

theorem discardedIf_discardedIf (r : Transfer) (a b : Bool) : (r.discardedIf a).discardedIf b = r.discardedIf (a || b) := by
  unfold Transfer.discardedIf
  rw [Bool.or_assoc, ← Bool.and_or_distrib_left]

theorem discardedIf_eq (r : Transfer) (b : Bool) :
    (if b = true ∧ r.dropped = false then { r with discard := true } else r) = r.discardedIf b := by
  unfold Transfer.discardedIf
  cases b <;> cases r with | mk job discard dropped => cases dropped <;> simp

/-- A STILL page that is not LOADING. -/
def Page.settled (p : Page) : Page := { p with state := settledState p.damaged p.valid p.cells }

/-- A page that is settled in a case. -/
def Page.settledIf (p : Page) (b : Bool) : Page := if b then p.settled else p

theorem settledIf_settledIf (p : Page) (a b : Bool) : (p.settledIf a).settledIf b = p.settledIf (a || b) := by
  cases a <;> cases b <;> rfl

/-- Loads of these channels, all bound, have been aborted. -/
structure loadsGone (gone : List ChanId) (s t : State) : Prop where
  chans : ∀ c : ChanId, t.load.chans[c] = if c ∈ gone then none else s.load.chans[c]
  waiting : ∀ c : ChanId, t.store.loadWaiting.getLsbD c.val = (s.store.loadWaiting.getLsbD c.val && decide (c ∉ gone))
  store : t.store = { s.store with
    loadWaiting := t.store.loadWaiting
    running := s.store.running.map fun r => r.discardedIf (gone.any fun c => r.job.isLoadOf c) }
  pages : pagesBecome s t fun k p => p.settledIf (gone.any fun c => (s.load.chans[c]).any (·.blockOf k))

theorem loadsGone_nil (s : State) : loadsGone [] s s where
  chans c := by simp
  waiting c := by simp
  store := by simp [discardedIf_false]
  pages := pagesBecome_of_dir rfl

theorem loadsGone.trans {g h : List ChanId} {s t u : State} (hs : loadsGone g s t) (ht : loadsGone h t u) :
    loadsGone (g ++ h) s u where
  chans c := by
    rw [ht.chans, hs.chans]
    by_cases hg : c ∈ g <;> simp [hg]
  waiting c := by
    rw [ht.waiting, hs.waiting, Bool.and_assoc]
    by_cases hg : c ∈ g <;> simp [hg]
  store := by
    rw [ht.store, hs.store]
    simp only [Option.map_map, Function.comp_def, discardedIf_discardedIf, List.any_append]
    rfl
  pages := by
    refine (hs.pages.trans ht.pages).congr fun k p _ => ?_
    rw [settledIf_settledIf, List.any_append]
    refine congrArg p.settledIf ?_
    rw [Bool.eq_iff_iff]
    simp only [Bool.or_eq_true, List.any_eq_true]
    refine or_congr_right' fun hnot => exists_congr fun c => and_congr_right fun _ => ?_
    rw [hs.chans]
    split
    · next hc => simpa using fun hany => hnot ⟨c, hc, hany⟩
    · rfl

theorem abortLoad_gone {s : State} {c : ChanId} {l : Load} (hl : s.load.chans[c] = some l) : loadsGone [c] s (s.abortLoad c) := by
  obtain ⟨hframe, ⟨hother, hfree, hpop⟩, hring, hblock⟩ := abortLoad_effect hl
  have hload : (s.abortLoad c).load = (s.unloaded c).load := congrArg (·.load) hframe
  have hstore : (s.abortLoad c).store = loadWithdrawn s c := congrArg (·.store) hframe
  refine ⟨fun d => ?_, fun d => ?_, ?_, fun k _ => ?_, hfree, hpop⟩
  · rw [hload]
    by_cases hd : d = c
    · subst hd
      exact (setChan_same _ _ _).trans (if_pos (List.mem_singleton.2 rfl)).symm
    · exact (setChan_other hd _).trans (if_neg fun h => hd (List.mem_singleton.1 h)).symm
  · rw [hstore]
    show (eraseBit s.store.loadWaiting c.val).getLsbD d.val = _
    rw [getLsbD_eraseBit _ _ _ d.isLt]
    by_cases hd : d = c
    · simp [hd]
    · simp [hd, Fin.val_ne_of_ne (Ne.symm hd)]
  · rw [hstore]
    unfold loadWithdrawn
    refine congrArg (fun r => { s.store with loadWaiting := eraseBit s.store.loadWaiting c.val, running := r }) ?_
    simp only [discardedIf_eq, List.any_cons, List.any_nil, Bool.or_false]
  · beta_reduce
    rw [List.any_cons, List.any_nil, Bool.or_false, hl, Option.any_some]
    by_cases hk : k = l.page
    · subst hk
      cases hm : l.mode with
      | block f n e =>
        rw [hblock f n e hm]
        unfold Load.blockOf
        simp [hm, Page.settledIf, Page.settled]
      | ring n e =>
        rw [hring n e hm]
        unfold Load.blockOf
        simp [hm, Page.settledIf]
    · rw [hother k hk]
      unfold Load.blockOf
      simp [Ne.symm hk, Page.settledIf]

/-- A load is aborted where it is one of those that end. -/
theorem loadsGone_foldl {f : State → ChanId → State} {ends : Option Load → Bool}
    (hf : ∀ s c, loadsGone (if ends s.load.chans[c] then [c] else []) s (f s c)) {cs : List ChanId} (hcs : cs.Nodup)
    (s : State) : loadsGone (cs.filter fun c => ends s.load.chans[c]) s (cs.foldl f s) := by
  induction cs generalizing s with
  | nil => exact loadsGone_nil s
  | cons c cs ih =>
    obtain ⟨hc, hcs⟩ := List.nodup_cons.1 hcs
    have hrest := ih hcs (f s c)
    have hsame : cs.filter (fun d => ends (f s c).load.chans[d]) = cs.filter fun d => ends s.load.chans[d] := by
      refine List.filter_congr fun d hd => ?_
      have hne : d ≠ c := fun h => hc (h ▸ hd)
      rw [(hf s c).chans]
      split <;> simp [hne]
    rw [hsame] at hrest
    have hall := (hf s c).trans hrest
    rw [List.filter_cons]
    split
    · next h => rwa [if_pos h] at hall
    · next h => rwa [if_neg h] at hall

end Sys2Proof.Machine
end

