-- ==== Sys2Proof/Proofs/LostPorts.lean ====
section
/-! PROOFS. CLIENT_LINK_UP and PORT_LOSS: a port's link, and what its loss ends across the part (R171, R184). -/

namespace Sys2Proof.Machine

/-! ### The zones of a lost port (R95) -/

/-- A zone of a lost port is released. -/
def State.releaseHeld (s : State) (p : Port) (z : ZoneId) : State :=
  if (s.zone z).holder = some p then s.releaseZone z else s

theorem releaseZonesOf_eq (s : State) (p : Port) : s.releaseZonesOf p = allZones.foldl (fun s z => s.releaseHeld p z) s := rfl

/-- A zone once a port has been lost that may hold it. -/
def Zone.releasedBy (zn : Zone) (p : Port) (frame : Nat) : Zone := if zn.holder = some p then zn.released frame else zn

/-- The pins of a page that go with the cuts of a zone, where a lost port holds it. -/
def Zone.pinsLost (zn : Zone) (p : Port) (k : Handle) : Nat :=
  if zn.holder = some p then placementsNaming (zn.goneCuts.flatMap (·.scene)) k else 0

theorem unpinned_unpinned (p : Page) (m n : Nat) : (p.unpinned m).unpinned n = p.unpinned (m + n) := by
  unfold Page.unpinned
  rw [Nat.sub_sub]

theorem releaseHeld_effect {s : State} {p : Port} {z : ZoneId} (hl : (s.zone z).log.length ≤ 8) :
    ZoneOnly s (s.releaseHeld p z) z ∧
      pagesBecome s (s.releaseHeld p z) (fun k pg => pg.unpinned ((s.zone z).pinsLost p k)) ∧
      (s.releaseHeld p z).zone z = (s.zone z).releasedBy p s.scene.frame := by
  unfold State.releaseHeld Zone.pinsLost Zone.releasedBy
  split
  · obtain ⟨honly, hpins, hzone⟩ := releaseZone_effect s z hl
    exact ⟨honly, hpins.becomes, hzone⟩
  · exact ⟨.refl s z, (pagesBecome_of_dir rfl).congr fun _ _ _ => rfl, rfl⟩

/-- The zones that a lost port holds are released one after the other. -/
theorem releaseEach_effect (p : Port) (zs : List ZoneId) (hzs : zs.Nodup) (s : State) (hl : ∀ z, (s.zone z).log.length ≤ 8) :
    let t := zs.foldl (fun s z => s.releaseHeld p z) s
    ZonesOnly s t ∧ pagesBecome s t (fun k pg => pg.unpinned (zs.map fun z => (s.zone z).pinsLost p k).sum) ∧
      ∀ z, t.zone z = if z ∈ zs then (s.zone z).releasedBy p s.scene.frame else s.zone z := by
  induction zs generalizing s with
  | nil => exact ⟨.refl s, (pagesBecome_of_dir rfl).congr fun _ _ _ => rfl, fun z => (if_neg List.not_mem_nil).symm⟩
  | cons z zs ih =>
    obtain ⟨hz, hzs⟩ := List.nodup_cons.1 hzs
    obtain ⟨honly, hpages, hzone⟩ := releaseHeld_effect (p := p) (hl z)
    have hframe : (s.releaseHeld p z).scene.frame = s.scene.frame := by rw [honly.scene]
    have hlog : ∀ y, ((s.releaseHeld p z).zone y).log.length ≤ 8 := fun y => by
      by_cases hy : y = z
      · subst hy
        rw [hzone]
        unfold Zone.releasedBy Zone.released logged
        split
        · simp only [List.length_drop, List.length_append]
          omega
        · exact hl y
      · rw [honly.others y hy]
        exact hl y
    obtain ⟨konly, kpages, kzone⟩ := ih hzs (s.releaseHeld p z) hlog
    refine ⟨honly.toZonesOnly.trans konly, (hpages.trans kpages).congr fun k pg _ => ?_, fun y => ?_⟩
    · rw [unpinned_unpinned, List.map_cons, List.sum_cons]
      refine congrArg (fun l : List Nat => pg.unpinned (_ + l.sum)) (List.map_congr_left fun y hy => ?_)
      rw [honly.others y fun h => hz (h ▸ hy)]
    · rw [List.foldl_cons, kzone, hframe]
      by_cases hy : y = z
      · subst hy
        rw [if_neg hz, hzone, if_pos List.mem_cons_self]
      · rw [honly.others y hy]
        simp only [List.mem_cons, hy, false_or]

/-! ### The invocations of a lost port (R138) -/

/-- What is armed at a zone, with no attempt left for a gate that a lost port invoked. -/
def armedSpent (p : Port) : Option Armed → Option Armed
  | some (.gate g q k) => some (.gate g q (if q = p then 8 else k))
  | a => a

/-- What is pending at a zone, but for the invocation of a lost port. -/
def pendDropped (p : Port) : Option PendingItem → Option PendingItem
  | some (.invocation g q) => if q = p then none else some (.invocation g q)
  | a => a

/-- A zone without the pending invocation of a port, and with no attempt left for its armed gate. -/
def Zone.uninvoked (zn : Zone) (p : Port) : Zone := { zn with pend := pendDropped p zn.pend, armed := armedSpent p zn.armed }

theorem setZone_id {s : State} {z : ZoneId} {f : Zone → Zone} (h : f (s.zone z) = s.zone z) : s.setZone z f = s :=
  State.eq_of_blocks rfl rfl rfl rfl rfl (by rw [setZone_scene, upd_of_fixed _ _ _ h]) rfl rfl rfl rfl

theorem zone_armed_id {zn : Zone} {a : Option Armed} (h : a = zn.armed) : { zn with armed := a } = zn := h ▸ rfl

theorem zone_pend_id {zn : Zone} {a : Option PendingItem} (h : a = zn.pend) : { zn with pend := a } = zn := h ▸ rfl

theorem spendAttempts_eq (s : State) (p : Port) (z : ZoneId) :
    s.spendAttempts p z = s.setZone z fun zn => { zn with armed := armedSpent p zn.armed } := by
  unfold State.spendAttempts
  split
  · next g q k ha =>
    have hspent : armedSpent p (s.zone z).armed = some (.gate g q (if q = p then 8 else k)) := ha ▸ rfl
    split
    · next hq => exact setZone_congr (congrArg (fun a => { s.zone z with armed := a }) (by rw [hspent, hq, if_pos rfl]))
    · next hq => exact (setZone_id (zone_armed_id (by rw [hspent, ha, if_neg hq]))).symm
  · next hno =>
    refine (setZone_id (zone_armed_id ?_)).symm
    unfold armedSpent
    split
    · next g q k ha => exact absurd ha (hno g q k)
    · rfl

/-- The gate of a pending invocation of a port is DEFINED again. -/
def State.undoInvocation (s : State) (p : Port) (z : ZoneId) : State :=
  match (s.zone z).pend with
  | some (.invocation g q) => if q = p then s.useGate g .defined else s
  | _ => s

theorem undoInvocation_zone (s : State) (p : Port) (z y : ZoneId) : (s.undoInvocation p z).zone y = s.zone y := by
  unfold State.undoInvocation
  repeat' split
  all_goals rfl

theorem dropInvocation_eq (s : State) (p : Port) (z : ZoneId) : s.dropInvocation p z =
    (s.undoInvocation p z).setZone z fun zn => { zn with pend := pendDropped p zn.pend } := by
  have hzone := undoInvocation_zone s p z z
  unfold State.dropInvocation
  split
  · next g q hp =>
    have hundo : s.undoInvocation p z = if q = p then s.useGate g .defined else s := by
      unfold State.undoInvocation
      rw [hp]
    have hdropped : pendDropped p ((s.undoInvocation p z).zone z).pend = if q = p then none else some (.invocation g q) := by
      rw [hzone, hp]
      rfl
    split
    · next hq =>
      rw [if_pos hq] at hundo hdropped
      rw [← hundo]
      exact setZone_congr (congrArg (fun a => { (s.undoInvocation p z).zone z with pend := a }) hdropped.symm)
    · next hq =>
      rw [if_neg hq] at hundo hdropped
      exact hundo.symm.trans (setZone_id (zone_pend_id (by rw [hdropped, hzone, hp]))).symm
  · next hno =>
    have hundo : s.undoInvocation p z = s := by
      unfold State.undoInvocation
      split
      · next g q hp => exact absurd hp (hno g q)
      · rfl
    rw [hundo]
    refine (setZone_id (zone_pend_id ?_)).symm
    unfold pendDropped
    split
    · next g q hp => exact absurd hp (hno g q)
    · rfl

theorem loseInvoker_setZone (s : State) (p : Port) (z : ZoneId) :
    s.loseInvoker p z = (s.undoInvocation p z).setZone z fun zn => zn.uninvoked p := by
  rw [loseInvoker_eq, spendAttempts_eq, dropInvocation_eq, setZone_setZone]
  rfl

theorem undoInvocation_gate (s : State) (p : Port) (z : ZoneId) (g : GateId) : (s.undoInvocation p z).gate g =
    if (s.zone z).pend = some (.invocation g p) then (s.gate g).map fun e => { e with use := .defined } else s.gate g := by
  unfold State.undoInvocation
  split
  · next k q hp =>
    rw [hp]
    split
    · next hq =>
      refine (setGate_gate s k g _).trans ?_
      by_cases hk : g = k
      · rw [if_pos hk, if_pos (by rw [hq, hk])]
      · rw [if_neg hk, if_neg fun h => hk (by cases h; rfl)]
    · next hq => rw [if_neg fun h => hq (by cases h; rfl)]
  · next hno => rw [if_neg (hno g p)]

/-- The invocations of a lost port are ended at each zone. -/
theorem loseInvokers_zone (p : Port) (s : State) (z : ZoneId) :
    (allZones.foldl (fun s z => s.loseInvoker p z) s).zone z = (s.zone z).uninvoked p :=
  foldl_at (inv := fun _ => True) (fun _ _ _ => trivial) (π := State.zone) (g := fun _ zn => zn.uninvoked p)
    (fun s z _ => by rw [loseInvoker_setZone, setZone_same, undoInvocation_zone])
    (fun s z y _ h => by rw [loseInvoker_setZone, setZone_other _ (Ne.symm h), undoInvocation_zone]) nodup_allZones trivial
    (mem_allZones z)

theorem map_defined_twice (e : Option Gate) : (e.map fun e => { e with use := .defined }).map
    (fun e => { e with use := .defined }) = e.map fun e => { e with use := .defined } := by
  cases e <;> rfl

theorem loseEachInvoker_gate (p : Port) (g : GateId) (zs : List ZoneId) (hzs : zs.Nodup) (s : State) :
    (zs.foldl (fun s z => s.loseInvoker p z) s).gate g = if ∃ z ∈ zs, (s.zone z).pend = some (.invocation g p)
      then (s.gate g).map fun e => { e with use := .defined } else s.gate g := by
  induction zs generalizing s with
  | nil => exact (if_neg fun h => by simp at h).symm
  | cons z zs ih =>
    obtain ⟨hz, hzs⟩ := List.nodup_cons.1 hzs
    have hgate : (s.loseInvoker p z).gate g = (s.undoInvocation p z).gate g := by
      rw [loseInvoker_setZone]
      rfl
    have hpend : (∃ y ∈ zs, ((s.loseInvoker p z).zone y).pend = some (.invocation g p)) ↔
        ∃ y ∈ zs, (s.zone y).pend = some (.invocation g p) := by
      refine exists_congr fun y => and_congr_right fun hy => ?_
      have hne : y ≠ z := fun h => hz (h ▸ hy)
      rw [loseInvoker_setZone, setZone_other _ hne, undoInvocation_zone]
    rw [List.foldl_cons, ih hzs, hgate, undoInvocation_gate]
    simp only [hpend, List.mem_cons, exists_eq_or_imp]
    by_cases h1 : (s.zone z).pend = some (.invocation g p)
    · simp only [h1, if_true, true_or, map_defined_twice, ite_self]
    · simp only [h1, if_false, false_or]

/-! ### The edit of a lost port (R80) -/

/-- No grant makes a LOAD wait. -/
def loadsWithdrawn (s t : State) : Prop :=
  ∀ c : ChanId, s.store.loadWaiting.getLsbD c.val = false → t.store.loadWaiting.getLsbD c.val = false

theorem loadsWithdrawn_of_eq {s t : State} (h : t.store.loadWaiting = s.store.loadWaiting) : loadsWithdrawn s t :=
  fun _ hc => h ▸ hc

theorem grantLoad_withdrawn (s : State) (c : ChanId) : loadsWithdrawn s (s.grantLoad c) := by
  have herase : (s.grantLoad c).store.loadWaiting = eraseBit s.store.loadWaiting c.val := by
    unfold State.grantLoad
    dsimp only
    repeat' split
    all_goals rfl
  intro d hd
  rw [herase, getLsbD_eraseBit _ _ _ d.isLt, hd, Bool.false_and]

theorem grantAwake_withdrawn (s : State) : loadsWithdrawn s s.grantAwake := by
  unfold State.grantAwake
  split
  · exact loadsWithdrawn_of_eq rfl
  split
  · refine loadsWithdrawn_of_eq ?_
    unfold State.grantScan
    dsimp only
    split <;> rfl
  split
  · exact loadsWithdrawn_of_eq rfl
  split
  · exact grantLoad_withdrawn s _
  split
  · refine loadsWithdrawn_of_eq ?_
    unfold State.grantScrub
    dsimp only
    split <;> rfl
  split
  · refine loadsWithdrawn_of_eq ?_
    unfold State.grantEdit
    dsimp only
    repeat' split
    all_goals rfl
  split <;> exact loadsWithdrawn_of_eq rfl

theorem grant_withdrawn (s : State) : loadsWithdrawn s s.grant := by
  unfold State.grant
  split
  · exact loadsWithdrawn_of_eq rfl
  split
  · exact grantAwake_withdrawn s
  · split <;> exact loadsWithdrawn_of_eq rfl
  all_goals exact loadsWithdrawn_of_eq rfl

/-- An entry request concerns the power of the frame store alone (R33). -/
theorem entryRequest_store (s : State) : s.entryRequest.store =
    { s.store with power := s.entryRequest.store.power, entryKept := s.entryRequest.store.entryKept } := by
  unfold State.entryRequest
  split
  · dsimp only
    split <;> rfl
  all_goals rfl

/-- The report that the edits have ended leaves the queue, the zones, the gates, and the store but for its power. -/
theorem reportEditsEnded_rest (s : State) : s.reportEditsEnded.edit.queue = s.edit.queue ∧
    s.reportEditsEnded.scene.zones = s.scene.zones ∧ s.reportEditsEnded.scene.gates = s.scene.gates ∧
    s.reportEditsEnded.store =
      { s.store with power := s.reportEditsEnded.store.power, entryKept := s.reportEditsEnded.store.entryKept } := by
  unfold State.reportEditsEnded
  split
  · unfold State.takeEnds
    split
    · refine ⟨?_, ?_, ?_, entryRequest_store _⟩
      · rw [(entryRequest_frame _).2.2.2.1]
        rfl
      · rw [(entryRequest_frame _).2.2.2.2.1]
        rfl
      · rw [(entryRequest_frame _).2.2.2.2.1]
        rfl
    · exact ⟨rfl, rfl, rfl, rfl⟩
  · exact ⟨rfl, rfl, rfl, rfl⟩

theorem headRequested_rest (s : State) : (headRequested s).edit = s.edit ∧ (headRequested s).scene = s.scene ∧
    (headRequested s).dir = s.dir ∧ loadsWithdrawn s (headRequested s) ∧
    (s.store.running ≠ none → (headRequested s).store.running = s.store.running ∧
      (headRequested s).store.editWaiting = (s.store.editWaiting || decide (s.edit.queue ≠ []))) := by
  unfold headRequested
  split
  · next h => exact ⟨rfl, rfl, rfl, loadsWithdrawn_of_eq rfl, fun _ => ⟨rfl, by simp [h]⟩⟩
  · next h =>
    refine ⟨by simp, by simp, by simp, grant_withdrawn { s with store := { s.store with editWaiting := true } }, fun hr => ?_⟩
    rw [grant_busy (s := { s with store := { s.store with editWaiting := true } }) hr]
    exact ⟨rfl, by simp [h]⟩

/-- What becomes of a page when the edit of a lost port leaves the queue. -/
def Page.editLost (p : Page) (edit : Option Edit) (k : Handle) : Page := (edit.map fun e => afterEdit e false k p).getD p

/-- The edit of a lost port runs, and its EDIT is withdrawn or to be discarded. -/
def State.runsEditOf (s : State) (p : Port) : Bool := s.edit.queue.head?.any fun e => decide (e.port = p)

theorem removeEditOf_some {s : State} {p : Port} {e : Edit} (h : s.edit.queue.find? (fun e => e.port = p) = some e) :
    s.removeEditOf p = (s.removeEdit e).reportEditsEnded := by
  unfold State.removeEditOf
  rw [h]

theorem removeEditOf_none {s : State} {p : Port} (h : s.edit.queue.find? (fun e => e.port = p) = none) :
    s.removeEditOf p = s := by
  unfold State.removeEditOf
  rw [h]

theorem removeEditOf_effect (s : State) (p : Port) : let t := s.removeEditOf p
    t.edit.queue = s.edit.queue.eraseP (fun e => decide (e.port = p)) ∧ t.scene.zones = s.scene.zones ∧
      t.scene.gates = s.scene.gates ∧ loadsWithdrawn s t ∧
      pagesBecome s t (fun k pg => pg.editLost (s.edit.queue.find? fun e => decide (e.port = p)) k) ∧
      ∀ r, s.store.running = some r → t.store.running = some (r.discardedIf (s.runsEditOf p && r.job.isEdit)) ∧
        t.store.editWaiting = if s.runsEditOf p then decide (s.edit.queue.tail ≠ []) else s.store.editWaiting := by
  intro t
  cases h : s.edit.queue.find? (fun e => decide (e.port = p)) with
  | none =>
    have ht : t = s := removeEditOf_none h
    have hno : ∀ e ∈ s.edit.queue, ¬ decide (e.port = p) = true := List.find?_eq_none.1 h
    have hruns : s.runsEditOf p = false := by
      unfold State.runsEditOf
      cases hq : s.edit.queue with
      | nil => rfl
      | cons e rest => simpa using hno e (hq ▸ List.mem_cons_self)
    rw [ht, hruns]
    refine ⟨(List.eraseP_of_forall_not hno).symm, rfl, rfl, fun _ hc => hc, pagesBecome_of_dir rfl, fun r hr => ⟨?_, rfl⟩⟩
    rw [Bool.false_and, discardedIf_false, hr]
  | some e =>
    obtain ⟨he, pre, post, hq, hpre⟩ := List.find?_eq_some_iff_append.1 h
    have hport : e.port = p := of_decide_eq_true he
    have hpre' : ∀ x ∈ pre, x.port ≠ e.port := fun x hx => by simpa [hport] using hpre x hx
    obtain ⟨u, hu, honly, hpages⟩ := removeEdit_effect hq hpre'
    have ht : t = (s.removeEdit e).reportEditsEnded := removeEditOf_some h
    obtain ⟨hqueue, hzones, hgates, hstore⟩ := reportEditsEnded_rest (s.removeEdit e)
    have hdir : t.dir = (s.removeEdit e).dir := by rw [ht, (reportEditsEnded_frame _).2.1]
    rw [← ht] at hqueue hzones hgates hstore
    clear_value t
    have herase : s.edit.queue.eraseP (fun e => decide (e.port = p)) = pre ++ post := by
      rw [hq, List.eraseP_append_right _ fun x hx => by simpa using hpre x hx, List.eraseP_cons_of_pos (p := fun e : Edit => decide (e.port = p)) he]
    rw [herase]
    cases pre with
    | nil =>
      rw [if_pos rfl] at hu
      obtain ⟨hedit, hscene, hheaddir, hloads, hbusy⟩ := headRequested_rest u
      rw [← hu] at hedit hscene hheaddir hloads hbusy
      have hruns : s.runsEditOf p = true := by
        unfold State.runsEditOf
        rw [hq]
        exact he
      have hustore : u.store = { s.store with editWaiting := false, running := editDiscarded s } := by rw [honly]; rfl
      have huqueue : u.edit.queue = post := by rw [honly]; rfl
      refine ⟨hqueue.trans (by rw [hedit]; exact huqueue), ?_, ?_, fun c hc => ?_, hpages.dirs rfl (hdir.trans hheaddir),
        fun r hr => ?_⟩
      · rw [hzones, hscene, honly]
        rfl
      · rw [hgates, hscene, honly]
        rfl
      · rw [hstore]
        exact hloads c (by rw [hustore]; exact hc)
      · have hrun : u.store.running = some (r.discardedIf r.job.isEdit) := by
          rw [hustore]
          show editDiscarded s = _
          unfold editDiscarded
          rw [hr, Option.map_some, discardedIf_eq]
        obtain ⟨hsame, hwaits⟩ := hbusy (by rw [hrun]; exact Option.some_ne_none _)
        rw [hruns, Bool.true_and, if_pos rfl, hq, hstore]
        refine ⟨hsame.trans hrun, hwaits.trans ?_⟩
        rw [hustore, huqueue]
        exact Bool.false_or _
    | cons x pre =>
      rw [if_neg (List.cons_ne_nil x pre)] at hu
      have hruns : s.runsEditOf p = false := by
        unfold State.runsEditOf
        rw [hq]
        simpa using hpre x List.mem_cons_self
      have hustore : u.store = s.store := by rw [honly]; rfl
      rw [hu] at hqueue hzones hgates hstore hdir
      refine ⟨hqueue.trans (by rw [honly]; rfl), ?_, ?_, fun c hc => ?_, hpages.dirs rfl hdir, fun r hr => ?_⟩
      · rw [hzones, honly]
        rfl
      · rw [hgates, honly]
        rfl
      · rw [hstore, hustore]
        exact hc
      · rw [hruns, hstore, hustore, Bool.false_and, discardedIf_false]
        exact ⟨hr, rfl⟩

end Sys2Proof.Machine
end

