-- ==== Sys2Proof/Proofs/PortLosses.lean ====
section
/-! PROOFS. CLIENT_LINK_UP and PORT_LOSS as a whole (R171, R184). -/

namespace Sys2Proof.Machine

/-- A port whose link is lost. -/
def PortRec.lost (r : PortRec) : PortRec := { r with up := false, events := 0, mask := 0, transit := none, waiting := [] }

theorem portLoss_eq {p : Port} {s : State} (h : s.ports[p].up = true) : portLoss p s =
    allZones.foldl (fun s z => s.loseInvoker p z)
      ((((s.setPort p PortRec.lost).releaseZonesOf p).abortLoadsOf p).removeEditOf p) := if_pos h

/-- The channels of a lost port. -/
def State.chansOf (s : State) (p : Port) : List ChanId := allChans.filter fun c => (s.load.chans[c]).any fun l => l.port = p

theorem mem_chansOf (s : State) (p : Port) (c : ChanId) :
    c ∈ s.chansOf p ↔ (s.load.chans[c]).any (fun l => l.port = p) = true := by
  unfold State.chansOf
  rw [List.mem_filter]
  exact and_iff_right (mem_allChans c)

theorem any_chansOf (s : State) (p : Port) (f : ChanId → Bool) :
    (s.chansOf p).any f = allChans.any fun c => ((s.load.chans[c]).any fun l => decide (l.port = p)) && f c :=
  List.any_filter ..

theorem abortLoadsOf_gone (s : State) (p : Port) : loadsGone (s.chansOf p) s (s.abortLoadsOf p) := by
  refine loadsGone_foldl (ends := fun o => o.any fun l => l.port = p) (fun t c => ?_) nodup_allChans s
  cases hc : t.load.chans[c] with
  | none => exact loadsGone_nil t
  | some l =>
    by_cases hl : l.port = p
    · simpa [hl] using abortLoad_gone hc
    · simpa [hl] using loadsGone_nil t

/-- A zone once a port has been lost. -/
theorem releasedBy_uninvoked (zn : Zone) (p : Port) (frame : Nat) :
    let held : Bool := decide (zn.holder = some p)
    let stays : Bool := decide (zn.armed = some .cut) && zn.fetch.any (·.armed)
    let gone : List Cut := if stays then zn.cuts.tail else zn.cuts
    (zn.releasedBy p frame).uninvoked p = { zn with
      holder := if held then none else zn.holder
      armed := match zn.armed with
        | some .cut => if held && !stays then none else some .cut
        | some (.gate g q k) => some (.gate g q (if q = p then 8 else k))
        | a => a
      pend := match zn.pend with
        | some (.invocation g q) => if q = p then none else some (.invocation g q)
        | a => a
      cuts := if held then (if stays then (zn.cuts.take 1).map fun c => { c with released := true } else []) else zn.cuts
      log := if held then logged zn.log (gone.map fun c => logEntry c .discarded frame) else zn.log } := by
  intro held stays gone
  obtain ⟨rect, holder, current, armed, pend, cuts, stack, fetch, inStep, delivered, log⟩ := zn
  by_cases hh : holder = some p
  · have hheld : held = true := decide_eq_true hh
    have hrel : Zone.releasedBy ⟨rect, holder, current, armed, pend, cuts, stack, fetch, inStep, delivered, log⟩ p frame =
      Zone.released ⟨rect, holder, current, armed, pend, cuts, stack, fetch, inStep, delivered, log⟩ frame := if_pos hh
    rw [hrel, hheld]
    unfold Zone.uninvoked Zone.released pendDropped armedSpent
    rcases armed with _ | _ | _ | _
    case some.cut =>
      cases hs : fetch.any (·.armed)
      all_goals
        have hstays : stays = _ := (Bool.true_and _).trans hs
        simp only [gone, hstays, decide_true, Bool.true_and]
        simp <;> rfl
    all_goals rfl
  · have hheld : held = false := decide_eq_false hh
    have hrel : Zone.releasedBy ⟨rect, holder, current, armed, pend, cuts, stack, fetch, inStep, delivered, log⟩ p frame =
      ⟨rect, holder, current, armed, pend, cuts, stack, fetch, inStep, delivered, log⟩ := if_neg hh
    rw [hrel, hheld]
    unfold Zone.uninvoked pendDropped armedSpent
    rcases armed with _ | _ | _ | _ <;> rfl

theorem releasedBy_pend (zn : Zone) (p : Port) (frame : Nat) : (zn.releasedBy p frame).pend = zn.pend := by
  unfold Zone.releasedBy Zone.released
  split <;> rfl

theorem afterEdit_undone (e : Edit) (k : Handle) (pg : Page) : afterEdit e false k pg = { pg with
    pins := pg.pins - e.references k
    busy := if e.references k = 0 then pg.busy else none
    state := if e.copiesTo k then settledState pg.damaged pg.valid pg.cells else pg.state } := by
  obtain ⟨port, tag, job⟩ := e
  cases job with
  | patch => rfl
  | copy src sc dst cell moved =>
    have hvalid : (if false = true ∧ dst = k then insertBit pg.valid cell else pg.valid) = pg.valid :=
      if_neg fun h => absurd h.1 (by decide)
    unfold afterEdit
    dsimp only
    rw [hvalid]

/-- A page once a port has been lost: its pins for cuts and for the edit, its busy mark, and its state. -/
theorem page_lost (pg : Page) (n : Nat) (b : Bool) (edit : Option Edit) (k : Handle) :
    ((pg.unpinned n).settledIf b).editLost edit k = { pg with
      pins := pg.pins - n - (edit.map (·.references k)).getD 0
      busy := if edit.any (fun e => decide (e.references k ≠ 0)) then none else pg.busy
      state := if b || edit.any (·.copiesTo k) then settledState pg.damaged pg.valid pg.cells else pg.state } := by
  cases edit with
  | none => cases b <;> rfl
  | some e =>
    have hlost : ((pg.unpinned n).settledIf b).editLost (some e) k = afterEdit e false k ((pg.unpinned n).settledIf b) := rfl
    rw [hlost, afterEdit_undone]
    cases b <;> by_cases hr : e.references k = 0 <;> simp [Page.settledIf, Page.settled, Page.unpinned, hr]

/-- Settles O8, one part of the loss after the other: the link, the zones, the loads, the edit, the invocations. -/
theorem clientLinksComeUpAndAreLost : Obligations.ClientLinksComeUpAndAreLost := by
  refine ⟨fun p s h => congrArg Host.Outcome.next ?_, fun p s h => congrArg Host.Outcome.next ?_,
    fun p s h => congrArg Host.Outcome.next ?_, fun p s h hlog => ?_⟩
  · exact if_neg (by rw [h]; decide)
  · exact if_pos h
  · exact if_neg (by rw [h]; decide)
  intro held stays gone edit runs
  obtain ⟨hzones, hpins, hzone⟩ := releaseEach_effect p allZones nodup_allZones (s.setPort p PortRec.lost) hlog
  rw [← releaseZonesOf_eq] at hzones hpins hzone
  have hports := portLoss_ports p s
  have hstore := portLoss_arbitrated p s
  have hframe := portLoss_frame p s
  have hexec : exec (.portLoss p) s = .next (portLoss p s) := rfl
  rw [if_pos h] at hports
  rw [hexec]
  rw [portLoss_eq h] at hports hstore hframe ⊢
  generalize (s.setPort p PortRec.lost).releaseZonesOf p = a at *
  have haload : a.load = s.load := by rw [hzones.rest]; rfl
  have hastore : a.store = s.store := by rw [hzones.rest]; rfl
  have haedit : a.edit = s.edit := by rw [hzones.rest]; rfl
  have hagates : a.scene.gates = s.scene.gates := by rw [hzones.scene]; rfl
  have hloads := abortLoadsOf_gone a p
  have habort := abortLoadsOf_frame a p
  have hchans : a.chansOf p = s.chansOf p := by
    unfold State.chansOf
    rw [haload]
  rw [hchans] at hloads
  generalize a.abortLoadsOf p = b at *
  obtain ⟨-, hbedit, hbscene, -⟩ := habort
  obtain ⟨hqueue, hczones, hcgates, hcloads, hcpages, hcrun⟩ := removeEditOf_effect b p
  have hcload := (removeEditOf_frame b p).2.1
  have hedit : b.edit = s.edit := hbedit.trans haedit
  have hruns : b.runsEditOf p = runs := by
    unfold State.runsEditOf
    rw [hedit]
  rw [hedit] at hqueue hcpages hcrun
  rw [hruns] at hcrun
  generalize b.removeEditOf p = c at *
  have hlast := loseInvoker_fold_frame p allZones c
  have hzoneAt : ∀ z, c.zone z = (s.zone z).releasedBy p s.scene.frame := fun z => by
    refine (congrArg (fun v => v[z]) (hczones.trans (congrArg (·.zones) hbscene))).trans ?_
    exact (hzone z).trans (if_pos (mem_allZones z))
  have hgateAt : ∀ g, c.gate g = s.gate g := fun g =>
    congrArg (fun v => v[g]) (hcgates.trans ((congrArg (·.gates) hbscene).trans hagates))
  have htzone := loseInvokers_zone p c
  have htgate := fun g => loseEachInvoker_gate p g allZones nodup_allZones c
  generalize allZones.foldl (fun s z => s.loseInvoker p z) c = t at *
  obtain ⟨-, htdir, htstore, htload, htedit, -⟩ := hlast
  refine ⟨t, rfl, ?_, fun q hq => ?_, fun z => ?_, fun g => ?_, fun k l hl => ⟨?_, fun hp => ?_⟩, ?_, ?_, fun r hr => ?_,
    ⟨fun x => by rw [hstore.1.1], hstore.1.2.1⟩, hframe.1, hframe.2.1⟩
  · rw [hports, upd_same]
  · rw [hports, upd_other _ _ _ _ (Ne.symm hq)]
  · rw [htzone, hzoneAt]
    exact releasedBy_uninvoked (s.zone z) p s.scene.frame
  · have hpend : (∃ z ∈ allZones, (c.zone z).pend = some (.invocation g p)) ↔
        ∃ z, (s.zone z).pend = some (.invocation g p) := by
      refine exists_congr fun z => ?_
      rw [hzoneAt, releasedBy_pend]
      exact and_iff_right (mem_allZones z)
    rw [htgate, hgateAt]
    simp only [hpend]
  · rw [htload, hcload, hloads.chans, haload, hl]
    refine if_congr ?_ rfl rfl
    rw [mem_chansOf, hl]
    exact decide_eq_true_iff
  · have hgone : k ∈ s.chansOf p := (mem_chansOf s p k).2 (by rw [hl]; exact decide_eq_true hp)
    rw [htstore]
    exact hcloads k (by rw [hloads.waiting, decide_eq_false fun h => h hgone, Bool.and_false])
  · rw [htedit, hqueue]
  · refine (((hpins.trans hloads.pages).trans hcpages).dirs rfl htdir).congr fun k pg _ => ?_
    rw [page_lost, any_chansOf, haload]
    have hpinsOf : (allZones.map fun z => ((s.setPort p PortRec.lost).zone z).pinsLost p k).sum =
        (allZones.map fun z => if held z then placementsNaming ((gone z).flatMap (·.scene)) k else 0).sum :=
      congrArg List.sum (List.map_congr_left fun z _ => if_congr decide_eq_true_iff.symm rfl rfl)
    have hblocks : (allChans.any fun c => ((s.load.chans[c]).any fun l => decide (l.port = p)) &&
        (s.load.chans[c]).any fun l => l.blockOf k) =
        allChans.any fun c => (s.load.chans[c]).any fun l => decide (l.port = p) && l.blockOf k :=
      congrArg allChans.any (funext fun c => by cases s.load.chans[c] <;> rfl)
    rw [hpinsOf, hblocks]
  · have hbrun : b.store.running = some (r.discardedIf ((s.chansOf p).any fun c => r.job.isLoadOf c)) := by
      rw [hloads.store, hastore, hr]
      rfl
    obtain ⟨htrun, htwaits⟩ := hcrun _ hbrun
    rw [htstore]
    refine ⟨htrun.trans (congrArg some ?_), htwaits.trans ?_⟩
    · have hjob : (r.discardedIf ((s.chansOf p).any fun c => r.job.isLoadOf c)).job = r.job := rfl
      rw [hjob, discardedIf_discardedIf, any_chansOf, Bool.or_comm]
      have hloadOf : (allChans.any fun c => ((s.load.chans[c]).any fun l => decide (l.port = p)) && r.job.isLoadOf c) =
          allChans.any fun c => r.job.isLoadOf c && (s.load.chans[c]).any fun l => decide (l.port = p) :=
        congrArg allChans.any (funext fun c => Bool.and_comm ..)
      rw [hloadOf]
      rfl
    · rw [hloads.store, hastore]

end Sys2Proof.Machine
end

