-- ==== Sys2Proof/Proofs/WoundZones.lean ====
section
/-! PROOFS. What a boundary outside LIT and a wind-back leave of a zone, of the gates and of the ports (R118, R120, R163). -/

namespace Sys2Proof.Machine

/-! ### A zone turns into another -/

/-- A zone is given, and gates are DEFINED again. -/
def SceneEngine.turned (e : SceneEngine) (z : ZoneId) (v : Zone) (gs : List GateId) : SceneEngine :=
  { e with zones := upd e.zones z fun _ => v, gates := (e.freeGates gs).gates }

/-- A zone has become another, gates are DEFINED again, events have been raised, and pages may have been unpinned. -/
def turns (z : ZoneId) (v : Zone) (gs : List GateId) (l : List (Port × Event)) (s t : State) : Prop :=
  ∃ sc : Scene, t = s.acted (s.scene.turned z v gs) sc l

theorem freeGates_gates_congr {e e' : SceneEngine} (h : e'.gates = e.gates) (gs : List GateId) :
    (e'.freeGates gs).gates = (e.freeGates gs).gates := by
  induction gs generalizing e e' with
  | nil => exact h
  | cons g gs ih =>
    refine ih ?_
    unfold SceneEngine.freeGate
    rw [h]

theorem turned_turned (e : SceneEngine) (z : ZoneId) (v w : Zone) (gs hs : List GateId) :
    (e.turned z v gs).turned z w hs = e.turned z w (gs ++ hs) := by
  have hgates : ((e.turned z v gs).freeGates hs).gates = ((e.freeGates gs).freeGates hs).gates :=
    freeGates_gates_congr (e := e.freeGates gs) (e' := e.turned z v gs) rfl hs
  unfold SceneEngine.turned at hgates ⊢
  dsimp only at hgates ⊢
  rw [hgates, freeGates_append, upd_upd]

theorem turned_self (e : SceneEngine) (z : ZoneId) : e.turned z e.zones[z] [] = e := by
  unfold SceneEngine.turned
  rw [upd_of_fixed _ _ _ rfl]
  rfl

section
variable {z : ZoneId} {v w : Zone} {gs hs : List GateId} {l m : List (Port × Event)} {s t u : State}

theorem turns_refl (s : State) (z : ZoneId) : turns z (s.zone z) [] [] s s :=
  ⟨[], by
    have hself : s.scene.turned z (s.zone z) [] = s.scene := turned_self s.scene z
    rw [hself]
    rfl⟩

theorem turns.trans (h : turns z v gs l s t) (k : turns z w hs m t u) : turns z w (gs ++ hs) (l ++ m) s u := by
  obtain ⟨a, rfl⟩ := h
  obtain ⟨b, rfl⟩ := k
  exact ⟨a ++ b, by rw [acted_acted, acted_scene, turned_turned]⟩

theorem turns.zone (h : turns z v gs l s t) : t.zone z = v := by
  obtain ⟨a, rfl⟩ := h
  rw [acted_zone]
  exact upd_same _ _ _

theorem turns.other (h : turns z v gs l s t) {y : ZoneId} (hy : y ≠ z) : t.zone y = s.zone y := by
  obtain ⟨a, rfl⟩ := h
  rw [acted_zone]
  exact upd_other _ _ _ _ (Ne.symm hy)

theorem turns.gate (h : turns z v gs l s t) (g : GateId) :
    t.gate g = if g ∈ gs then (s.gate g).map fun d => { d with use := .defined } else s.gate g := by
  obtain ⟨a, rfl⟩ := h
  rw [acted_gate]
  exact freeGates_at s.scene gs g

theorem turns.port (h : turns z v gs l s t) (q : Port) : t.ports[q] = s.ports[q].takeEach q l := by
  obtain ⟨a, rfl⟩ := h
  exact acted_at ..

theorem turns.scene (h : turns z v gs l s t) : t.scene = s.scene.turned z v gs := by
  obtain ⟨a, rfl⟩ := h
  exact acted_scene ..

theorem turns.frame (h : turns z v gs l s t) : t.scene.frame = s.scene.frame := by
  rw [h.scene]
  rfl

theorem setZone_turns (s : State) (z : ZoneId) (f : Zone → Zone) : turns z (f (s.zone z)) [] [] s (s.setZone z f) :=
  ⟨[], setZone_congr (g := fun _ => f (s.zone z)) rfl⟩

theorem freeGate_turns (s : State) (z : ZoneId) (g : GateId) (p : Port) (e : Event) :
    turns z (s.zone z) [g] [(p, e)] s (s.freeGate g p e) :=
  ⟨[], by
    have hself : s.scene.turned z (s.zone z) [g] = s.scene.freeGates [g] := by
      unfold SceneEngine.turned State.zone
      rw [upd_of_fixed _ _ _ rfl]
      rfl
    rw [freeGate_acted, hself]⟩

theorem loseCut_turns (s : State) (z : ZoneId) (o : CutOutcome) (c : Cut) :
    turns z ((s.zone z).lost o s.scene.frame [c]) [] [] s (s.loseCut z o c) :=
  ⟨c.scene, by
    rw [loseCut_acted]
    refine congrArg (fun e => s.acted e c.scene []) (congrArg (fun v => { s.scene with zones := v }) (upd_congr _ _ ?_))
    rfl⟩

theorem skipCut_turns (s : State) (z : ZoneId) (c : Cut) :
    turns z ((s.zone z).lost .skipped s.scene.frame [c]) [] [(c.port, .cutSkipped)] s (s.skipCut z c) :=
  ⟨c.scene, by
    rw [skipCut_acted]
    exact congrArg (fun e => s.acted e c.scene _) (congrArg (fun v => { s.scene with zones := v }) (upd_congr _ _ rfl))⟩

/-- A zone whose playlist has become a cut taken unseen, the cut having left its queue. -/
def Zone.tookUnseen (zn : Zone) (c : Cut) (n : Nat) : Zone :=
  { zn.unseen c with cuts := zn.cuts.erase c, log := logged zn.log [logEntry c .unseen n] }

theorem takeUnseen_turns (s : State) (z : ZoneId) (c : Cut) :
    turns z ((s.zone z).tookUnseen c s.scene.frame) [] [(c.port, .cutUnseen)] s (s.takeUnseen z c) :=
  ⟨(s.zone z).replaced, by
    rw [takeUnseen_acted]
    exact congrArg (fun e => s.acted e _ _) (congrArg (fun v => { s.scene with zones := v }) (upd_congr _ _ rfl))⟩

/-! ### A boundary outside LIT (R118, R120) -/

/-- A zone once cuts have been skipped one after the other. -/
def Zone.skipped (zn : Zone) (n : Nat) (cs : List Cut) : Zone := cs.foldl (fun zn c => zn.lost .skipped n [c]) zn

theorem skipCuts_turns (z : ZoneId) (cs : List Cut) (s : State) : ∃ l,
    turns z ((s.zone z).skipped s.scene.frame cs) [] l s (cs.foldl (fun s c => s.skipCut z c) s) := by
  induction cs generalizing s with
  | nil => exact ⟨[], turns_refl s z⟩
  | cons c cs ih =>
    have h := skipCut_turns s z c
    obtain ⟨l, k⟩ := ih (s.skipCut z c)
    rw [h.zone, h.frame] at k
    exact ⟨_, h.trans k⟩

/-- The cuts of a zone that are due at a frame. -/
def Zone.due (zn : Zone) (n : Nat) : List Cut := zn.cuts.filter fun c => decide (c.target ≤ n + 1)

/-- A zone after a boundary outside LIT. -/
def Zone.dark (zn : Zone) (n : Nat) : Zone :=
  let rested : Zone := { zn with fetch := none, delivered := 0 }
  if n = maxFrame then rested
  else
    match (zn.due n).getLast? with
    | none => rested.skipped n (zn.due n).dropLast
    | some c => (rested.skipped n (zn.due n).dropLast).tookUnseen c n

theorem zoneDark_turns (s : State) (z : ZoneId) : ∃ l, turns z ((s.zone z).dark s.scene.frame) [] l s (s.zoneDark z) := by
  have hrest := setZone_turns s z fun zn => { zn with fetch := none, delivered := 0 }
  have hskip := skipCuts_turns z ((s.zone z).due s.scene.frame).dropLast
    (s.setZone z fun zn => { zn with fetch := none, delivered := 0 })
  have hdue : ((s.setZone z fun zn => { zn with fetch := none, delivered := 0 }).zone z).cuts.filter
      (s.setZone z fun zn => { zn with fetch := none, delivered := 0 }).isDue = (s.zone z).due s.scene.frame := by
    rw [hrest.zone]
    rfl
  unfold State.zoneDark State.skipDue Zone.dark
  dsimp only
  rw [hdue]
  rw [hrest.zone, hrest.frame] at hskip
  obtain ⟨l, hskip⟩ := hskip
  have hframe := hrest.frame
  generalize (s.setZone z fun zn => { zn with fetch := none, delivered := 0 }) = t at *
  rw [hframe]
  split
  · exact ⟨_, hrest⟩
  cases ((s.zone z).due s.scene.frame).getLast? with
  | none => exact ⟨_, hrest.trans hskip⟩
  | some c =>
    have hunseen := takeUnseen_turns (((s.zone z).due s.scene.frame).dropLast.foldl (fun s c => s.skipCut z c) t) z c
    rw [hskip.zone, hskip.frame, hframe] at hunseen
    exact ⟨_, (hrest.trans hskip).trans hunseen⟩

/-! ### A wind-back (R163) -/

/-- The armed gate of a zone, with its invoker. -/
def Zone.armedGate (zn : Zone) : List (GateId × Port) :=
  match zn.armed with
  | some (.gate g p _) => [(g, p)]
  | _ => []

theorem armedGate_some {zn : Zone} {g : GateId} {p : Port} {k : Nat} (h : zn.armed = some (.gate g p k)) :
    zn.armedGate = [(g, p)] := by
  unfold Zone.armedGate
  rw [h]

theorem armedGate_none {zn : Zone} (h : ∀ g p k, zn.armed ≠ some (.gate g p k)) : zn.armedGate = [] := by
  unfold Zone.armedGate
  split
  · next g p k ha => exact absurd ha (h g p k)
  · rfl

/-- The gate of a zone's pending invocation, with its invoker. -/
def Zone.pendingGate (zn : Zone) : List (GateId × Port) :=
  match zn.pend with
  | some (.invocation g p) => [(g, p)]
  | _ => []

theorem pendingGate_some {zn : Zone} {g : GateId} {p : Port} (h : zn.pend = some (.invocation g p)) :
    zn.pendingGate = [(g, p)] := by
  unfold Zone.pendingGate
  rw [h]

theorem pendingGate_none {zn : Zone} (h : ∀ g p, zn.pend ≠ some (.invocation g p)) : zn.pendingGate = [] := by
  unfold Zone.pendingGate
  split
  · next g p hp => exact absurd hp (h g p)
  · rfl

/-- The gates that a wind-back abandons, with their invokers. -/
def Zone.abandons (zn : Zone) : List (GateId × Port) := zn.armedGate ++ zn.pendingGate

/-- The gates that a wind-back ends, with their invokers. -/
def Zone.endings (zn : Zone) : List (GateId × Port) := (gateContexts zn).flatMap Context.ends

theorem mem_abandons (zn : Zone) (g : GateId) (p : Port) : (g, p) ∈ zn.abandons ↔ gateAbandons zn g p := by
  unfold Zone.abandons gateAbandons
  rw [List.mem_append]
  refine or_congr ?_ ?_
  · unfold Zone.armedGate
    rcases zn.armed with _ | _ | ⟨k, q, n⟩ | _ <;> simp [eq_comm]
  · unfold Zone.pendingGate
    rcases zn.pend with _ | ⟨k, q⟩ | _ <;> simp [eq_comm]

theorem mem_endings (zn : Zone) (g : GateId) (p : Port) : (g, p) ∈ zn.endings ↔ gateEnds zn g p := by
  unfold Zone.endings gateEnds
  rw [List.mem_flatMap]
  refine exists_congr fun x => and_congr_right fun _ => ?_
  unfold Context.ends
  rcases x.kind with _ | k <;> rcases x.invoker with _ | q <;> simp [eq_comm]

theorem dropContexts_turns (s : State) (z : ZoneId) (l : List Context) :
    turns z (s.zone z) ((l.flatMap Context.ends).map (·.1)) ((l.flatMap Context.ends).map fun y => (y.2, .gateEnded)) s
      (l.foldl State.dropContext s) :=
  ⟨l.flatMap (·.scene), by
    have hself : s.scene.turned z (s.zone z) ((l.flatMap Context.ends).map (·.1)) =
        s.scene.freeGates ((l.flatMap Context.ends).map (·.1)) := by
      rw [freeGates_only]
      unfold SceneEngine.turned State.zone
      rw [upd_of_fixed _ _ _ rfl]
    rw [dropContexts_acted, hself]⟩

/-- A zone on its playlist again, no context saved. -/
def Zone.unwound (zn : Zone) : Zone := { zn with current := zn.stack.head?.getD zn.current, stack := [] }

theorem zone_stack_id {zn : Zone} {l : List Context} (h : l = zn.stack) : { zn with stack := l } = zn := h ▸ rfl

theorem unwind_turns (s : State) (z : ZoneId) : turns z (s.zone z).unwound ((s.zone z).endings.map (·.1))
    ((s.zone z).endings.map fun y => (y.2, .gateEnded)) s (s.unwind z) := by
  unfold State.unwind Zone.unwound Zone.endings gateContexts
  dsimp only
  cases hs : (s.zone z).stack with
  | nil =>
    have hself := turns_refl s z
    rw [← zone_stack_id (zn := s.zone z) hs.symm] at hself
    exact hself
  | cons bottom above =>
    have h := dropContexts_turns s z ((s.zone z).current :: above.reverse)
    have k := setZone_turns (((s.zone z).current :: above.reverse).foldl State.dropContext s) z fun zn =>
      { zn with current := bottom, stack := [] }
    rw [h.zone] at k
    have hk := h.trans k
    rw [List.append_nil, List.append_nil] at hk
    exact hk

/-- A zone with nothing armed, an armed cut that is released having left its queue. -/
def Zone.unarmed (zn : Zone) (n : Nat) : Zone :=
  let lost : Bool := decide (zn.armed = some .cut) && zn.cuts.head?.any (·.released)
  { zn with
    armed := none, cuts := if lost then zn.cuts.tail else zn.cuts
    log := if lost then logged zn.log ((zn.cuts.take 1).map fun c => logEntry c .discarded n) else zn.log }

theorem disarm_turns (s : State) (z : ZoneId) : turns z { s.zone z with armed := none } [] [] s (s.disarm z) :=
  setZone_turns s z fun zn => { zn with armed := none }

theorem unarmed_kept {zn : Zone} {n : Nat} (h : zn.armed = some .cut → zn.cuts.head?.any (·.released) = false) :
    zn.unarmed n = { zn with armed := none } := by
  have hlost : (decide (zn.armed = some .cut) && zn.cuts.head?.any (·.released)) = false := by
    by_cases ha : zn.armed = some .cut
    · rw [h ha, Bool.and_false]
    · rw [decide_eq_false ha, Bool.false_and]
  unfold Zone.unarmed
  rw [hlost]
  rfl

theorem unarmed_lost {zn : Zone} {n : Nat} {c : Cut} {rest : List Cut} (ha : zn.armed = some .cut)
    (hc : zn.cuts = c :: rest) (hr : c.released = true) : zn.unarmed n = { zn.lost .discarded n [c] with armed := none } := by
  unfold Zone.unarmed Zone.lost
  rw [ha, hc, List.head?_cons, Option.any_some, hr]
  simp

theorem dropArmed_turns (s : State) (z : ZoneId) : turns z ((s.zone z).unarmed s.scene.frame) ((s.zone z).armedGate.map (·.1))
    ((s.zone z).armedGate.map fun y => (y.2, .gateAbandoned)) s (s.dropArmed z) := by
  unfold State.dropArmed
  split
  · next c rest ha hc =>
    rw [armedGate_none fun g p k h => absurd (ha.symm.trans h) (by simp)]
    cases hr : c.released with
    | true =>
      have hlose := loseCut_turns s z .discarded c
      have hdrop := disarm_turns (s.loseCut z .discarded c) z
      rw [hlose.zone] at hdrop
      rw [unarmed_lost ha hc hr]
      exact hlose.trans hdrop
    | false =>
      rw [unarmed_kept fun _ => by rw [hc]; exact hr]
      exact disarm_turns s z
  · next g p k ha =>
    have hfree := freeGate_turns s z g p .gateAbandoned
    have hdrop := disarm_turns (s.freeGate g p .gateAbandoned) z
    rw [hfree.zone] at hdrop
    rw [unarmed_kept fun h => absurd (ha.symm.trans h) (by simp), armedGate_some ha]
    exact hfree.trans hdrop
  · next hgate hcut =>
    rw [armedGate_none hgate, unarmed_kept fun ha => by
      cases hc : (s.zone z).cuts with
      | nil => rfl
      | cons c rest => exact absurd hc (hcut c rest ha)]
    exact disarm_turns s z

theorem dropPending_turns (s : State) (z : ZoneId) : turns z { s.zone z with pend := none } ((s.zone z).pendingGate.map (·.1))
    ((s.zone z).pendingGate.map fun y => (y.2, .gateAbandoned)) s (s.dropPending z) := by
  unfold State.dropPending
  split
  · next g p hp =>
    have hfree := freeGate_turns s z g p .gateAbandoned
    have hdrop := setZone_turns (s.freeGate g p .gateAbandoned) z fun zn => { zn with pend := none }
    rw [hfree.zone] at hdrop
    rw [pendingGate_some hp]
    exact hfree.trans hdrop
  · next hno =>
    rw [pendingGate_none hno]
    exact setZone_turns s z fun zn => { zn with pend := none }

theorem windBack_turns (s : State) (z : ZoneId) : turns z (woundBack (s.zone z) s.scene.frame)
    (((s.zone z).endings ++ (s.zone z).abandons).map (·.1))
    ((s.zone z).endings.map (fun y => (y.2, .gateEnded)) ++ (s.zone z).abandons.map fun y => (y.2, .gateAbandoned)) s
    (s.windBack z) := by
  have hunwind := unwind_turns s z
  have harmed := dropArmed_turns (s.unwind z) z
  have hpending := dropPending_turns ((s.unwind z).dropArmed z) z
  have hfetch := setZone_turns (((s.unwind z).dropArmed z).dropPending z) z fun zn =>
    { zn with fetch := none, inStep := 0, delivered := 0 }
  rw [hunwind.zone, hunwind.frame] at harmed
  rw [harmed.zone] at hpending
  rw [hpending.zone] at hfetch
  have hall := ((hunwind.trans harmed).trans hpending).trans hfetch
  simp only [List.append_nil, List.append_assoc] at hall
  unfold Zone.abandons
  simp only [List.map_append]
  exact hall

end

end Sys2Proof.Machine
end

