-- ==== Sys2Proof/Proofs/DarkZones.lean ====
section
/-! PROOFS. What dark entry leaves of the zones, the gates, the loads and the events (R163, R164). -/

namespace Sys2Proof.Machine

/-! ### Every zone turns -/

/-- Nothing has changed but the zones, the gates, the pages and what the ports have heard. -/
structure zonesTurned (s t : State) : Prop where
  rest : t = { s with scene := t.scene, dir := t.dir, ports := t.ports }
  scene : t.scene = { s.scene with zones := t.scene.zones, gates := t.scene.gates }

theorem zonesTurned_refl (s : State) : zonesTurned s s := ⟨rfl, rfl⟩

theorem zonesTurned.trans {s t u : State} (h : zonesTurned s t) (k : zonesTurned t u) : zonesTurned s u := by
  refine ⟨?_, ?_⟩
  · rw [k.rest, h.rest]
  · rw [k.scene, h.scene]

theorem turns.turned {z : ZoneId} {v : Zone} {gs : List GateId} {l : List (Port × Event)} {s t : State}
    (h : turns z v gs l s t) : zonesTurned s t := by
  refine ⟨?_, ?_⟩
  · obtain ⟨sc, rfl⟩ := h
    exact acted_only ..
  · rw [h.scene]
    rfl

theorem windBack_turned (s : State) (z : ZoneId) : zonesTurned s (s.windBack z) := (windBack_turns s z).turned

theorem zoneDark_turned (s : State) (z : ZoneId) : zonesTurned s (s.zoneDark z) := (zoneDark_turns s z).choose_spec.turned

theorem windBacks_turned (zs : List ZoneId) (s : State) : zonesTurned s (zs.foldl State.windBack s) :=
  foldl_inv (inv := zonesTurned s) (fun t z h => h.trans (windBack_turned t z)) zs (zonesTurned_refl s)

theorem zonesDark_turned (s : State) : zonesTurned s (allZones.foldl State.zoneDark s) :=
  foldl_inv (inv := zonesTurned s) (fun t z h => h.trans (zoneDark_turned t z)) allZones (zonesTurned_refl s)

theorem windBacks_zone (s : State) (z : ZoneId) :
    (allZones.foldl State.windBack s).zone z = woundBack (s.zone z) s.scene.frame :=
  foldl_at (inv := fun t : State => t.scene.frame = s.scene.frame)
    (fun t y h => (windBack_turns t y).frame.trans h) (π := State.zone) (g := fun _ zn => woundBack zn s.scene.frame)
    (fun t y h => (windBack_turns t y).zone.trans (by rw [h])) (fun t y x _ h => (windBack_turns t y).other (Ne.symm h))
    nodup_allZones rfl (mem_allZones z)

theorem zonesDark_zone (s : State) (z : ZoneId) :
    (allZones.foldl State.zoneDark s).zone z = (s.zone z).dark s.scene.frame :=
  foldl_at (inv := fun t : State => t.scene.frame = s.scene.frame)
    (fun t y h => (zoneDark_turns t y).choose_spec.frame.trans h) (π := State.zone) (g := fun _ zn => zn.dark s.scene.frame)
    (fun t y h => (zoneDark_turns t y).choose_spec.zone.trans (by rw [h]))
    (fun t y x _ h => (zoneDark_turns t y).choose_spec.other (Ne.symm h)) nodup_allZones rfl (mem_allZones z)

theorem zonesDark_gate (s : State) (g : GateId) : (allZones.foldl State.zoneDark s).gate g = s.gate g :=
  foldl_keeps (fun t : State => t.gate g) _ (fun t z => ((zoneDark_turns t z).choose_spec.gate g).trans (if_neg List.not_mem_nil))
    _ _

/-- The gates that a wind-back of a zone ends or abandons. -/
def Zone.frees (zn : Zone) : List GateId := (zn.endings ++ zn.abandons).map (·.1)

theorem mem_frees (zn : Zone) (g : GateId) : g ∈ zn.frees ↔ ∃ p, gateEnds zn g p ∨ gateAbandons zn g p := by
  unfold Zone.frees
  simp only [List.mem_map, List.mem_append]
  constructor
  · rintro ⟨⟨k, p⟩, h, rfl⟩
    exact ⟨p, h.imp (mem_endings zn k p).1 (mem_abandons zn k p).1⟩
  · rintro ⟨p, h⟩
    exact ⟨(g, p), h.imp (mem_endings zn g p).2 (mem_abandons zn g p).2, rfl⟩

theorem windBackEach_gate (g : GateId) (zs : List ZoneId) (hzs : zs.Nodup) (s : State) :
    (zs.foldl State.windBack s).gate g = if ∃ z ∈ zs, g ∈ (s.zone z).frees
      then (s.gate g).map fun e => { e with use := .defined } else s.gate g := by
  induction zs generalizing s with
  | nil => exact (if_neg fun h => by simp at h).symm
  | cons z zs ih =>
    obtain ⟨hz, hzs⟩ := List.nodup_cons.1 hzs
    have hgate := (windBack_turns s z).gate g
    have hrest : (∃ y ∈ zs, g ∈ ((s.windBack z).zone y).frees) ↔ ∃ y ∈ zs, g ∈ (s.zone y).frees := by
      refine exists_congr fun y => and_congr_right fun hy => ?_
      have hne : y ≠ z := fun h => hz (h ▸ hy)
      rw [(windBack_turns s z).other hne]
    change _ = if g ∈ (s.zone z).frees then _ else _ at hgate
    rw [List.foldl_cons, ih hzs, hgate]
    simp only [hrest, List.mem_cons, exists_eq_or_imp]
    by_cases h1 : g ∈ (s.zone z).frees
    · simp only [h1, if_true, true_or, map_defined_twice, ite_self]
    · simp only [h1, if_false, false_or]

/-! ### What the ports hear -/

theorem hears_takeEach (r : PortRec) (q : Port) (l : List (Port × Event)) : r.hears (r.takeEach q l) := by
  induction l generalizing r with
  | nil => exact r.hears_refl
  | cons x l ih =>
    refine PortRec.hears.trans ?_ (ih _)
    show r.hears (if q = x.1 then r.take x.2 else r)
    split
    · exact r.hears_take x.2
    · exact r.hears_refl

theorem hears_keeps {r r' : PortRec} (h : r.hears r') (e : Event) (he : r.events.getLsbD e.bit = true) :
    r'.events.getLsbD e.bit = true := h.2.2 e.bit (by cases e <;> decide) he

theorem takeEach_heard {r : PortRec} {q : Port} {e : Event} (hu : r.up = true) {l : List (Port × Event)} (h : (q, e) ∈ l) :
    (r.takeEach q l).events.getLsbD e.bit = true := by
  induction l generalizing r with
  | nil => cases h
  | cons x l ih =>
    have hcons : r.takeEach q (x :: l) = (if q = x.1 then r.take x.2 else r).takeEach q l := rfl
    rw [hcons]
    rcases List.mem_cons.1 h with rfl | h
    · rw [if_pos rfl]
      exact hears_keeps (hears_takeEach _ q l) e (PortRec.take_heard hu e)
    · refine ih ?_ h
      split
      · rw [(r.hears_take x.2).1]
        exact hu
      · exact hu

/-- What a wind-back of a zone announces. -/
def Zone.backEvents (zn : Zone) : List (Port × Event) :=
  zn.endings.map (fun y => (y.2, .gateEnded)) ++ zn.abandons.map fun y => (y.2, .gateAbandoned)

theorem windBackEach_heard {p : Port} {e : Event} (zs : List ZoneId) (hzs : zs.Nodup) {s : State}
    (hu : s.ports[p].up = true) {z : ZoneId} (hz : z ∈ zs) (he : (p, e) ∈ (s.zone z).backEvents) :
    (zs.foldl State.windBack s).ports[p].events.getLsbD e.bit = true := by
  induction zs generalizing s with
  | nil => cases hz
  | cons y zs ih =>
    obtain ⟨hy, hzs⟩ := List.nodup_cons.1 hzs
    rw [List.foldl_cons]
    rcases List.mem_cons.1 hz with rfl | hz
    · refine hears_keeps (hears_foldl _ windBack_hears zs _ p) e ?_
      rw [(windBack_turns s z).port]
      exact takeEach_heard hu he
    · have hne : z ≠ y := fun h => hy (h ▸ hz)
      exact ih hzs ((windBack_hears s y).up p ▸ hu) hz ((windBack_turns s y).other hne ▸ he)

/-! ### Every load is aborted (R164) -/

/-- A load is aborted, with LOAD_FAILED at its port. -/
def State.failLoad (s : State) (c : ChanId) : State :=
  match s.load.chans[c] with
  | some l => (s.abortLoad c).raise l.port .loadFailed
  | none => s

theorem abortAll_eq (s : State) : s.abortAll = allChans.foldl State.failLoad s := rfl

theorem failLoad_none {s : State} {c : ChanId} (h : s.load.chans[c] = none) : s.failLoad c = s := by
  unfold State.failLoad
  rw [h]

theorem failLoad_some {s : State} {c : ChanId} {l : Load} (h : s.load.chans[c] = some l) :
    s.failLoad c = (s.abortLoad c).raise l.port .loadFailed := by
  unfold State.failLoad
  rw [h]

theorem loadsGone.raised {gone : List ChanId} {s t : State} (h : loadsGone gone s t) (p : Port) (e : Event) :
    loadsGone gone s (t.raise p e) := ⟨h.chans, h.waiting, h.store, h.pages.dirs rfl rfl⟩

theorem failLoad_gone (s : State) (c : ChanId) :
    loadsGone (if (s.load.chans[c]).isSome then [c] else []) s (s.failLoad c) := by
  cases h : s.load.chans[c] with
  | none =>
    rw [failLoad_none h]
    exact loadsGone_nil s
  | some l =>
    rw [failLoad_some h]
    exact (abortLoad_gone h).raised _ _

theorem abortAll_gone (s : State) : loadsGone (allChans.filter fun c => (s.load.chans[c]).isSome) s s.abortAll :=
  loadsGone_foldl (ends := Option.isSome) failLoad_gone nodup_allChans s

theorem failLoad_hears (s : State) (c : ChanId) : s.hears (s.failLoad c) := by
  cases h : s.load.chans[c] with
  | none =>
    rw [failLoad_none h]
    exact s.hears_refl
  | some l =>
    rw [failLoad_some h]
    exact hears_raise (State.hears_of_eq (by simp)) _ _

theorem failLoads_heard {l : Load} (cs : List ChanId) (hcs : cs.Nodup) {s : State} (hu : s.ports[l.port].up = true) {c : ChanId}
    (hc : c ∈ cs) (hl : s.load.chans[c] = some l) :
    (cs.foldl State.failLoad s).ports[l.port].events.getLsbD Event.loadFailed.bit = true := by
  induction cs generalizing s with
  | nil => cases hc
  | cons d cs ih =>
    obtain ⟨hd, hcs⟩ := List.nodup_cons.1 hcs
    rw [List.foldl_cons]
    rcases List.mem_cons.1 hc with rfl | hc
    · refine hears_keeps (hears_foldl _ failLoad_hears cs _ l.port) .loadFailed ?_
      have hup : (s.abortLoad c).ports[l.port].up = true := by rwa [(abortLoad_frame s c).1]
      rw [failLoad_some hl, raise_at, if_pos rfl]
      exact PortRec.take_heard hup _
    · have hne : c ≠ d := fun h => hd (h ▸ hc)
      refine ih hcs ((failLoad_hears s d).up _ ▸ hu) hc ?_
      rw [(failLoad_gone s d).chans, if_neg ?_, hl]
      split <;> simp [hne]

end Sys2Proof.Machine
end

