-- ==== Sys2Proof/Proofs/EndedEdits.lean ====
section
/-! PROOFS. What the end of the edits leaves (R81, R164): a running PATCH stays, and every other edit is cancelled. -/

namespace Sys2Proof.Machine

/-- The edits that have been cancelled have left the queue, the transfer of a running one may be discarded, and nothing
else has changed but pages and replies. -/
structure editsCut (s t : State) : Prop where
  rest : t = { s with dir := t.dir, out := t.out, store := t.store, edit := t.edit }
  asked : t.edit = { s.edit with queue := t.edit.queue }
  store : t.store = { s.store with editWaiting := t.store.editWaiting, running := t.store.running }
  busy : t.store.running = none ↔ s.store.running = none

theorem editsCut_refl (s : State) : editsCut s s := ⟨rfl, rfl, rfl, Iff.rfl⟩

theorem editsCut.trans {s t u : State} (h : editsCut s t) (k : editsCut t u) : editsCut s u := by
  refine ⟨?_, ?_, ?_, k.busy.trans h.busy⟩
  · rw [k.rest, h.rest]
  · rw [k.asked, h.asked]
  · rw [k.store, h.store]

theorem reply_editsCut (s : State) (c : Caller) (st : Status) (b : Body) : editsCut s (s.reply c st b) := by
  rw [reply_eq]
  exact ⟨rfl, rfl, rfl, Iff.rfl⟩

/-- An edit leaves the queue with no request for the next one: it does not run, or it is the last. -/
theorem removeEdit_cut {s : State} {e : Edit} {pre post : List Edit} (hq : s.edit.queue = pre ++ e :: post)
    (hpre : ∀ x ∈ pre, x.port ≠ e.port) (hlast : pre ≠ [] ∨ post = []) :
    editsCut s (s.removeEdit e) ∧ (s.removeEdit e).edit.queue = pre ++ post := by
  obtain ⟨u, hu, honly, -⟩ := removeEdit_effect hq hpre
  have hqueue : u.edit.queue = pre ++ post := by rw [honly]; rfl
  have hsame : s.removeEdit e = u := by
    rw [hu]
    split
    · next hp =>
      have hempty : u.edit.queue = [] := by rw [hqueue, hp, hlast.resolve_left (not_not_intro hp)]; rfl
      exact if_pos hempty
    · rfl
  rw [hsame]
  refine ⟨⟨?_, ?_, ?_, ?_⟩, hqueue⟩
  · rw [honly]
    rfl
  · rw [honly]
    rfl
  · rw [honly]
    unfold State.editRemoved
    dsimp only
    split <;> rfl
  · rw [honly]
    unfold State.editRemoved editDiscarded
    dsimp only
    split
    · exact Option.map_eq_none_iff
    · rfl

/-- An edit is a PATCH. -/
def Edit.isPatch (e : Edit) : Prop := ∃ pg cell x y l w a b ws, e.job = .patch pg cell x y l w a b ws

theorem cancelQueued_kept {s : State} {e : Edit} (h : s.runsPatch e = true) : s.cancelQueued e = s := if_pos h

theorem cancelQueued_cut {s : State} {e : Edit} {pre post : List Edit} (hq : s.edit.queue = pre ++ e :: post)
    (hpre : ∀ x ∈ pre, x.port ≠ e.port) (hlast : pre ≠ [] ∨ post = []) (h : ¬ s.runsPatch e = true) :
    editsCut s (s.cancelQueued e) ∧ (s.cancelQueued e).edit.queue = pre ++ post := by
  obtain ⟨hcut, hqueue⟩ := removeEdit_cut hq hpre hlast
  have heq : s.cancelQueued e = (s.removeEdit e).reply e.caller .cancelled := if_neg h
  rw [heq]
  exact ⟨hcut.trans (reply_editsCut _ _ _ _), by rw [reply_edit, hqueue]⟩

/-- The ports of the edits before one are not its own. -/
theorem ports_before {pre post : List Edit} {e : Edit} (h : ((pre ++ e :: post).map (·.port)).Nodup) :
    ∀ x ∈ pre, x.port ≠ e.port := by
  rw [List.map_append, List.map_cons, List.nodup_append] at h
  exact fun x hx => h.2.2 _ (List.mem_map_of_mem hx) _ List.mem_cons_self

/-- The edits behind others are cancelled from the last one on. -/
theorem cancelBehind (pre l : List Edit) {s : State} (hpre : pre ≠ []) (hq : s.edit.queue = pre ++ l)
    (hnodup : ((pre ++ l).map (·.port)).Nodup) :
    editsCut s (l.reverse.foldl State.cancelQueued s) ∧ (l.reverse.foldl State.cancelQueued s).edit.queue = pre := by
  induction l using List.reverseRecOn generalizing s with
  | nil => exact ⟨editsCut_refl s, hq.trans (List.append_nil pre)⟩
  | append_singleton l e ih =>
    rw [← List.append_assoc] at hq hnodup
    have hbefore := ports_before hnodup
    have hbehind : pre ++ l ≠ [] := fun h => hpre (List.append_eq_nil_iff.1 h).1
    have hno : ¬ s.runsPatch e = true := fun h => hbehind ((runsPatch_iff hq hbefore).1 h).1
    obtain ⟨hcut, hqueue⟩ := cancelQueued_cut hq hbefore (.inl hbehind) hno
    rw [List.append_nil] at hqueue
    rw [List.map_append] at hnodup
    obtain ⟨kcut, kqueue⟩ := ih hqueue (List.nodup_append.1 hnodup).1
    rw [List.reverse_append, List.reverse_singleton, List.singleton_append, List.foldl_cons]
    exact ⟨hcut.trans kcut, kqueue⟩

/-- Of the whole queue, a running PATCH alone stays. -/
theorem cancelAll_cut {s : State} (hok : s.editsOk) : let t := s.edit.queue.reverse.foldl State.cancelQueued s
    editsCut s t ∧ ∀ e, e ∈ t.edit.queue ↔ s.edit.queue.head? = some e ∧ e.isPatch := by
  intro t
  have ht : t = s.edit.queue.reverse.foldl State.cancelQueued s := rfl
  clear_value t
  cases hq : s.edit.queue with
  | nil =>
    rw [hq] at ht
    rw [ht]
    exact ⟨editsCut_refl s, fun e => by simp [hq]⟩
  | cons h rest =>
    have hnodup : (([h] ++ rest).map (·.port)).Nodup := by
      unfold State.editsOk at hok
      rwa [hq] at hok
    obtain ⟨hcut, hqueue⟩ := cancelBehind [h] rest (List.cons_ne_nil h []) hq hnodup
    rw [hq, List.reverse_cons, List.foldl_append, List.foldl_cons, List.foldl_nil] at ht
    generalize rest.reverse.foldl State.cancelQueued s = u at hcut hqueue ht
    have hhead : u.edit.queue = [] ++ h :: [] := hqueue
    have hruns := runsPatch_iff hhead fun x hx => absurd hx List.not_mem_nil
    by_cases hp : u.runsPatch h = true
    · rw [cancelQueued_kept hp] at ht
      subst ht
      refine ⟨hcut, fun e => ?_⟩
      rw [hqueue, List.mem_singleton, List.head?_cons, Option.some_inj]
      exact ⟨fun he => ⟨he.symm, he ▸ (hruns.1 hp).2⟩, fun he => he.1.symm⟩
    · obtain ⟨kcut, kqueue⟩ := cancelQueued_cut hhead (fun x hx => absurd hx List.not_mem_nil) (.inr rfl) hp
      subst ht
      refine ⟨hcut.trans kcut, fun e => ?_⟩
      rw [kqueue, List.head?_cons, Option.some_inj]
      refine ⟨fun he => absurd he List.not_mem_nil, fun he => absurd (hruns.2 ⟨rfl, ?_⟩) hp⟩
      exact he.1 ▸ he.2

/-! ### The end of the edits is reported (R81, R164) -/

theorem reportEditsEnded_early {s : State} (h : s.edit.endAsked = false ∨ s.edit.queue ≠ []) : s.reportEditsEnded = s := by
  unfold State.reportEditsEnded
  refine if_neg fun ⟨ha, hq⟩ => h.elim (fun h => ?_) fun h => h hq
  rw [h] at ha
  cases ha

theorem reportEditsEnded_last {s : State} {e : Bool} (ha : s.edit.endAsked = true) (hq : s.edit.queue = [])
    (hw : s.scene.waitEnds = some { loads := true, edits := e }) : s.reportEditsEnded = State.entryRequest { s with
      edit := { s.edit with endAsked := false }, scene := { s.scene with waitEnds := none } } := by
  unfold State.reportEditsEnded
  rw [if_pos ⟨ha, hq⟩]
  unfold State.takeEnds
  rw [modEdit_scene, hw]
  rfl

theorem entryRequest_awake {s : State} (h : s.store.power = .awake) : s.entryRequest.store.power =
    if s.store.running = none ∧ s.store.debt ≤ 0 ∧ s.store.refreshed = true then .selfRefresh else .entering := by
  unfold State.entryRequest
  rw [h]
  dsimp only
  simp only [modStore_store, Option.isNone_iff_eq_none]
  split <;> rfl

theorem entryRequest_toUnit (s : State) : s.entryRequest.mail.toUnit = s.mail.toUnit := by
  unfold State.entryRequest
  split
  · dsimp only
    split <;> rfl
  all_goals rfl

/-- What the end of the edits leaves: the ports, the loads, the scenes and the orders, and of the queue a running PATCH; the
entry request goes to the store once the queue is empty. -/
structure editsEnded (s t : State) : Prop where
  ports : t.ports = s.ports
  load : t.load = s.load
  loadWaiting : t.store.loadWaiting = s.store.loadWaiting
  scene : t.scene = { s.scene with waitEnds := t.scene.waitEnds }
  orders : t.mail.toUnit = s.mail.toUnit
  queue : ∀ e, e ∈ t.edit.queue ↔ s.edit.queue.head? = some e ∧ e.isPatch
  last : t.edit.queue = [] → t.edit.endAsked = false ∧ t.scene.waitEnds = none ∧ (s.store.power = .awake → t.store.power =
    if s.store.running = none ∧ s.store.debt ≤ 0 ∧ s.store.refreshed = true then .selfRefresh else .entering)
  early : t.edit.queue ≠ [] → t.edit.endAsked = true ∧ t.scene.waitEnds = s.scene.waitEnds ∧ t.store.power = s.store.power

theorem endEdits_ended {s : State} (hok : s.editsOk) (hw : s.scene.waitEnds = some { loads := true, edits := false }) :
    editsEnded s s.endEdits := by
  obtain ⟨hcut, hqueue⟩ := cancelAll_cut (s := s.modEdit fun u => { u with endAsked := true }) hok
  change editsCut _ (s.edit.queue.reverse.foldl State.cancelQueued _) at hcut
  change ∀ e, e ∈ (s.edit.queue.reverse.foldl State.cancelQueued _).edit.queue ↔ _ at hqueue
  rw [endEdits_eq]
  generalize s.edit.queue.reverse.foldl State.cancelQueued _ = t at hcut hqueue ⊢
  have hasked : t.edit.endAsked = true := by rw [hcut.asked]; rfl
  have hscene : t.scene = s.scene := by rw [hcut.rest]; rfl
  have hpower : t.store.power = s.store.power := by rw [hcut.store]; rfl
  by_cases hq : t.edit.queue = []
  · have hlast := reportEditsEnded_last hasked hq (hscene ▸ hw)
    have hrest := entryRequest_frame { t with
      edit := { t.edit with endAsked := false }, scene := { t.scene with waitEnds := none } }
    have hstore := entryRequest_store { t with
      edit := { t.edit with endAsked := false }, scene := { t.scene with waitEnds := none } }
    have horders := entryRequest_toUnit { t with
      edit := { t.edit with endAsked := false }, scene := { t.scene with waitEnds := none } }
    have hawake := entryRequest_awake (s := { t with
      edit := { t.edit with endAsked := false }, scene := { t.scene with waitEnds := none } })
    rw [← hlast] at hrest hstore horders hawake
    generalize t.reportEditsEnded = u at *
    obtain ⟨hports, -, hload, hedit, huscene, -⟩ := hrest
    refine ⟨hports.trans (by rw [hcut.rest]; rfl), hload.trans (by rw [hcut.rest]; rfl), ?_, ?_, horders.trans
      (by rw [hcut.rest]; rfl), fun e => ?_, fun _ => ⟨by rw [hedit], by rw [huscene], fun ha => ?_⟩, fun hne => absurd ?_ hne⟩
    · rw [hstore, hcut.store]
      rfl
    · rw [huscene, hscene]
    · rw [hedit]
      exact hqueue e
    · have hdebt : t.store.debt = s.store.debt ∧ t.store.refreshed = s.store.refreshed := by
        rw [hcut.store]
        exact ⟨rfl, rfl⟩
      have hpow := hawake (hpower.trans ha)
      dsimp only at hpow
      rw [hdebt.1, hdebt.2] at hpow
      rw [hpow]
      exact if_congr (and_congr_left' hcut.busy) rfl rfl
    · rw [hedit]
      exact hq
  · rw [reportEditsEnded_early (.inr hq)]
    refine ⟨by rw [hcut.rest]; rfl, by rw [hcut.rest]; rfl, ?_, hscene.trans (by rw [hscene]), by rw [hcut.rest]; rfl, hqueue,
      fun h => absurd h hq, fun _ => ⟨hasked, by rw [hscene], hpower⟩⟩
    rw [hcut.store]
    rfl

end Sys2Proof.Machine
end

