-- ==== Sys2Proof/Proofs/DueChanges.lean ====
section
/-! PROOFS. DARKEN and WAKE that are due at a boundary (R162 to R164, R167). -/

namespace Sys2Proof.Machine

/-! ### Dark entry up to the end of the edits (R163) -/

/-- The window is DARKENING, no change is pending, and nothing else has happened. -/
def State.darkened (s : State) : State := (s.modScene fun e => { e with change := none }).setWindow .darkening

theorem wound_eq (s : State) : s.wound = ((allZones.foldl State.windBack s.darkened).modBackground fun _ => .initial).abortAll :=
  rfl

theorem setWindow_heard (s : State) (w : WindowState) {p : Port} (hu : s.ports[p].up = true) :
    (s.setWindow w).ports[p].events.getLsbD Event.windowChange.bit = true := by
  have htake : (s.setWindow w).ports[p] = s.ports[p].take .windowChange := by
    unfold State.setWindow
    rw [raiseAll_ports]
    exact Vector.getElem_map ..
  rw [htake]
  exact PortRec.take_heard hu _

/-- What has ended once the zones are wound back and the loads aborted. -/
structure isWound (s t : State) : Prop where
  scene : t.scene = { s.scene with
    window := .darkening, change := none, background := .initial, zones := t.scene.zones, gates := t.scene.gates }
  zone : ∀ z, t.zone z = woundBack (s.zone z) s.scene.frame
  gate : ∀ g, t.gate g = if ∃ z, g ∈ (s.zone z).frees then (s.gate g).map fun e => { e with use := .defined } else s.gate g
  chans : ∀ c : ChanId, t.load.chans[c] = none
  waiting : ∀ c : ChanId, t.store.loadWaiting.getLsbD c.val =
    (s.store.loadWaiting.getLsbD c.val && decide (s.load.chans[c] = none))
  store : t.store = { s.store with loadWaiting := t.store.loadWaiting, running := t.store.running }
  busy : t.store.running = none ↔ s.store.running = none
  edit : t.edit = s.edit
  mail : t.mail = s.mail
  window : ∀ p : Port, s.ports[p].up = true → t.ports[p].events.getLsbD Event.windowChange.bit = true
  told : ∀ (z : ZoneId) (p : Port) (e : Event), s.ports[p].up = true → (p, e) ∈ (s.zone z).backEvents →
    t.ports[p].events.getLsbD e.bit = true
  failed : ∀ (c : ChanId) (l : Load), s.load.chans[c] = some l → s.ports[l.port].up = true →
    t.ports[l.port].events.getLsbD Event.loadFailed.bit = true

theorem wound_isWound (s : State) : isWound s s.wound := by
  have hturned := windBacks_turned allZones s.darkened
  have hzone := windBacks_zone s.darkened
  have hgate := fun g => windBackEach_gate g allZones nodup_allZones s.darkened
  have hhears := hears_foldl _ windBack_hears allZones s.darkened
  have htold := fun (p : Port) (e : Event) => windBackEach_heard (p := p) (e := e) allZones nodup_allZones (s := s.darkened)
  rw [wound_eq]
  generalize allZones.foldl State.windBack s.darkened = t at *
  have hup : ∀ p : Port, s.ports[p].up = true → s.darkened.ports[p].up = true := fun p h =>
    ((setWindow_hears (s.modScene fun e => { e with change := none }) .darkening).up p).trans h
  have hload : t.load = s.load := by rw [hturned.rest]; rfl
  have hstore : t.store = s.store := by rw [hturned.rest]; rfl
  have hgone := abortAll_gone (t.modBackground fun _ => .initial)
  have hrest := abortAll_frame (t.modBackground fun _ => .initial)
  have hfailed := fun (c : ChanId) (l : Load) (hu : t.ports[l.port].up = true) (hl : t.load.chans[c] = some l) =>
    failLoads_heard allChans nodup_allChans (s := t.modBackground fun _ => .initial) hu (mem_allChans c) hl
  have hears : t.hears (t.modBackground fun _ => .initial).abortAll := abortAll_hears (t.modBackground fun _ => .initial)
  rw [← abortAll_eq] at hfailed
  generalize (t.modBackground fun _ => .initial).abortAll = u at *
  obtain ⟨hedit, hscene, -, hmail, -⟩ := hrest
  have hscene' : u.scene = { t.scene with background := .initial } := hscene
  have hzones : ∀ z, u.zone z = t.zone z := fun z => (congrArg (fun e : SceneEngine => e.zones[z]) hscene').trans rfl
  have hgates : ∀ g, u.gate g = t.gate g := fun g => (congrArg (fun e : SceneEngine => e.gates[g]) hscene').trans rfl
  have hmem : ∀ c : ChanId, c ∈ (allChans.filter fun c => ((t.modBackground fun _ => .initial).load.chans[c]).isSome) ↔
      s.load.chans[c] ≠ none := fun c => by
    rw [List.mem_filter, Option.isSome_iff_ne_none]
    exact (and_iff_right (mem_allChans c)).trans (by rw [show (t.modBackground fun _ => .initial).load = s.load from hload])
  refine ⟨?_, fun z => (hzones z).trans (hzone z), fun g => (hgates g).trans ?_, fun c => ?_, fun c => ?_, ?_, ?_, ?_, ?_,
    fun p hu => ?_, fun z p e hu he => ?_, fun c l hl hu => ?_⟩
  · rw [hscene', hturned.scene]
    rfl
  · rw [hgate]
    exact if_congr (exists_congr fun z => and_iff_right (mem_allZones z)) rfl rfl
  · rw [hgone.chans]
    split
    · rfl
    · next h => exact (congrArg (fun x => x.chans[c]) hload).trans (not_not.1 fun hn => h ((hmem c).2 hn))
  · rw [hgone.waiting]
    refine congrArg₂ (· && ·) (congrArg (fun x => x.loadWaiting.getLsbD c.val) hstore) ?_
    exact decide_eq_decide.2 ((not_congr (hmem c)).trans not_not)
  · rw [hgone.store, show (t.modBackground fun _ => .initial).store = s.store from hstore]
  · rw [hgone.store, show (t.modBackground fun _ => .initial).store = s.store from hstore]
    exact Option.map_eq_none_iff
  · rw [hedit, show (t.modBackground fun _ => .initial).edit = t.edit from rfl, hturned.rest]
    rfl
  · rw [hmail, show (t.modBackground fun _ => .initial).mail = t.mail from rfl, hturned.rest]
    rfl
  · exact hears_keeps ((hhears.trans hears) p) _ (setWindow_heard (s.modScene fun e => { e with change := none }) .darkening hu)
  · exact hears_keeps (hears p) e (htold p e (hup p hu) (mem_allZones z) he)
  · exact hfailed c l ((hhears.up l.port).trans (hup _ hu)) (hload ▸ hl)

/-! ### Dark entry as a whole (R163, R164) -/

theorem ordersEach_at (m : UnitMsg) {ts : List Tile} (hts : ts.Nodup) (s : State) {i : Tile} (hi : i ∈ ts) :
    (ts.foldl (fun s t => s.toUnit t m) s).mail.toUnit[i] = s.mail.toUnit[i] ++ [m] :=
  foldl_at (f := fun (s : State) t => s.toUnit t m) (inv := fun _ => True) (fun _ _ _ => trivial)
    (π := fun (t : State) i => t.mail.toUnit[i]) (g := fun _ l => l ++ [m])
    (fun s i _ => (toUnit_at s i i _).trans (if_pos rfl)) (fun s i j _ h => (toUnit_at s i j _).trans (if_neg h)) hts trivial hi

/-- What dark entry leaves, before the zones settle their due cuts. -/
structure isDarkened (s t : State) : Prop where
  scene : t.scene = { s.scene with
    window := .darkening, change := none, background := .initial, zones := t.scene.zones, gates := t.scene.gates
    waitEnds := t.scene.waitEnds }
  zone : ∀ z, t.zone z = woundBack (s.zone z) s.scene.frame
  gate : ∀ g, t.gate g = if ∃ z, g ∈ (s.zone z).frees then (s.gate g).map fun e => { e with use := .defined } else s.gate g
  chans : ∀ c : ChanId, t.load.chans[c] = none
  waiting : ∀ c : ChanId, t.store.loadWaiting.getLsbD c.val =
    (s.store.loadWaiting.getLsbD c.val && decide (s.load.chans[c] = none))
  window : ∀ p : Port, s.ports[p].up = true → t.ports[p].events.getLsbD Event.windowChange.bit = true
  told : ∀ (z : ZoneId) (p : Port) (e : Event), s.ports[p].up = true → (p, e) ∈ (s.zone z).backEvents →
    t.ports[p].events.getLsbD e.bit = true
  failed : ∀ (c : ChanId) (l : Load), s.load.chans[c] = some l → s.ports[l.port].up = true →
    t.ports[l.port].events.getLsbD Event.loadFailed.bit = true
  orders : ∀ i : Tile, t.mail.toUnit[i] = s.mail.toUnit[i] ++ [.powerOff]
  queue : ∀ e, e ∈ t.edit.queue ↔ s.edit.queue.head? = some e ∧ e.isPatch
  last : t.edit.queue = [] → t.edit.endAsked = false ∧ t.scene.waitEnds = none ∧ (s.store.power = .awake → t.store.power =
    if s.store.running = none ∧ s.store.debt ≤ 0 ∧ s.store.refreshed = true then .selfRefresh else .entering)
  early : t.edit.queue ≠ [] → t.edit.endAsked = true ∧ t.scene.waitEnds = some { loads := true, edits := false } ∧
    t.store.power = s.store.power

theorem isWound.darkened {s t u v : State} (h : isWound s t)
    (hu : u = t.modScene fun e => { e with waitEnds := some { loads := true, edits := false } }) (k : editsEnded u v)
    {w : State} (hw : onlyToUnit v w) (horders : ∀ i : Tile, w.mail.toUnit[i] = v.mail.toUnit[i] ++ [.powerOff]) :
    isDarkened s w := by
  have huscene : u.scene = { t.scene with waitEnds := some { loads := true, edits := false } } := by rw [hu]; rfl
  have hustore : u.store = t.store := by rw [hu]; rfl
  have huedit : u.edit = t.edit := by rw [hu]; rfl
  have huports : u.ports = t.ports := by rw [hu]; rfl
  have hports : w.ports = t.ports := by rw [hw, ← huports, ← k.ports]
  have hscene : w.scene = { t.scene with waitEnds := v.scene.waitEnds } := by rw [hw.scene, k.scene, huscene]
  have hedit : w.edit = v.edit := by rw [hw]
  have hstore : w.store = v.store := by rw [hw]
  refine ⟨?_, fun z => ?_, fun g => ?_, fun c => ?_, fun c => ?_, fun p hp => ?_, fun z p e hp he => ?_,
    fun c l hl hp => ?_, fun i => ?_, fun e => ?_, fun hq => ?_, fun hq => ?_⟩
  · rw [hscene, h.scene]
  · exact ((congrArg (fun e : SceneEngine => e.zones[z]) hscene).trans rfl).trans (h.zone z)
  · exact ((congrArg (fun e : SceneEngine => e.gates[g]) hscene).trans rfl).trans (h.gate g)
  · rw [hw]
    show v.load.chans[c] = none
    rw [k.load, hu]
    exact h.chans c
  · rw [hstore, k.loadWaiting, hustore]
    exact h.waiting c
  · rw [hports]
    exact h.window p hp
  · rw [hports]
    exact h.told z p e hp he
  · rw [hports]
    exact h.failed c l hl hp
  · rw [horders, k.orders, hu]
    exact congrArg (fun m : Mail => m.toUnit[i] ++ [.powerOff]) h.mail
  · rw [hedit, k.queue, huedit, h.edit]
  · rw [hedit] at hq ⊢
    obtain ⟨hasked, hends, hpower⟩ := k.last hq
    refine ⟨hasked, by rw [hscene]; exact hends, fun ha => ?_⟩
    rw [hustore] at hpower
    have hsame : t.store.power = s.store.power ∧ t.store.debt = s.store.debt ∧ t.store.refreshed = s.store.refreshed := by
      rw [h.store]
      exact ⟨rfl, rfl, rfl⟩
    rw [hstore, hpower (hsame.1.trans ha), hsame.2.1, hsame.2.2]
    exact if_congr (and_congr_left' h.busy) rfl rfl
  · rw [hedit] at hq ⊢
    obtain ⟨hasked, hends, hpower⟩ := k.early hq
    refine ⟨hasked, ?_, ?_⟩
    · rw [hscene]
      exact hends.trans (by rw [huscene])
    · rw [hstore, hpower, hustore, h.store]

theorem darkEntry_isDarkened {s : State} (hok : s.editsOk) : isDarkened s s.darkEntry := by
  have h := wound_isWound s
  rw [darkEntry_unwound]
  unfold State.unwound
  generalize s.wound = t at h ⊢
  generalize hu : (t.modScene fun e => { e with waitEnds := some { loads := true, edits := false } }) = u
  have huok : u.editsOk := by
    unfold State.editsOk
    rw [← hu, show (t.modScene fun e => { e with waitEnds := some { loads := true, edits := false } }).edit = s.edit from h.edit]
    exact hok
  have hended := endEdits_ended huok (by rw [← hu]; rfl)
  generalize u.endEdits = v at hended ⊢
  exact h.darkened hu.symm hended (toUnits_only _ v) fun i => ordersEach_at _ nodup_allTiles v (mem_allTiles i)

/-! ### The boundary outside LIT that follows -/

/-- What a boundary outside LIT leaves, but for the zones and what is raised. -/
structure isSettled (s t : State) : Prop where
  scene : t.scene = { s.scene with
    zones := t.scene.zones, gates := t.scene.gates, background := { s.scene.background with fetch := none } }
  rest : t = { s with scene := t.scene, dir := t.dir, ports := t.ports }
  hears : s.hears t
  zone : ∀ z, t.zone z = (s.zone z).dark s.scene.frame
  gate : ∀ g, t.gate g = s.gate g

theorem frameDark_isSettled (s : State) : isSettled s s.frameDark := by
  have hturned := zonesDark_turned s
  have hzone := zonesDark_zone s
  have hgate := zonesDark_gate s
  have hhears := hears_foldl _ zoneDark_hears allZones s
  unfold State.frameDark
  generalize allZones.foldl State.zoneDark s = t at *
  refine ⟨?_, ?_, hears_then hhears rfl, hzone, hgate⟩
  · show { t.scene with background := { t.scene.background with fetch := none } } = _
    rw [hturned.scene]
    rfl
  · conv_lhs => rw [hturned.rest]
    rfl

theorem Zone.skipped_rest (n : Nat) (cs : List Cut) (zn : Zone) :
    zn.skipped n cs = { zn with cuts := (zn.skipped n cs).cuts, log := (zn.skipped n cs).log } := by
  unfold Zone.skipped
  induction cs generalizing zn with
  | nil => rfl
  | cons c cs ih => exact (ih (zn.lost .skipped n [c])).trans rfl

/-- A boundary outside LIT leaves a zone without contexts saved but for its queue, its log, its fetch and its playlist. -/
theorem Zone.dark_rest {zn : Zone} (n : Nat) (h : zn.stack = []) : zn.dark n = { zn with
    fetch := none, delivered := 0, cuts := (zn.dark n).cuts, log := (zn.dark n).log, current := (zn.dark n).current } := by
  unfold Zone.dark
  dsimp only
  split
  · rfl
  have hskip : ∃ cs l, Zone.skipped { zn with fetch := none, delivered := 0 } n (zn.due n).dropLast =
      { zn with fetch := none, delivered := 0, cuts := cs, log := l } := ⟨_, _, Zone.skipped_rest ..⟩
  obtain ⟨cs, l, hskip⟩ := hskip
  rw [hskip]
  split
  · rfl
  · unfold Zone.tookUnseen Zone.unseen
    dsimp only
    rw [h]

/-- A change that is due is there with its frame. -/
theorem changeDue_of {s : State} {k : ChangeKind} {f : Option Nat} {n : Nat} (hc : s.scene.change = some (k, f))
    (hf : dueAt f n) : s.changeDue k n = true := by
  unfold State.changeDue
  rw [hc, Option.any_some, decide_eq_true rfl, Bool.true_and, Option.all_eq_true]
  exact fun m hm => decide_eq_true (hf m hm)

/-- The state after a boundary with a change that is due: the latched cells are announced. -/
def State.announced (s : State) : State := s.modMail fun w => { w with toLoad := w.toLoad ++ [s.allLatched] }

theorem frameBoundary_darkens {s : State} (ht : s.scene.timer = true) (hw : s.window = .lit)
    (hd : s.changeDue .darken (nextFrame s) = true) : frameBoundary s = s.frameBegun.darkEntry.frameDark.announced := by
  have hchange : s.frameBegun.takeChange = s.frameBegun.darkEntry := takeChange_darkens hw hd
  have hb : s.boundary = s.frameBegun.darkEntry.frameDark := by
    rw [← hchange]
    refine boundary_dark ?_
    rw [hchange, darkEntry_window]
    decide
  rw [frameBoundary_eq ht, hb]
  rfl

theorem frameBoundary_wakes {s : State} (ht : s.scene.timer = true) (hw : s.window = .dark)
    (hd : s.changeDue .wake (nextFrame s) = true) : frameBoundary s = s.frameBegun.wakeEntry.frameDark.announced := by
  have hchange : s.frameBegun.takeChange = s.frameBegun.wakeEntry := takeChange_wakes hw hd
  have hb : s.boundary = s.frameBegun.wakeEntry.frameDark := by
    rw [← hchange]
    refine boundary_dark ?_
    rw [hchange, wakeEntry_window]
    decide
  rw [frameBoundary_eq ht, hb]
  rfl

theorem ended_told {zn : Zone} {g : GateId} {p : Port} (h : gateEnds zn g p) : (p, .gateEnded) ∈ zn.backEvents :=
  List.mem_append_left _ (List.mem_map_of_mem (f := fun y : GateId × Port => (y.2, Event.gateEnded)) ((mem_endings zn g p).2 h))

theorem abandoned_told {zn : Zone} {g : GateId} {p : Port} (h : gateAbandons zn g p) : (p, .gateAbandoned) ∈ zn.backEvents :=
  List.mem_append_right _
    (List.mem_map_of_mem (f := fun y : GateId × Port => (y.2, Event.gateAbandoned)) ((mem_abandons zn g p).2 h))

/-- An exit request concerns the power of the frame store alone (R34). -/
theorem exitRequest_store (s : State) : s.exitRequest.store =
    { s.store with power := if s.store.power = .selfRefresh then .exiting else s.store.power } := by
  unfold State.exitRequest
  split
  · next h =>
    rw [if_pos h]
    rfl
  all_goals
    next h =>
      have hno : ¬ s.store.power = .selfRefresh := by
        rw [h]
        decide
      rw [if_neg hno]

/-- Settles O46: dark entry and the boundary that follows, the wake, and the end report of the edits. -/
theorem dueWindowChangesDarkenAndWake : Obligations.DueWindowChangesDarkenAndWake := by
  refine ⟨fun f s ht hok hf => ⟨fun hw hc => ?darken, fun hw hc => ?wake⟩, fun e s =>
    ⟨reportEditsEnded_early, fun ha hq hends => reportEditsEnded_last ha hq hends⟩⟩
  case darken =>
    have hdark := darkEntry_isDarkened (s := s.frameBegun) hok
    have hexec := frameBoundary_darkens ht hw (changeDue_of hc hf)
    have hsettled := frameDark_isSettled s.frameBegun.darkEntry
    generalize s.frameBegun.darkEntry = a at *
    generalize a.frameDark = b at *
    have hframe : a.scene.frame = nextFrame s := by rw [hdark.scene]; rfl
    have hzone : ∀ z, b.zone z = (woundBack (s.zone z) (nextFrame s)).dark (nextFrame s) := fun z => by
      rw [hsettled.zone, hframe, hdark.zone]
      rfl
    have hgate : ∀ g, b.gate g = _ := fun g => (hsettled.gate g).trans (hdark.gate g)
    have hload : b.load = a.load := by rw [hsettled.rest]
    have hstore : b.store = a.store := by rw [hsettled.rest]
    have hedit : b.edit = a.edit := by rw [hsettled.rest]
    have hmail : b.mail = a.mail := by rw [hsettled.rest]
    have hends : b.scene.waitEnds = a.scene.waitEnds := by rw [hsettled.scene]
    have hkept := fun (p : Port) (e : Event) (h : a.ports[p].events.getLsbD e.bit = true) => hears_keeps (hsettled.hears p) e h
    have hfrees : ∀ g, (∃ z, g ∈ (s.zone z).frees) ↔ ∃ z p, gateEnds (s.zone z) g p ∨ gateAbandons (s.zone z) g p := fun g =>
      exists_congr fun z => mem_frees (s.zone z) g
    refine ⟨b.announced, congrArg Host.Outcome.next hexec, ?_, ?_, fun c => ⟨?_, ?_⟩, fun z => ?_, fun z => ?_,
      fun g => ⟨fun h => ?_, fun h => ?_⟩, fun z g p hu => ⟨fun h => ?_, fun h => ?_⟩, fun c l hl hu => ?_, fun p hu => ?_, ?_,
      fun e => ?_, fun i => ?_, fun hq => ?_, fun hq => ?_⟩
    · exact (congrArg (·.window) (hsettled.scene.trans rfl)).trans (congrArg (·.window) hdark.scene)
    · exact (congrArg (·.change) (hsettled.scene.trans rfl)).trans (congrArg (·.change) hdark.scene)
    · exact (congrArg (fun x : LoadEngine => x.chans[c]) hload).trans (hdark.chans c)
    · exact (congrArg (fun x : Store => x.loadWaiting.getLsbD c.val) hstore).trans (hdark.waiting c)
    · have hdarkened := hzone z
      rw [Zone.dark_rest (nextFrame s) rfl] at hdarkened
      rw [show b.announced.zone z = b.zone z from rfl, hdarkened]
      exact ⟨rfl, rfl, rfl, rfl, rfl, rfl, rfl⟩
    · refine (hzone z).trans ((zoneDark_turns { s with scene := { s.scene with
        frame := nextFrame s
        zones := upd s.scene.zones z fun zn => woundBack zn (nextFrame s) } } z).choose_spec.zone.trans ?_).symm
      exact congrArg (fun zn : Zone => zn.dark (nextFrame s)) (upd_same s.scene.zones z _)
    · exact (hgate g).trans (if_pos ((hfrees g).2 h))
    · exact (hgate g).trans (if_neg fun k => h ((hfrees g).1 k))
    · exact hkept p .gateEnded (hdark.told z p .gateEnded hu (ended_told h))
    · exact hkept p .gateAbandoned (hdark.told z p .gateAbandoned hu (abandoned_told h))
    · exact hkept l.port .loadFailed (hdark.failed c l hl hu)
    · exact hkept p .windowChange (hdark.window p hu)
    · exact (congrArg (·.background) (hsettled.scene.trans rfl)).trans
        (congrArg (fun x : SceneEngine => { x.background with fetch := none }) hdark.scene)
    · show e ∈ b.edit.queue ↔ _
      rw [hedit]
      exact hdark.queue e
    · exact (congrArg (fun m : Mail => m.toUnit[i]) hmail).trans (hdark.orders i)
    · have hlast := hdark.last (by rw [← hedit]; exact hq)
      rw [← hedit, ← hends, ← hstore] at hlast
      exact hlast
    · have hearly := hdark.early (by rw [← hedit]; exact hq)
      rw [← hedit, ← hends, ← hstore] at hearly
      exact hearly
  case wake =>
    have hexec := frameBoundary_wakes ht hw (changeDue_of hc hf)
    have hsettled := frameDark_isSettled s.frameBegun.wakeEntry
    have hscene : s.frameBegun.wakeEntry.scene = { s.frameBegun.scene with window := .waking, change := none } := by
      unfold State.wakeEntry
      rw [(exitRequest_frame _).2.2.2.2.1]
      rfl
    have hrest := exitRequest_frame ((s.frameBegun.modScene fun e => { e with change := none }).setWindow .waking)
    have hstore : s.frameBegun.wakeEntry.store = { s.store with
        power := if s.store.power = .selfRefresh then .exiting else s.store.power } := exitRequest_store _
    obtain ⟨-, -, hload, hedit, -, -, hmail, -⟩ := hrest
    change s.frameBegun.wakeEntry.load = s.load at hload
    change s.frameBegun.wakeEntry.edit = s.edit at hedit
    change s.frameBegun.wakeEntry.mail = s.mail at hmail
    generalize s.frameBegun.wakeEntry = a at *
    generalize a.frameDark = b at *
    refine ⟨b.announced, congrArg Host.Outcome.next hexec, ?_, ?_, ?_, fun i => ?_, ?_, ?_⟩
    · exact (congrArg (·.window) (hsettled.scene.trans rfl)).trans (congrArg (·.window) hscene)
    · exact (congrArg (·.change) (hsettled.scene.trans rfl)).trans (congrArg (·.change) hscene)
    · exact (show b.store = a.store by rw [hsettled.rest]).trans hstore
    · have hsame : b.mail = s.mail := (show b.mail = a.mail by rw [hsettled.rest]).trans hmail
      show b.mail.toUnit[i] = s.mail.toUnit[i]
      rw [hsame]
    · exact (show b.load = a.load by rw [hsettled.rest]).trans hload
    · exact (show b.edit = a.edit by rw [hsettled.rest]).trans hedit

end Sys2Proof.Machine
end
